-- ==== Sys2Proof/Word.lean ====
section
/-! DEFINITION. The widths that the whole model shares: a byte, a 32-bit register or logit word, and a 128-bit
Tyzia command word (R10, R13, R166). -/

namespace Sys2Proof

/-- One byte of a granule, a message or a row. -/
abbrev Byte := BitVec 8

/-- One 32-bit word: a register of the H-port window (R13), an accumulator (R98), a count (R267). -/
abbrev Word := BitVec 32

/-- One Tyzia command word (R166). -/
abbrev Cmd := BitVec 128

/-- A sparse table: key and value pairs with keys strictly rising; a key that is not listed holds the table's
default (see Machine/Tab.lean for reading and writing). -/
abbrev Tab (α : Type) := List (Nat × α)

end Sys2Proof
end

