-- ==== Sys2Proof/Syntax.lean ====
section
/-! DEFINITION. The commands of the block, one constructor per row of the operation table, with the operands that the
row's rule names, the message fields of the port tables, and the physical inputs that reach the block from outside. -/

namespace Sys2Proof

/-- Who makes a register access: the firmware, or a host source number behind the H-port (R363, R365). -/
inductive Requester where
  | firmware
  | host (hsrc : Fin 16)
deriving DecidableEq, Repr

/-- One access to the register window (R13, R365): its byte offset, its width in bytes, and the word of a write. -/
structure Access where
  req   : Requester
  addr  : Nat
  width : Nat
  write : Bool
  value : Word
deriving DecidableEq, Repr

/-- The five engines of a core, in the order of Table 1-2 (codes 0 to 4 of R170). -/
inductive Engine where
  | mx | vx | tx | dx | sx
deriving DecidableEq, Repr

/-- A run of ACLK cycles at one of the five clock steps of Table 2-2 (R47). -/
structure CycleRun where
  step   : Fin 5
  cycles : Nat
deriving DecidableEq, Repr

/-- The blocks that have a COMMIT field (R391). -/
inductive Block where
  | grain | tile | mx | num | vx | prog | sp | stu | mp | np | lp | hp | hm | dbg | pwr
deriving DecidableEq, Repr

/-- A physical upset met by a read of data: the place and whether SECDED corrected it (R72, R228). -/
structure Upset where
  /-- Tile register number for a tile read, 32 for the scratchpad. -/
  unit : Nat
  /-- Row slot of the register, or granule index of the partition. -/
  row  : Nat
  /-- The upper half-row of a tile row. -/
  upper : Bool := false
  corrected : Bool
deriving DecidableEq, Repr

/-- A hardware fault in one column sum of a pass: array, beat, segment, logical column, and what it adds (R105). -/
structure ColFault where
  arr  : Nat
  beat : Nat
  seg  : Nat
  col  : Nat
  add  : Int
deriving DecidableEq, Repr

/-- A same-cycle meeting of an SH write with a WR write of a DRAIN (Table 3-4): the row slot and the DRAIN's tag. -/
structure Meet where
  treg : Nat
  row  : Nat
  wrTag : BitVec 16
deriving DecidableEq, Repr

/-- The physical inputs of an engine command: what its rule takes from cycles and from the silicon. -/
structure Phys where
  /-- Cycle within the grain (trace byte 6, R416). -/
  cyc      : Nat := 0
  /-- SH cycles lost under R62. -/
  shLoss   : Nat := 0
  /-- Bank-conflict cycles (R225). -/
  bankLoss : Nat := 0
  upsets   : List Upset := []
  faults   : List ColFault := []
  meets    : List Meet := []
deriving DecidableEq, Repr

/-- One 64-byte granule of a port message with its 32-bit check and its check-valid bit (R314). -/
structure Gran where
  data : List Byte
  chk  : Word
  ckv  : Bool
deriving DecidableEq, Repr

/-- STATUS of an RDATA (Table 13-2). -/
inductive RdStatus where
  | ok | error | xmiss
deriving DecidableEq, Repr

/-- The far sender of L-port data: its package and cluster, and the INC of its L-port (R340, R349). -/
structure LSrc where
  pkg  : Fin 4096
  inst : Fin 16
  inc  : BitVec 8
deriving DecidableEq, Repr

/-- A frame of the N-port (Table 13-7): the header fields that a receiver acts on, the body, and whether the frame's
CRC-32C over header and body holds (R327). -/
structure NFrame where
  dinst  : Fin 16
  dcore  : Fin 32
  sinst  : Fin 16
  score  : Fin 32
  mark   : BitVec 8
  inc    : BitVec 8
  seq    : BitVec 8
  credit : BitVec 6
  tag    : BitVec 16
  offset : BitVec 16
  /-- Granules of a WR frame, 64 bytes each. -/
  grans  : List (List Byte)
  /-- The 16-byte body of any other frame. -/
  body   : List Byte
  /-- Context of the writing parcel, which the aperture checks (R247). -/
  sctx   : Fin 8
  crcOk  : Bool
  /-- The far sender, in a packet that the L-port brought into the package or in the refusal of one (R349; assumption log
  47). -/
  lsrc   : Option LSrc := none
deriving DecidableEq, Repr

/-- A slot frame of the L-port (Table 14-3), with the result of its two CRC checks (R339). -/
structure LFrame where
  grain  : BitVec 48
  sinst  : Fin 16
  spkg   : Fin 4096
  sctx   : Fin 8
  score  : Fin 32
  owner  : Byte
  dinst  : Fin 16
  dpkg   : Fin 4096
  dcore  : Fin 32
  inc    : BitVec 8
  offset : BitVec 16
  seq    : BitVec 16
  tag    : BitVec 16
  becrd  : Byte
  mark   : BitVec 120
  grans  : List (List Byte)
  crcOk  : Bool
deriving DecidableEq, Repr

/-- What one receive lane shows while it trains (R342): signal, clock lock, valid TRAIN frames, inversion, and the
lane and link numbers that its frames carry. -/
structure LaneView where
  sig      : Bool
  cdr      : Bool
  valid    : Bool
  inverted : Bool
  lane     : Nat
  link     : Nat
deriving DecidableEq, Repr

/-- An IDENT message (Table 14-11). -/
structure IdentMsg where
  pkg     : Fin 4096
  inst    : Fin 16
  bundle  : Fin 2
  link    : Fin 4
  version : Word
  digest  : BitVec 64
  rxFenced : BitVec 20
deriving DecidableEq, Repr

/-- A ring admission message (Table 14-12); `hopRec` and the pattern are those of RESV_REQ. -/
structure ResvMsg where
  hop     : Nat
  opkg    : Fin 4096
  oinst   : Fin 16
  slice   : BitVec 16
  reason  : Byte
  hopRec  : BitVec 64
  first   : BitVec 16
  count   : BitVec 16
  stride  : BitVec 16
  offset  : BitVec 16
  nhop    : Nat
deriving DecidableEq, Repr

/-- Where a synchronisation object stands: a core's semaphore, a hub semaphore, or a barrier (R397). -/
inductive SyncObj where
  | coreSem (core : Fin 32) (index : Fin 1024)
  | hubSem  (index : Fin 4096)
  | barrier (index : Fin 256)
deriving DecidableEq, Repr

/-- A unit whose reset is requested or held (R405, Table 17-6). -/
inductive ResetUnit where
  | core (n : Fin 32)
  | stn  (s : Fin 6)
  | mod  (k : Fin 4)
  | lport
  | hport
  | warm
deriving DecidableEq, Repr

/-- State in which an uncorrectable error is met (Table 16-2). -/
inductive EccUnit where
  | coreState (core : Fin 32)
  | object    (o : SyncObj)
  | ctxTable  (ctx : Fin 8)
  | stuEntry  (entry : Fin 8192)
  | stuShared
  | station   (stn : Fin 6)
  | firmware
deriving DecidableEq, Repr

/-- Why a wadi tile load parks (R73). -/
inductive ParkCause where
  | xmiss | interrupt
deriving DecidableEq, Repr

/-- What holds a translation miss (R235): a wadi, a DMA channel, or an MRD. -/
inductive MissUnit where
  | wadi (w : Fin 8)
  | dma  (ch : Fin 16)
  | mrd
deriving DecidableEq, Repr

/-- The fields that SEQ_SET may change, each present when it is to change (R373). -/
structure SeqChange where
  limit  : Option Word
  stop   : Option Word
  invT   : Option Word
  topk   : Option (BitVec 16)
  rlimit : Option (BitVec 4)
deriving DecidableEq, Repr

/-- What a REVOKE names (R373, R377). -/
inductive RevokeWhat where
  | debug (ctx : Fin 8)
  | hold  (ctx : Fin 8)
  | map   (ctx : Fin 8) (vid : BitVec 16)
  | oasis (ctx : Fin 8) (id : Fin 16)
deriving DecidableEq, Repr

/-- One window's inputs to the health monitor that no register of the block accumulates: the highest junction
temperature, corrected state errors beyond those that commands counted (R408), and the corrected FEC symbols of each
L-port lane (R356). -/
structure HealthIn where
  temp  : Nat
  ce    : Nat
  fec   : List Nat
deriving DecidableEq, Repr

/-- A capture that completes: its core, and the upsets that its read of the row meets (R72, R78). -/
structure CaptureEnd where
  core : Fin 32
  ph   : Phys
deriving DecidableEq, Repr

/-- A refusal notice that arrives at a core, with the cycles of the release holds that it ends and of waiting injection
(Table 10-5). -/
structure NoticeIn where
  core  : Fin 32
  holds : List Nat
  inj   : Nat
deriving DecidableEq, Repr

/-- How an inbound packet's granules find their banks: those granted under class 2 of R225, and the places of those that are
not granted yet (R226). -/
structure BankGrants where
  aged  : Nat
  later : List Nat
deriving DecidableEq, Repr

/-- The operations on one semaphore that share a cycle (R271), by their places among those that may arrive next. -/
structure SemCycle where
  nth  : Nat
  also : List Nat
deriving DecidableEq, Repr

/-- The steal requests of one cycle: a core, the others that ask, and the home cores that take their queue's head in it
(R31, R297). -/
structure StealCycle where
  core   : Fin 32
  rivals : List (Fin 32)
  heads  : List (Fin 32)
deriving DecidableEq, Repr

/-- What a barrier message says of its phase (Table 14-4). -/
structure BarPhase where
  phase  : Bool
  poison : Bool
deriving DecidableEq, Repr

/-- The commands. -/
inductive Instr where
  -- registers
  | registerWrite (a : Access)
  | stagedSetApply (b : Block) (chan : Nat)
  | grainCommit (r : Requester)
  | tileCommit (r : Requester)
  | mxCommit (r : Requester)
  | numCommit (r : Requester)
  | vxCommit (r : Requester)
  | progCommit (r : Requester)
  | spCommit (r : Requester)
  | stuCommit (r : Requester)
  | mpCommit (r : Requester)
  | npCommit (r : Requester)
  | lpCommit (r : Requester)
  | hpCommit (r : Requester)
  | hmCommit (r : Requester)
  | dbgCommit (r : Requester)
  | pwrCommit (r : Requester)
  | grainNowLoRead (r : Requester)
  | stuCtxJobsLoRead (r : Requester)
  -- debug and manual actions
  | tileDbgGo (r : Requester) (value : Word)
  | tileDbgCaptureDone (done : CaptureEnd)
  | syncSet (r : Requester)
  | syncRelease (r : Requester)
  | syncClear (r : Requester)
  | fence (r : Requester) (cores : Word)
  | snapRestore (r : Requester) (value : Word)
  | dbgHalt (r : Requester) (cores : Word)
  | dbgStep (r : Requester) (cores : Word)
  | debugHaltTaken (core : Fin 32)
  | linkRetrain (r : Requester)
  -- resets
  | warmReset (r : Requester)
  | coreRst (r : Requester) (cores : Word)
  | portRst (r : Requester) (value : Word)
  | heldResetStart (u : ResetUnit)
  | coreSelftestDone (core : Fin 32) (pass : Bool)
  -- mailbox exchange
  | mailboxRing (hsrc : Fin 16) (pair : Fin 8)
  | mailboxTake
  | replyAck (hsrc : Fin 16) (pair : Fin 8)
  | replyDiscard (pair : Fin 8)
  -- mailbox commands
  | hello
  | bindPair (pair : Fin 8) (hsrc : Fin 16) (bind : Bool) (staging : BitVec 64)
  | openTenants
  | propose
  | commit
  | withdraw (change : BitVec 16)
  | revoke (what : RevokeWhat)
  | killCtx (ctx : Fin 8)
  | ctxResume (ctx : Fin 8)
  | modelLoad (ctx : Fin 8) (slot : Fin 16) (addr : BitVec 64) (len : Word) (pin : Bool)
  | modelEvict (ctx : Fin 8) (slot : Fin 16)
  | modelPin (ctx : Fin 8) (slot : Fin 16) (pin : Bool)
  | modelUnload (ctx : Fin 8) (slot : Fin 16)
  | seqOpen (ctx : Fin 8) (entry : Fin 8192) (addr : BitVec 64)
  | seqSet (ctx : Fin 8) (entry : Fin 8192) (ch : SeqChange)
  | seqHold (ctx : Fin 8) (entry : Fin 8192)
  | seqResume (ctx : Fin 8) (entry : Fin 8192)
  | seqClose (ctx : Fin 8) (entry : Fin 8192)
  | seqRead (ctx : Fin 8) (entry : Fin 8192)
  | poolAdd (ctx : Fin 8) (count : Nat) (addr : BitVec 64)
  | syncDump (ctx : Fin 8) (addr : BitVec 64)
  | sliceRelease (ctx : Fin 8) (slice : BitVec 16)
  | fwLoad (addr : BitVec 64) (len : Word) (sigOk : Bool) (version : Word)
  -- firmware events
  | fwUpdateDone
  | admissionComplete (ctx : Fin 8)
  | debugConsentExpiry (ctx : Fin 8)
  | holdDumpDone (ctx : Fin 8)
  | bankScrubDone (ctx : Fin 8)
  -- host aperture
  | apertureWrite (hsrc : Fin 16) (off : BitVec 24) (data : List Byte) (rd : RdStatus)
  | apertureRead (hsrc : Fin 16) (off : BitVec 24) (len : Nat) (rd : RdStatus)
  -- timebase
  | grainStrobe (cnt : BitVec 48) (cyc : Nat)
  | holdoverEntry (runs : List CycleRun)
  | holdoverAdvance (runs : List CycleRun)
  | holdoverLimit
  | timingFrameDue
  | timing (link : Fin 8) (t1 t2 t3 : Nat)
  | timingReply (link : Fin 8) (t1 t2 t3 t4 : Nat)
  | startGrainReached (core : Fin 32) (e : Engine)
  | deadlineMissed (core : Fin 32) (e : Engine)
  -- Tyzia commands and their events
  | tokenArrival (core : Fin 32) (e : Engine)
  | nop (core : Fin 32) (e : Engine) (ph : Phys)
  | grain (core : Fin 32) (e : Engine)
  | ldw (core : Fin 32) (ph : Phys)
  | pass (core : Fin 32) (ph : Phys)
  | pscl (core : Fin 32) (ph : Phys)
  | passComplete (core : Fin 32)
  | drain (core : Fin 32) (ph : Phys)
  | vrun (core : Fin 32) (ph : Phys)
  | tld (core : Fin 32) (ph : Phys)
  | tst (core : Fin 32) (ph : Phys)
  | tldw (core : Fin 32) (ph : Phys)
  | tileLoadPark (core : Fin 32) (cause : ParkCause)
  | tileLoadResume (core : Fin 32) (ph : Phys)
  | dma (core : Fin 32) (ph : Phys)
  | dmaComplete (core : Fin 32) (ch : Fin 16)
  | wpost (core : Fin 32) (ph : Phys)
  | wwait (core : Fin 32) (ph : Phys)
  | wmov (core : Fin 32) (ph : Phys)
  | mrd (core : Fin 32) (ph : Phys)
  | mrdFill (core : Fin 32) (ph : Phys)
  | acq (core : Fin 32) (ph : Phys)
  | arrw (core : Fin 32) (ph : Phys)
  | lsend (core : Fin 32) (ph : Phys)
  | swait (core : Fin 32) (ph : Phys)
  | sadd (core : Fin 32) (ph : Phys)
  | ssub (core : Fin 32) (ph : Phys)
  | bar (core : Fin 32) (ph : Phys)
  -- far reads and writes
  | wadiReply (core : Fin 32) (ph : Phys)
  | wadiXmissReply (core : Fin 32)
  | xmissLimit (core : Fin 32) (u : MissUnit) (ph : Phys)
  | resolve (ctx : Fin 8) (page : BitVec 52) (failed : Bool)
  | writeAck (core : Fin 32) (holds : List Nat) (inj : Nat)
  | inboundWritePacket (core : Fin 32) (nth : Nat) (grants : BankGrants)
  | refusalNotice (notice : NoticeIn)
  -- synchronisation events
  | semOpApply (ops : SemCycle)
  | hubWaitRegister (core : Fin 32)
  | waitWake (core : Fin 32)
  | barrierArrival (nth : Nat)
  | barrierRelease (nth : Nat)
  | barrierDeadline (b : Fin 256)
  | waitTimerExpiry (core : Fin 32) (e : Engine)
  -- serving
  | stepAssign (ctx : Fin 8)
  | caravanBuild (ctx : Fin 8)
  | caravanCut
  | builderResume
  | residencyLoad (slot : Fin 16)
  | parcelStart (core : Fin 32) (segUpset : Bool)
  | parcelEnd (core : Fin 32)
  | stealRequest (ask : StealCycle)
  | stepEnd (ctx : Fin 8)
  | beStepCap (ctx : Fin 8)
  | stepBudget (ctx : Fin 8)
  -- M-port
  | rdata (stn : Fin 6) (rtag : Fin 1024) (inc : BitVec 8) (status : RdStatus) (changed : List (Nat × Gran))
  | wack (stn : Fin 6) (rtag : Fin 1024) (inc : BitVec 8) (ok : Bool)
  | crd (stn : Fin 6) (rd wr : Nat)
  -- N-port
  | nportWrFrame (m : Fin 4) (f : NFrame)
  | nportAckFrame (m : Fin 4) (f : NFrame)
  | nportRefuseFrame (m : Fin 4) (f : NFrame)
  | nportSyncFrame (m : Fin 4) (f : NFrame)
  | nportNakFrame (m : Fin 4) (f : NFrame)
  | nportCrdFrame (m : Fin 4) (f : NFrame)
  | nportRetrainTimeout (m : Fin 4)
  -- L-port
  | linkSlot (link : Fin 8)
  | dataFrame (link : Fin 8) (f : LFrame)
  | emptyFrame (link : Fin 8) (f : LFrame)
  | controlFrame (link : Fin 8) (f : LFrame)
  | trainFrame (link : Fin 8) (lanes : List LaneView)
  | sigDet (link : Fin 8) (lanes : List LaneView)
  | trainStateTimeout (link : Fin 8)
  | ident (link : Fin 8) (m : IdentMsg) (delay : Nat)
  | feat (link : Fin 8) (revs : Byte) (bits : Word)
  | barArrive (link : Fin 8) (b : Fin 256) (phase : BarPhase) (spkg : Fin 4096)
  | barRelease (link : Fin 8) (b : Fin 256) (phase : BarPhase) (spkg : Fin 4096)
  | loss (link : Fin 8) (seq : BitVec 16) (inc : BitVec 8)
  | refuse (link : Fin 8) (tag : BitVec 16) (score : Fin 32) (sctx : Fin 8) (dst : LSrc)
  | resvReq (link : Fin 8) (m : ResvMsg)
  | resvAck (link : Fin 8) (m : ResvMsg)
  | resvNak (link : Fin 8) (m : ResvMsg)
  | resvRel (link : Fin 8) (m : ResvMsg)
  | resvHoldEnd (link : Fin 8) (m : ResvMsg)
  | resvHoldExpiry (opkg : Fin 4096) (oinst : Fin 16) (slice : BitVec 16)
  | linkRetry
  -- integrity
  | stateEccError (u : EccUnit)
  | ccpWatchdog
  | healthWindow (h : HealthIn)
  | snapshotCut
  | snapshotDrain
  | snapshotComplete
  | drainTimeout (ackError : Bool)
  -- power, clock and reset
  | pwrOkRise
  | pwrOkFall
  | ctrlEnRise
  | ctrlEnFall
  | warmRstN
  | internalResetRelease
  | selftestDone (failed : Word) (othersOk : Bool)
  | coreDomainReady (core : Fin 32)
  | corePowerOff (core : Fin 32)
  | pcapStep (step : Fin 8)
  | droopEvent
  | droopStepDown (above : BitVec 48)
  | thermalStep (tj : Nat)
  | governorUpdate (pdyn pleak : Nat)
  | changeDeadline (change : BitVec 16)
  | nportTrained (m : Fin 4) (rev : Fin 4) (speed : Fin 8) (x32 : Bool) (peerInst : Fin 16) (peerMod : Fin 4)
  | nportRetrain (m : Fin 4)
  | stationLinkUp (stn : Fin 6) (rd wr : Nat)
deriving DecidableEq, Repr

end Sys2Proof
end

