-- ==== Sys2Proof/Decode.lean ====
section
/-! DEFINITION. Reading a command from the bits of its row. The operation table gives no bits to any row of this
block: its commands are accesses, messages, pins and events, not words. No word spells one. -/

namespace Sys2Proof

/-- The command that a word of nbits bits spells by the table's bits: none, for no row has bits. -/
def decodeTableWord (_nbits _w : Nat) : Option Instr := none

end Sys2Proof
end

