-- ==== Sys2Proof/Config.lean ====
section
/-! DEFINITION. What one cluster fixes (its straps) and the free values: constants without a body, so that no proof can
lean on a value the spec leaves open. -/

namespace Sys2Proof.Config

/-- NMOD strap, the number of wired UCIe modules, 0 to 4 (Table 0-7, R19). -/
opaque nmod : Fin 5

/-- INST strap, the cluster's number in its package, 0 to 15 (Table 0-7, R19). -/
opaque inst : Fin 16

/-- SPA_BASE strap divided by 2^31 (R244: the integrator ties SPA_BASE to a multiple of 2^31). -/
opaque spaUnit : Fin (2 ^ 33)

/-- The base of the scratchpad aperture (R244). -/
def spaBase : Nat := 2 ^ 31 * spaUnit.val

/-- The package number of this cluster in the installation map, 0 to 4095 (R338). -/
opaque pkg : Fin 4096

/-- Free choice: the n-th open yes-or-no of a run (old or new byte of an overlap, R240; applied or not after
WACK ERROR or TARGET_RESET, R316, R404). Assumption log 1. -/
opaque freeBit : Nat → Bool

/-- Free value: the n-th open word of a run. Assumption log 1. -/
opaque freeWord : Nat → Word

/-- Free value: the cycle within its grain in which a command completes that no row tells, by the model's counter of such cycles
(R416). Assumption log 120. -/
opaque traceCycle : Nat → BitVec 8

/-- The payload length of a mailbox command whose payload layout the spec does not give (R372, Table 15-4), by
opcode. Assumption log 10. -/
opaque payloadLen : Nat → Nat

/-- The element code of a VX sink whose encoding Table 5-6 does not give, from the format code and the lane value.
Assumption log 20. -/
opaque sinkCode : Nat → Word → Nat

/-- The seed of the installation map's version and digest before the platform sets them (R358). Assumption log 46. -/
opaque mapDigest : BitVec 64

/-- The tenant, numbered by its pair less one, that owns a context of another cluster, by package, instance and context; none
where it has no pair here (Table 15-6). Assumption log 72. -/
opaque farTenant : Nat → Nat → Nat → Option (Fin 7)

/-- The installation map as the platform fixes it at installation (R338, R344): the package, instance, bundle and link
expected at the far end of each link, none where the map lists it as unwired. Assumption log 46. -/
opaque wired : Fin 8 → Option (Fin 4096 × Fin 16 × Fin 2 × Fin 4)

end Sys2Proof.Config
end

