-- ==== Sys2Proof/Machine/Bits.lean ====
section
/-! DEFINITION. Bit fields, little-endian bytes (R10), CRC-32C, and grain arithmetic modulo 2^48 (R37). -/

namespace Sys2Proof.Machine

/-- Bits [hi:lo] of a natural number (R9). -/
def bits (n hi lo : Nat) : Nat := n >>> lo % 2 ^ (hi + 1 - lo)

/-- Bit i of a natural number. -/
def bit (n i : Nat) : Bool := n >>> i % 2 = 1

/-- A Bool as a number. -/
def b2n (b : Bool) : Nat := if b then 1 else 0

/-- Replace bits [hi:lo] of n by the low bits of v. -/
def setBits (n hi lo v : Nat) : Nat :=
  let w := 2 ^ (hi + 1 - lo)
  n - bits n hi lo * 2 ^ lo + (v % w) * 2 ^ lo

/-- Set or clear bit i. -/
def putBit (n i : Nat) (b : Bool) : Nat := setBits n i i (b2n b)

/-- Number of bits set among the low k bits. -/
def popcount (n : Nat) : Nat → Nat
  | 0 => 0
  | k + 1 => popcount n k + b2n (bit n k)

/-- The positions of the bits set among the low k bits, ascending. -/
def bitsSet (n k : Nat) : List Nat := (List.range k).filter (bit n)

/-- The value of bytes in little-endian order (R10). -/
def leNat : List Byte → Nat
  | [] => 0
  | b :: bs => b.toNat + 256 * leNat bs

/-- n bytes, little-endian (R10). -/
def toLe (v : Nat) : Nat → List Byte
  | 0 => []
  | n + 1 => BitVec.ofNat 8 v :: toLe (v / 256) n

/-- n bytes of a list from offset o, zero beyond its end. -/
def slice (l : List Byte) (o n : Nat) : List Byte :=
  let t := (l.drop o).take n
  t ++ List.replicate (n - t.length) 0

/-- The little-endian value of n bytes at offset o. -/
def leAt (l : List Byte) (o n : Nat) : Nat := leNat (slice l o n)

/-- Replace the bytes of l from offset o by those of v; l keeps its length. -/
def spliceAt (l : List Byte) (o : Nat) (v : List Byte) : List Byte :=
  (l.take o ++ v ++ l.drop (o + v.length)).take l.length

/-- n zero bytes. -/
def zeros (n : Nat) : List Byte := List.replicate n 0

/-- Pieces of n elements, the last padded by nothing; fuel bounds the number of pieces. -/
def chunks {α : Type} (n : Nat) : Nat → List α → List (List α)
  | 0, _ => []
  | _, [] => []
  | k + 1, l => l.take n :: chunks n k (l.drop n)

/-- One bit step of CRC-32C, reflected, polynomial 0x82F63B78 (the Castagnoli polynomial). -/
def crcBit (c : Nat) : Nat := if c % 2 = 1 then (c / 2) ^^^ 0x82F63B78 else c / 2

/-- One byte of CRC-32C. -/
def crcByte (c : Nat) (b : Byte) : Nat :=
  let x := c ^^^ b.toNat
  crcBit (crcBit (crcBit (crcBit (crcBit (crcBit (crcBit (crcBit x)))))))

/-- CRC-32C of a byte string: initial value and final complement all ones. -/
def crc32c (l : List Byte) : Nat := (l.foldl crcByte 0xFFFFFFFF) ^^^ 0xFFFFFFFF

/-- 2^48, the modulus of the Grain Count (R37). -/
def grainMod : Nat := 2 ^ 48

/-- a + b modulo 2^48. -/
def grainAdd (a b : Nat) : Nat := (a + b) % grainMod

/-- (a − b) mod 2^48. -/
def grainSub (a b : Nat) : Nat := (a + (grainMod - b % grainMod)) % grainMod

/-- Grain g is reached at count c (R37). -/
def reached (c g : Nat) : Bool := grainSub c g < 2 ^ 47

/-- At least n grains have passed since grain g at count c. -/
def elapsed (c g n : Nat) : Bool := reached c (grainAdd g n)

/-- ceil(a / b). -/
def cdiv (a b : Nat) : Nat := (a + b - 1) / b

end Sys2Proof.Machine
end

