-- ==== Sys2Proof/Machine/Float.lean ====
section
/-! DEFINITION. Exact real values and their rounding to binary32 and BF16 (R137), and the functions of the SEED stage
(R142). A value is a NaN, an infinity, or a signed dyadic number, so that a zero keeps its sign. -/

namespace Sys2Proof.Machine

/-- An exact value: ± m × 2^e. -/
inductive Fv where
  | nan
  | inf (neg : Bool)
  | fin (neg : Bool) (m : Nat) (e : Int)
deriving DecidableEq, Repr

/-- Number of bits of n: the least k with n < 2^k. -/
def bitLen (n : Nat) : Nat := if n = 0 then 0 else n.log2 + 1

/-- Round m × 2^k to an integer, to nearest, ties to even (R112). -/
def rneShift (m : Nat) (k : Int) : Nat :=
  if 0 ≤ k then m * 2 ^ k.toNat
  else
    let d := 2 ^ (-k).toNat
    let q := m / d
    let r := 2 * (m % d)
    if d < r ∨ (r = d ∧ q % 2 = 1) then q + 1 else q

/-- Round a signed integer times 2^k to an integer, to nearest, ties to even. -/
def rneInt (x k : Int) : Int := if x < 0 then -(rneShift x.natAbs k : Int) else rneShift x.natAbs k

/-- floor(log2) of m × 2^e for m not zero. -/
def floorLog (m : Nat) (e : Int) : Int := (m.log2 : Int) + e

/-- Canonical NaN, infinities and the greatest finite magnitude of binary32 (R137). -/
def f32Nan : Nat := 0x7FC00000
def f32Inf (neg : Bool) : Nat := 0x7F800000 + b2n neg * 2 ^ 31
def f32Max (neg : Bool) : Nat := 0x7F7FFFFF + b2n neg * 2 ^ 31

/-- The value of a binary32 pattern; subnormals are kept (R137). -/
def f32Val (w : Nat) : Fv :=
  let neg := bit w 31
  let x := bits w 30 23
  let m := bits w 22 0
  if x = 255 then (if m = 0 then .inf neg else .nan)
  else if x = 0 then .fin neg m (-149)
  else .fin neg (m + 2 ^ 23) ((x : Int) - 150)

/-- Round once to a significand of p bits in the exponent range of binary32: the binary32 pattern of the result. p is 24
for FP32 and 8 for BF16 (R137). -/
def roundF (p : Nat) : Fv → Nat
  | .nan => f32Nan
  | .inf neg => f32Inf neg
  | .fin neg m e =>
    let sign := b2n neg * 2 ^ 31
    if m = 0 then sign
    else
      let q := max (floorLog m e - (p - 1)) (-125 - (p : Int))
      let v := rneShift m (e - q) * 2 ^ (q + 149).toNat
      if v = 0 then sign
      else
        let k := v.log2
        if 277 ≤ k then f32Inf neg
        else if k < 23 then sign + v
        else sign + (k - 22) * 2 ^ 23 + (v / 2 ^ (k - 23) - 2 ^ 23)

def Fv.isNan : Fv → Bool
  | .nan => true
  | _ => false

def Fv.isZero : Fv → Bool
  | .fin _ m _ => m = 0
  | _ => false

def Fv.isInf : Fv → Bool
  | .inf _ => true
  | _ => false

/-- The sign of a value. -/
def Fv.neg : Fv → Bool
  | .nan => false
  | .inf n => n
  | .fin n _ _ => n

/-- The opposite value. -/
def Fv.opp : Fv → Fv
  | .nan => .nan
  | .inf n => .inf (!n)
  | .fin n m e => .fin (!n) m e

/-- A value times 2^k. -/
def Fv.scale (k : Int) : Fv → Fv
  | .fin n m e => .fin n m (e + k)
  | v => v

/-- A signed number as an exact value. -/
def Fv.ofInt (x : Int) (e : Int := 0) : Fv := .fin (x < 0) x.natAbs e

/-- m × 2^e as an integer in units of 2^q, for q at most e. -/
def units (n : Bool) (m : Nat) (e q : Int) : Int :=
  let v : Int := (m * 2 ^ (e - q).toNat : Nat)
  if n then -v else v

/-- Exact sum; a sum of exact zero is +0 unless both operands are negative (IEEE 754, to nearest). -/
def Fv.add : Fv → Fv → Fv
  | .nan, _ => .nan
  | _, .nan => .nan
  | .inf a, .inf b => if a = b then .inf a else .nan
  | .inf a, _ => .inf a
  | _, .inf b => .inf b
  | .fin a m e, .fin b k f =>
    let q := min e f
    let x := units a m e q + units b k f q
    if x = 0 then .fin (a && b) 0 0 else .ofInt x q

/-- Exact product. -/
def Fv.mul : Fv → Fv → Fv
  | .nan, _ => .nan
  | _, .nan => .nan
  | .inf a, .inf b => .inf (a != b)
  | .inf a, .fin b m _ => if m = 0 then .nan else .inf (a != b)
  | .fin a m _, .inf b => if m = 0 then .nan else .inf (a != b)
  | .fin a m e, .fin b k f => .fin (a != b) (m * k) (e + f)

/-- x < y; a comparison with a NaN is false, and the zeros are equal. -/
def Fv.lt : Fv → Fv → Bool
  | .nan, _ => false
  | _, .nan => false
  | .inf a, .inf b => a && !b
  | .inf a, _ => a
  | _, .inf b => !b
  | .fin a m e, .fin b k f => units a m e (min e f) < units b k f (min e f)

/-- x = y; a comparison with a NaN is false, and the zeros are equal. -/
def Fv.eq : Fv → Fv → Bool
  | .nan, _ => false
  | _, .nan => false
  | x, y => !x.lt y && !y.lt x

/-- |x| at least |y|, for finite values. -/
def Fv.absGe (x y : Fv) : Bool :=
  let mag : Fv → Fv := fun v => if v.neg then v.opp else v
  !(mag x).lt (mag y)

/-- Order for MIN and MAX: −0 is less than +0 (Table 6-3). -/
def Fv.below (x y : Fv) : Bool := x.lt y || (x.isZero && y.isZero && x.neg && !y.neg)

/-! ### SEED (R142, Table 6-4) -/

/-- Fixed point of the evaluation: 200 fraction bits. -/
def seedOne : Int := 2 ^ 200

/-- ln 2 in units of 2^-200. -/
def ln2Fix : Int := 1113844574712631719546256151097547306333272293549090750737802

/-- Sum of the terms r^i / i! from the i-th on, all in units of 2^-200. -/
def expTerms (r : Int) : Nat → Int → Int → Int
  | 0, _, _ => 0
  | n + 1, i, t => t + expTerms r n (i + 1) (t * r / seedOne / (i + 1))

/-- e^r for 0 ≤ r < 1 in units of 2^-200. -/
def expFix (r : Int) : Int := expTerms r 70 0 seedOne

/-- A value known to lie strictly between n and n + 1 units: an odd number of half units keeps every rounding right. -/
def between (n : Nat) (e : Int) : Fv := .fin false (2 * n + 1) (e - 1)

/-- 2^k × t, t in units of 2^-200 and not exact. -/
def scaledFix (t k : Int) : Fv := between t.toNat (k - 200)

/-- e^x; beyond ±1024 the result is beyond every format's range. -/
def seedExp : Fv → Fv
  | .nan => .nan
  | .inf neg => if neg then .fin false 0 0 else .inf false
  | .fin neg m e =>
    if m = 0 then .fin false 1 0
    else if 10 ≤ floorLog m e then (if neg then .fin false 0 0 else .inf false)
    else
      let x := units neg m (e + 200) (min 0 (e + 200)) / 2 ^ (-(min 0 (e + 200))).toNat
      let k := x / ln2Fix
      scaledFix (expFix (x - k * ln2Fix)) k

/-- 2^x. -/
def seedExp2 : Fv → Fv
  | .nan => .nan
  | .inf neg => if neg then .fin false 0 0 else .inf false
  | .fin neg m e =>
    if m = 0 then .fin false 1 0
    else if 10 ≤ floorLog m e then (if neg then .fin false 0 0 else .inf false)
    else
      let x := units neg m (e + 200) (min 0 (e + 200)) / 2 ^ (-(min 0 (e + 200))).toNat
      let k := x / seedOne
      let f := x - k * seedOne
      if f = 0 then .fin false 1 k else scaledFix (expFix (f * ln2Fix / seedOne)) k

/-- 1/x. -/
def seedRecip : Fv → Fv
  | .nan => .nan
  | .inf neg => .fin neg 0 0
  | .fin neg m e =>
    if m = 0 then .inf neg
    else
      let q := 2 ^ 100 / m
      if q * m = 2 ^ 100 then .fin neg q (-e - 100) else .fin neg (2 * q + 1) (-e - 101)

/-- floor of the square root of n, from bit b down; r is the root found so far. -/
def rootBits (n : Nat) : Nat → Nat → Nat
  | 0, r => r
  | b + 1, r => rootBits n b (if (r + 2 ^ b) * (r + 2 ^ b) ≤ n then r + 2 ^ b else r)

/-- 1/√x. -/
def seedRsqrt : Fv → Fv
  | .nan => .nan
  | .inf neg => if neg then .nan else .fin false 0 0
  | .fin neg m e =>
    if m = 0 then .inf neg
    else if neg then .nan
    else
      let k := m * 2 ^ (e % 2).toNat
      let h := (e - e % 2) / 2
      let n := 2 ^ 160 / k
      let r := rootBits n 81 0
      if r * r * k = 2 ^ 160 then .fin false r (-h - 80) else .fin false (2 * r + 1) (-h - 81)

/-- The exact value of a SEED function, or one between the same rounding points (R142). -/
def seedFn (fn : Nat) (x : Fv) : Fv :=
  match fn with
  | 1 => seedExp x
  | 2 => seedExp2 x
  | 3 => seedRecip x
  | 4 => seedRsqrt x
  | _ => x

end Sys2Proof.Machine
end

