-- ==== Sys2Proof/Machine/Numeric.lean ====
section
/-! DEFINITION. The narrow formats (R113 to R120): cell values in the arrays, real values of elements, the encodings of
Table 5-6 and R132, conversion into BFB16 (R118), and the group conversions of the NCU (R318 to R322). -/

namespace Sys2Proof.Machine

/-- Two's complement value of the low n bits. -/
def sext (v n : Nat) : Int := if bit v (n - 1) then (v % 2 ^ n : Nat) - (2 ^ n : Nat) else (v % 2 ^ n : Nat)

/-- A signed number in n bits of two's complement. -/
def ofSigned (v : Int) (n : Nat) : Nat := (v % (2 ^ n : Nat)).toNat

/-! ### Cell values (R114 to R117) -/

/-- FP4 E2M1 (Table 5-2): twice the real value, with the sign of the code; −0 has cell value 0. -/
def fp4Cell (c : Nat) : Int :=
  let m : Int := [0, 1, 2, 3, 4, 6, 8, 12].getD (c % 8) 0
  if bit c 3 then -m else m

/-- TL3 (Table 5-3); bit 3 is ignored. -/
def tl3Cell (c : Nat) : Int := [0, 1, 2, 4, -8, -1, -2, -4].getD (c % 8) 0

/-- Ternary (R114). -/
def ternCell (c : Nat) : Int := [0, 1, 0, -1].getD (c % 4) 0

/-- Magnitude and sign of an MXFP6 E2M3 code, in eighths (R117). -/
def e2m3Cell (c : Nat) : Int :=
  let e := bits c 4 3
  let m := bits c 2 0
  let v : Int := if e = 0 then m else ((8 + m) * 2 ^ (e - 1) : Nat)
  if bit c 5 then -v else v

/-- The 8-bit value that an 8-bit activation element enters the arrays as (R117). -/
def v8 (fmt b : Nat) : Int := if fmt = 0xA then e2m3Cell b else sext b 8

/-- Cell value of a 4-bit lane or element of a format, read as signed or unsigned (R114 to R116). -/
def nibCell (fmt c : Nat) (sgn : Bool) : Int :=
  if fmt = 1 ∨ fmt = 2 then fp4Cell c
  else if fmt = 3 then tl3Cell c
  else if sgn then sext c 4 else (c % 16 : Nat)

/-- Cell value of a 2-bit lane (R114). -/
def pairCell (fmt c : Nat) (sgn : Bool) : Int :=
  if fmt = 6 then ternCell c else if sgn then sext c 2 else (c % 4 : Nat)

/-- Formats with a block scale (R120). -/
def scaledFmt (f : Nat) : Bool := [2, 3, 4, 9, 0xA].contains f

/-! ### Real values and packing (Tables 5-1, 5-4, 6-5) -/

/-- Bits of an element in the packing of Table 5-4. -/
def elemBits (f : Nat) : Nat :=
  match f with
  | 3 => 3
  | 5 | 6 => 2
  | 8 | 9 | 0x13 => 8
  | 0xA | 0xB => 6
  | 0xC | 0xD | 0xE => 16
  | 0xF | 0x10 | 0x11 => 32
  | 0x12 => 64
  | _ => 4

/-- Elements of a block record, 0 for a format without blocks (Table 5-4). -/
def blockLen (f : Nat) : Nat :=
  match f with
  | 2 | 3 | 4 | 9 | 0xA | 0xB => 32
  | 0x14 => 64
  | _ => 0

/-- Elements of a group or block record. -/
def unitElems (f : Nat) : Nat := if blockLen f ≠ 0 then blockLen f else max 1 (8 / elemBits f)

/-- Bytes of a group or block record. -/
def unitBytes (f : Nat) : Nat := unitElems f * elemBits f / 8 + (if blockLen f ≠ 0 then 1 else 0)

/-- The codes of a group or record from its payload bytes. -/
def unitCodes (f n : Nat) (payload : List Byte) : List Nat :=
  let w := leNat payload
  (List.range n).map fun j => w / 2 ^ (elemBits f * j) % 2 ^ elemBits f

/-- Pack codes into bytes, n in all. -/
def packCodes (eb n : Nat) (codes : List Nat) : List Byte :=
  toLe (codes.foldr (fun c a => a * 2 ^ eb + c % 2 ^ eb) 0) n

/-- A sign-and-magnitude value that keeps the sign of zero. -/
def smVal (neg : Bool) (m : Nat) (e : Int) : Fv := .fin neg m e

/-- The unscaled real value of an element code (Table 5-1, R114 to R118, R147); an INT32S sentinel reads as R147 gives. -/
def elemVal (f c : Nat) : Fv :=
  match f with
  | 1 | 2 => smVal (bit c 3) (fp4Cell (c % 8)).natAbs (-1)
  | 3 => .ofInt (tl3Cell c)
  | 5 => .ofInt (sext c 2)
  | 6 => .ofInt (ternCell c)
  | 8 => .ofInt (sext c 8)
  | 9 => .ofInt (sext c 8) (-6)
  | 0xA => smVal (bit c 5) (e2m3Cell (c % 32)).natAbs (-3)
  | 0xB =>
    let e := bits c 4 2
    let m := bits c 1 0
    if e = 0 then smVal (bit c 5) m (-4) else smVal (bit c 5) (4 + m) ((e : Int) - 5)
  | 0xC => .ofInt (sext c 16)
  | 0xD => .ofInt (sext c 16) (-14)
  | 0xE => f32Val (c % 65536 * 65536)
  | 0xF => f32Val c
  | 0x10 => .ofInt (sext c 32)
  | 0x11 =>
    if c = 0x80000000 then .nan
    else if c = 0x7FFFFFFF then .inf false
    else if c = 0x80000001 then .inf true
    else .ofInt (sext c 32)
  | 0x13 => if c = 0xFF then .nan else .fin false 1 ((c : Int) - 127)
  | _ => .ofInt (sext c 4)

/-- The value of an element under its block's scale byte (R120). -/
def scaledVal (v : Fv) (x : Option Nat) : Fv :=
  match x with
  | none => v
  | some x => if x = 0xFF then .nan else v.scale ((x : Int) - 127)

/-! ### Encodings (Table 5-6, R131, R132, R141) -/

/-- A value on its way to an encoding: it may be saturated with a sign (R131, R141). -/
structure Y where
  v   : Fv
  sat : Option Bool := none

/-- An encoded element: its code, and what it counts as. -/
structure Enc where
  code : Nat
  sat  : Bool := false
  inv  : Bool := false

/-- Encode into an integer of n bits, saturating; `sym` makes the range symmetric. Table 5-6 does not say whether a value
saturates by what it is before rounding or after: the rounded value is judged, so 7.4 into INT4 is 7 and counts nothing
(DESIGN CHOICE, assumption log 20). -/
def encInt (n : Nat) (sym : Bool) (y : Y) : Enc :=
  let hi : Int := 2 ^ (n - 1) - 1
  let lo : Int := if sym then -hi else -hi - 1
  let cut : Int → Enc := fun x =>
    if hi < x then ⟨ofSigned hi n, true, false⟩
    else if x < lo then ⟨ofSigned lo n, true, false⟩ else ⟨ofSigned x n, false, false⟩
  match y.sat, y.v with
  | some neg, _ => ⟨ofSigned (if neg then lo else hi) n, true, false⟩
  | none, .nan => ⟨0, false, true⟩
  | none, .inf neg => ⟨ofSigned (if neg then lo else hi) n, true, false⟩
  | none, .fin neg m e => cut (rneInt (if neg then -(m : Int) else m) e)

/-- Encode into a small float with mb mantissa bits, least exponent emin, and n bits in all; `lim` eighths and more in
magnitude saturate. -/
def encMini (mb n : Nat) (emin : Int) (lim : Nat) (y : Y) : Enc :=
  let top := 2 ^ (n - 1) - 1
  let put : Bool → Nat → Nat := fun neg c => c + b2n neg * 2 ^ (n - 1)
  match y.sat, y.v with
  | some neg, _ => ⟨put neg top, true, false⟩
  | none, .nan => ⟨0, false, true⟩
  | none, .inf neg => ⟨put neg top, true, false⟩
  | none, .fin neg m e =>
    if m = 0 then ⟨put neg 0, false, false⟩
    else if (Fv.fin false m e).absGe (.fin false lim (-3)) then ⟨put neg top, true, false⟩
    else
      let x := max (floorLog m e) emin
      let k := rneShift m (e - (x - mb)) + (x - emin).toNat * 2 ^ mb
      ⟨put neg k, false, false⟩

/-- Encode into FP32 or BF16 (p = 24 or 8): 32-bit pattern. A finite value that overflows counts as a saturation. -/
def encFloat (p : Nat) (y : Y) : Enc :=
  match y.sat with
  | some neg => ⟨(if p = 8 then 0x7F7F0000 else 0x7F7FFFFF) + b2n neg * 2 ^ 31, true, false⟩
  | none =>
    let c := roundF p y.v
    ⟨c, !y.v.isInf && bits c 30 0 = 0x7F800000, y.v.isNan⟩

/-- An integer sink of n bits, from lo to hi, for which Table 5-6 has no row: a value that the format holds exactly has its own
code, a saturated y becomes the largest magnitude of its sign (R131, R141), and any other value's code is open (assumption log
20). -/
def encOpen (f n : Nat) (lo hi : Int) (y : Y) : Enc :=
  let open_ : Enc := ⟨Config.sinkCode f (BitVec.ofNat 32 (roundF 24 y.v)) % 2 ^ n, false, y.v.isNan⟩
  match y.sat, y.v with
  | some neg, _ => ⟨ofSigned (if neg then lo else hi) n, true, false⟩
  | none, .fin neg m e =>
    let r := rneInt (if neg then -(m : Int) else m) e
    let exact := (Fv.ofInt r 0).eq (.fin neg m e)
    if exact && (lo ≤ r && r ≤ hi) then ⟨ofSigned r n, false, false⟩ else open_
  | none, _ => open_

/-- Encode one element into a format without blocks. SYM acts on INT4 and INT8. -/
def encElem (f : Nat) (sym : Bool) (y : Y) : Enc :=
  match f with
  | 0 => encInt 4 sym y
  | 8 => encInt 8 sym y
  | 1 => encMini 1 4 0 56 y
  | 0xE =>
    let c := encFloat 8 y
    { c with code := c.code / 65536 }
  | 0xF => encFloat 24 y
  | 5 => encOpen 5 2 (-2) 1 y
  | 6 => encOpen 6 2 (-1) 1 y
  | 0xC => encOpen 0xC 16 (-32768) 32767 y
  | _ => encOpen 0x10 32 (-2147483648) 2147483647 y

/-- Element encoding inside an MX block. -/
def encMx (f : Nat) (y : Y) : Enc :=
  match f with
  | 2 => encMini 1 4 0 56 y
  | 0xA => encMini 3 6 0 62 y
  | 0xB => encMini 2 6 (-2) 240 y
  | _ => encInt 8 true y

/-- emax of R132. -/
def emaxOf (f : Nat) : Int := if f = 0xB then 4 else if f = 9 then 0 else 2

/-- A saturated value as a block takes it: y is an FP32 value that R141 makes its target's largest magnitude, and the spec does
not say which magnitude that is inside a block, whose scale depends on it: the largest finite one of FP32 is taken, so an
MXFP4 block that holds one has X = 252 (DESIGN CHOICE, assumption log 20). -/
def Y.val (y : Y) : Fv :=
  match y.sat with
  | some neg => f32Val (f32Max neg)
  | none => y.v

/-- The greatest magnitude of a block's values, as a log2 floor; none where every value is zero. -/
def maxLog : List Fv → Option Int
  | [] => none
  | .fin _ m e :: l =>
    if m = 0 then maxLog l
    else match maxLog l with
      | none => some (floorLog m e)
      | some k => some (max k (floorLog m e))
  | _ :: l => maxLog l

/-- An encoded block: its scale byte, its codes, clipped elements, invalid values (R131; an infinite y makes the scale 0xFF too,
and is none), and whether the scale is 0xFF. -/
structure Blk where
  scale : Nat
  codes : List Nat
  clips : Nat
  invs  : Nat
  nan   : Bool

/-- Encode a block of 32 values into an MX target (R132). A block of scaled INT4 has no rule: its scale and codes are open
(assumption log 20). -/
def encBlock (f : Nat) (ys : List Y) : Blk :=
  let vs := ys.map Y.val
  let bad := vs.any fun v => v.isNan || v.isInf
  if f = 4 then
    ⟨Config.sinkCode 0x104 (BitVec.ofNat 32 (roundF 24 (vs.headD .nan))) % 256,
     vs.map (fun v => Config.sinkCode 4 (BitVec.ofNat 32 (roundF 24 v)) % 16), 0, 0, false⟩
  else if bad then ⟨0xFF, ys.map fun _ => 0, 0, (vs.filter Fv.isNan).length, true⟩
  else
    let x : Int := match maxLog vs with
      | none => 0
      | some k => max 0 (min 254 (k - emaxOf f + 127))
    let es := vs.map fun v => encMx f { v := v.scale (127 - x + (if f = 9 then 6 else 0)) }
    ⟨x.toNat, es.map (·.code), (es.filter (·.sat)).length, 0, false⟩

/-- The conversion of a block into BFB16 (R118): its scale X and the elements. A saturated y becomes ±32,767 (R141) and takes
no part in X. -/
def encBfb (ys : List Y) : Nat × List Enc :=
  let vs := ys.filterMap fun y => if y.sat.isSome then none else some y.v
  if vs.any fun v => v.isNan || v.isInf then (0xFF, ys.map fun y => ⟨0, false, y.sat.isNone && y.v.isNan⟩)
  else
    let x : Int := match maxLog vs with
      | none => 0
      | some k => max 0 (min 254 (k + 127))
    (x.toNat, ys.map fun y => encInt 16 true { y with v := y.v.scale (14 - (x - 127)) })

/-- The bytes of a block record: the scale first (R119). -/
def Blk.bytes (b : Blk) (f : Nat) : List Byte :=
  toLe b.scale 1 ++ packCodes (elemBits f) (blockLen f * elemBits f / 8) b.codes

/-! ### NCU conversions (R318 to R322) -/

/-- Defined NCU codes (Table 13-4). -/
def ncuOk (c : Nat) : Bool :=
  [0x12, 0x1A, 0x1B, 0x22, 0x2A, 0x2B, 0x42, 0x4A, 0x4B, 0x52, 0x5A, 0x5B, 0x63].contains c

/-- The code compresses on a write. -/
def ncuWrites (c : Nat) : Bool := c / 16 = 1 || c / 16 = 2

/-- Memory bytes of a group (Table 13-5). -/
def ncuMem (c : Nat) : Nat := if c % 16 = 2 then 1088 else if c % 16 = 3 then 832 else 1600

/-- Core bytes of a group. -/
def ncuCore (c : Nat) : Nat := if c / 16 = 1 ∨ c / 16 = 4 then 8192 else if c / 16 = 6 then 1088 else 4096

/-- Values that a conversion counts: clipped elements and blocks, blocks of scale 0xFF, and overflowed elements. -/
structure NcuCount where
  elems  : Nat := 0
  blocks : Nat := 0
  nans   : Nat := 0
  ovf    : Nat := 0

def NcuCount.add (a b : NcuCount) : NcuCount :=
  ⟨a.elems + b.elems, a.blocks + b.blocks, a.nans + b.nans, a.ovf + b.ovf⟩

/-- Element bytes of the core-side form. -/
def coreElem (c : Nat) : Nat := if c / 16 = 1 ∨ c / 16 = 4 then 4 else 2

/-- The value of a core-side element; a BF16 source is widened (R321). -/
def coreVal (c : Nat) (b : List Byte) : Fv := if coreElem c = 4 then f32Val (leNat b) else f32Val (leNat b * 65536)

/-- Compress the core bytes of a group (R321). -/
def compressGroup (c : Nat) (core : List Byte) : List Byte × NcuCount :=
  let blks := (chunks (32 * coreElem c) 64 core).map fun b =>
    encBlock (c % 16) ((chunks (coreElem c) 32 b).map fun e => { v := coreVal c e })
  ((blks.map fun b => b.bytes (c % 16)).flatten,
   blks.foldl (fun n b => n.add ⟨b.clips, b2n (b.clips ≠ 0), b2n b.nan, 0⟩) {})

/-- Expand one element into the core-side form; answers whether it overflowed (R322). -/
def expandElem (c : Nat) (v : Fv) : List Byte × Bool :=
  let w := roundF (if coreElem c = 4 then 24 else 8) v
  (if coreElem c = 4 then toLe w 4 else toLe (w / 65536) 2, bits w 30 0 = 0x7F800000)

/-- Expand the memory bytes of a group (R319, R322). -/
def expandGroup (c : Nat) (mem : List Byte) : List Byte × NcuCount :=
  let f := c % 16
  let recs := chunks (unitBytes f) 64 mem
  if c = 0x63 then
    ((recs.map fun r => packCodes 4 16 (unitCodes 3 32 (r.drop 1))).flatten
       ++ (recs.map fun r => r.take 1).flatten, {})
  else
    let out := recs.map fun r =>
      let x := leAt r 0 1
      ((unitCodes f 32 (r.drop 1)).map fun k => expandElem c (scaledVal (elemVal f k) (some x)), x)
    ((out.map fun p => (p.1.map (·.1)).flatten).flatten,
     out.foldl (fun n p => n.add ⟨0, 0, b2n (p.2 = 0xFF), (p.1.filter (·.2)).length⟩) {})

end Sys2Proof.Machine
end

