-- ==== Sys2Proof/Machine/Fields.lean ====
section
/-! DEFINITION. The register map of the H-port window (R13 to R17): one constant per non-reserved bit field of the
register tables of the spec, with its access code (Table 0-5), its reset value, the channel that its select register
chooses, and whether it is kept through warm reset (R16). -/

namespace Sys2Proof.Machine

/-- Access codes (Table 0-5). -/
inductive Acc where
  | ro | rw | w1c | wo | rws
deriving DecidableEq, Repr

/-- What chooses the instance of a register that is shown (R366, R367): nothing, the requester itself, a core, a
mailbox pair, a DMA channel, an oasis slot, a context by each of the three context selects, the object of
SYNC_DBG_SEL, a station, a module, a lane, the link of a lane, a slot, a forward flow, a route. -/
inductive Scope where
  | one | req | core | pair | dma | oasis | syncCtx | stuCtx | protCtx | obj | stn | mod | lane | link | slot | flow
  | route
deriving DecidableEq, Repr

/-- One bit field of a register. -/
structure Fld where
  addr  : Nat
  hi    : Fin 32
  lo    : Fin 32
  acc   : Acc
  reset : Nat
  scope : Scope
  kept  : Bool
deriving DecidableEq, Repr

/-- The number of bits of a field. -/
def Fld.width (f : Fld) : Nat := f.hi.val + 1 - f.lo.val

/-- The greatest value of a field, at which its counters saturate. -/
def Fld.max (f : Fld) : Nat := 2 ^ f.width - 1

/-- Where State.regs holds channel `chan` of a field. The key names the field's place and width. -/
def Fld.key (f : Fld) (chan : Nat) : Nat := ((f.addr * 32 + f.hi.val) * 32 + f.lo.val) * 65536 + chan % 65536

namespace Fd

/-- MB_REQ word w of a pair (R368, Table 15-9); the address is that of pair 0. -/
def mbReq (w : Nat) : Fld := ⟨0x1000 + 4 * w, 31, 0, .rw, 0, .pair, false⟩
/-- MB_REP word w of a pair. -/
def mbRep (w : Nat) : Fld := ⟨0x1080 + 4 * w, 31, 0, .ro, 0, .pair, false⟩
/-- SP_PARTn.VALID: context n holds a partition on the core (R249). -/
def spPartValid (c : Nat) : Fld := ⟨0x2500 + 4 * c, 31, 31, .ro, 0, .core, false⟩
/-- SP_PARTn.NB. -/
def spPartNb (c : Nat) : Fld := ⟨0x2500 + 4 * c, 13, 8, .ro, 0, .core, false⟩
/-- SP_PARTn.PB. -/
def spPartPb (c : Nat) : Fld := ⟨0x2500 + 4 * c, 5, 0, .ro, 0, .core, false⟩
/-- The incarnation number of port unit u (R402): 0 to 5 stations, 6 to 9 modules, 10 the L-port, 11 the H-port; in
PORT_INC0 to PORT_INC2 from the lowest byte up. -/
def portInc (u : Nat) : Fld := ⟨0x904C + 4 * (u / 4), Fin.ofNat 32 (8 * (u % 4) + 7), Fin.ofNat 32 (8 * (u % 4)), .ro, 0, .one, false⟩

-- Table 0-7. Identification registers at 0x0000 and 0x0004 (R18).
def clusterIdPart : Fld := ⟨0, 31, 16, .ro, 0x440, .one, false⟩  -- CLUSTER_ID.PART
def clusterIdMajor : Fld := ⟨0, 15, 8, .ro, 1, .one, false⟩  -- CLUSTER_ID.MAJOR
def clusterIdMinor : Fld := ⟨0, 7, 0, .ro, 0, .one, false⟩  -- CLUSTER_ID.MINOR
def clusterCfgCores : Fld := ⟨4, 23, 16, .ro, 0x20, .one, false⟩  -- CLUSTER_CFG.CORES
def clusterCfgVlanes : Fld := ⟨4, 15, 8, .ro, 0x80, .one, false⟩  -- CLUSTER_CFG.VLANES
def clusterCfgNmod : Fld := ⟨4, 7, 4, .ro, 0, .one, false⟩  -- CLUSTER_CFG.NMOD
def clusterCfgInst : Fld := ⟨4, 3, 0, .ro, 0, .one, false⟩  -- CLUSTER_CFG.INST

-- Table 15-9. Mailbox and protection registers (R392).
def mbDoorbellRing : Fld := ⟨0x1078, 0, 0, .wo, 0, .pair, false⟩  -- MB_DOORBELL.RING
def mbStatusBound : Fld := ⟨0x107c, 31, 31, .ro, 0, .pair, false⟩  -- MB_STATUS.BOUND
def mbStatusOpen : Fld := ⟨0x107c, 30, 30, .ro, 0, .pair, false⟩  -- MB_STATUS.OPEN
def mbStatusTaken : Fld := ⟨0x107c, 29, 29, .ro, 0, .pair, false⟩  -- MB_STATUS.TAKEN
def mbStatusHsrc : Fld := ⟨0x107c, 3, 0, .ro, 0, .pair, false⟩  -- MB_STATUS.HSRC
def mbRepStatusValid : Fld := ⟨0x10f8, 0, 0, .ro, 0, .pair, false⟩  -- MB_REP_STATUS.VALID
def mbRepAckAck : Fld := ⟨0x10fc, 0, 0, .wo, 0, .pair, false⟩  -- MB_REP_ACK.ACK
def fwStatusState : Fld := ⟨0x1800, 31, 30, .ro, 0, .one, false⟩  -- FW_STATUS.STATE
def fwStatusPend : Fld := ⟨0x1800, 4, 0, .ro, 0, .one, false⟩  -- FW_STATUS.PEND
def fwVersionVersion : Fld := ⟨0x1804, 31, 0, .ro, 0, .one, false⟩  -- FW_VERSION.VERSION
def hpErrCount : Fld := ⟨0x1808, 31, 0, .ro, 0, .one, true⟩  -- HP_ERR.COUNT
def hpErrLastKind : Fld := ⟨0x180c, 31, 28, .ro, 0, .one, false⟩  -- HP_ERR_LAST.KIND
def hpErrLastHsrc : Fld := ⟨0x180c, 27, 24, .ro, 0, .one, false⟩  -- HP_ERR_LAST.HSRC
def hpErrLastAddr : Fld := ⟨0x180c, 15, 0, .ro, 0, .one, false⟩  -- HP_ERR_LAST.ADDR
def hpChgMismatch : Fld := ⟨0x1810, 31, 16, .ro, 0, .one, false⟩  -- HP_CHG.MISMATCH
def hpChgExpired : Fld := ⟨0x1810, 15, 0, .ro, 0, .one, false⟩  -- HP_CHG.EXPIRED
def aperBaseBase : Fld := ⟨0x1814, 31, 0, .rws, 0, .one, false⟩  -- APER_BASE.BASE
def ctxSelCtx : Fld := ⟨0x1818, 2, 0, .rw, 0, .req, false⟩  -- CTX_SEL.CTX
def ctxProtState : Fld := ⟨0x181c, 31, 30, .ro, 0, .protCtx, false⟩  -- CTX_PROT.STATE
def ctxProtClass : Fld := ⟨0x181c, 29, 29, .ro, 0, .protCtx, false⟩  -- CTX_PROT.CLASS
def ctxProtDebug : Fld := ⟨0x181c, 28, 28, .ro, 0, .protCtx, false⟩  -- CTX_PROT.DEBUG
def ctxProtHold : Fld := ⟨0x181c, 27, 27, .ro, 0, .protCtx, false⟩  -- CTX_PROT.HOLD
def ctxProtDbgHsrc : Fld := ⟨0x181c, 26, 23, .ro, 0, .protCtx, false⟩  -- CTX_PROT.DBG_HSRC
def ctxProtTenant : Fld := ⟨0x181c, 18, 16, .ro, 0, .protCtx, false⟩  -- CTX_PROT.TENANT
def ctxProtNb : Fld := ⟨0x181c, 15, 8, .ro, 0, .protCtx, false⟩  -- CTX_PROT.NB
def ctxProtMinNb : Fld := ⟨0x181c, 7, 0, .ro, 0, .protCtx, false⟩  -- CTX_PROT.MIN_NB
def hpCommitCommit : Fld := ⟨0x18fc, 0, 0, .wo, 0, .one, false⟩  -- HP_COMMIT.COMMIT

-- Table 15-1. CORE_SEL (R366).
def coreSelCore : Fld := ⟨0x2000, 4, 0, .rw, 0, .req, false⟩  -- CORE_SEL.CORE

-- Table 7-11. Parcel execution registers (R185).
def parcelStatusSegment : Fld := ⟨0x2180, 31, 16, .ro, 0, .core, false⟩  -- PARCEL_STATUS.SEGMENT
def parcelStatusEngActive : Fld := ⟨0x2180, 12, 8, .ro, 0, .core, false⟩  -- PARCEL_STATUS.ENG_ACTIVE
def parcelStatusLastStatus : Fld := ⟨0x2180, 4, 2, .ro, 0, .core, false⟩  -- PARCEL_STATUS.LAST_STATUS
def parcelStatusFormat : Fld := ⟨0x2180, 1, 1, .ro, 0, .core, false⟩  -- PARCEL_STATUS.FORMAT
def parcelStatusRunning : Fld := ⟨0x2180, 0, 0, .ro, 0, .core, false⟩  -- PARCEL_STATUS.RUNNING
def parcelIdParcel : Fld := ⟨0x2184, 31, 0, .ro, 0, .core, false⟩  -- PARCEL_ID.PARCEL
def parcelStartGrainLo : Fld := ⟨0x2188, 31, 0, .ro, 0, .core, false⟩  -- PARCEL_START.GRAIN_LO
def coreSkipCount : Fld := ⟨0x218c, 31, 16, .ro, 0, .core, false⟩  -- CORE_SKIP.COUNT
def coreSkipLastTag : Fld := ⟨0x218c, 15, 0, .ro, 0, .core, false⟩  -- CORE_SKIP.LAST_TAG
def skipInfoOpcode : Fld := ⟨0x2190, 31, 24, .ro, 0, .core, false⟩  -- SKIP_INFO.OPCODE
def skipInfoReason : Fld := ⟨0x2190, 23, 16, .ro, 0, .core, false⟩  -- SKIP_INFO.REASON
def skipInfoEngine : Fld := ⟨0x2190, 2, 0, .ro, 0, .core, false⟩  -- SKIP_INFO.ENGINE
def tokenLeftPoisoned : Fld := ⟨0x2194, 31, 16, .ro, 0, .core, false⟩  -- TOKEN_LEFT.POISONED
def tokenLeftCount : Fld := ⟨0x2194, 15, 0, .ro, 0, .core, false⟩  -- TOKEN_LEFT.COUNT
def queueDbgSelQueue : Fld := ⟨0x2198, 5, 0, .rw, 0, .core, false⟩  -- QUEUE_DBG_SEL.QUEUE
def queueDbgHeadPoison : Fld := ⟨0x219c, 23, 23, .ro, 0, .core, false⟩  -- QUEUE_DBG.HEAD_POISON
def queueDbgHeadEngine : Fld := ⟨0x219c, 22, 20, .ro, 0, .core, false⟩  -- QUEUE_DBG.HEAD_ENGINE
def queueDbgHeadTag : Fld := ⟨0x219c, 15, 0, .ro, 0, .core, false⟩  -- QUEUE_DBG.HEAD_TAG
def queueFillFill : Fld := ⟨0x21a0, 4, 0, .ro, 0, .core, false⟩  -- QUEUE_FILL.FILL
def progCtrlSkipRec : Fld := ⟨0x21b8, 0, 0, .rws, 0, .core, false⟩  -- PROG_CTRL.SKIP_REC
def progCommitCommit : Fld := ⟨0x21bc, 0, 0, .wo, 0, .core, false⟩  -- PROG_COMMIT.COMMIT

-- Table 3-7. Tile register file registers (R78).
def tileCtrlLatchEn : Fld := ⟨0x2200, 0, 0, .rws, 1, .core, false⟩  -- TILE_CTRL.LATCH_EN
def tileResumeTag : Fld := ⟨0x2204, 31, 16, .ro, 0, .core, false⟩  -- TILE_RESUME.TAG
def tileResumeTreg : Fld := ⟨0x2204, 15, 11, .ro, 0, .core, false⟩  -- TILE_RESUME.TREG
def tileResumeStartRow : Fld := ⟨0x2204, 10, 5, .ro, 0, .core, false⟩  -- TILE_RESUME.START_ROW
def tileResumeWadi : Fld := ⟨0x2204, 4, 2, .ro, 0, .core, false⟩  -- TILE_RESUME.WADI
def tileResumePending : Fld := ⟨0x2204, 0, 0, .ro, 0, .core, false⟩  -- TILE_RESUME.PENDING
def tileReuseHitHits : Fld := ⟨0x2208, 31, 0, .ro, 0, .core, false⟩  -- TILE_REUSE_HIT.HITS
def tileReadsReads : Fld := ⟨0x220c, 31, 0, .ro, 0, .core, false⟩  -- TILE_READS.READS
def tileEccUncorr : Fld := ⟨0x2210, 31, 16, .ro, 0, .core, false⟩  -- TILE_ECC.UNCORR
def tileEccCorr : Fld := ⟨0x2210, 15, 0, .ro, 0, .core, false⟩  -- TILE_ECC.CORR
def tileCollideShTag : Fld := ⟨0x2214, 31, 16, .ro, 0, .core, false⟩  -- TILE_COLLIDE.SH_TAG
def tileCollideWrTag : Fld := ⟨0x2214, 15, 0, .ro, 0, .core, false⟩  -- TILE_COLLIDE.WR_TAG
def tileDbgCtrlGo : Fld := ⟨0x2220, 31, 31, .wo, 0, .core, false⟩  -- TILE_DBG_CTRL.GO
def tileDbgCtrlDone : Fld := ⟨0x2220, 30, 30, .ro, 0, .core, false⟩  -- TILE_DBG_CTRL.DONE
def tileDbgCtrlDenied : Fld := ⟨0x2220, 29, 29, .ro, 0, .core, false⟩  -- TILE_DBG_CTRL.DENIED
def tileDbgCtrlTreg : Fld := ⟨0x2220, 15, 11, .rw, 0, .core, false⟩  -- TILE_DBG_CTRL.TREG
def tileDbgCtrlRow : Fld := ⟨0x2220, 10, 5, .rw, 0, .core, false⟩  -- TILE_DBG_CTRL.ROW
def tileDbgCtrlWord : Fld := ⟨0x2220, 4, 0, .rw, 0, .core, false⟩  -- TILE_DBG_CTRL.WORD
def tileDbgDataData : Fld := ⟨0x2224, 31, 0, .ro, 0, .core, false⟩  -- TILE_DBG_DATA.DATA
def tileCommitCommit : Fld := ⟨0x223c, 0, 0, .wo, 0, .core, false⟩  -- TILE_COMMIT.COMMIT

-- Table 4-8. MX registers (R111).
def mxCfgFoldEn : Fld := ⟨0x2300, 1, 1, .ro, 0, .core, false⟩  -- MX_CFG.FOLD_EN
def mxCfgGateEn : Fld := ⟨0x2300, 0, 0, .rws, 1, .core, false⟩  -- MX_CFG.GATE_EN
def mxStateDrainPend : Fld := ⟨0x2304, 27, 24, .ro, 0, .core, false⟩  -- MX_STATE.DRAIN_PEND
def mxStateBankMark : Fld := ⟨0x2304, 23, 16, .ro, 0, .core, false⟩  -- MX_STATE.BANK_MARK
def mxStateArrayBusy : Fld := ⟨0x2304, 15, 12, .ro, 0, .core, false⟩  -- MX_STATE.ARRAY_BUSY
def mxStatePlaneValid : Fld := ⟨0x2304, 11, 0, .ro, 0, .core, false⟩  -- MX_STATE.PLANE_VALID
def mxPassesPasses : Fld := ⟨0x2308, 31, 0, .ro, 0, .core, false⟩  -- MX_PASSES.PASSES
def mxBeatsBeats : Fld := ⟨0x230c, 31, 0, .ro, 0, .core, false⟩  -- MX_BEATS.BEATS
def mxGatedGated : Fld := ⟨0x2310, 31, 0, .ro, 0, .core, false⟩  -- MX_GATED.GATED
def mxCheckFails : Fld := ⟨0x2314, 31, 16, .ro, 0, .core, false⟩  -- MX_CHECK.FAILS
def mxCheckLastTag : Fld := ⟨0x2314, 15, 0, .ro, 0, .core, false⟩  -- MX_CHECK.LAST_TAG
def mxCheckLocArray : Fld := ⟨0x2318, 31, 30, .ro, 0, .core, false⟩  -- MX_CHECK_LOC.ARRAY
def mxCheckLocBank : Fld := ⟨0x2318, 29, 29, .ro, 0, .core, false⟩  -- MX_CHECK_LOC.BANK
def mxCheckLocSeg : Fld := ⟨0x2318, 28, 27, .ro, 0, .core, false⟩  -- MX_CHECK_LOC.SEG
def mxCheckLocSlot : Fld := ⟨0x2318, 26, 20, .ro, 0, .core, false⟩  -- MX_CHECK_LOC.SLOT
def mxCheckLocLocated : Fld := ⟨0x2318, 9, 9, .ro, 0, .core, false⟩  -- MX_CHECK_LOC.LOCATED
def mxCheckLocColumn : Fld := ⟨0x2318, 8, 0, .ro, 0, .core, false⟩  -- MX_CHECK_LOC.COLUMN
def mxCheckD0D0 : Fld := ⟨0x231c, 31, 0, .ro, 0, .core, false⟩  -- MX_CHECK_D0.D0
def mxCheckD1D1 : Fld := ⟨0x2320, 31, 0, .ro, 0, .core, false⟩  -- MX_CHECK_D1.D1
def mxCommitCommit : Fld := ⟨0x233c, 0, 0, .wo, 0, .core, false⟩  -- MX_COMMIT.COMMIT

-- Table 5-7. Range monitor registers (R134).
def numAccSatNeg : Fld := ⟨0x2340, 31, 16, .ro, 0, .core, false⟩  -- NUM_ACC_SAT.NEG
def numAccSatPos : Fld := ⟨0x2340, 15, 0, .ro, 0, .core, false⟩  -- NUM_ACC_SAT.POS
def numAccInvInvalid : Fld := ⟨0x2344, 15, 0, .ro, 0, .core, false⟩  -- NUM_ACC_INV.INVALID
def numUnderUnder : Fld := ⟨0x2348, 31, 0, .ro, 0, .core, false⟩  -- NUM_UNDER.UNDER
def numRqSatSat : Fld := ⟨0x234c, 31, 0, .ro, 0, .core, false⟩  -- NUM_RQ_SAT.SAT
def numRqInvInvalid : Fld := ⟨0x2350, 31, 0, .ro, 0, .core, false⟩  -- NUM_RQ_INV.INVALID
def numBlkClipBlocks : Fld := ⟨0x2354, 31, 16, .ro, 0, .core, false⟩  -- NUM_BLK_CLIP.BLOCKS
def numBlkClipElems : Fld := ⟨0x2354, 15, 0, .ro, 0, .core, false⟩  -- NUM_BLK_CLIP.ELEMS
def numLastLastTag : Fld := ⟨0x2358, 15, 0, .ro, 0, .core, false⟩  -- NUM_LAST.LAST_TAG
def rangeAlarmEnEn : Fld := ⟨0x2378, 6, 0, .rws, 0x7f, .core, false⟩  -- RANGE_ALARM_EN.EN
def numCommitCommit : Fld := ⟨0x237c, 0, 0, .wo, 0, .core, false⟩  -- NUM_COMMIT.COMMIT

-- Table 6-11. VX registers (R159).
def vxCfgGateEn : Fld := ⟨0x2400, 8, 8, .rws, 1, .core, false⟩  -- VX_CFG.GATE_EN
def vxCfgLanes : Fld := ⟨0x2400, 7, 0, .ro, 0x80, .core, false⟩  -- VX_CFG.LANES
def vxCmdsCmds : Fld := ⟨0x2404, 31, 0, .ro, 0, .core, false⟩  -- VX_CMDS.CMDS
def vxBeatsBeats : Fld := ⟨0x2408, 31, 0, .ro, 0, .core, false⟩  -- VX_BEATS.BEATS
def vxStallShLoss : Fld := ⟨0x240c, 31, 16, .ro, 0, .core, false⟩  -- VX_STALL.SH_LOSS
def vxStallBank : Fld := ⟨0x240c, 15, 0, .ro, 0, .core, false⟩  -- VX_STALL.BANK
def vxCheckFails : Fld := ⟨0x2410, 31, 16, .ro, 0, .core, false⟩  -- VX_CHECK.FAILS
def vxCheckLastTag : Fld := ⟨0x2410, 15, 0, .ro, 0, .core, false⟩  -- VX_CHECK.LAST_TAG
def vxCheckAddrStream : Fld := ⟨0x2414, 31, 29, .ro, 0, .core, false⟩  -- VX_CHECK_ADDR.STREAM
def vxCheckAddrAddr : Fld := ⟨0x2414, 23, 0, .ro, 0, .core, false⟩  -- VX_CHECK_ADDR.ADDR
def vxOverOvers : Fld := ⟨0x2418, 31, 16, .ro, 0, .core, false⟩  -- VX_OVER.OVERS
def vxOverLastTag : Fld := ⟨0x2418, 15, 0, .ro, 0, .core, false⟩  -- VX_OVER.LAST_TAG
def vxZeroZero : Fld := ⟨0x241c, 31, 0, .ro, 0, .core, false⟩  -- VX_ZERO.ZERO
def vxCommitCommit : Fld := ⟨0x243c, 0, 0, .wo, 0, .core, false⟩  -- VX_COMMIT.COMMIT

-- Table 9-8. Scratchpad, wadi, M-cache and oasis registers (R249).
def spEccUncorr : Fld := ⟨0x2520, 31, 16, .ro, 0, .core, false⟩  -- SP_ECC.UNCORR
def spEccCorr : Fld := ⟨0x2520, 15, 0, .ro, 0, .core, false⟩  -- SP_ECC.CORR
def spConflictAged : Fld := ⟨0x2524, 31, 16, .ro, 0, .core, false⟩  -- SP_CONFLICT.AGED
def spConflictLocal : Fld := ⟨0x2524, 15, 0, .ro, 0, .core, false⟩  -- SP_CONFLICT.LOCAL
def spRefusedRefused : Fld := ⟨0x2528, 31, 0, .ro, 0, .core, false⟩  -- SP_REFUSED.REFUSED
def spScrubBusy : Fld := ⟨0x252c, 31, 31, .ro, 0, .core, false⟩  -- SP_SCRUB.BUSY
def spScrubHeld : Fld := ⟨0x252c, 30, 30, .ro, 0, .core, false⟩  -- SP_SCRUB.HELD
def wadiStatusMiss : Fld := ⟨0x2530, 31, 24, .ro, 0, .core, false⟩  -- WADI_STATUS.MISS
def wadiStatusNonempty : Fld := ⟨0x2530, 15, 8, .ro, 0, .core, false⟩  -- WADI_STATUS.NONEMPTY
def wadiStatusHead : Fld := ⟨0x2530, 7, 0, .ro, 0, .core, false⟩  -- WADI_STATUS.HEAD
def wadiXmissTag : Fld := ⟨0x2534, 31, 16, .ro, 0, .core, false⟩  -- WADI_XMISS.TAG
def wadiXmissEntry : Fld := ⟨0x2534, 15, 8, .ro, 0, .core, false⟩  -- WADI_XMISS.ENTRY
def wadiXmissWadi : Fld := ⟨0x2534, 2, 0, .ro, 0, .core, false⟩  -- WADI_XMISS.WADI
def wadiXmissLoAddrLo : Fld := ⟨0x2538, 31, 0, .ro, 0, .core, false⟩  -- WADI_XMISS_LO.ADDR_LO
def wadiXmissHiAddrHi : Fld := ⟨0x253c, 31, 0, .ro, 0, .core, false⟩  -- WADI_XMISS_HI.ADDR_HI
def wadiCtrlXmissExp : Fld := ⟨0x2540, 4, 0, .rws, 0x10, .core, false⟩  -- WADI_CTRL.XMISS_EXP
def wadiDroppedEntries : Fld := ⟨0x2544, 31, 16, .ro, 0, .core, false⟩  -- WADI_DROPPED.ENTRIES
def wadiDroppedLate : Fld := ⟨0x2544, 15, 0, .ro, 0, .core, false⟩  -- WADI_DROPPED.LATE
def mcHitsHits : Fld := ⟨0x2548, 31, 0, .ro, 0, .core, false⟩  -- MC_HITS.HITS
def mcMissesMisses : Fld := ⟨0x254c, 31, 0, .ro, 0, .core, false⟩  -- MC_MISSES.MISSES
def mcStatsRefetch : Fld := ⟨0x2550, 31, 16, .ro, 0, .core, false⟩  -- MC_STATS.REFETCH
def mcStatsAcqs : Fld := ⟨0x2550, 15, 0, .ro, 0, .core, false⟩  -- MC_STATS.ACQS
def oasisSelSlot : Fld := ⟨0x2560, 4, 0, .rw, 0, .req, false⟩  -- OASIS_SEL.SLOT
def oasisCfgOpen : Fld := ⟨0x2564, 31, 31, .ro, 0, .oasis, false⟩  -- OASIS_CFG.OPEN
def oasisCfgEpoch : Fld := ⟨0x2564, 30, 30, .ro, 0, .oasis, false⟩  -- OASIS_CFG.EPOCH
def oasisCfgCtx : Fld := ⟨0x2564, 29, 27, .ro, 0, .oasis, false⟩  -- OASIS_CFG.CTX
def oasisCfgId : Fld := ⟨0x2564, 23, 20, .ro, 0, .oasis, false⟩  -- OASIS_CFG.ID
def oasisWinGbase : Fld := ⟨0x2568, 31, 26, .ro, 0, .oasis, false⟩  -- OASIS_WIN.GBASE
def oasisWinLen : Fld := ⟨0x2568, 25, 20, .ro, 0, .oasis, false⟩  -- OASIS_WIN.LEN
def oasisWinPbase : Fld := ⟨0x2568, 15, 10, .ro, 0, .oasis, false⟩  -- OASIS_WIN.PBASE
def oasisBytesBytes : Fld := ⟨0x256c, 31, 0, .ro, 0, .oasis, false⟩  -- OASIS_BYTES.BYTES
def oasisPktsPkts : Fld := ⟨0x2570, 15, 0, .ro, 0, .oasis, false⟩  -- OASIS_PKTS.PKTS
def spCommitCommit : Fld := ⟨0x257c, 0, 0, .wo, 0, .core, false⟩  -- SP_COMMIT.COMMIT

-- Table 9-9. DMA channel registers (R250).
def dmaChSelCh : Fld := ⟨0x2600, 3, 0, .rw, 0, .req, false⟩  -- DMA_CH_SEL.CH
def dmaChStatusState : Fld := ⟨0x2604, 31, 30, .ro, 0, .dma, false⟩  -- DMA_CH_STATUS.STATE
def dmaChStatusPoisoned : Fld := ⟨0x2604, 29, 29, .ro, 0, .dma, false⟩  -- DMA_CH_STATUS.POISONED
def dmaChStatusDidx : Fld := ⟨0x2604, 26, 24, .ro, 0, .dma, false⟩  -- DMA_CH_STATUS.DIDX
def dmaChStatusTag : Fld := ⟨0x2604, 15, 0, .ro, 0, .dma, false⟩  -- DMA_CH_STATUS.TAG
def dmaChHeadDesc : Fld := ⟨0x2608, 23, 0, .ro, 0, .dma, false⟩  -- DMA_CH_HEAD.DESC
def dmaChBytesBytes : Fld := ⟨0x260c, 31, 0, .ro, 0, .dma, false⟩  -- DMA_CH_BYTES.BYTES
def dmaChErrErrs : Fld := ⟨0x2610, 31, 16, .ro, 0, .dma, false⟩  -- DMA_CH_ERR.ERRS
def dmaChErrLast : Fld := ⟨0x2610, 7, 0, .ro, 0, .dma, false⟩  -- DMA_CH_ERR.LAST
def dmaChainsChains : Fld := ⟨0x2614, 31, 0, .ro, 0, .core, false⟩  -- DMA_CHAINS.CHAINS

-- Table 10-5. Ordering registers (R266).
def ordStatusHolding : Fld := ⟨0x2680, 31, 31, .ro, 0, .core, false⟩  -- ORD_STATUS.HOLDING
def ordStatusOutstanding : Fld := ⟨0x2680, 9, 0, .ro, 0, .core, false⟩  -- ORD_STATUS.OUTSTANDING
def ordHoldsHolds : Fld := ⟨0x2684, 31, 0, .ro, 0, .core, false⟩  -- ORD_HOLDS.HOLDS
def ordHoldCycCycles : Fld := ⟨0x2688, 31, 0, .ro, 0, .core, false⟩  -- ORD_HOLD_CYC.CYCLES
def ordHoldMaxMax : Fld := ⟨0x268c, 31, 16, .ro, 0, .core, false⟩  -- ORD_HOLD_MAX.MAX
def ordHoldMaxTag : Fld := ⟨0x268c, 15, 0, .ro, 0, .core, false⟩  -- ORD_HOLD_MAX.TAG
def ordAckErrErrs : Fld := ⟨0x2690, 31, 16, .ro, 0, .core, false⟩  -- ORD_ACK_ERR.ERRS
def ordAckErrLastTag : Fld := ⟨0x2690, 15, 0, .ro, 0, .core, false⟩  -- ORD_ACK_ERR.LAST_TAG
def ordInjWaitCycles : Fld := ⟨0x2694, 31, 0, .ro, 0, .core, false⟩  -- ORD_INJ_WAIT.CYCLES

-- Table 2-6. Per-core grain registers (R54).
def coreGrainMissMissed : Fld := ⟨0x2f00, 31, 16, .ro, 0, .core, false⟩  -- CORE_GRAIN_MISS.MISSED
def coreGrainMissLastTag : Fld := ⟨0x2f00, 15, 0, .ro, 0, .core, false⟩  -- CORE_GRAIN_MISS.LAST_TAG
def coreGrainSlackMinSlack : Fld := ⟨0x2f04, 31, 0, .ro, 0xffffffff, .core, false⟩  -- CORE_GRAIN_SLACK.MIN_SLACK

-- R418 (R418).
def coreIncInc : Fld := ⟨0x2f08, 7, 0, .ro, 0, .core, false⟩  -- CORE_INC.INC

-- Table 14-9. L-port registers (R356).
def linkSelLane : Fld := ⟨0x3000, 5, 0, .rw, 0, .req, false⟩  -- LINK_SEL.LANE
def laneStatusActive : Fld := ⟨0x3004, 31, 31, .ro, 0, .lane, false⟩  -- LANE_STATUS.ACTIVE
def laneStatusInverted : Fld := ⟨0x3004, 30, 30, .ro, 0, .lane, false⟩  -- LANE_STATUS.INVERTED
def laneStatusFault : Fld := ⟨0x3004, 29, 27, .ro, 0, .lane, false⟩  -- LANE_STATUS.FAULT
def laneStatusTxFenced : Fld := ⟨0x3004, 26, 26, .ro, 0, .lane, false⟩  -- LANE_STATUS.TX_FENCED
def laneStatusCorr : Fld := ⟨0x3004, 15, 0, .ro, 0, .lane, false⟩  -- LANE_STATUS.CORR
def linkStatusState : Fld := ⟨0x3008, 31, 28, .ro, 0, .link, false⟩  -- LINK_STATUS.STATE
def linkStatusRev : Fld := ⟨0x3008, 27, 26, .ro, 0, .link, false⟩  -- LINK_STATUS.REV
def linkStatusRxWidth : Fld := ⟨0x3008, 25, 21, .ro, 0, .link, false⟩  -- LINK_STATUS.RX_WIDTH
def linkStatusTxWidth : Fld := ⟨0x3008, 20, 16, .ro, 0, .link, false⟩  -- LINK_STATUS.TX_WIDTH
def linkStatusLink : Fld := ⟨0x3008, 15, 14, .ro, 0, .link, false⟩  -- LINK_STATUS.LINK
def linkStatusFaults : Fld := ⟨0x3008, 13, 8, .ro, 0, .link, false⟩  -- LINK_STATUS.FAULTS
def linkStatusRetrains : Fld := ⟨0x3008, 7, 0, .ro, 0, .link, false⟩  -- LINK_STATUS.RETRAINS
def linkPeerPkg : Fld := ⟨0x300c, 31, 20, .ro, 0, .link, false⟩  -- LINK_PEER.PKG
def linkPeerInst : Fld := ⟨0x300c, 19, 16, .ro, 0, .link, false⟩  -- LINK_PEER.INST
def linkPeerBundle : Fld := ⟨0x300c, 15, 15, .ro, 0, .link, false⟩  -- LINK_PEER.BUNDLE
def linkPeerLink : Fld := ⟨0x300c, 14, 13, .ro, 0, .link, false⟩  -- LINK_PEER.LINK
def linkPeerMatch : Fld := ⟨0x300c, 12, 12, .ro, 0, .link, false⟩  -- LINK_PEER.MATCH
def linkFeatPeerPeer : Fld := ⟨0x3010, 31, 0, .ro, 0, .link, false⟩  -- LINK_FEAT_PEER.PEER
def linkFeatActActive : Fld := ⟨0x3014, 31, 0, .ro, 0, .link, false⟩  -- LINK_FEAT_ACT.ACTIVE
def linkDelayDelay : Fld := ⟨0x3018, 31, 0, .ro, 0, .link, false⟩  -- LINK_DELAY.DELAY
def linkErrLost : Fld := ⟨0x301c, 31, 16, .ro, 0, .link, false⟩  -- LINK_ERR.LOST
def linkErrReplays : Fld := ⟨0x301c, 15, 0, .ro, 0, .link, false⟩  -- LINK_ERR.REPLAYS
def linkLostNotReplayed : Fld := ⟨0x3020, 31, 16, .ro, 0, .link, false⟩  -- LINK_LOST.NOT_REPLAYED
def linkLostDiscard : Fld := ⟨0x3020, 15, 0, .ro, 0, .link, false⟩  -- LINK_LOST.DISCARD
def linkFwdFwdLate : Fld := ⟨0x3024, 31, 16, .ro, 0, .link, false⟩  -- LINK_FWD.FWD_LATE
def linkFwdFwd : Fld := ⟨0x3024, 15, 0, .ro, 0, .link, false⟩  -- LINK_FWD.FWD
def linkCtrlRetrain : Fld := ⟨0x3028, 0, 0, .wo, 0, .link, false⟩  -- LINK_CTRL.RETRAIN
def lpCfgMaxrev : Fld := ⟨0x302c, 5, 4, .rws, 3, .one, false⟩  -- LP_CFG.MAXREV
def lpCfgSplitB : Fld := ⟨0x302c, 3, 2, .rws, 0, .one, false⟩  -- LP_CFG.SPLIT_B
def lpCfgSplitA : Fld := ⟨0x302c, 1, 0, .rws, 0, .one, false⟩  -- LP_CFG.SPLIT_A
def lpFeatEnEn : Fld := ⟨0x3030, 31, 0, .rws, 0x7f, .one, false⟩  -- LP_FEAT_EN.EN
def lpQuarB : Fld := ⟨0x3034, 7, 4, .ro, 0, .one, false⟩  -- LP_QUAR.B
def lpQuarA : Fld := ⟨0x3034, 3, 0, .ro, 0, .one, false⟩  -- LP_QUAR.A
def lpIncInc : Fld := ⟨0x3038, 7, 0, .ro, 0, .one, false⟩  -- LP_INC.INC
def slotSelDir : Fld := ⟨0x3040, 31, 31, .rw, 0, .req, false⟩  -- SLOT_SEL.DIR
def slotSelBundle : Fld := ⟨0x3040, 30, 30, .rw, 0, .req, false⟩  -- SLOT_SEL.BUNDLE
def slotSelIndex : Fld := ⟨0x3040, 9, 0, .rw, 0, .req, false⟩  -- SLOT_SEL.INDEX
def slotEntryOwners : Fld := ⟨0x3044, 31, 0, .rws, 0, .slot, false⟩  -- SLOT_ENTRY.OWNERS
def flowSelFlow : Fld := ⟨0x3048, 5, 0, .rw, 0, .req, false⟩  -- FLOW_SEL.FLOW
def flowCfgValid : Fld := ⟨0x304c, 31, 31, .rws, 0, .flow, false⟩  -- FLOW_CFG.VALID
def flowCfgOutBundle : Fld := ⟨0x304c, 30, 30, .rws, 0, .flow, false⟩  -- FLOW_CFG.OUT_BUNDLE
def flowCfgOutLink : Fld := ⟨0x304c, 29, 28, .rws, 0, .flow, false⟩  -- FLOW_CFG.OUT_LINK
def flowCfgLag : Fld := ⟨0x304c, 5, 0, .rws, 0, .flow, false⟩  -- FLOW_CFG.LAG
def routeSelPkg : Fld := ⟨0x3050, 11, 0, .rw, 0, .req, false⟩  -- ROUTE_SEL.PKG
def routeAValid : Fld := ⟨0x3054, 7, 7, .rws, 0, .route, false⟩  -- ROUTE.A_VALID
def routeALink : Fld := ⟨0x3054, 5, 4, .rws, 0, .route, false⟩  -- ROUTE.A_LINK
def routeBValid : Fld := ⟨0x3054, 3, 3, .rws, 0, .route, false⟩  -- ROUTE.B_VALID
def routeBLink : Fld := ⟨0x3054, 1, 0, .rws, 0, .route, false⟩  -- ROUTE.B_LINK
def lpCommitCommit : Fld := ⟨0x30fc, 0, 0, .wo, 0, .one, false⟩  -- LP_COMMIT.COMMIT

-- Table 13-9. M-port registers (R332).
def mpStnSelStn : Fld := ⟨0x4000, 2, 0, .rw, 0, .req, false⟩  -- MP_STN_SEL.STN
def mpStnStatusReady : Fld := ⟨0x4004, 31, 31, .ro, 0, .stn, false⟩  -- MP_STN_STATUS.READY
def mpStnStatusRdOut : Fld := ⟨0x4004, 30, 21, .ro, 0, .stn, false⟩  -- MP_STN_STATUS.RD_OUT
def mpStnStatusWrOut : Fld := ⟨0x4004, 20, 11, .ro, 0, .stn, false⟩  -- MP_STN_STATUS.WR_OUT
def mpStnCreditRd : Fld := ⟨0x4008, 31, 16, .ro, 0, .stn, false⟩  -- MP_STN_CREDIT.RD
def mpStnCreditWr : Fld := ⟨0x4008, 15, 0, .ro, 0, .stn, false⟩  -- MP_STN_CREDIT.WR
def mpRdGranGran : Fld := ⟨0x400c, 31, 0, .ro, 0, .stn, false⟩  -- MP_RD_GRAN.GRAN
def mpWrGranGran : Fld := ⟨0x4010, 31, 0, .ro, 0, .stn, false⟩  -- MP_WR_GRAN.GRAN
def mpChkInMismatch : Fld := ⟨0x4014, 31, 16, .ro, 0, .stn, false⟩  -- MP_CHK_IN.MISMATCH
def mpChkInErrors : Fld := ⟨0x4014, 15, 0, .ro, 0, .stn, false⟩  -- MP_CHK_IN.ERRORS
def mpChkGenGen : Fld := ⟨0x4018, 31, 0, .ro, 0, .stn, false⟩  -- MP_CHK_GEN.GEN
def mpChkOutMismatch : Fld := ⟨0x401c, 31, 16, .ro, 0, .stn, false⟩  -- MP_CHK_OUT.MISMATCH
def mpChkOutPoison : Fld := ⟨0x401c, 15, 0, .ro, 0, .stn, false⟩  -- MP_CHK_OUT.POISON
def mpXmissXmiss : Fld := ⟨0x4020, 31, 16, .ro, 0, .stn, false⟩  -- MP_XMISS.XMISS
def mpXmissResolves : Fld := ⟨0x4020, 15, 0, .ro, 0, .stn, false⟩  -- MP_XMISS.RESOLVES
def ncuClipBlocks : Fld := ⟨0x4024, 31, 16, .ro, 0, .stn, false⟩  -- NCU_CLIP.BLOCKS
def ncuClipElems : Fld := ⟨0x4024, 15, 0, .ro, 0, .stn, false⟩  -- NCU_CLIP.ELEMS
def ncuInvNanBlocks : Fld := ⟨0x4028, 31, 16, .ro, 0, .stn, false⟩  -- NCU_INV.NAN_BLOCKS
def ncuInvOvf : Fld := ⟨0x4028, 15, 0, .ro, 0, .stn, false⟩  -- NCU_INV.OVF
def ncuFailGroups : Fld := ⟨0x402c, 31, 16, .ro, 0, .stn, false⟩  -- NCU_FAIL.GROUPS
def mpCtrlCkvReq : Fld := ⟨0x4030, 0, 0, .rws, 0, .one, false⟩  -- MP_CTRL.CKV_REQ
def mpCommitCommit : Fld := ⟨0x403c, 0, 0, .wo, 0, .one, false⟩  -- MP_COMMIT.COMMIT

-- Table 13-10. N-port registers (R333).
def npModSelMod : Fld := ⟨0x5000, 1, 0, .rw, 0, .req, false⟩  -- NP_MOD_SEL.MOD
def npModStatusUp : Fld := ⟨0x5004, 31, 31, .ro, 0, .mod, false⟩  -- NP_MOD_STATUS.UP
def npModStatusRev : Fld := ⟨0x5004, 30, 29, .ro, 0, .mod, false⟩  -- NP_MOD_STATUS.REV
def npModStatusSpeed : Fld := ⟨0x5004, 28, 26, .ro, 0, .mod, false⟩  -- NP_MOD_STATUS.SPEED
def npModStatusX32 : Fld := ⟨0x5004, 25, 25, .ro, 0, .mod, false⟩  -- NP_MOD_STATUS.X32
def npModStatusPeerInst : Fld := ⟨0x5004, 19, 16, .ro, 0, .mod, false⟩  -- NP_MOD_STATUS.PEER_INST
def npModStatusPeerMod : Fld := ⟨0x5004, 15, 14, .ro, 0, .mod, false⟩  -- NP_MOD_STATUS.PEER_MOD
def npModStatusRetrains : Fld := ⟨0x5004, 7, 0, .ro, 0, .mod, false⟩  -- NP_MOD_STATUS.RETRAINS
def npRouteRoute : Fld := ⟨0x5008, 31, 0, .rws, 0, .one, false⟩  -- NP_ROUTE.ROUTE
def npRouteEnEn : Fld := ⟨0x500c, 15, 0, .rws, 0, .one, false⟩  -- NP_ROUTE_EN.EN
def npTxFrames : Fld := ⟨0x5010, 31, 0, .ro, 0, .mod, false⟩  -- NP_TX.FRAMES
def npRxFrames : Fld := ⟨0x5014, 31, 0, .ro, 0, .mod, false⟩  -- NP_RX.FRAMES
def npChkNaks : Fld := ⟨0x5018, 31, 16, .ro, 0, .mod, false⟩  -- NP_CHK.NAKS
def npChkMarked : Fld := ⟨0x5018, 15, 0, .ro, 0, .mod, false⟩  -- NP_CHK.MARKED
def npFwdFrames : Fld := ⟨0x501c, 31, 0, .ro, 0, .mod, false⟩  -- NP_FWD.FRAMES
def npDownDowns : Fld := ⟨0x5020, 15, 0, .ro, 0, .mod, false⟩  -- NP_DOWN.DOWNS
def npCommitCommit : Fld := ⟨0x503c, 0, 0, .wo, 0, .one, false⟩  -- NP_COMMIT.COMMIT

-- Table 11-6. Synchronisation registers (R285).
def syncCtxSelCtx : Fld := ⟨0x6000, 2, 0, .rw, 0, .req, false⟩  -- SYNC_CTX_SEL.CTX
def syncCtxCfgResiduePoison : Fld := ⟨0x6004, 8, 8, .ro, 1, .syncCtx, false⟩  -- SYNC_CTX_CFG.RESIDUE_POISON
def syncCtxCfgTmoExp : Fld := ⟨0x6004, 4, 0, .ro, 0x14, .syncCtx, false⟩  -- SYNC_CTX_CFG.TMO_EXP
def syncCtxAllocHubSems : Fld := ⟨0x6008, 28, 16, .ro, 0, .syncCtx, false⟩  -- SYNC_CTX_ALLOC.HUB_SEMS
def syncCtxAllocBarriers : Fld := ⟨0x6008, 8, 0, .ro, 0, .syncCtx, false⟩  -- SYNC_CTX_ALLOC.BARRIERS
def syncCtxFaultCountFaults : Fld := ⟨0x600c, 31, 16, .ro, 0, .syncCtx, false⟩  -- SYNC_CTX_FAULT.COUNT_FAULTS
def syncCtxFaultOverruns : Fld := ⟨0x600c, 15, 0, .ro, 0, .syncCtx, false⟩  -- SYNC_CTX_FAULT.OVERRUNS
def syncCtxWaitTimeouts : Fld := ⟨0x6010, 31, 16, .ro, 0, .syncCtx, false⟩  -- SYNC_CTX_WAIT.TIMEOUTS
def syncCtxWaitOwnerGone : Fld := ⟨0x6010, 15, 0, .ro, 0, .syncCtx, false⟩  -- SYNC_CTX_WAIT.OWNER_GONE
def syncCtxResidResidue : Fld := ⟨0x6014, 31, 16, .ro, 0, .syncCtx, false⟩  -- SYNC_CTX_RESID.RESIDUE
def syncCtxResidLate : Fld := ⟨0x6014, 15, 0, .ro, 0, .syncCtx, false⟩  -- SYNC_CTX_RESID.LATE
def syncCtxLastTag : Fld := ⟨0x6018, 31, 16, .ro, 0, .syncCtx, false⟩  -- SYNC_CTX_LAST.TAG
def syncCtxLastId : Fld := ⟨0x6018, 15, 0, .ro, 0, .syncCtx, false⟩  -- SYNC_CTX_LAST.ID
def syncWaitingCores : Fld := ⟨0x601c, 31, 0, .ro, 0, .one, false⟩  -- SYNC_WAITING.CORES
def syncDbgSelSpace : Fld := ⟨0x6040, 31, 30, .rw, 0, .req, false⟩  -- SYNC_DBG_SEL.SPACE
def syncDbgSelCore : Fld := ⟨0x6040, 28, 24, .rw, 0, .req, false⟩  -- SYNC_DBG_SEL.CORE
def syncDbgSelIndex : Fld := ⟨0x6040, 11, 0, .rw, 0, .req, false⟩  -- SYNC_DBG_SEL.INDEX
def syncDbgStateDenied : Fld := ⟨0x6044, 31, 31, .ro, 0, .obj, false⟩  -- SYNC_DBG_STATE.DENIED
def syncDbgStateValid : Fld := ⟨0x6044, 30, 30, .ro, 0, .obj, false⟩  -- SYNC_DBG_STATE.VALID
def syncDbgStateOwner : Fld := ⟨0x6044, 29, 27, .ro, 0, .obj, false⟩  -- SYNC_DBG_STATE.OWNER
def syncDbgStatePoison : Fld := ⟨0x6044, 26, 26, .ro, 0, .obj, false⟩  -- SYNC_DBG_STATE.POISON
def syncDbgStateGone : Fld := ⟨0x6044, 25, 25, .ro, 0, .obj, false⟩  -- SYNC_DBG_STATE.GONE
def syncDbgStatePhase : Fld := ⟨0x6044, 19, 19, .ro, 0, .obj, false⟩  -- SYNC_DBG_STATE.PHASE
def syncDbgStateMode : Fld := ⟨0x6044, 18, 18, .ro, 0, .obj, false⟩  -- SYNC_DBG_STATE.MODE
def syncDbgStateScope : Fld := ⟨0x6044, 17, 16, .ro, 0, .obj, false⟩  -- SYNC_DBG_STATE.SCOPE
def syncDbgStateWaiters : Fld := ⟨0x6044, 5, 0, .ro, 0, .obj, false⟩  -- SYNC_DBG_STATE.WAITERS
def syncDbgCountCount : Fld := ⟨0x6048, 31, 0, .ro, 0, .obj, false⟩  -- SYNC_DBG_COUNT.COUNT
def syncDbgRefRef : Fld := ⟨0x604c, 31, 0, .ro, 0, .obj, false⟩  -- SYNC_DBG_REF.REF
def syncDbgLeafPend : Fld := ⟨0x6050, 3, 2, .ro, 0, .obj, false⟩  -- SYNC_DBG_LEAF.PEND
def syncDbgLeafLphase : Fld := ⟨0x6050, 1, 1, .ro, 0, .obj, false⟩  -- SYNC_DBG_LEAF.LPHASE
def syncDbgLeafWaiting : Fld := ⟨0x6050, 0, 0, .ro, 0, .obj, false⟩  -- SYNC_DBG_LEAF.WAITING
def syncDbgValueValue : Fld := ⟨0x6054, 31, 0, .rw, 0, .one, false⟩  -- SYNC_DBG_VALUE.VALUE
def syncDbgCtrlDone : Fld := ⟨0x6058, 31, 31, .ro, 0, .one, false⟩  -- SYNC_DBG_CTRL.DONE
def syncDbgCtrlClear : Fld := ⟨0x6058, 2, 2, .wo, 0, .one, false⟩  -- SYNC_DBG_CTRL.CLEAR
def syncDbgCtrlRelease : Fld := ⟨0x6058, 1, 1, .wo, 0, .one, false⟩  -- SYNC_DBG_CTRL.RELEASE
def syncDbgCtrlSet : Fld := ⟨0x6058, 0, 0, .wo, 0, .one, false⟩  -- SYNC_DBG_CTRL.SET

-- Table 12-7. Serving registers (R311).
def stuStatusBuilding : Fld := ⟨0x7000, 31, 31, .ro, 0, .one, false⟩  -- STU_STATUS.BUILDING
def stuStatusBuildCtx : Fld := ⟨0x7000, 30, 28, .ro, 0, .one, false⟩  -- STU_STATUS.BUILD_CTX
def stuStatusReady : Fld := ⟨0x7000, 13, 0, .ro, 0, .one, false⟩  -- STU_STATUS.READY
def stuCtrlStealEn : Fld := ⟨0x7004, 0, 0, .rws, 1, .one, false⟩  -- STU_CTRL.STEAL_EN
def stuSkewSkew : Fld := ⟨0x7008, 31, 0, .ro, 0, .one, true⟩  -- STU_SKEW.SKEW
def stealStatsRefused : Fld := ⟨0x700c, 31, 16, .ro, 0, .one, false⟩  -- STEAL_STATS.REFUSED
def stealStatsGranted : Fld := ⟨0x700c, 15, 0, .ro, 0, .one, false⟩  -- STEAL_STATS.GRANTED
def stuCtxSelCtx : Fld := ⟨0x7010, 2, 0, .rw, 0, .req, false⟩  -- STU_CTX_SEL.CTX
def stuCtxCfgValid : Fld := ⟨0x7014, 31, 31, .ro, 0, .stuCtx, false⟩  -- STU_CTX_CFG.VALID
def stuCtxCfgClass : Fld := ⟨0x7014, 30, 30, .ro, 0, .stuCtx, false⟩  -- STU_CTX_CFG.CLASS
def stuCtxCfgState : Fld := ⟨0x7014, 29, 28, .ro, 0, .stuCtx, false⟩  -- STU_CTX_CFG.STATE
def stuCtxCfgAbortLimit : Fld := ⟨0x7014, 27, 24, .ro, 4, .stuCtx, false⟩  -- STU_CTX_CFG.ABORT_LIMIT
def stuCtxCfgMaxseq : Fld := ⟨0x7014, 12, 0, .ro, 0, .stuCtx, false⟩  -- STU_CTX_CFG.MAXSEQ
def stuCtxMaskCores : Fld := ⟨0x7018, 31, 0, .ro, 0, .stuCtx, false⟩  -- STU_CTX_MASK.CORES
def stuCtxStepStep : Fld := ⟨0x701c, 31, 0, .ro, 0, .stuCtx, false⟩  -- STU_CTX_STEP.STEP
def stuCtxStartGrainLo : Fld := ⟨0x7020, 31, 0, .ro, 0, .stuCtx, false⟩  -- STU_CTX_START.GRAIN_LO
def stuCtxCaravanParcels : Fld := ⟨0x7024, 20, 0, .ro, 0, .stuCtx, false⟩  -- STU_CTX_CARAVAN.PARCELS
def stuCtxNactNact : Fld := ⟨0x7028, 13, 0, .ro, 0, .stuCtx, false⟩  -- STU_CTX_NACT.NACT
def stuCtxEndedEnded : Fld := ⟨0x702c, 20, 0, .ro, 0, .stuCtx, false⟩  -- STU_CTX_ENDED.ENDED
def stuCtxJobsLoJobsLo : Fld := ⟨0x7030, 31, 0, .ro, 0, .stuCtx, false⟩  -- STU_CTX_JOBS_LO.JOBS_LO
def stuCtxJobsHiJobsHi : Fld := ⟨0x7034, 15, 0, .ro, 0, .req, false⟩  -- STU_CTX_JOBS_HI.JOBS_HI
def stuCtxAbortAborts : Fld := ⟨0x7038, 31, 16, .ro, 0, .stuCtx, false⟩  -- STU_CTX_ABORT.ABORTS
def stuCtxAbortRun : Fld := ⟨0x7038, 3, 0, .ro, 0, .stuCtx, false⟩  -- STU_CTX_ABORT.RUN
def stuCtxDeferDeferred : Fld := ⟨0x703c, 13, 0, .ro, 0, .stuCtx, false⟩  -- STU_CTX_DEFER.DEFERRED
def stuCtxPoolFree : Fld := ⟨0x7040, 20, 0, .ro, 0, .stuCtx, false⟩  -- STU_CTX_POOL.FREE
def stuCtxLateLate : Fld := ⟨0x7044, 31, 16, .ro, 0, .stuCtx, false⟩  -- STU_CTX_LATE.LATE
def stuCtxLateSampleFaults : Fld := ⟨0x7044, 15, 0, .ro, 0, .stuCtx, false⟩  -- STU_CTX_LATE.SAMPLE_FAULTS
def stuCtxWaitMaxWait : Fld := ⟨0x7048, 31, 0, .ro, 0, .stuCtx, false⟩  -- STU_CTX_WAIT.MAX_WAIT
def stuCommitCommit : Fld := ⟨0x707c, 0, 0, .wo, 0, .one, false⟩  -- STU_COMMIT.COMMIT

-- Table 17-8. Power, clock and reset registers (R439).
def pwrStatusStage : Fld := ⟨0x8000, 31, 29, .ro, 0, .one, false⟩  -- PWR_STATUS.STAGE
def corePwrOn : Fld := ⟨0x8004, 31, 0, .ro, 0, .one, false⟩  -- CORE_PWR.ON
def corePwrStReady : Fld := ⟨0x8008, 31, 0, .ro, 0, .one, false⟩  -- CORE_PWR_ST.READY
def portPwrReady : Fld := ⟨0x800c, 2, 0, .ro, 0, .one, false⟩  -- PORT_PWR.READY
def clkStatusPllLock : Fld := ⟨0x8010, 31, 31, .ro, 0, .one, false⟩  -- CLK_STATUS.PLL_LOCK
def clkStatusStep : Fld := ⟨0x8010, 30, 28, .ro, 0, .one, false⟩  -- CLK_STATUS.STEP
def clkStatusSrc : Fld := ⟨0x8010, 4, 0, .ro, 0, .one, false⟩  -- CLK_STATUS.SRC
def clkCtrlLimit : Fld := ⟨0x8014, 2, 0, .rws, 0, .one, false⟩  -- CLK_CTRL.LIMIT
def pcapCfgPpeak : Fld := ⟨0x8018, 15, 8, .rws, 0x6e, .one, false⟩  -- PCAP_CFG.PPEAK
def pcapCfgPsus : Fld := ⟨0x8018, 7, 0, .rws, 0x64, .one, false⟩  -- PCAP_CFG.PSUS
def pwrEstBucket : Fld := ⟨0x801c, 31, 16, .ro, 0x4e2, .one, false⟩  -- PWR_EST.BUCKET
def pwrEstPower : Fld := ⟨0x801c, 11, 0, .ro, 0, .one, false⟩  -- PWR_EST.POWER
def droopCfgHold : Fld := ⟨0x8020, 15, 8, .rws, 0x10, .one, false⟩  -- DROOP_CFG.HOLD
def droopCfgThr : Fld := ⟨0x8020, 7, 0, .rws, 0x8a, .one, false⟩  -- DROOP_CFG.THR
def droopCntEvents : Fld := ⟨0x8024, 31, 0, .ro, 0, .one, true⟩  -- DROOP_CNT.EVENTS
def thermTjMax : Fld := ⟨0x8028, 31, 24, .ro, 0, .one, false⟩  -- THERM.TJ_MAX
def thermLimit : Fld := ⟨0x8028, 23, 16, .rws, 0x69, .one, false⟩  -- THERM.LIMIT
def thermTj : Fld := ⟨0x8028, 7, 0, .ro, 0, .one, false⟩  -- THERM.TJ
def rstCtrlWarm : Fld := ⟨0x8040, 0, 0, .wo, 0, .one, false⟩  -- RST_CTRL.WARM
def coreRstCores : Fld := ⟨0x8044, 31, 0, .wo, 0, .one, false⟩  -- CORE_RST.CORES
def portRstH : Fld := ⟨0x8048, 17, 17, .wo, 0, .one, false⟩  -- PORT_RST.H
def portRstL : Fld := ⟨0x8048, 16, 16, .wo, 0, .one, false⟩  -- PORT_RST.L
def portRstMod : Fld := ⟨0x8048, 11, 8, .wo, 0, .one, false⟩  -- PORT_RST.MOD
def portRstStn : Fld := ⟨0x8048, 5, 0, .wo, 0, .one, false⟩  -- PORT_RST.STN
def rstCauseWarms : Fld := ⟨0x804c, 15, 8, .ro, 0, .one, true⟩  -- RST_CAUSE.WARMS
def rstCauseKind : Fld := ⟨0x804c, 1, 0, .ro, 0, .one, true⟩  -- RST_CAUSE.KIND
def selftestDone : Fld := ⟨0x8050, 31, 31, .ro, 0, .one, false⟩  -- SELFTEST.DONE
def selftestPass : Fld := ⟨0x8050, 30, 30, .ro, 0, .one, false⟩  -- SELFTEST.PASS
def selftestCoresFailed : Fld := ⟨0x8054, 31, 0, .ro, 0, .one, false⟩  -- SELFTEST_CORES.FAILED
def pwrCommitCommit : Fld := ⟨0x807c, 0, 0, .wo, 0, .one, false⟩  -- PWR_COMMIT.COMMIT

-- Table 2-5. Timebase registers (R53).
def grainNowLoCountLo : Fld := ⟨0x8800, 31, 0, .ro, 0, .one, false⟩  -- GRAIN_NOW_LO.COUNT_LO
def grainNowHiCountHi : Fld := ⟨0x8804, 15, 0, .ro, 0, .req, false⟩  -- GRAIN_NOW_HI.COUNT_HI
def grainStatusCyc : Fld := ⟨0x8808, 12, 8, .ro, 0, .one, false⟩  -- GRAIN_STATUS.CYC
def grainStatusSyncErr : Fld := ⟨0x8808, 4, 4, .w1c, 0, .one, false⟩  -- GRAIN_STATUS.SYNC_ERR
def grainStatusHoldExp : Fld := ⟨0x8808, 3, 3, .w1c, 0, .one, false⟩  -- GRAIN_STATUS.HOLD_EXP
def grainStatusDisc : Fld := ⟨0x8808, 2, 2, .w1c, 0, .one, false⟩  -- GRAIN_STATUS.DISC
def grainStatusLoss : Fld := ⟨0x8808, 1, 1, .w1c, 0, .one, false⟩  -- GRAIN_STATUS.LOSS
def grainStatusLocked : Fld := ⟨0x8808, 0, 0, .ro, 0, .one, false⟩  -- GRAIN_STATUS.LOCKED
def grainCtrlHoldLimit : Fld := ⟨0x880c, 23, 12, .rws, 0, .one, false⟩  -- GRAIN_CTRL.HOLD_LIMIT
def grainCtrlLossLimit : Fld := ⟨0x880c, 7, 0, .rws, 0x40, .one, false⟩  -- GRAIN_CTRL.LOSS_LIMIT
def grainSyncTrim : Fld := ⟨0x8810, 15, 8, .ro, 0, .one, false⟩  -- GRAIN_SYNC.TRIM
def grainSyncUplink : Fld := ⟨0x8810, 3, 1, .rws, 0, .one, false⟩  -- GRAIN_SYNC.UPLINK
def grainSyncSyncEn : Fld := ⟨0x8810, 0, 0, .rws, 0, .one, false⟩  -- GRAIN_SYNC.SYNC_EN
def grainMissCntMissed : Fld := ⟨0x8814, 31, 0, .ro, 0, .one, true⟩  -- GRAIN_MISS_CNT.MISSED
def grainOffsetOffset : Fld := ⟨0x8818, 31, 0, .ro, 0, .one, false⟩  -- GRAIN_OFFSET.OFFSET
def grainDelayDelay : Fld := ⟨0x881c, 31, 0, .ro, 0, .one, false⟩  -- GRAIN_DELAY.DELAY
def grainCommitCommit : Fld := ⟨0x883c, 0, 0, .wo, 0, .one, false⟩  -- GRAIN_COMMIT.COMMIT

-- Table 16-9. Health and integrity registers (R417).
def hmRiskRaw : Fld := ⟨0x9000, 23, 16, .ro, 0, .one, false⟩  -- HM_RISK.RAW
def hmRiskRisk : Fld := ⟨0x9000, 7, 0, .ro, 0, .one, false⟩  -- HM_RISK.RISK
def hmIn0Ce : Fld := ⟨0x9004, 31, 16, .ro, 0, .one, false⟩  -- HM_IN0.CE
def hmIn0Droop : Fld := ⟨0x9004, 15, 0, .ro, 0, .one, false⟩  -- HM_IN0.DROOP
def hmIn1Temp : Fld := ⟨0x9008, 31, 24, .ro, 0, .one, false⟩  -- HM_IN1.TEMP
def hmIn1Link : Fld := ⟨0x9008, 23, 0, .ro, 0, .one, false⟩  -- HM_IN1.LINK
def hmWeightWCe : Fld := ⟨0x900c, 31, 24, .rws, 4, .one, false⟩  -- HM_WEIGHT.W_CE
def hmWeightWDroop : Fld := ⟨0x900c, 23, 16, .rws, 8, .one, false⟩  -- HM_WEIGHT.W_DROOP
def hmWeightWTemp : Fld := ⟨0x900c, 15, 8, .rws, 2, .one, false⟩  -- HM_WEIGHT.W_TEMP
def hmWeightWLink : Fld := ⟨0x900c, 7, 0, .rws, 3, .one, false⟩  -- HM_WEIGHT.W_LINK
def hmCfgTempBase : Fld := ⟨0x9010, 31, 24, .rws, 0x55, .one, false⟩  -- HM_CFG.TEMP_BASE
def hmCfgDecay : Fld := ⟨0x9010, 23, 16, .rws, 0x10, .one, false⟩  -- HM_CFG.DECAY
def hmCfgAlarm : Fld := ⟨0x9010, 15, 8, .rws, 0xc0, .one, false⟩  -- HM_CFG.ALARM
def snapCfgEn : Fld := ⟨0x9014, 31, 31, .rws, 0, .one, false⟩  -- SNAP_CFG.EN
def snapCfgCtxEn : Fld := ⟨0x9014, 23, 16, .rws, 0, .one, false⟩  -- SNAP_CFG.CTX_EN
def snapCfgIvMax : Fld := ⟨0x9014, 12, 8, .rws, 0x16, .one, false⟩  -- SNAP_CFG.IV_MAX
def snapCfgIvMin : Fld := ⟨0x9014, 4, 0, .rws, 0x10, .one, false⟩  -- SNAP_CFG.IV_MIN
def snapStageLoAddr : Fld := ⟨0x9018, 31, 0, .rws, 0, .one, false⟩  -- SNAP_STAGE_LO.ADDR
def snapStageHiAddr : Fld := ⟨0x901c, 31, 0, .rws, 0, .one, false⟩  -- SNAP_STAGE_HI.ADDR
def snapImageLoAddr : Fld := ⟨0x9020, 31, 0, .rws, 0, .one, false⟩  -- SNAP_IMAGE_LO.ADDR
def snapImageHiAddr : Fld := ⟨0x9024, 31, 0, .rws, 0, .one, false⟩  -- SNAP_IMAGE_HI.ADDR
def snapMirrorLoOff : Fld := ⟨0x9028, 31, 0, .rws, 0, .one, false⟩  -- SNAP_MIRROR_LO.OFF
def snapMirrorHiOff : Fld := ⟨0x902c, 31, 0, .rws, 0, .one, false⟩  -- SNAP_MIRROR_HI.OFF
def snapStatusState : Fld := ⟨0x9030, 31, 30, .ro, 0, .one, false⟩  -- SNAP_STATUS.STATE
def snapStatusBuf : Fld := ⟨0x9030, 29, 29, .ro, 0, .one, false⟩  -- SNAP_STATUS.BUF
def snapStatusLate : Fld := ⟨0x9030, 15, 0, .ro, 0, .one, false⟩  -- SNAP_STATUS.LATE
def snapSeqSeq : Fld := ⟨0x9034, 31, 0, .ro, 0, .one, false⟩  -- SNAP_SEQ.SEQ
def snapNextGrain : Fld := ⟨0x9038, 31, 0, .ro, 0, .one, false⟩  -- SNAP_NEXT.GRAIN
def snapFailFails : Fld := ⟨0x903c, 31, 16, .ro, 0, .one, false⟩  -- SNAP_FAIL.FAILS
def snapFailRestores : Fld := ⟨0x903c, 15, 0, .ro, 0, .one, false⟩  -- SNAP_FAIL.RESTORES
def snapRestoreGo : Fld := ⟨0x9040, 31, 31, .wo, 0, .one, false⟩  -- SNAP_RESTORE.GO
def snapRestoreDone : Fld := ⟨0x9040, 30, 30, .ro, 0, .one, false⟩  -- SNAP_RESTORE.DONE
def snapRestoreErr : Fld := ⟨0x9040, 29, 29, .ro, 0, .one, false⟩  -- SNAP_RESTORE.ERR
def snapRestorePages : Fld := ⟨0x9040, 28, 28, .rw, 0, .one, false⟩  -- SNAP_RESTORE.PAGES
def snapRestoreBuf : Fld := ⟨0x9040, 27, 27, .rw, 0, .one, false⟩  -- SNAP_RESTORE.BUF
def snapRestoreCtx : Fld := ⟨0x9040, 2, 0, .rw, 0, .one, false⟩  -- SNAP_RESTORE.CTX
def fenceCores : Fld := ⟨0x9044, 31, 0, .wo, 0, .one, false⟩  -- FENCE.CORES
def fencedCores : Fld := ⟨0x9048, 31, 0, .ro, 0, .one, false⟩  -- FENCED.CORES
def intEgressHost : Fld := ⟨0x9058, 31, 16, .ro, 0, .one, false⟩  -- INT_EGRESS.HOST
def staleReplies : Fld := ⟨0x905c, 31, 0, .ro, 0, .one, false⟩  -- STALE.REPLIES
def chkCfgChkLimit : Fld := ⟨0x9060, 15, 8, .rws, 4, .one, false⟩  -- CHK_CFG.CHK_LIMIT
def chkCfgChkWin : Fld := ⟨0x9060, 4, 0, .rws, 0x10, .one, false⟩  -- CHK_CFG.CHK_WIN
def recBaseLoAddr : Fld := ⟨0x9064, 31, 0, .rws, 0, .one, false⟩  -- REC_BASE_LO.ADDR
def recBaseHiAddr : Fld := ⟨0x9068, 31, 0, .rws, 0, .one, false⟩  -- REC_BASE_HI.ADDR
def recSeqSeq : Fld := ⟨0x906c, 31, 0, .ro, 1, .one, false⟩  -- REC_SEQ.SEQ
def recDropDropped : Fld := ⟨0x9070, 31, 0, .ro, 0, .one, true⟩  -- REC_DROP.DROPPED
def hmCommitCommit : Fld := ⟨0x90fc, 0, 0, .wo, 0, .one, false⟩  -- HM_COMMIT.COMMIT

-- Table 16-10. Debug and trace registers (R419).
def traceBaseLoAddr : Fld := ⟨0xa000, 31, 0, .rws, 0, .one, false⟩  -- TRACE_BASE_LO.ADDR
def traceBaseHiAddr : Fld := ⟨0xa004, 31, 0, .rws, 0, .one, false⟩  -- TRACE_BASE_HI.ADDR
def traceCfgEn : Fld := ⟨0xa008, 31, 31, .rws, 0, .one, false⟩  -- TRACE_CFG.EN
def traceCfgLog : Fld := ⟨0xa008, 4, 0, .rws, 0x14, .one, false⟩  -- TRACE_CFG.LOG
def traceHeadCount : Fld := ⟨0xa00c, 31, 0, .ro, 0, .one, false⟩  -- TRACE_HEAD.COUNT
def traceDropDropped : Fld := ⟨0xa010, 31, 0, .ro, 0, .one, false⟩  -- TRACE_DROP.DROPPED
def dbgHaltCores : Fld := ⟨0xa014, 31, 0, .rw, 0, .one, false⟩  -- DBG_HALT.CORES
def dbgStepCores : Fld := ⟨0xa018, 31, 0, .wo, 0, .one, false⟩  -- DBG_STEP.CORES
def dbgHaltedCores : Fld := ⟨0xa01c, 31, 0, .ro, 0, .one, false⟩  -- DBG_HALTED.CORES
def dbgDeniedCores : Fld := ⟨0xa020, 31, 0, .w1c, 0, .one, false⟩  -- DBG_DENIED.CORES
def dbgCommitCommit : Fld := ⟨0xa0fc, 0, 0, .wo, 0, .one, false⟩  -- DBG_COMMIT.COMMIT

/-- Fields of the map, part 0. -/
def all0 : List Fld := [
  clusterIdPart, clusterIdMajor, clusterIdMinor, clusterCfgCores, clusterCfgVlanes, clusterCfgNmod, clusterCfgInst,
  mbDoorbellRing, mbStatusBound, mbStatusOpen, mbStatusTaken, mbStatusHsrc, mbRepStatusValid, mbRepAckAck,
  fwStatusState, fwStatusPend, fwVersionVersion, hpErrCount, hpErrLastKind, hpErrLastHsrc, hpErrLastAddr,
  hpChgMismatch, hpChgExpired, aperBaseBase, ctxSelCtx, ctxProtState, ctxProtClass, ctxProtDebug, ctxProtHold,
  ctxProtDbgHsrc, ctxProtTenant, ctxProtNb, ctxProtMinNb, hpCommitCommit, coreSelCore, parcelStatusSegment,
  parcelStatusEngActive, parcelStatusLastStatus, parcelStatusFormat, parcelStatusRunning]

/-- Fields of the map, part 1. -/
def all1 : List Fld := [
  parcelIdParcel, parcelStartGrainLo, coreSkipCount, coreSkipLastTag, skipInfoOpcode, skipInfoReason,
  skipInfoEngine, tokenLeftPoisoned, tokenLeftCount, queueDbgSelQueue, queueDbgHeadPoison, queueDbgHeadEngine,
  queueDbgHeadTag, queueFillFill, progCtrlSkipRec, progCommitCommit, tileCtrlLatchEn, tileResumeTag,
  tileResumeTreg, tileResumeStartRow, tileResumeWadi, tileResumePending, tileReuseHitHits, tileReadsReads,
  tileEccUncorr, tileEccCorr, tileCollideShTag, tileCollideWrTag, tileDbgCtrlGo, tileDbgCtrlDone,
  tileDbgCtrlDenied, tileDbgCtrlTreg, tileDbgCtrlRow, tileDbgCtrlWord, tileDbgDataData, tileCommitCommit,
  mxCfgFoldEn, mxCfgGateEn, mxStateDrainPend, mxStateBankMark]

/-- Fields of the map, part 2. -/
def all2 : List Fld := [
  mxStateArrayBusy, mxStatePlaneValid, mxPassesPasses, mxBeatsBeats, mxGatedGated, mxCheckFails, mxCheckLastTag,
  mxCheckLocArray, mxCheckLocBank, mxCheckLocSeg, mxCheckLocSlot, mxCheckLocLocated, mxCheckLocColumn, mxCheckD0D0,
  mxCheckD1D1, mxCommitCommit, numAccSatNeg, numAccSatPos, numAccInvInvalid, numUnderUnder, numRqSatSat,
  numRqInvInvalid, numBlkClipBlocks, numBlkClipElems, numLastLastTag, rangeAlarmEnEn, numCommitCommit, vxCfgGateEn,
  vxCfgLanes, vxCmdsCmds, vxBeatsBeats, vxStallShLoss, vxStallBank, vxCheckFails, vxCheckLastTag,
  vxCheckAddrStream, vxCheckAddrAddr, vxOverOvers, vxOverLastTag, vxZeroZero]

/-- Fields of the map, part 3. -/
def all3 : List Fld := [
  vxCommitCommit, spEccUncorr, spEccCorr, spConflictAged, spConflictLocal, spRefusedRefused, spScrubBusy,
  spScrubHeld, wadiStatusMiss, wadiStatusNonempty, wadiStatusHead, wadiXmissTag, wadiXmissEntry, wadiXmissWadi,
  wadiXmissLoAddrLo, wadiXmissHiAddrHi, wadiCtrlXmissExp, wadiDroppedEntries, wadiDroppedLate, mcHitsHits,
  mcMissesMisses, mcStatsRefetch, mcStatsAcqs, oasisSelSlot, oasisCfgOpen, oasisCfgEpoch, oasisCfgCtx, oasisCfgId,
  oasisWinGbase, oasisWinLen, oasisWinPbase, oasisBytesBytes, oasisPktsPkts, spCommitCommit, dmaChSelCh,
  dmaChStatusState, dmaChStatusPoisoned, dmaChStatusDidx, dmaChStatusTag, dmaChHeadDesc]

/-- Fields of the map, part 4. -/
def all4 : List Fld := [
  dmaChBytesBytes, dmaChErrErrs, dmaChErrLast, dmaChainsChains, ordStatusHolding, ordStatusOutstanding,
  ordHoldsHolds, ordHoldCycCycles, ordHoldMaxMax, ordHoldMaxTag, ordAckErrErrs, ordAckErrLastTag, ordInjWaitCycles,
  coreGrainMissMissed, coreGrainMissLastTag, coreGrainSlackMinSlack, coreIncInc, linkSelLane, laneStatusActive,
  laneStatusInverted, laneStatusFault, laneStatusTxFenced, laneStatusCorr, linkStatusState, linkStatusRev,
  linkStatusRxWidth, linkStatusTxWidth, linkStatusLink, linkStatusFaults, linkStatusRetrains, linkPeerPkg,
  linkPeerInst, linkPeerBundle, linkPeerLink, linkPeerMatch, linkFeatPeerPeer, linkFeatActActive, linkDelayDelay,
  linkErrLost, linkErrReplays]

/-- Fields of the map, part 5. -/
def all5 : List Fld := [
  linkLostNotReplayed, linkLostDiscard, linkFwdFwdLate, linkFwdFwd, linkCtrlRetrain, lpCfgMaxrev, lpCfgSplitB,
  lpCfgSplitA, lpFeatEnEn, lpQuarB, lpQuarA, lpIncInc, slotSelDir, slotSelBundle, slotSelIndex, slotEntryOwners,
  flowSelFlow, flowCfgValid, flowCfgOutBundle, flowCfgOutLink, flowCfgLag, routeSelPkg, routeAValid, routeALink,
  routeBValid, routeBLink, lpCommitCommit, mpStnSelStn, mpStnStatusReady, mpStnStatusRdOut, mpStnStatusWrOut,
  mpStnCreditRd, mpStnCreditWr, mpRdGranGran, mpWrGranGran, mpChkInMismatch, mpChkInErrors, mpChkGenGen,
  mpChkOutMismatch, mpChkOutPoison]

/-- Fields of the map, part 6. -/
def all6 : List Fld := [
  mpXmissXmiss, mpXmissResolves, ncuClipBlocks, ncuClipElems, ncuInvNanBlocks, ncuInvOvf, ncuFailGroups,
  mpCtrlCkvReq, mpCommitCommit, npModSelMod, npModStatusUp, npModStatusRev, npModStatusSpeed, npModStatusX32,
  npModStatusPeerInst, npModStatusPeerMod, npModStatusRetrains, npRouteRoute, npRouteEnEn, npTxFrames, npRxFrames,
  npChkNaks, npChkMarked, npFwdFrames, npDownDowns, npCommitCommit, syncCtxSelCtx, syncCtxCfgResiduePoison,
  syncCtxCfgTmoExp, syncCtxAllocHubSems, syncCtxAllocBarriers, syncCtxFaultCountFaults, syncCtxFaultOverruns,
  syncCtxWaitTimeouts, syncCtxWaitOwnerGone, syncCtxResidResidue, syncCtxResidLate, syncCtxLastTag, syncCtxLastId,
  syncWaitingCores]

/-- Fields of the map, part 7. -/
def all7 : List Fld := [
  syncDbgSelSpace, syncDbgSelCore, syncDbgSelIndex, syncDbgStateDenied, syncDbgStateValid, syncDbgStateOwner,
  syncDbgStatePoison, syncDbgStateGone, syncDbgStatePhase, syncDbgStateMode, syncDbgStateScope,
  syncDbgStateWaiters, syncDbgCountCount, syncDbgRefRef, syncDbgLeafPend, syncDbgLeafLphase, syncDbgLeafWaiting,
  syncDbgValueValue, syncDbgCtrlDone, syncDbgCtrlClear, syncDbgCtrlRelease, syncDbgCtrlSet, stuStatusBuilding,
  stuStatusBuildCtx, stuStatusReady, stuCtrlStealEn, stuSkewSkew, stealStatsRefused, stealStatsGranted,
  stuCtxSelCtx, stuCtxCfgValid, stuCtxCfgClass, stuCtxCfgState, stuCtxCfgAbortLimit, stuCtxCfgMaxseq,
  stuCtxMaskCores, stuCtxStepStep, stuCtxStartGrainLo, stuCtxCaravanParcels, stuCtxNactNact]

/-- Fields of the map, part 8. -/
def all8 : List Fld := [
  stuCtxEndedEnded, stuCtxJobsLoJobsLo, stuCtxJobsHiJobsHi, stuCtxAbortAborts, stuCtxAbortRun, stuCtxDeferDeferred,
  stuCtxPoolFree, stuCtxLateLate, stuCtxLateSampleFaults, stuCtxWaitMaxWait, stuCommitCommit, pwrStatusStage,
  corePwrOn, corePwrStReady, portPwrReady, clkStatusPllLock, clkStatusStep, clkStatusSrc, clkCtrlLimit,
  pcapCfgPpeak, pcapCfgPsus, pwrEstBucket, pwrEstPower, droopCfgHold, droopCfgThr, droopCntEvents, thermTjMax,
  thermLimit, thermTj, rstCtrlWarm, coreRstCores, portRstH, portRstL, portRstMod, portRstStn, rstCauseWarms,
  rstCauseKind, selftestDone, selftestPass, selftestCoresFailed]

/-- Fields of the map, part 9. -/
def all9 : List Fld := [
  pwrCommitCommit, grainNowLoCountLo, grainNowHiCountHi, grainStatusCyc, grainStatusSyncErr, grainStatusHoldExp,
  grainStatusDisc, grainStatusLoss, grainStatusLocked, grainCtrlHoldLimit, grainCtrlLossLimit, grainSyncTrim,
  grainSyncUplink, grainSyncSyncEn, grainMissCntMissed, grainOffsetOffset, grainDelayDelay, grainCommitCommit,
  hmRiskRaw, hmRiskRisk, hmIn0Ce, hmIn0Droop, hmIn1Temp, hmIn1Link, hmWeightWCe, hmWeightWDroop, hmWeightWTemp,
  hmWeightWLink, hmCfgTempBase, hmCfgDecay, hmCfgAlarm, snapCfgEn, snapCfgCtxEn, snapCfgIvMax, snapCfgIvMin,
  snapStageLoAddr, snapStageHiAddr, snapImageLoAddr, snapImageHiAddr, snapMirrorLoOff]

/-- Fields of the map, part 10. -/
def all10 : List Fld := [
  snapMirrorHiOff, snapStatusState, snapStatusBuf, snapStatusLate, snapSeqSeq, snapNextGrain, snapFailFails,
  snapFailRestores, snapRestoreGo, snapRestoreDone, snapRestoreErr, snapRestorePages, snapRestoreBuf,
  snapRestoreCtx, fenceCores, fencedCores, intEgressHost, staleReplies, chkCfgChkLimit, chkCfgChkWin,
  recBaseLoAddr, recBaseHiAddr, recSeqSeq, recDropDropped, hmCommitCommit, traceBaseLoAddr, traceBaseHiAddr,
  traceCfgEn, traceCfgLog, traceHeadCount, traceDropDropped, dbgHaltCores, dbgStepCores, dbgHaltedCores,
  dbgDeniedCores, dbgCommitCommit]

/-- Every field of the map. -/
def all : List Fld :=
  all0 ++ all1 ++ all2 ++ all3 ++ all4 ++ all5 ++ all6 ++ all7 ++ all8 ++ all9 ++ all10 ++ (List.range 30).map mbReq ++ (List.range 30).map mbRep
    ++ (List.range 8).map spPartValid ++ (List.range 8).map spPartNb ++ (List.range 8).map spPartPb
    ++ (List.range 12).map portInc

end Fd

end Sys2Proof.Machine
end

