-- ==== Sys2Proof/Machine/Tab.lean ====
section
/-! DEFINITION. Sparse tables: reading and writing a Tab by key, and the canonical form of a memory, a list of cells
with addresses strictly rising and no cell equal to what an unlisted address reads as. -/

namespace Sys2Proof.Machine

/-- The value at key k, or the table's default d where k is not listed. -/
def tabGet {α : Type} (d : α) : Tab α → Nat → α
  | [], _ => d
  | (i, v) :: t, k => if k = i then v else if k < i then d else tabGet d t k

/-- Write v at key k; the keys stay strictly rising. -/
def tabSet {α : Type} : Tab α → Nat → α → Tab α
  | [], k, v => [(k, v)]
  | (i, w) :: t, k, v =>
    if k = i then (k, v) :: t
    else if k < i then (k, v) :: (i, w) :: t
    else (i, w) :: tabSet t k v

/-- Remove key k. -/
def tabDel {α : Type} : Tab α → Nat → Tab α
  | [], _ => []
  | (i, w) :: t, k => if k = i then t else (i, w) :: tabDel t k

/-- A run of values listed from key k. -/
def tabRun {α : Type} : Nat → List α → Tab α
  | _, [] => []
  | k, v :: vs => (k, v) :: tabRun (k + 1) vs

/-- Write a run of values from key k. -/
def tabSetRun {α : Type} (t : Tab α) (k : Nat) (vs : List α) : Tab α :=
  t.filter (fun kv => kv.1 < k) ++ tabRun k vs ++ t.filter (fun kv => k + vs.length ≤ kv.1)

/-- n values from key k of a table whose keys all lie at k or above. -/
def tabFill {α : Type} (d : α) : Tab α → Nat → Nat → List α
  | _, _, 0 => []
  | [], k, n + 1 => d :: tabFill d [] (k + 1) n
  | (i, v) :: t, k, n + 1 => if i = k then v :: tabFill d t (k + 1) n else d :: tabFill d ((i, v) :: t) (k + 1) n

/-- n values from key k. -/
def tabGetRun {α : Type} (d : α) (t : Tab α) (k n : Nat) : List α :=
  tabFill d (t.filter fun kv => k ≤ kv.1) k n

/-- The keys of a table whose value satisfies p. -/
def tabKeys {α : Type} (p : Nat → α → Bool) (t : Tab α) : List Nat :=
  (t.filter fun kv => p kv.1 kv.2).map (·.1)

/-- Keys strictly rising, all above b. -/
def rising {α : Type} : Nat → List (Nat × α) → Bool
  | _, [] => true
  | b, (i, _) :: t => b < i && rising i t

/-- Keys strictly rising. -/
def tabWf {α : Type} : Tab α → Bool
  | [] => true
  | (i, _) :: t => rising i t

/-- Read one cell; an unlisted address reads d. -/
def cellRead {α : Type} (d : α) (m : Tab α) (a : Nat) : α := tabGet d m a

/-- Write one cell and keep the canonical form: writing what an unlisted address reads as removes the cell. -/
def cellWrite {α : Type} [DecidableEq α] (d : α) : Tab α → Nat → α → Tab α
  | [], k, v => if v = d then [] else [(k, v)]
  | (i, w) :: t, k, v =>
    if k = i then (if v = d then t else (k, v) :: t)
    else if k < i then (if v = d then (i, w) :: t else (k, v) :: (i, w) :: t)
    else (i, w) :: cellWrite d t k v

/-- The canonical form of a memory: addresses strictly rising and no cell at its default. -/
def cellsWf {α : Type} [DecidableEq α] (d : α) (m : Tab α) : Bool :=
  tabWf m && m.all fun kv => kv.2 ≠ d

/-- Write a run of cells upwards from address a. -/
def cellsWrite {α : Type} [DecidableEq α] (d : α) : Tab α → Nat → List α → Tab α
  | m, _, [] => m
  | m, a, v :: vs => cellsWrite d (cellWrite d m a v) (a + 1) vs

/-- Read n cells upwards from address a. -/
def cellsRead {α : Type} (d : α) (m : Tab α) (a : Nat) : Nat → List α
  | 0 => []
  | n + 1 => cellRead d m a :: cellsRead d m (a + 1) n

end Sys2Proof.Machine
end

