-- ==== Sys2Proof/Machine/State.lean ====
section
/-! DEFINITION. The state of the cluster as plain data: every register, table, queue, buffer, counter, mode and pin
that the spec gives it, the queue of waiting commands, the reasons a step can stop, and the state after reset. -/

namespace Sys2Proof.Machine

/-- Why a command ends the run. Every fault is safe: it stops where no rule says what the block does. -/
inductive Fault where
  /-- A message that the party at the other end of a port must not send (Tables 13-2, 13-7, 14-3) reached the block
  and no rule says what it does then. Raised by RDATA, WACK, CRD and STATION_LINK_UP. Safe: the machine stops. -/
  | portContract (row : String)
  /-- A command names a module beyond the NMOD strap (R19, R326), which does not exist. Raised by the NPORT rows.
  Safe: the machine stops. -/
  | absentModule
deriving DecidableEq, Repr

/-- Why a command has no meaning. -/
inductive Refusal where
  /-- The command has no meaning in the model yet. Raised by an arm of Dispatch. Safe: the machine stops. -/
  | notModelled (mnemonic : String)
deriving DecidableEq, Repr

/-! ### Timebase (02) -/

/-- The grain receiver (R35 to R39, R47 to R50). -/
structure Timebase where
  /-- Local Grain Count, 48 bits (R35). -/
  now : Nat := 0
  /-- Consecutive good strobes seen, up to 4 (R36). -/
  good : Nat := 0
  /-- Count of the last strobe since the receiver left reset (R36). -/
  last : Option Nat := none
  /-- LOCKED has been set since the receiver left reset (R36, R39). -/
  everLocked : Bool := false
  /-- In holdover (R47). -/
  holdover : Bool := false
  /-- Weighted cycles since the last strobe, in units of 1/1680 grain (R47), and the cycles since the last whole grain of that
  sum. -/
  holdSum : Nat := 0
  holdCyc : Nat := 0
  /-- Whole grains by which holdover has advanced the count since the last strobe (R47). -/
  holdAdv : Nat := 0
  /-- The holdover limit has been exceeded and LOCKED not set since (R48). -/
  limited : Bool := false
  /-- Grain in which the last timing frame fell due (R50). -/
  lastTiming : Option Nat := none
  /-- A timing frame awaits its reply (R50). -/
  timingOut : Bool := false
deriving DecidableEq, Repr

/-! ### Records (16) -/

/-- One fault record before it has a sequence number (Table 16-3). -/
structure Rec where
  code  : Nat
  cls   : Nat
  /-- CTXV and CTX. -/
  ctx   : Option Nat
  unit  : Nat
  grain : Nat
  tag   : Nat
  /-- Up to 16 bytes (R397). -/
  data  : List Byte
  /-- The rings that receive it, by pair, 0 for the platform's (R398). -/
  dest  : List Nat
deriving DecidableEq, Repr

/-- Record delivery (R398). -/
structure Records where
  queue   : List Rec := []
  /-- Next SEQ of the rings of pairs 1 to 7, default 1; the platform's is REC_SEQ. -/
  seqs    : Tab Nat := []
  /-- Records lost to each ring since its last delivered record. -/
  lost    : Tab Nat := []
  /-- A REC_BASE has been committed since the last cold or warm reset. -/
  baseSet : Bool := false
deriving DecidableEq, Repr

/-! ### Firmware and mailboxes (15) -/

/-- What a mailbox command does to a sequence entry (R287, R373): SEQ_OPEN with the image read, SEQ_SET, SEQ_HOLD,
SEQ_RESUME, SEQ_CLOSE. -/
inductive SeqOp where
  | opn (image : List Byte)
  | set (ch : SeqChange)
  | hold
  | resume
  | close
deriving DecidableEq, Repr

/-- A request that the firmware has taken (R368, Table 15-2). -/
structure Req where
  pair    : Nat
  abi     : Nat
  opcode  : Nat
  seq     : Nat
  payload : List Byte
  /-- Pair.epoch when it was taken. -/
  epoch   : Nat
  /-- Grain of its RING. -/
  rung    : Nat := 0
deriving DecidableEq, Repr

/-- A mailbox command that changes an entry, with its reply still to give (R287). -/
structure SeqCmd where
  req   : Req
  entry : Nat
  op    : SeqOp
deriving DecidableEq, Repr

/-- A mailbox pair (R364, R368 to R370). -/
structure Pair where
  bound   : Bool := false
  hsrc    : Nat := 0
  staging : Nat := 0
  /-- Rung and not yet taken, with the grain of the RING. -/
  rung    : Option Nat := none
  /-- Taken, and neither answered nor set aside for a later answer. -/
  service : Option Req := none
  /-- Grain in which VALID was set. -/
  validAt : Nat := 0
  /-- Resets of the pair: a request taken before one gets no reply (R441). -/
  epoch   : Nat := 0
deriving DecidableEq, Repr

/-- A pending two-party change (R374 to R377). -/
structure Change where
  id        : Nat
  kind      : Nat
  token     : Nat
  digest    : Nat
  deadline  : Nat
  record    : List Byte
  proposer  : Nat
  parties   : List Nat
  committed : List Nat
deriving DecidableEq, Repr

/-- A live update or a first load in progress (R389). -/
structure FwUpdate where
  req     : Req
  prev    : Nat
  version : Nat
  start   : Nat
deriving DecidableEq, Repr

/-- The firmware (R361, R362, R369, R374, R389, R395). -/
structure Firmware where
  /-- The image in firmware SRAM, which a warm reset keeps: its version, and whether it verifies (R361, R434). -/
  image      : Option Nat := none
  imageOk    : Bool := false
  update     : Option FwUpdate := none
  /-- Restarting from the global copy, with the FW_STATUS.STATE to return to (R395). -/
  restarting : Option Nat := none
  /-- The pair served last (R369). -/
  lastPair   : Nat := 7
  changes    : List Change := []
  /-- Changes that their deadline cancelled, with their parties: a later COMMIT of one is answered EXPIRED (R376). -/
  expired    : List (Nat × List Nat) := []
  nextId     : Nat := 1
  /-- SLICE changes under ring admission, by SLICE_ID, with the final COMMIT to answer (R354, R375). -/
  slices     : List (Nat × Req × Change) := []
deriving DecidableEq, Repr

/-! ### Synchronisation (11) -/

/-- A semaphore (R267). -/
structure Sem where
  alloc  : Bool := false
  count  : Nat := 0
  init   : Nat := 0
  owner  : Nat := 0
  vid    : Nat := 0
  poison : Bool := false
  gone   : Bool := false
  /-- GONE until it is reallocated (Table 16-2). -/
  lasting : Bool := false
deriving DecidableEq, Repr

/-- A barrier leaf of one core (R277, R278). -/
structure Leaf where
  bit      : Bool := false
  /-- MEMBER mode: arrivals not yet released. -/
  pend     : Nat := 0
  /-- COUNT mode: arrivals not yet assigned, and the phase bits assigned and not yet released. -/
  unassigned : Nat := 0
  assigned : List Bool := []
deriving DecidableEq, Repr

/-- A phase counter pair of a node above the cluster node (R276). -/
structure UpNode where
  phase  : Bool := false
  cur    : Nat := 0
  next   : Nat := 0
  expect : Nat := 0
  /-- Grains of the first arrivals of the phases of CUR and NEXT at the top node, and whether BARRIER_LATE was written for
  them (R280). -/
  first     : Option Nat := none
  firstNext : Option Nat := none
  late      : Bool := false
  lateNext  : Bool := false
deriving DecidableEq, Repr

/-- A barrier: its cluster node, its leaves, and the package node and group root where this cluster holds them
(R267, R268, R276 to R280). -/
structure Barrier where
  alloc  : Bool := false
  owner  : Nat := 0
  vid    : Nat := 0
  member : Bool := false
  scope  : Nat := 0
  expect : Nat := 0
  mask   : Nat := 0
  dl     : Nat := 0
  phase  : Bool := false
  cur    : Nat := 0
  next   : Nat := 0
  /-- MEMBER mode: cores whose arrivals CUR and NEXT hold. -/
  curSet  : Nat := 0
  nextSet : Nat := 0
  poison : Bool := false
  gone   : Bool := false
  /-- GONE until it is reallocated, or the firmware forms its group again (Tables 11-5, 16-2). -/
  lasting : Bool := false
  /-- The cluster node has forwarded the completed phase and waits for its release. -/
  sent   : Bool := false
  /-- Grains of the first arrivals of the phases of CUR and NEXT at the cluster node, and whether BARRIER_LATE was written
  for them (R280). -/
  first     : Option Nat := none
  firstNext : Option Nat := none
  lateDone  : Bool := false
  lateNext  : Bool := false
  leaves : Tab Leaf := []
  /-- Instances of this package whose clusters are members, and the instance of the package node (R276, SCOPE 1, 2). -/
  members : Nat := 0
  pkgInst : Nat := 0
  pkgNode : UpNode := {}
  /-- Member packages and the package of the group root (SCOPE 2). -/
  pkgs    : List Nat := []
  rootPkg : Nat := 0
  root    : UpNode := {}
deriving DecidableEq, Repr

/-- A physical object that an identifier of a context names (R269). -/
inductive Obj where
  /-- LOCAL: the index of the instance in each core. -/
  | localSem (idx : List (Nat × Nat))
  | coreSem (core index : Nat)
  | hubSem (index : Nat)
  | barrier (index : Nat)
deriving DecidableEq, Repr

/-- One entry of a context's object map (R269). -/
structure MapEnt where
  tag  : Nat
  obj  : Obj
  /-- Made by a MAP change, with the identifier of the change (R375); REVOKE ends it. -/
  shared : Bool := false
deriving DecidableEq, Repr

/-- A registration of a core's SX at the sync hub (R272). -/
structure HubReg where
  index : Nat
  n     : Nat
  tag   : Nat
  /-- Ticket of the SWAIT. -/
  ticket : Nat
deriving DecidableEq, Repr

/-! ### Serving (12) -/

/-- State of a sequence entry (Table 12-2). -/
inductive EntState where
  | free | ready | held | done
deriving DecidableEq, Repr

/-- A sequence entry (Table 12-1). -/
structure Entry where
  seqId   : Nat := 0
  pos     : Nat := 0
  plen    : Nat := 0
  limit   : Nat := 0
  draw    : Nat := 0
  pages   : Nat := 0
  npages  : Nat := 0
  ctx     : Nat := 0
  st      : EntState := .free
  model   : Nat := 0
  stop    : Nat := 0
  last    : Nat := 0
  invT    : Nat := 0
  topk    : Nat := 0
  outcome : Nat := 0
  rlimit  : Nat := 0
  rcount  : Nat := 0
  tokens  : Nat := 0
deriving DecidableEq, Repr

/-- One sequence of a caravan (R292, R298). -/
structure CarSeq where
  entry   : Nat
  pos     : Nat
  ntok    : Nat
  draws   : Bool
  npages  : Nat
  pages   : Nat
  tokens  : Nat
  /-- Worst outcome so far: 1 OK, 2 DROPPED, 3 POISONED (R298). -/
  outcome : Nat
deriving DecidableEq, Repr

/-- A record of a caravan plan (Table 12-4). -/
structure PlanRec where
  fan   : Nat
  stage : Nat
  seg   : Nat
  gparam : Nat
  nslice : Nat
  sliceBase : Nat
  parg  : Nat
deriving DecidableEq, Repr

/-- A parcel record of a home queue (R295, R296). -/
structure Parcel where
  index  : Nat
  ctx    : Nat
  seg    : Nat
  slice  : Nat
  first  : Nat
  nseq   : Nat
  rank   : Nat
  parg   : Nat
  pinned : Bool
deriving DecidableEq, Repr

/-- The caravan of a context's step (R292 to R298). -/
structure Caravan where
  model : Nat
  /-- A resident model was there to serve (R291). -/
  served : Bool := true
  seqs  : List CarSeq
  /-- Cores assigned, in ascending number; ranks are positions in it (R295). -/
  cores : List Nat := []
  /-- Place of the next parcel in the plan: stage, slice, record within the stage, rank within the record. -/
  stage : Nat := 0
  sl    : Nat := 0
  rc    : Nat := 0
  rank  : Nat := 0
  /-- Parcels cut and parcels ended. -/
  cut   : Nat := 0
  ended : Nat := 0
  cutDone : Bool := false
deriving DecidableEq, Repr

/-- The admission record in force (Table 15-7). -/
structure Adm where
  tenant : Nat := 0
  be     : Bool := false
  logical : Bool := false
  residuePoison : Bool := false
  tmoExp : Nat := 0
  mask   : Nat := 0
  pb     : Nat := 0
  nb     : Nat := 0
  minNb  : Nat := 0
  abortLimit : Nat := 0
  hubSems  : Nat := 0
  coreSems : Nat := 0
  barriers : Nat := 0
  maxseq : Nat := 0
  chunk  : Nat := 0
  pgShift : Nat := 0
  tppLog : Nat := 0
  tokcap : Nat := 0
  budget : Nat := 0
  seed   : Nat := 0
  cslBase : Nat := 0
  candBase : Nat := 0
  candStride : Nat := 0
  poolLog : Nat := 0
  poolBase : Nat := 0
  windows : List (Nat × Nat) := []
deriving DecidableEq, Repr

/-- CTX_PROT.STATE (Table 15-9). -/
inductive ProtState where
  | free | admitted | tearing | held
deriving DecidableEq, Repr

/-- STU_CTX_CFG.STATE (Table 12-7). -/
inductive RunState where
  | idle | waiting | running | held
deriving DecidableEq, Repr

/-- What a context still waits for before its bank change completes (R379, R380). -/
structure BankWait where
  /-- The final COMMIT to answer, and its change. -/
  req     : Req
  chg     : Change
  /-- The settings to put in force. -/
  adm     : Adm
  /-- Whether it is an ADMIT (else a RECONFIGURE). -/
  admits   : Bool
deriving DecidableEq, Repr

/-- A forensic hold (R386). -/
structure Hold where
  addr   : Nat
  len    : Nat
  acting : Bool
deriving DecidableEq, Repr

/-- One context (15 R378 to R388, 12 R286 to R305, 11 R269). -/
structure Ctx where
  prot     : ProtState := .free
  adm      : Adm := {}
  run      : RunState := .idle
  /-- JOBS, 48 bits (R303). -/
  jobs     : Nat := 0
  /-- Step number of the running or last step, and whether the next step takes the next number. -/
  step     : Nat := 0
  advance  : Bool := false
  start    : Nat := 0
  waitFrom : Nat := 0
  /-- Model slot that the previous step served (R291). -/
  lastModel : Nat := 15
  /-- Last entry that the previous caravan took, per model slot (R292). -/
  scan     : Tab Nat := []
  poolHead : Nat := 0
  poolCount : Nat := 0
  /-- No event of R299 since the running step opened. -/
  quiet    : Bool := false
  lateDone : Bool := false
  poolRec  : Bool := false
  abortRun : Nat := 0
  caravan  : Option Caravan := none
  /-- Numbers of the running or last step that the registers show. -/
  shownCut : Nat := 0
  shownNact : Nat := 0
  shownEnded : Nat := 0
  map      : Tab (Option MapEnt) := []
  /-- Debug consent: debugger HSRC and end grain (R388). -/
  consent  : Option (Nat × Nat) := none
  hold     : Option Hold := none
  /-- Mailbox requests that wait for the step's end (R287), oldest first. -/
  queued   : List SeqCmd := []
  bankWait : Option BankWait := none
  /-- STEAL_EN as it stood for the context at its last step start (Table 12-7). -/
  steal    : Bool := true
  /-- The request whose reply a teardown owes, and the cores whose banks are being scrubbed (R384). -/
  tearReq  : Option Req := none
  scrubbing : Bool := false
deriving DecidableEq, Repr

/-- State of a model slot (R381). -/
inductive ModelState where
  | empty | resident | evicted
deriving DecidableEq, Repr

/-- A model slot (R300, R381). -/
structure Model where
  st      : ModelState := .empty
  ctx     : Nat := 0
  addr    : Nat := 0
  len     : Nat := 0
  modelId : Nat := 0
  t4      : Bool := true
  pin     : Bool := false
  /-- What the header and the resource section of a resident binary say (R161, R246, R268, R294): segments, the offsets of the
  segment table and the parameter block, the partition bytes it needs, the constant image and where it is placed, the caravan
  plan, the oases by ID, EPOCH OPEN, PBASE and LEN, and the virtual identifiers of its objects. -/
  nseg    : Nat := 0
  segtab  : Nat := 0
  param   : Nat := 0
  spBytes : Nat := 0
  constOff : Nat := 0
  constAt : Nat := 0
  constLen : Nat := 0
  plan    : List PlanRec := []
  oases   : List (Nat × Bool × Nat × Nat) := []
  vids    : List Nat := []
  /-- Grain in which its last step ended; none before the first. -/
  lastEnd : Option Nat := none
  /-- The STU has asked the firmware to make it resident (R291). -/
  wanted  : Bool := false
deriving DecidableEq, Repr

/-- The STU's state that no context owns (R292, R296, R302). -/
structure Stu where
  /-- Context whose entries are being read or whose caravan is being cut. -/
  builder : Option Nat := none
  /-- The builder waits for a home queue to free a record (R296). -/
  stalled : Bool := false
  /-- The BE context that started a step last (R302). -/
  lastBe  : Nat := 7
deriving DecidableEq, Repr

/-! ### Integrity, snapshots, debug (16) -/

/-- The counts of the running health window (R408). -/
structure Health where
  start : Nat := 0
  ce    : Nat := 0
  droop : Nat := 0
  link  : Nat := 0
  /-- Corrected L-port FEC symbols not yet counted, of 2^8: of all lanes (R408), and by lane (R356). -/
  fec   : Nat := 0
  lanes : Tab Nat := []
deriving DecidableEq, Repr

/-- The snapshot engine (R409 to R415). -/
structure Snap where
  /-- 0 idle, 1 capturing, 2 draining; 3 restoring lasts no step. -/
  st      : Nat := 0
  /-- Number of the snapshot in progress or last started. -/
  seq     : Nat := 0
  /-- Last complete SNAP_SEQ. -/
  done    : Nat := 0
  lastCut : Nat := 0
  everCut : Bool := false
  due     : Nat := 0
  drainAt : Nat := 0
  /-- CTX_EN at the cut, and the SNAP areas that it works with (R417). -/
  ctxEn   : Nat := 0
  stage   : Nat := 0
  imageAt : Nat := 0
  mirror  : Nat := 0
  /-- Captured entries of included contexts (R411). -/
  image   : Tab Entry := []
  /-- Captured tenant, SEED CRC and step number per included context (Table 16-8). -/
  ctxRecs : Tab (Nat × Nat × Nat) := []
  /-- POS of each entry in the last complete snapshot (R412). -/
  snapPos : Tab Nat := []
  /-- Pages that closes hold back from their pools: context and page (R413). -/
  heldBack : List (Nat × Nat) := []
  /-- Entries opened since the cut of the snapshot in progress (R412). -/
  opened  : List Nat := []
  /-- Pages that the drain mirrored. -/
  npages  : Nat := 0
  /-- A cut fell due during the drain (R414). -/
  lateCut : Bool := false
deriving DecidableEq, Repr

/-- Debug halts (R419). -/
structure Debug where
  /-- Cores whose halt is requested under consent. -/
  wanted : Nat := 0
  /-- Cores that run under DBG_STEP until their next boundary, and the engines that may still issue one command there:
  core × 8 + engine. -/
  stepping : Nat := 0
  steps  : List Nat := []
  /-- TRACE_CFG.EN was set, and the ring position (R416). -/
  ringPos : Nat := 0
  /-- The grain of the last trace record, and the records that each of its cycles has written (R416). -/
  tracedAt : Nat := 0
  traced  : Tab Nat := []
  /-- The model's own counter of the open cycles of completions (assumption log 120). -/
  openCyc : Nat := 0
deriving DecidableEq, Repr

/-- Held resets and what spaces them (R405, R435). Units as the PORT_INC numbering, cores from 16 up. -/
structure Resets where
  lastInc : Tab (Option Nat) := []
  /-- Resets that are held, each with the RST_CAUSE.KIND of a warm one. -/
  held    : List (ResetUnit × Nat) := []
  /-- Cores whose per-core reset awaits its self-test. -/
  testing : Nat := 0
deriving DecidableEq, Repr

/-! ### Power (17) -/

/-- Pins, clock steps and domains (R423 to R430). -/
structure Power where
  pwrOk    : Bool := true
  ctrlEn   : Bool := true
  pcap     : Nat := 0
  thermTrip : Bool := false
  /-- Internal reset released (R436 stage 3). -/
  released : Bool := false
  selfTest : Bool := false
  /-- Governor step, the grain of its last change, and the bucket in units of 1.25 × 10^-13 J (R430). -/
  gov      : Nat := 0
  govAt    : Nat := 0
  bucket   : Int := 80000000000
  droop    : Nat := 0
  /-- Grain at which VDDC last rose above DROOP_THR; none while it is below. -/
  vddcOk   : Option Nat := some 0
  therm    : Nat := 0
  thermAt  : Nat := 0
  /-- Grain since which a core has belonged to no mask (R425). -/
  idleFrom : Tab Nat := []
  /-- Grain of the last retry of DOWN links (R438). -/
  retryAt  : Nat := 0
deriving DecidableEq, Repr

/-! ### Cores (07, 03 to 10) -/

/-- A token (R171). -/
structure Token where
  poison : Bool
  eng    : Nat
  tag    : Nat
deriving DecidableEq, Repr

/-- One slot of a token queue: reserved at issue under a ticket, and filled when its command pushes (R172). -/
structure QSlot where
  ticket : Nat
  tok    : Option Token
deriving DecidableEq, Repr

/-- What a command that has issued still waits for at the head of its queue (R220, R272). -/
inductive WaitFor where
  /-- SWAIT on a semaphore (index as in State.sems) for at least n (R215). -/
  | sem (index n vid : Nat)
  /-- BAR in mode 2 or 3 (R217). -/
  | barrier (index vid : Nat)
  /-- WPOST waits for n free entries of its wadi (R207). -/
  | wpost (wadi n : Nat) (desc : List Byte)
  | wwait (wadi n : Nat)
  | wmov (wadi n dst : Nat)
  | arrw (oasis bytes pkts : Nat)
deriving DecidableEq, Repr

/-- A command that has issued and waits (R220). -/
structure Wait where
  cmd    : Cmd
  ticket : Nat
  outs   : List Nat
  /-- It popped a poisoned token. -/
  poison : Bool
  /-- Grain in which the wait began (R281). -/
  since  : Nat
  what   : WaitFor
deriving DecidableEq, Repr

/-- One engine of a core: its stream, and how long its head has been held (R41, R163, R167, R281). -/
structure Eng where
  /-- Remaining command words of the stream. -/
  stream : List Cmd := []
  /-- A GRAIN word and a PSCL word taken from the stream for the command they belong to (R167, R197). -/
  grain  : Option Cmd := none
  pscl   : Option Cmd := none
  /-- Start and deadline grains that replace those of the GRAIN word at the head, after a deferral (R43). -/
  moved  : Option Nat := none
  /-- The deadline that the head has missed and whose record awaits the grain of its issue (R43). -/
  missed : Option Nat := none
  /-- Grain in which the head began to hold under R172 (R281). -/
  hold   : Option Nat := none
  /-- Grain in which the head began to hold for its start grain (R41). -/
  startHold : Option Nat := none
  /-- Grain in which that hold ended: the start grain has fallen due (R39, R41). -/
  fellDue : Option Nat := none
  wait   : Option Wait := none
deriving DecidableEq, Repr

/-- A command whose completion record of the trace awaits the entry of its tokens into their queues (R172, R190). -/
structure DoneTrace where
  eng    : Engine
  cmd    : Cmd
  ticket : Nat
  outs   : List Nat
  poison : Bool
  skipped : Bool
deriving DecidableEq, Repr

/-- The parcel a core runs (R174). -/
structure Running where
  parcel : Parcel
  model  : Nat
  step   : Nat
  t4     : Bool
  start  : Nat
  poisoned : Bool := false
  /-- Wadis that the segment's DX stream posts to (Table 8-13), and oases that the binary declares (R246). -/
  wadis    : Nat := 0
  oases    : Nat := 0
  /-- An ILLEGAL_CMD record was written (R180). -/
  skipRec  : Bool := false
deriving DecidableEq, Repr

/-- Two 64-byte halves with what their stored checks differ by (R72); data shorter than 128 bytes stands for zeros. -/
structure TileRow where
  data : List Byte := []
  syn0 : Nat := 0
  syn1 : Nat := 0
deriving DecidableEq, Repr

/-- Status of a far-read reply: OK, ERROR, TARGET_RESET, XMISS (R231). -/
inductive FarStatus where
  | ok | error | targetReset | xmiss
deriving DecidableEq, Repr

/-- A 64-byte granule with what its carried check differs by. -/
structure GranS where
  data : List Byte
  syn  : Nat
deriving DecidableEq, Repr

/-- One wadi entry (R231). -/
structure WadiEnt where
  addr    : Nat
  len     : Nat
  ncu     : Nat
  tag     : Nat
  idx     : Nat
  /-- GADDR of its WPOST (R320). -/
  base    : Nat
  /-- For each of its granules, the number of the read that brings it and its place in that read's reply; none once
  R235 discards the entry's data. -/
  srcs    : List (Nat × Nat)
  /-- Granules that have arrived, by place, while others are outstanding. -/
  got     : List (Nat × GranS) := []
  status  : FarStatus := .ok
  present : Bool := false
  grans   : List GranS := []
  /-- Grain of its XMISS reply (R235), and the address of the read that missed. -/
  missAt  : Nat := 0
  missed  : Nat := 0
deriving DecidableEq, Repr

/-- A running tile load from a wadi (R73, R204). -/
structure Load where
  cmd    : Cmd
  ticket : Nat
  outs   : List Nat
  poison : Bool
  /-- A row write was discarded in a collision: the tokens will be poisoned (Table 3-4). -/
  lost   : Bool := false
  row    : Nat
  parked : Option ParkCause := none
deriving DecidableEq, Repr

/-- Descriptor of a DMA chain (Table 9-4). -/
structure DmaDesc where
  src : Nat
  dst : Nat
  len : Nat
  nrows : Nat
  sstride : Int
  dstride : Int
  more : Bool
  skf  : Nat
  skew : Bool
  dglobal : Bool
  sglobal : Bool
  ncu  : Nat
deriving DecidableEq, Repr

/-- One global read of a DMA chain: its number, address, length, and where its bytes go in the partition. -/
structure DmaRead where
  rid : Nat
  addr : Nat
  /-- Core-side bytes. -/
  len : Nat
  dst : Nat
  ncu : Nat
  /-- Grain of its XMISS reply, and the granules that this reply carried (R235). -/
  missAt : Option Nat := none
  grans : List GranS := []
deriving DecidableEq, Repr

/-- A running DMA chain (R237 to R241). -/
structure Dma where
  cmd    : Cmd
  ticket : Nat
  outs   : List Nat
  /-- It popped a poisoned token. -/
  poison : Bool
  /-- A check failed or a reply carried error: the token will be poisoned. -/
  bad    : Bool := false
  /-- Descriptors not yet begun, and how many have been. -/
  descs  : List DmaDesc
  begun  : Nat := 0
  /-- Reads not yet sent, and reads awaiting their reply. -/
  toSend : List DmaRead := []
  out    : List DmaRead := []
  /-- Write packets not yet injected into the mesh (R255). -/
  unsent : Nat := 0
deriving DecidableEq, Repr

/-- An MRD that missed (R210). -/
structure Mrd where
  cmd    : Cmd
  ticket : Nat
  outs   : List Nat
  poison : Bool
  rid    : Nat
  line   : Nat
  dst    : Nat
  /-- An ACQ that covers the line has come since (R243). -/
  noFill : Bool := false
  missAt : Option Nat := none
  gran   : Option GranS := none
deriving DecidableEq, Repr

/-- One M-cache line (R242). -/
structure McLine where
  addr : Nat
  ctx  : Nat
  gran : GranS
  used : Nat
deriving DecidableEq, Repr

/-- A global write packet (R241, R255). -/
structure Pkt where
  id    : Nat
  tag   : Nat
  ctx   : Nat
  /-- DMA channel that sent it; 16 for none. -/
  ch    : Nat
  /-- Under an NCU code the first memory byte of its group, and the packet's place in the group (R319). -/
  addr  : Nat
  ncu   : Nat
  place : Nat := 0
  grans : List GranS
deriving DecidableEq, Repr

/-- An unacknowledged write packet of a core (R255). -/
structure OutW where
  id  : Nat
  tag : Nat
  ch  : Nat
  ctx : Nat
  /-- Cluster of the package and core there that it went to over the N-port. -/
  dinst : Option Nat := none
  dcore : Nat := 0
  /-- Its parcel ended DROPPED, ABORTED or TIMEOUT: the STU does not wait for it (R258). -/
  exempt : Bool := false
  /-- Its parcel ended OK or POISONED: the STU waits for it whatever becomes of a later parcel (R258). -/
  owed   : Bool := false
deriving DecidableEq, Repr

/-- An operation of SX on an object outside the core, or a barrier arrival to forward (R256). -/
inductive SyncOp where
  | add (index n : Nat)
  | sub (index n : Nat)
  | arrive (index : Nat) (phase : Option Bool)
deriving DecidableEq, Repr

/-- A sync operation that has issued: under its release hold, or on its way (R216, R256). -/
structure SxFlight where
  id     : Nat
  cmd    : Cmd
  ticket : Nat
  outs   : List Nat
  poison : Bool
  op     : SyncOp
  vid    : Nat
  /-- Packets whose acknowledgements it waits for; none once it has left. -/
  waits  : List Nat
  left   : Bool := false
  /-- Tag of a write whose acknowledgement carried an error (R257). -/
  errTag : Option Nat := none
  since  : Nat
deriving DecidableEq, Repr

/-- Who wrote an inbound packet (R247, R349): package, cluster, context and core, the link of L-port data, and the INC of the
frame that brought it. -/
structure Writer where
  pkg   : Nat
  inst  : Nat
  ctx   : Nat
  score : Nat
  /-- The cluster of this package that sent the packet over the N-port; link and INC that an answer echoes. -/
  via   : Nat := 0
  link  : Nat := 0
  linc  : Nat := 0
  /-- The far sender, for a packet that an L-port brought into the package (R349). -/
  lsrc  : Option LSrc := none
deriving DecidableEq, Repr

/-- An oasis slot (R245); its counts are OASIS_BYTES and OASIS_PKTS. -/
structure Oasis where
  isOpen  : Bool := false
  ctx     : Nat := 0
  id      : Nat := 0
  openEpoch : Bool := false
  gbase   : Nat := 0
  pbase   : Nat := 0
  len     : Nat := 0
  /-- Named writers: package, instance, context, host flag, HSRC (Table 15-6). -/
  writers : List (Nat × Nat × Nat × Bool × Nat) := []
deriving DecidableEq, Repr

/-- An inbound packet that an oasis slot has accepted and whose granules have not all been committed (R225, R226). -/
structure Landing where
  /-- Its source on the mesh, and the incarnation that its answer names. -/
  src  : Nat
  inc  : Nat
  by_  : Writer
  off  : Nat
  pkt  : Pkt
  slot : Nat
  /-- Places in the packet of the granules that wait for their banks. -/
  left : List Nat
deriving DecidableEq, Repr

/-- One weight plane of one array (R79 to R86): 128 rows of 64 plane bytes, and the checksum words of each row. -/
structure Plane where
  loaded : Bool := false
  poison : Bool := false
  rows   : List (List Byte) := []
  sums   : List (Nat × Nat) := []
deriving DecidableEq, Repr

/-- One accumulator bank of one array (R98, R107, R123). -/
structure AccBank where
  /-- Columns of a slot, n_out. -/
  nout   : Nat := 128
  /-- Last written in scaled mode (R123). -/
  scaled : Bool := false
  /-- The 32-bit words, read as signed, by slot × n_out + column. -/
  acc    : Tab Int := []
  /-- Reference exponents by slot (R123). -/
  ref    : Tab Nat := []
  /-- Failed and poisoned marks, by place div 128: a slot has n_out / 128 of them (R106, R107). -/
  failed : List Nat := []
  marked : List Nat := []
deriving DecidableEq, Repr

/-- A pass that has issued and awaits PASS_COMPLETE (R93, R198). -/
structure PassFlight where
  cmd    : Cmd
  ticket : Nat
  outs   : List Nat
  poison : Bool
  /-- Check failures found: array, slot, segment, column, D0, D1. -/
  fails  : List (Nat × Nat × Nat × Option Nat × Nat × Nat) := []
deriving DecidableEq, Repr

/-- A reuse latch (R65). -/
structure Latch where
  desc : Nat
  rows : List TileRow
deriving DecidableEq, Repr

/-- An LSEND whose data the L-port has not yet taken whole (R213, R348). -/
structure LsendFlight where
  id     : Nat
  cmd    : Cmd
  ticket : Nat
  outs   : List Nat
  poison : Bool
  ctx    : Nat
  link   : Nat
  rsv    : Bool
  /-- DST of the descriptor (R349), and its source; `since` is the grain of its last progress. -/
  dst    : Nat
  src    : Nat
  len    : Nat
  nrows  : Nat
  sstride : Int
  /-- Granules that the L-port has taken. -/
  taken  : Nat := 0
  bad    : Bool := false
  since  : Nat
deriving DecidableEq, Repr

/-- What a core's free segment buffer holds: the parcel it was loaded for, its segment table entry and code, and whether every
granule passed its check (R169, R296). -/
structure SegBuf where
  parcel : Parcel
  entry  : List Byte
  code   : List Byte
  good   : Bool
deriving DecidableEq, Repr

/-- One core. -/
structure Core where
  /-- Context of the running step that assigns the core (R29). -/
  ctx    : Option Nat := none
  /-- Context of its most recent assignment (R59, R230). -/
  prev   : Option Nat := none
  home   : List Parcel := []
  /-- A stolen parcel that it holds and has not started (R297). -/
  stolen : Option Parcel := none
  run    : Option Running := none
  /-- The segment buffer that the running parcel does not use (R169). -/
  segBuf : Option SegBuf := none
  mx : Eng := {}
  vx : Eng := {}
  tx : Eng := {}
  dx : Eng := {}
  sx : Eng := {}
  /-- Token queues by number (R170). -/
  queues : Tab (List QSlot) := []
  ticket : Nat := 0
  /-- Completion records of the trace still to write. -/
  traces : List DoneTrace := []
  /-- Producer tags of the poisoned tokens that commands of the parcel popped, by ticket (R171). -/
  consumed : Tab (List Nat) := []
  /-- Next number of a far read, a write packet or a sync operation. -/
  nextId : Nat := 0
  /-- Tile rows by register × 64 + slot (R55). -/
  tiles  : Tab TileRow := []
  latch0 : Option Latch := none
  latch1 : Option Latch := none
  /-- A debug capture waits for SH, and the capture buffer (R78). -/
  capture : Option (Nat × Nat) := none
  capBuf  : List Byte := []
  load    : Option Load := none
  wadis   : Tab (List WadiEnt) := []
  /-- Wadi reads without a reply so far: of the running parcel, and of earlier ones (R236). -/
  wadiOut : List Nat := []
  late    : List Nat := []
  dmas    : Tab (Option Dma) := []
  mrds    : List Mrd := []
  mcache  : List McLine := []
  mcUse   : Nat := 0
  /-- Unacknowledged packets, and packets that wait at the limit of 512 (R255). -/
  outW    : List OutW := []
  injectQ : List Pkt := []
  sxOps   : List SxFlight := []
  lsends  : List LsendFlight := []
  oases   : Tab Oasis := []
  /-- Accepted inbound packets not yet committed whole, oldest first. -/
  landing : List Landing := []
  /-- Weight planes by array × 4 + plane, accumulator banks by array × 2 + bank. -/
  planes  : Tab Plane := []
  banks   : Tab AccBank := []
  passes  : List PassFlight := []
  /-- Where the next continued scratchpad stream starts (R90). -/
  stream  : Option Nat := none
  /-- Grains of failed beats per array in the window of R400. -/
  chkFails : List (Nat × Nat) := []
  /-- Barriers at which the core has arrived in this step (R217). -/
  arrived : List Nat := []
  /-- Banks under scrub: first bank, count, and the context; banks under a forensic hold likewise (R230). -/
  scrub   : List (Nat × Nat × Nat) := []
  held    : List (Nat × Nat × Nat) := []
  /-- Range counters that have moved in this step (R133). -/
  ranges  : Nat := 0
  /-- Gated lane cycles beyond whole units of 2^16 (Table 4-8). -/
  gatedRem : Nat := 0
deriving DecidableEq, Repr

/-! ### M-port and N-port (13) -/

/-- Where the granules of a read go (R253, R323). -/
inductive ReadFor where
  /-- To core `core`, whose incarnation was `inc`, as the reply to its read `rid`. -/
  | core (core inc rid : Nat)
  /-- To an NCU group, whose granules from the `first` on it holds (R323). -/
  | group (id first : Nat)
deriving DecidableEq, Repr

/-- An outstanding read of a station (R253). -/
structure StnRead where
  rtag  : Nat := 0
  dest  : ReadFor
  /-- CTX and CLASS (R314). -/
  ctx   : Nat
  cls   : Nat
  addr  : Nat
  ngr   : Nat
  /-- Its place in the order in which requests reached the station (R315). -/
  ord   : Nat := 0
  /-- The granules that it has taken already, because a later access to them has been answered, by granule number, each with
  whether it has ever been written (R253). -/
  got   : List (Nat × GranS × Bool) := []
  /-- MP_CTRL.CKV_REQ when it was sent (Table 13-9). -/
  ckvReq : Bool := false
deriving DecidableEq, Repr

/-- Whom a station acknowledges a write to: a core's packet, an NCU group, or nobody that waits. -/
inductive WriteFor where
  | packet (core inc id : Nat)
  | group (id : Nat)
deriving DecidableEq, Repr

/-- An unacknowledged write of a station (R253, R316). -/
structure StnWrite where
  rtag : Nat := 0
  dest : WriteFor
  ctx  : Nat
  cls  : Nat
  addr : Nat
  grans : List GranS
  ord  : Nat := 0
  /-- Numbers of the granules that have been applied already, because a later access to them has been answered (R253). -/
  done : List Nat := []
deriving DecidableEq, Repr

/-- A request of a station (R315). -/
inductive StnReq where
  | read (r : StnRead)
  | write (w : StnWrite)
deriving DecidableEq, Repr

/-- An RD or WR message: whether it is a WR, address, granules, CTX and CLASS (Table 13-2). -/
structure StnMsg where
  write : Bool
  addr  : Nat
  ngr   : Nat
  ctx   : Nat
  cls   : Nat
deriving DecidableEq, Repr

/-- What of a core waits at a station on the ordered lanes (R323): an NCU packet, or a request behind one. -/
inductive HeldItem where
  | pkt (p : Pkt)
  | req (q : StnReq)
deriving DecidableEq, Repr

/-- An M-port station (R312 to R316). -/
structure Station where
  rdCred : Nat := 0
  wrCred : Nat := 0
  nextTag : Nat := 0
  nextOrd : Nat := 0
  reads  : List StnRead := []
  writes : List StnWrite := []
  waiting : List StnReq := []
  /-- What waits on the ordered lanes for a group buffer, or behind such a packet: core, its incarnation, and the item
  (R254, R323). -/
  held   : List (Nat × Nat × HeldItem) := []
  /-- The last RD or WR that no core asked for (R314). -/
  direct : Option StnMsg := none
  /-- Remainders of the granule counters, which count units of 2^16. -/
  rdRem  : Nat := 0
  wrRem  : Nat := 0
  genRem : Nat := 0
deriving DecidableEq, Repr

/-- An NCU group being assembled, written, or read (R323). -/
structure NcuGroup where
  id     : Nat
  /-- The core that asked for it, and its incarnation then. -/
  core   : Nat
  inc    : Nat
  write  : Bool
  ncu    : Nat
  /-- First memory byte. -/
  addr   : Nat
  /-- Core-side bytes collected so far, by their place in the group, and the packets they came in. -/
  bytes  : List (Nat × List Byte) := []
  bad    : Bool := false
  /-- Writes: numbers of those packets. -/
  pkts   : List Nat := []
  /-- Requests not yet answered, and the worst answer so far. -/
  left   : Nat := 0
  status : FarStatus := .ok
  /-- Reads: the granules that have arrived, by place, and the core's read number. -/
  grans  : List (Nat × GranS) := []
  rid    : Nat := 0
  ctx    : Nat := 0
deriving DecidableEq, Repr

/-- A frame of the N-port as sent: its TYPE and fields (Table 13-7). -/
structure NOut where
  type  : Nat
  frame : NFrame
  /-- The context of a WR frame's parcel. -/
  ctx   : Nat
  /-- It keeps the INC that it carries: a forwarded frame, or a reply, which echoes the INC of its request (R403). -/
  keep  : Bool := false
deriving DecidableEq, Repr

/-- An N-port module (R326 to R331). UP, REV and the rest of its trained state are NP_MOD_STATUS. -/
structure Module where
  /-- It has trained since reset. -/
  trained : Bool := false
  txSeq   : Nat := 0
  rxSeq   : Nat := 0
  /-- Frames it may send before a credit returns (R327). -/
  credit  : Nat := 64
  /-- Receive-buffer frames not yet returned to the far end. -/
  owed    : Nat := 0
  /-- The last 128 frames sent, oldest first, and frames that wait for credit. -/
  replay  : List NOut := []
  waiting : List NOut := []
  /-- The last 128 frames put on the lanes, oldest first, those sent again after a NAK included (R327). -/
  lanes  : List NOut := []
  down    : Bool := false
  /-- Grain in which it left the link state (R331). -/
  retrain : Option Nat := none
deriving DecidableEq, Repr

/-! ### Control messages of the L-port (14) -/

/-- A control message that waits for a control slot of a link (Table 14-4). -/
inductive LCtl where
  | timing
  | timingReply (t1 t2 : Nat)
  | ident (m : IdentMsg)
  | feat (revs : Byte) (bits : Word)
  | barArrive (index : Nat) (phase : Bool) (pkg : Nat) (poison : Bool)
  | barRelease (index : Nat) (phase : Bool) (pkg : Nat) (poison : Bool)
  | loss (seq inc : Nat)
  | refuse (tag score sctx : Nat) (dst : LSrc)
  | resvReq (m : ResvMsg)
  | resvAck (m : ResvMsg)
  | resvNak (m : ResvMsg)
  | resvRel (m : ResvMsg)
  | resvHoldEnd (m : ResvMsg)
deriving DecidableEq, Repr

/-- A frame that a link stages, keeps for replay, or forwards, with the owner code of its slot (R348, R351); a CONTROL frame
carries messages in place of granules. -/
structure LOut where
  frame : LFrame
  owner : Nat
  ctrl  : List LCtl := []
deriving DecidableEq, Repr

/-- A reserved frame that a flow holds for an outbound slot, with the link that it came in by (R352). -/
structure FwdHold where
  grain : Nat
  src   : Nat
  out   : LOut
deriving DecidableEq, Repr

/-- One link of the L-port (R341 to R353). Its state, widths, revision, peer, features and counters are the link
registers; lane faults are LANE_STATUS. -/
structure Link where
  /-- Grain in which the link entered its state. -/
  since   : Nat := 0
  /-- The receive map is reversed (R342). -/
  revMap  : Bool := false
  identIn : Option IdentMsg := none
  featIn  : Option (Nat × Nat) := none
  /-- Identity record of the last time the link was ACTIVE, which a retrain compares (R341). -/
  lastId  : Option IdentMsg := none
  txSeq   : Nat := 0
  rxSeq   : Nat := 0
  /-- SEQs that a gap showed and that may still be replayed. -/
  gaps    : List Nat := []
  /-- A frame has been received since the link last trained, from which rxSeq counts. -/
  synced  : Bool := false
  credit  : Nat := 128
  /-- Best-effort receive-buffer frames freed and not yet returned. -/
  freed   : Nat := 0
  /-- Grains of frames lost within the last 1024 grains. -/
  losses  : List Nat := []
  /-- Frames staged, at most two each: reserved sends by context, best-effort sends by 8 + context (R348). -/
  staged  : Tab (List LOut) := []
  /-- Frames sent within the last 128 grains, with their grains, and those to send again (R351). -/
  kept    : List (Nat × LOut) := []
  again   : List LOut := []
  /-- Best-effort frames to forward with the link that they came in by, and reserved frames (R352, R353). -/
  fwdBe   : List (Nat × LOut) := []
  fwdRsv  : List FwdHold := []
  /-- INC of the neighbour's L-port, as its own frames last gave it (R403). -/
  peerInc : Option Nat := none
  /-- Bytes of the frame put on the link in its last slot: header, granules (R338). -/
  sent    : List Byte := []
  /-- Context served last in a FREE slot. -/
  lastCtx : Nat := 7
  /-- Grain of the last slot sent. -/
  lastSlot : Option Nat := none
  /-- Frames forwarded beyond whole units of 2^8. -/
  fwdRem  : Nat := 0
deriving DecidableEq, Repr

/-- An entry of a slot table that a slice holds: direction (0 TX, 1 RX), bundle, link, index, owner code. -/
structure SlotHold where
  dir    : Nat
  bundle : Nat
  link   : Nat
  index  : Nat
  code   : Nat
deriving DecidableEq, Repr

/-- A slice known to this cluster (R354, R359). -/
structure Slice where
  opkg   : Nat
  oinst  : Nat
  id     : Nat
  /-- The context, where this cluster is the origin. -/
  ctx    : Option Nat
  hop    : Nat
  slots  : List SlotHold
  /-- HELD until acknowledged, since the grain given. -/
  owned  : Bool := false
  since  : Nat
  /-- The later hops whose requests this one has passed on (R359). -/
  passed : List Nat := []
  /-- Forward flow of a hop that forwards, and its LAG. -/
  flow   : Option Nat := none
  lag    : Nat := 0
  inLink : Option Nat
  outLink : Option Nat
  /-- Barriers of the slice record, at the origin (R360). -/
  bars   : List (List Byte) := []
  /-- Packages of the path with the origin's own, at the origin. -/
  pkgs   : List Nat := []
deriving DecidableEq, Repr

/-! ### The mesh -/

/-- A packet on its way between cores, hub, stations and control spine (R21). -/
inductive Body where
  /-- A write into an oasis of the destination core: offset in the core's 4 MiB aperture range. -/
  | write (w : Writer) (off : Nat) (p : Pkt)
  /-- An acknowledgement: packet number; 0 good, 1 error, 2 TARGET_RESET, 3 refusal. -/
  | ack (id status : Nat)
  | refusal (id : Nat)
  | reply (rid : Nat) (status : FarStatus) (grans : List GranS)
  | semOp (index : Nat) (sub : Bool) (n vid tag flight : Nat) (poison : Bool)
  | waitReg (index n tag ticket : Nat)
  | wake (ticket : Nat) (poison gone : Bool)
  /-- A barrier arrival at the cluster node (by a core, with its flight), or from a lower node. -/
  | arrive (index : Nat) (phase : Option Bool) (flight : Nat) (poison : Bool)
  | overrun (index : Nat)
  | release (index : Nat) (phase : Bool) (poison : Bool)
deriving DecidableEq, Repr

/-- A packet with its source and destination node: 0 to 31 cores, 32 the sync hub, 33 the control spine, 40 to 45
stations, 48 to 51 modules, 52 the L-port, 53 the H-port. -/
structure Msg where
  src  : Nat
  dst  : Nat
  /-- Incarnation of the unit that the message answers (R403). -/
  inc  : Nat
  body : Body
deriving DecidableEq, Repr

/-! ### Memories -/

/-- A memory: canonical data cells by byte address, and per 64-byte granule the exclusive or of its stored CRC-32C with
the CRC-32C of its data: 0 where the check is good, all ones where the granule carries the poison mark. -/
structure Memory where
  data : List Host.Cell := []
  syn  : Tab Nat := []
deriving DecidableEq, Repr

/-! ### Staged configuration (15 R391) -/

/-- One staged value: the requester (0 firmware, 1 + HSRC host), the field, its channel, the value. -/
structure Staged where
  req  : Nat
  fld  : Fld
  chan : Nat
  val  : Nat
deriving DecidableEq, Repr

/-- One committed set that waits for its point (R391). -/
structure CommitSet where
  block  : Block
  chan   : Nat
  hsrc   : Nat
  vals   : List Staged
  /-- Grain from which it may apply, for the blocks whose point is a grain. -/
  dueAt  : Nat
  /-- The step start it waits for has come (R53 and its like). -/
  ready  : Bool
deriving DecidableEq, Repr

/-- The answer of the last register or aperture access: data and error (R13, R365). -/
structure HostResp where
  data : List Byte
  err  : Bool
deriving DecidableEq, Repr

/-- The cluster. -/
structure State where
  regs    : Tab Nat := []
  tb      : Timebase := {}
  pw      : Power := {}
  recs    : Records := {}
  fw      : Firmware := {}
  pairs   : Tab Pair := []
  ctxs    : Tab Ctx := []
  models  : Tab Model := []
  entries : Tab Entry := []
  sems    : Tab Sem := []
  bars    : Tab Barrier := []
  hubRegs : Tab (Option HubReg) := []
  stu     : Stu := {}
  cores   : Tab Core := []
  spads   : Tab Memory := []
  gmem    : Memory := {}
  /-- Granules of the global space that have been written (CKV, R316). -/
  written : Tab Bool := []
  /-- Packets on the mesh, oldest first (R21). -/
  msgs    : List Msg := []
  stns    : Tab Station := []
  groups  : List NcuGroup := []
  /-- Control messages that wait per link: 0 to 3 bundle A, 4 to 7 bundle B (R340). -/
  ctl     : Tab (List LCtl) := []
  links   : Tab Link := []
  slices  : List Slice := []
  /-- Peers that QUAR_ACCEPT wrote into the installation map (R345): package, INST, bundle, link; the other links stand
  as Config.wired gives. -/
  imap    : Tab (Option (Nat × Nat × Nat × Nat)) := []
  /-- Each link's split, which holds until its bundle retrains (R334): links of bundles A and B. -/
  splitA  : Nat := 1
  splitB  : Nat := 1
  nextGroup : Nat := 0
  mods    : Tab Module := []
  health  : Health := {}
  snap    : Snap := {}
  dbg     : Debug := {}
  resets  : Resets := {}
  staged  : List Staged := []
  sets    : List CommitSet := []
  hostResp : Option HostResp := none
  /-- The MODEL's own: which free value comes next (assumption log 1). -/
  freeCtr : Nat := 0
  /-- The MODEL's own: the commands that wait, oldest first. -/
  pending : List Instr := []
deriving DecidableEq, Repr

/-- The machine right after a cold reset begins: PWR_OK and CTRL_EN high, internal reset not yet released
(R433, R436 stage 2). Every register field stands at the reset value of its Fld. -/
def State.reset : State := {}

end Sys2Proof.Machine
end

