-- ==== Sys2Proof/Machine/Effects.lean ====
section
/-! DEFINITION. All that a command may do to the state, said once: the elementary updates (Eff), what a state can become
through them (Reach), and the monad M in which every meaning is written. A meaning changes the state through `eff` alone,
so a property that every elementary update keeps is kept by every step. No elementary update touches the queue. -/

namespace Sys2Proof.Machine

/-- An elementary update of the state. -/
inductive Eff where
  /-- Write channel `chan` of a register field; the value is cut to the field's width. -/
  | reg (f : Fld) (chan v : Nat)
  /-- Return to their reset values the fields whose address and channel satisfy `drop` (R16). -/
  | regsDrop (drop : Nat → Nat → Bool)
  | tb (v : Timebase)
  | pw (v : Power)
  | recs (v : Records)
  | fw (v : Firmware)
  | pair (n : Nat) (v : Pair)
  | ctx (n : Nat) (v : Ctx)
  | model (n : Nat) (v : Model)
  | entry (n : Nat) (v : Entry)
  | sem (n : Nat) (v : Sem)
  | bar (n : Nat) (v : Barrier)
  | hubReg (n : Nat) (v : Option HubReg)
  | stu (v : Stu)
  | core (n : Nat) (v : Core)
  /-- Write bytes of a core's scratchpad at a physical byte address. -/
  | spData (n a : Nat) (bytes : List Byte)
  /-- Set what a granule's stored check differs by. -/
  | spSyn (n g v : Nat)
  /-- Zero a core's scratchpad, with the check codes of zero rows (R230). -/
  | spClear (n : Nat)
  /-- Zero `count` banks of a core's scratchpad from bank `first` on, with the check codes of zero rows (R230). -/
  | spZero (n first count : Nat)
  /-- Write bytes of the global space. -/
  | gmData (a : Nat) (bytes : List Byte)
  | gmSyn (g v : Nat)
  | msgs (v : List Msg)
  | stn (n : Nat) (v : Station)
  | groups (v : List NcuGroup) (next : Nat)
  | mod (n : Nat) (v : Module)
  | ctl (link : Nat) (v : List LCtl)
  | link (n : Nat) (v : Link)
  | slices (v : List Slice)
  | imap (n : Nat) (v : Option (Nat × Nat × Nat × Nat))
  /-- Links of bundle A and of bundle B. -/
  | split (a b : Nat)
  | health (v : Health)
  | snap (v : Snap)
  | dbg (v : Debug)
  | resets (v : Resets)
  | staged (v : List Staged)
  | sets (v : List CommitSet)
  | resp (v : Option HostResp)
  /-- Take the next n free values. -/
  | fresh (n : Nat)
  /-- A cold reset: all state is lost but the memory stacks, which are not the cluster's (R433). -/
  | cold (power : Power)
  /-- A warm reset (R433): what it reaches is lost; the grain receiver, the firmware image, the fields kept through warm reset
  and the incarnation numbers stay. -/
  | warm (power : Power)

/-- What a byte nothing has written reads as: the scratchpad is zeroed before use (R424); a memory stack's unwritten
byte reads zero (DESIGN CHOICE, assumption log 2). -/
def byte0 : Byte := 0

/-- The physical bytes of one core's scratchpad: 48 banks of 64 KiB (R221). -/
def spSize : Nat := 48 * 65536

/-- The global space has 64-bit addresses (R5). -/
def gmSize : Nat := 2 ^ 64

/-- Write bytes from address a of a memory of n bytes; what would fall beyond its end is not written. -/
def memWrite (m : Memory) (n a : Nat) (v : List Byte) : Memory :=
  { m with data := cellsWrite byte0 m.data a (v.take (n - a)) }

/-- Set the check difference of granule g, 32 bits. -/
def memSyn (m : Memory) (g v : Nat) : Memory := { m with syn := cellWrite 0 m.syn g (v % 2 ^ 32) }

/-- A memory without what it holds from address a up to b: those bytes and checks are as nothing has written them. -/
def memZero (m : Memory) (a b : Nat) : Memory :=
  { m with
    data := m.data.filter fun c => c.1 < a || b ≤ c.1, syn := m.syn.filter fun c => c.1 < a / 64 || b / 64 ≤ c.1 }

/-- The address of the register whose field has key k. -/
def keyAddr (k : Nat) : Nat := k / 65536 / 1024

/-- The channel of key k. -/
def keyChan (k : Nat) : Nat := k % 65536

/-- The granules that a write of n bytes at address a touches, listed as written (R316). -/
def markWritten (t : Tab Bool) (a n : Nat) : Tab Bool :=
  (List.range ((a + n + 63) / 64 - a / 64)).foldl (fun t i => tabSet t (a / 64 + i) true) t

/-- A register field that a warm reset leaves: one that its map keeps (R16), those of the grain receiver, the incarnation
numbers, and PLL_LOCK (Table 17-6). -/
def warmKeeps (k : Nat) : Bool :=
  let a := keyAddr k
  (Fd.all.any fun f => f.kept && f.key 0 / 65536 = k / 65536) || (0x8800 ≤ a && a < 0x8840) || a = 0x2F08
    || (0x904C ≤ a && a < 0x9058) || k = Fd.clkStatusPllLock.key 0

/-- Carry out one elementary update. -/
def Eff.apply : Eff → State → State
  | .reg f chan v, s => { s with regs := tabSet s.regs (f.key chan) (v % 2 ^ f.width) }
  | .regsDrop drop, s => { s with regs := s.regs.filter fun kv => !drop (keyAddr kv.1) (keyChan kv.1) }
  | .tb v, s => { s with tb := v }
  | .pw v, s => { s with pw := v }
  | .recs v, s => { s with recs := v }
  | .fw v, s => { s with fw := v }
  | .pair n v, s => { s with pairs := tabSet s.pairs n v }
  | .ctx n v, s => { s with ctxs := tabSet s.ctxs n v }
  | .model n v, s => { s with models := tabSet s.models n v }
  | .entry n v, s => { s with entries := tabSet s.entries n v }
  | .sem n v, s => { s with sems := tabSet s.sems n v }
  | .bar n v, s => { s with bars := tabSet s.bars n v }
  | .hubReg n v, s => { s with hubRegs := tabSet s.hubRegs n v }
  | .stu v, s => { s with stu := v }
  | .core n v, s => { s with cores := tabSet s.cores n v }
  | .spData n a v, s => { s with spads := tabSet s.spads n (memWrite (tabGet {} s.spads n) spSize a v) }
  | .spSyn n g v, s => { s with spads := tabSet s.spads n (memSyn (tabGet {} s.spads n) g v) }
  | .spClear n, s => { s with spads := tabSet s.spads n {} }
  | .spZero n f k, s =>
    { s with spads := tabSet s.spads n (memZero (tabGet {} s.spads n) (f * 65536) ((f + k) * 65536)) }
  | .gmData a v, s => { s with gmem := memWrite s.gmem gmSize a v, written := markWritten s.written a v.length }
  | .gmSyn g v, s => { s with gmem := memSyn s.gmem g v }
  | .msgs v, s => { s with msgs := v }
  | .stn n v, s => { s with stns := tabSet s.stns n v }
  | .groups v next, s => { s with groups := v, nextGroup := next }
  | .mod n v, s => { s with mods := tabSet s.mods n v }
  | .ctl l v, s => { s with ctl := tabSet s.ctl l v }
  | .link n v, s => { s with links := tabSet s.links n v }
  | .slices v, s => { s with slices := v }
  | .imap n v, s => { s with imap := tabSet s.imap n v }
  | .split a b, s => { s with splitA := a, splitB := b }
  | .health v, s => { s with health := v }
  | .snap v, s => { s with snap := v }
  | .dbg v, s => { s with dbg := v }
  | .resets v, s => { s with resets := v }
  | .staged v, s => { s with staged := v }
  | .sets v, s => { s with sets := v }
  | .resp v, s => { s with hostResp := v }
  | .fresh n, s => { s with freeCtr := s.freeCtr + n }
  | .cold power, s =>
    { State.reset with
      pw := power, gmem := s.gmem, written := s.written, freeCtr := s.freeCtr, pending := s.pending }
  | .warm power, s =>
    { State.reset with
      pw := power, gmem := s.gmem, written := s.written, freeCtr := s.freeCtr, pending := s.pending, tb := s.tb,
      regs := s.regs.filter fun kv => warmKeeps kv.1, fw := { image := s.fw.image, imageOk := s.fw.imageOk },
      resets := { lastInc := s.resets.lastInc }, hostResp := s.hostResp }

/-- t can be reached from s by elementary updates. -/
inductive Reach (s : State) : State → Prop where
  | refl : Reach s s
  | step {t : State} (e : Eff) : Reach s t → Reach s (e.apply t)

/-- The outcome of a command. -/
abbrev Out := Host.Outcome State Fault Refusal

/-- The monad of meanings that start in s: the state so far, always reached from s by elementary updates. -/
abbrev M (s : State) := StateM { t : State // Reach s t }

variable {s0 : State}

/-- The state so far. -/
def rd : M s0 State := fun t => (t.val, t)

/-- Carry out an elementary update. -/
def eff (e : Eff) : M s0 Unit := fun t => ((), ⟨e.apply t.val, t.property.step e⟩)

/-- Run a meaning from s: it ends in a next state. -/
def run (s : State) (m : M s Unit) : Out := .next (m ⟨s, .refl⟩).2.val

/-- Do x for each element, in order. -/
def each {α : Type} : List α → (α → M s0 Unit) → M s0 Unit
  | [], _ => pure ()
  | a :: l, f => do f a; each l f

/-! ### Reading -/

/-- Channel `chan` of a register field. -/
def State.reg (s : State) (f : Fld) (chan : Nat := 0) : Nat := tabGet f.reset s.regs (f.key chan)

/-- Core n. -/
def State.core (s : State) (n : Nat) : Core := tabGet {} s.cores n

/-- Context c. -/
def State.ctx (s : State) (c : Nat) : Ctx := tabGet {} s.ctxs c

/-- Mailbox pair n; pair 0 is the platform's from reset on (R364). -/
def State.pair (s : State) (n : Nat) : Pair := tabGet { bound := n == 0 } s.pairs n

/-- Model slot n. -/
def State.model (s : State) (n : Nat) : Model := tabGet {} s.models n

/-- Sequence entry n. -/
def State.entry (s : State) (n : Nat) : Entry := tabGet {} s.entries n

/-- Semaphore n: 1024 per core from 0, then the 4096 of the hub (R267). -/
def State.sem (s : State) (n : Nat) : Sem := tabGet {} s.sems n

/-- Barrier n. -/
def State.bar (s : State) (n : Nat) : Barrier := tabGet {} s.bars n

/-- M-port station n. -/
def State.stn (s : State) (n : Nat) : Station := tabGet {} s.stns n

/-- N-port module n. -/
def State.mod (s : State) (n : Nat) : Module := tabGet {} s.mods n

/-- L-port link n: 0 to 3 bundle A, 4 to 7 bundle B. -/
def State.link (s : State) (n : Nat) : Link := tabGet {} s.links n

/-- The scratchpad of core n. -/
def State.spad (s : State) (n : Nat) : Memory := tabGet {} s.spads n

/-! ### Updating one record -/

/-- Set a register field. -/
def setReg (f : Fld) (chan v : Nat) : M s0 Unit := eff (.reg f chan v)

/-- Add to a counter, which saturates at its field's maximum. -/
def bumpReg (f : Fld) (chan : Nat := 0) (n : Nat := 1) : M s0 Unit := do
  let s ← rd
  setReg f chan (min f.max (s.reg f chan + n))

/-- Set bit i of a register field of one bit per unit. -/
def setRegBit (f : Fld) (i : Nat) (b : Bool) : M s0 Unit := do
  let s ← rd
  setReg f 0 (putBit (s.reg f) i b)

def modCore (n : Nat) (g : Core → Core) : M s0 Unit := do
  let s ← rd
  eff (.core n (g (s.core n)))

def modCtx (c : Nat) (g : Ctx → Ctx) : M s0 Unit := do
  let s ← rd
  eff (.ctx c (g (s.ctx c)))

def modPair (n : Nat) (g : Pair → Pair) : M s0 Unit := do
  let s ← rd
  eff (.pair n (g (s.pair n)))

def modModel (n : Nat) (g : Model → Model) : M s0 Unit := do
  let s ← rd
  eff (.model n (g (s.model n)))

def modEntry (n : Nat) (g : Entry → Entry) : M s0 Unit := do
  let s ← rd
  eff (.entry n (g (s.entry n)))

def modSem (n : Nat) (g : Sem → Sem) : M s0 Unit := do
  let s ← rd
  eff (.sem n (g (s.sem n)))

def modBar (n : Nat) (g : Barrier → Barrier) : M s0 Unit := do
  let s ← rd
  eff (.bar n (g (s.bar n)))

def modStn (n : Nat) (g : Station → Station) : M s0 Unit := do
  let s ← rd
  eff (.stn n (g (s.stn n)))

def modMod (n : Nat) (g : Module → Module) : M s0 Unit := do
  let s ← rd
  eff (.mod n (g (s.mod n)))

def modLink (n : Nat) (g : Link → Link) : M s0 Unit := do
  let s ← rd
  eff (.link n (g (s.link n)))

def modFw (g : Firmware → Firmware) : M s0 Unit := do
  let s ← rd
  eff (.fw (g s.fw))

def modTb (g : Timebase → Timebase) : M s0 Unit := do
  let s ← rd
  eff (.tb (g s.tb))

def modPw (g : Power → Power) : M s0 Unit := do
  let s ← rd
  eff (.pw (g s.pw))

def modStu (g : Stu → Stu) : M s0 Unit := do
  let s ← rd
  eff (.stu (g s.stu))

def modSnap (g : Snap → Snap) : M s0 Unit := do
  let s ← rd
  eff (.snap (g s.snap))

def modHealth (g : Health → Health) : M s0 Unit := do
  let s ← rd
  eff (.health (g s.health))

def modDbg (g : Debug → Debug) : M s0 Unit := do
  let s ← rd
  eff (.dbg (g s.dbg))

def modResets (g : Resets → Resets) : M s0 Unit := do
  let s ← rd
  eff (.resets (g s.resets))

/-- A free choice (assumption log 1). -/
def freshBit : M s0 Bool := do
  let s ← rd
  eff (.fresh 1)
  pure (Config.freeBit s.freeCtr)

/-- A free word (assumption log 1). -/
def freshWord : M s0 Word := do
  let s ← rd
  eff (.fresh 1)
  pure (Config.freeWord s.freeCtr)

/-! ### Global space -/

/-- n bytes of the global space from address a, modulo 2^64. -/
def State.gread (s : State) (a n : Nat) : List Byte := cellsRead byte0 s.gmem.data (a % gmSize) n

/-- What the stored check of granule g (address div 64) differs by: 0 is good. -/
def State.gsyn (s : State) (g : Nat) : Nat := tabGet 0 s.gmem.syn g

/-- Every granule of n bytes from a has a good check or has never been written (CKV 0, R316); with MP_CTRL.CKV_REQ at 1 one
never written counts as an ERROR reply (Table 13-3). -/
def State.ggood (s : State) (a n : Nat) : Bool :=
  (List.range ((a + n + 63) / 64 - a / 64)).all fun i =>
    s.gsyn (a % gmSize / 64 + i) = 0 && (s.reg Fd.mpCtrlCkvReq = 0 || tabGet false s.written (a % gmSize / 64 + i))

end Sys2Proof.Machine
end

