-- ==== Sys2Proof/Machine/Stations.lean ====
section
/-! DEFINITION. The order in which an M-port station accepts the accesses to a granule (R253, R316), what it counts and checks
(R317, R332), and the accesses that no core makes: those of the STU, the sampler, the host, the snapshot engine and the
firmware, which go through the stations as well (R259, R313, R314). -/

namespace Sys2Proof.Machine

variable {s0 : State}

/-! ### Checks (R229, R317) -/

/-- What a stored check differs by where data carry the poison mark: the CRC complemented (R229). -/
def markSyn : Nat := 0xFFFFFFFF

/-- The check difference of a granule that is marked where p: the mark is the CRC of the data complemented (R229). -/
def mark (p : Bool) (syn : Nat) : Nat := if p then markSyn else syn

/-- A granule of 64 bytes with a good check. -/
def goodGran (d : List Byte) : GranS := ⟨d, 0⟩

/-- The health monitor counts corrected errors, M-cache refetches and mismatches on the way in of the M-port (R408). -/
def countCe (n : Nat := 1) : M s0 Unit := modHealth fun h => { h with ce := h.ce + n }

/-! ### Granules of the memory stacks -/

/-- The station that serves a global address (R313). -/
def stationOf (a : Nat) : Nat := 2 * (a / 2 ^ 13 % 3) + a / 4096 % 2

/-- Split n granules from address a into requests of at most 8 granules within one 4096-byte unit (R241, R313): their
addresses and granule counts. -/
def runsOf : Nat → Nat → Nat → List (Nat × Nat)
  | 0, _, _ => []
  | k + 1, a, n =>
    if n = 0 then []
    else
      let m := min n (min 8 (64 - a / 64 % 64))
      (a, m) :: runsOf k (a + 64 * m) (n - m)

/-- A granule of the memory stacks with what its check differs by. -/
def State.ggran (s : State) (g : Nat) : GranS := ⟨s.gread (64 * g) 64, s.gsyn g⟩

/-- What a read of granule g finds, with whether it has ever been written (CKV, R316). -/
def State.granule (s : State) (g : Nat) : GranS × Bool := (s.ggran g, tabGet false s.written g)

/-- What a read of ngr granules at addr finds. -/
def State.granules (s : State) (addr ngr : Nat) : List (GranS × Bool) :=
  (List.range ngr).map fun i => s.granule (addr / 64 + i)

/-- Put whole granules of the global space in place with their checks. -/
def putGrans (addr : Nat) (gs : List GranS) : M s0 Unit :=
  each (List.range gs.length) fun i => do
    let g := gs.getD i ⟨[], 0⟩
    eff (.gmData (addr + 64 * i) (slice g.data 0 64))
    eff (.gmSyn (addr / 64 + i) g.syn)

/-! ### The order of acceptance (R253, R316) -/

/-- Place of a request in the order in which requests reached its station. -/
def StnReq.ord : StnReq → Nat
  | .read r => r.ord
  | .write w => w.ord

/-- First address and granules of a request. -/
def StnReq.range : StnReq → Nat × Nat
  | .read r => (r.addr, r.ngr)
  | .write w => (w.addr, w.grans.length)

/-- A request covers granule g and has not been accepted for it. -/
def StnReq.wants (g : Nat) (q : StnReq) : Bool :=
  q.range.1 / 64 ≤ g && g < q.range.1 / 64 + q.range.2 &&
  match q with
  | .read r => !(r.got.any (·.1 = g))
  | .write w => !w.done.contains g

/-- Insert a request into a list by its place. -/
def insertReq (q : StnReq) : List StnReq → List StnReq
  | [] => [q]
  | x :: l => if q.ord ≤ x.ord then q :: x :: l else x :: insertReq q l

/-- The requests of a station before place `bound` that still want granule g, in their order. -/
def Station.wanting (x : Station) (bound g : Nat) : List StnReq :=
  ((x.reads.map StnReq.read ++ x.writes.map StnReq.write ++ x.waiting).filter fun q =>
    q.ord < bound && q.wants g).foldr insertReq []

/-- Change the request at place k of a station. -/
def Station.atOrd (x : Station) (k : Nat) (onRead : StnRead → StnRead) (onWrite : StnWrite → StnWrite) : Station :=
  { x with
    reads := x.reads.map fun r => if r.ord = k then onRead r else r,
    writes := x.writes.map fun w => if w.ord = k then onWrite w else w,
    waiting := x.waiting.map fun
      | .read r => .read (if r.ord = k then onRead r else r)
      | .write w => .write (if w.ord = k then onWrite w else w) }

/-- Station n accepts for granule g what reached it before place `bound`: reads take the granule as it stands, writes are
applied, in their order (R253, R316). -/
def acceptGran (n bound g : Nat) : M s0 Unit := do
  let s ← rd
  each ((s.stn n).wanting bound g) fun q => do
    let t ← rd
    match q with
    | .read r => eff (.stn n ((t.stn n).atOrd r.ord (fun r => { r with got := r.got ++ [(g, t.granule g)] }) id))
    | .write w =>
      eff (.stn n ((t.stn n).atOrd w.ord id fun w => { w with done := w.done ++ [g] }))
      putGrans (64 * g) [w.grans.getD (g - w.addr / 64) ⟨[], 0⟩]

/-- Station n accepts what reached it before place `bound` for ngr granules at addr. -/
def acceptBefore (n bound addr ngr : Nat) : M s0 Unit :=
  each (List.range ngr) fun i => acceptGran n bound (addr / 64 + i)

/-! ### What a station counts (Tables 13-3, 13-9) -/

/-- Add to a counter kept in units of 2^16: the register moves when the remainder wraps (Table 13-9). -/
def bumpUnits (f : Fld) (stn n rem : Nat) : M s0 Nat := do
  let t := rem + n
  if t / 65536 ≠ 0 then bumpReg f stn (t / 65536)
  pure (t % 65536)

/-- Count the checks of granules on their way out of the M-port (Table 13-3). -/
def countOut (stn : Nat) (gs : List GranS) : M s0 Unit := do
  let p := (gs.filter fun g => g.syn = markSyn).length
  let m := (gs.filter fun g => g.syn ≠ 0 && g.syn ≠ markSyn).length
  if p ≠ 0 then bumpReg Fd.mpChkOutPoison stn p
  if m ≠ 0 then bumpReg Fd.mpChkOutMismatch stn m
  let s ← rd
  let rem ← bumpUnits Fd.mpWrGranGran stn gs.length (s.stn stn).wrRem
  modStn stn fun x => { x with wrRem := rem }

/-- Count the granules of an OK reply: mismatches of those with CKV 1, generated checks of those with CKV 0, and an error
where CKV_REQ has one treated as an ERROR reply (Table 13-3). -/
def countIn (n : Nat) (ckvReq : Bool) (gs : List (GranS × Bool)) : M s0 Unit := do
  let bad := (gs.filter fun g => g.2 && g.1.syn ≠ 0).length
  let gen := (gs.filter fun g => !g.2).length
  if bad ≠ 0 then
    bumpReg Fd.mpChkInMismatch n bad
    countCe bad
  if ckvReq && gen ≠ 0 then bumpReg Fd.mpChkInErrors n
  let s ← rd
  let genRem ← bumpUnits Fd.mpChkGenGen n gen (s.stn n).genRem
  let rdRem ← bumpUnits Fd.mpRdGranGran n gs.length (s.stn n).rdRem
  modStn n fun x => { x with genRem := genRem, rdRem := rdRem }

/-! ### Accesses that no core makes (R259, R313, R314) -/

/-- On whose behalf a station makes a request that no core asked for. -/
inductive MemUser where
  /-- The STU or the sampler, for a step of a context. -/
  | step (ctx : Nat)
  | host
  | drain
  | firmware

/-- CTX and CLASS of a request of a context. -/
def State.ctxClass (s : State) (c : Nat) : Nat × Nat := (c, if (s.ctx c).adm.be then 1 else 0)

/-- CTX and CLASS of a request that no core makes. -/
def MemUser.ctxClass (s : State) : MemUser → Nat × Nat
  | .step c => s.ctxClass c
  | .host => (0, 0)
  | .drain => (0, 1)
  | .firmware => (0, 0)

/-- One RD or WR that no core asked for, at its station: it comes behind every request that reached the station before
(R253, R315; its credit and link-up are assumption log 114). -/
def directRun (who : MemUser) (write ok : Bool) (a ngr : Nat) : M s0 Unit := do
  let n := stationOf a
  let s ← rd
  acceptBefore n (s.stn n).nextOrd a ngr
  let t ← rd
  if !write && ok then countIn n (t.reg Fd.mpCtrlCkvReq = 1) (t.granules a ngr)
  modStn n fun x => { x with direct := some ⟨write, a, ngr, (who.ctxClass t).1, (who.ctxClass t).2⟩ }

/-- The granules that n bytes at a touch. -/
def granSpan (a n : Nat) : Nat := if n = 0 then 0 else (a + n + 63) / 64 - a / 64

/-- Carry n bytes at a through their stations, run by run; a read that is not answered OK has no checks to count. -/
def viaStations (who : MemUser) (write : Bool) (a n : Nat) (ok : Bool := true) : M s0 Unit :=
  each (runsOf (granSpan a n) (a % gmSize / 64 * 64) (granSpan a n)) fun p => directRun who write ok p.1 p.2

/-- Read n bytes of the global space. -/
def gget (who : MemUser) (a n : Nat) : M s0 (List Byte) := do
  viaStations who false a n
  let s ← rd
  pure (s.gread a n)

/-- Write bytes of the global space; the granules that they touch carry syndrome `syn`. -/
def gwrite (who : MemUser) (a : Nat) (v : List Byte) (syn : Nat := 0) : M s0 Unit := do
  viaStations who true a v.length
  eff (.gmData (a % gmSize) v)
  each (List.range (granSpan a v.length)) fun i => eff (.gmSyn (a % gmSize / 64 + i) syn)
  each (runsOf (granSpan a v.length) (a % gmSize / 64 * 64) (granSpan a v.length)) fun p =>
    countOut (stationOf p.1) (List.replicate p.2 ⟨[], syn⟩)

/-- Apply each granule of a write or not, which of the two is open (R316, R404). -/
def applyMaybe (addr : Nat) (gs : List GranS) : M s0 Unit :=
  each (List.range gs.length) fun i => do
    let yes ← freshBit
    if yes then putGrans (addr + 64 * i) [gs.getD i ⟨[], 0⟩]

/-- Apply the granules of a write that have not been applied. -/
def applyRest (w : StnWrite) (must : Bool) : M s0 Unit :=
  each ((List.range w.grans.length).filter fun i => !w.done.contains (w.addr / 64 + i)) fun i =>
    if must then putGrans (w.addr + 64 * i) [w.grans.getD i ⟨[], 0⟩]
    else applyMaybe (w.addr + 64 * i) [w.grans.getD i ⟨[], 0⟩]

end Sys2Proof.Machine
end

