-- ==== Sys2Proof/Machine/Records.lean ====
section
/-! DEFINITION. Fault records and their delivery to the rings (R396 to R398), and trace records (R416). -/

namespace Sys2Proof.Machine

variable {s0 : State}

/-- Record codes (Table 16-4). -/
inductive RecKind where
  | missedGrain | grainDiscontinuity | grainLoss | grainSyncLoss
  | tileCollision | tileCheck | tileXmiss | arrayCheck | numericRange | vxCheck | illegalCmd | tokenTimeout | segCheck
  | writeRefused | writeError | releaseTimeout
  | semFault | barrierOverrun | barrierLate | waitTimeout | ownerGone | syncResidue | syncManual | objError
  | seqHeld | poolEmpty | beAbort | ctxHeld | stepLate | sampleFault | seqRngSkew | seqDone | stuRestart
  | nportDown | linkDown | linkQuarantine | stationReset
  | change | teardown | version | ccpRestart
  | coreFence | ctxFatal | risk | snapDone | snapLate | snapFail | restore
deriving DecidableEq, Repr

/-- CODE and CLASS of a record (Tables 16-4 and 16-5). -/
def RecKind.code : RecKind → Nat × Nat
  | .missedGrain => (0x01, 0) | .grainDiscontinuity => (0x02, 0) | .grainLoss => (0x03, 0)
  | .grainSyncLoss => (0x04, 0) | .tileCollision => (0x10, 1) | .tileCheck => (0x11, 1) | .tileXmiss => (0x12, 0)
  | .arrayCheck => (0x13, 1) | .numericRange => (0x14, 0) | .vxCheck => (0x15, 1) | .illegalCmd => (0x16, 1)
  | .tokenTimeout => (0x17, 2) | .segCheck => (0x18, 2) | .writeRefused => (0x20, 0) | .writeError => (0x21, 1)
  | .releaseTimeout => (0x22, 2) | .semFault => (0x30, 1) | .barrierOverrun => (0x31, 1) | .barrierLate => (0x32, 0)
  | .waitTimeout => (0x33, 2) | .ownerGone => (0x34, 1) | .syncResidue => (0x35, 0) | .syncManual => (0x36, 0)
  | .objError => (0x37, 1) | .seqHeld => (0x40, 0) | .poolEmpty => (0x41, 0) | .beAbort => (0x42, 3)
  | .ctxHeld => (0x43, 0) | .stepLate => (0x44, 0) | .sampleFault => (0x45, 1) | .seqRngSkew => (0x46, 0)
  | .seqDone => (0x47, 0) | .stuRestart => (0x48, 3) | .nportDown => (0x50, 6) | .linkDown => (0x51, 6)
  | .linkQuarantine => (0x52, 6) | .stationReset => (0x53, 6) | .change => (0x60, 0) | .teardown => (0x61, 0)
  | .version => (0x62, 0) | .ccpRestart => (0x63, 7) | .coreFence => (0x70, 5) | .ctxFatal => (0x71, 4)
  | .risk => (0x72, 0) | .snapDone => (0x73, 0) | .snapLate => (0x74, 0) | .snapFail => (0x75, 0)
  | .restore => (0x76, 0)

/-- UNIT codes of the blocks (Table 16-3). -/
def unitHub : Nat := 0x40
def unitStu : Nat := 0x41
def unitStn (n : Nat) : Nat := 0x42 + n
def unitMod (k : Nat) : Nat := 0x48 + k
def unitLport : Nat := 0x4C
def unitHport : Nat := 0x4D
def unitCcp : Nat := 0x4E
def unitGrain : Nat := 0x4F
def unitHealth : Nat := 0x50

/-- The 32 bytes of a record with its sequence number and the records lost before it (Table 16-3). -/
def Rec.bytes (r : Rec) (seq lost : Nat) : List Byte :=
  toLe seq 4 ++ toLe r.code 1
    ++ toLe (r.cls * 32 + (match r.ctx with | some c => 16 + c % 8 * 2 | none => 0)) 1
    ++ toLe r.unit 1 ++ toLe (min 255 lost) 1 ++ toLe r.grain 6 ++ toLe r.tag 2 ++ slice r.data 0 16

/-- A 3-byte physical object (R397): SPACE, core, index. -/
def objBytes (space core index : Nat) : List Byte := toLe (space * 2 ^ 22 + core % 32 * 2 ^ 17 + index % 4096) 3

/-- Object bytes of a semaphore by its place in State.sems. -/
def semObjBytes (k : Nat) : List Byte :=
  if k < 32768 then objBytes 0 (k / 1024) (k % 1024) else objBytes 1 0 (k - 32768)

/-- Object bytes of a barrier. -/
def barObjBytes (b : Nat) : List Byte := objBytes 2 0 b

/-- The base of a ring: the staging region's upper half of a pair, REC_BASE for the platform (R398). -/
def State.ringBase (s : State) (ring : Nat) : Nat :=
  if ring = 0 then s.reg Fd.recBaseLoAddr + s.reg Fd.recBaseHiAddr * 2 ^ 32 else (s.pair ring).staging + 0x80000

/-- The firmware delivers records to a ring now: it is neither updating nor restarting, and the platform's ring has a
base (R398, R389 step 5). -/
def State.ringOpen (s : State) (ring : Nat) : Bool :=
  s.fw.update.isNone && s.fw.restarting.isNone && (ring != 0 || s.recs.baseSet)

/-- The SEQ that a ring's next record carries. -/
def State.ringSeq (s : State) (ring : Nat) : Nat :=
  if ring = 0 then s.reg Fd.recSeqSeq else tabGet 1 s.recs.seqs ring

/-- SEQ runs to 0xFFFF_FFFF and then starts again at 1 (R398). -/
def nextSeq (n : Nat) : Nat := if n ≥ 0xFFFFFFFF then 1 else n + 1

/-- Write one record into its slot of a ring, the whole granule at once (R398). -/
def deliver (r : Rec) (ring : Nat) : M s0 Unit := do
  let s ← rd
  let seq := s.ringSeq ring
  let a := s.ringBase ring + 32 * (seq % 16384)
  gwrite .firmware a (r.bytes seq (tabGet 0 s.recs.lost ring))
  eff (.recs { s.recs with
    seqs := if ring = 0 then s.recs.seqs else tabSet s.recs.seqs ring (nextSeq seq),
    lost := tabSet s.recs.lost ring 0 })
  if ring = 0 then setReg Fd.recSeqSeq 0 (nextSeq seq)

/-- Make a record: deliver it to the rings that can take it, queue it for the others, or lose it there (R398). -/
def emit (r : Rec) : M s0 Unit := do
  let s ← rd
  each (r.dest.filter s.ringOpen) (deliver r)
  let later := r.dest.filter fun d => !s.ringOpen d
  if !later.isEmpty then
    let s ← rd
    if s.recs.queue.length < 1024 then
      eff (.recs { s.recs with queue := s.recs.queue ++ [{ r with dest := later }] })
    else
      eff (.recs { s.recs with lost := later.foldl (fun t d => tabSet t d (tabGet 0 t d + 1)) s.recs.lost })
      bumpReg Fd.recDropDropped

/-- Deliver what the queue holds for the rings that can now take it, in order (R398). -/
def flushRecords : M s0 Unit := do
  let s ← rd
  let q := s.recs.queue
  eff (.recs { s.recs with queue := [] })
  each q emit

/-- A record that names a context: to its owner and to the platform (R398). -/
def ctxRec (k : RecKind) (c unit tag : Nat) (data : List Byte) : M s0 Unit := do
  let s ← rd
  emit { code := k.code.1, cls := k.code.2, ctx := some c, unit := unit, grain := s.tb.now, tag := tag, data := data,
         dest := [(s.ctx c).adm.tenant, 0].eraseDups }

/-- A record without a context: to the platform only (R398). -/
def platRec (k : RecKind) (unit tag : Nat) (data : List Byte) : M s0 Unit := do
  let s ← rd
  emit { code := k.code.1, cls := k.code.2, ctx := none, unit := unit, grain := s.tb.now, tag := tag, data := data,
         dest := [0] }

/-- A notice without a context to given pairs (CHANGE and VERSION, R398). -/
def pairRec (k : RecKind) (unit : Nat) (data : List Byte) (dest : List Nat) : M s0 Unit := do
  let s ← rd
  emit { code := k.code.1, cls := k.code.2, ctx := none, unit := unit, grain := s.tb.now, tag := 0, data := data,
         dest := dest }

/-- A debug consent covers context c now (R388). -/
def State.consented (s : State) (c : Nat) : Bool := (s.ctx c).consent.isSome

/-- A debug consent covers context c for a requester: its debugger is the HSRC, and HSRC 0 alone reaches the debug
registers (R388); the firmware needs any consent in force. -/
def State.consentedTo (s : State) (r : Requester) (c : Nat) : Bool :=
  match r, (s.ctx c).consent with
  | .firmware, some _ => true
  | .host h, some d => d.1 = h.val
  | _, none => false

/-- Size of the trace ring: 2^LOG bytes, LOG from 20 to 30 (Table 16-10). -/
def State.traceSize (s : State) : Nat := 2 ^ max 20 (min 30 (s.reg Fd.traceCfgLog))

/-- Trace records that one cycle of the present grain has written (R416). -/
def State.tracedIn (s : State) (cyc : Nat) : Nat := if s.dbg.tracedAt = s.tb.now then tabGet 0 s.dbg.traced cyc else 0

/-- Trace records that the trace unit accepts in a cycle across the cluster (R416). -/
def traceRate : Nat := 4

/-- A trace record has been written in a cycle of grain `now`: the ring position moves on, wrapping at n bytes (R416). -/
def Debug.tracedOne (d : Debug) (n now cyc k : Nat) : Debug :=
  { d with
    ringPos := (d.ringPos + 32) % n, tracedAt := now,
    traced := tabSet (if d.tracedAt = now then d.traced else []) cyc (k + 1) }

/-- A cycle within the grain that no row tells (assumption log 120). -/
def openCycle : M s0 Nat := do
  let s ← rd
  modDbg fun d => { d with openCyc := d.openCyc + 1 }
  pure (Config.traceCycle s.dbg.openCyc).toNat

/-- Write a trace record (R416): in order into the ring, wrapping, while consent covers the context. One beyond the rate of its
cycle is dropped and counted. -/
def traceRec (core c eng op tag parcel cyc : Nat) (done poisoned skipped : Bool) : M s0 Unit := do
  let s ← rd
  if !(s.reg Fd.traceCfgEn = 1 && s.consented c) then pure ()
  else if traceRate ≤ s.tracedIn cyc then bumpReg Fd.traceDropDropped
  else
    let a := s.reg Fd.traceBaseLoAddr + s.reg Fd.traceBaseHiAddr * 2 ^ 32 + s.dbg.ringPos % s.traceSize
    let v := toLe s.tb.now 6 ++ toLe cyc 1 ++ toLe core 1
      ++ toLe (b2n done * 128 + b2n poisoned * 64 + b2n skipped * 32 + eng) 1 ++ toLe op 1 ++ toLe tag 2
      ++ toLe parcel 4 ++ toLe c 1 ++ zeros 15
    gwrite .firmware a v
    modDbg fun d => d.tracedOne s.traceSize s.tb.now cyc (s.tracedIn cyc)
    bumpReg Fd.traceHeadCount

end Sys2Proof.Machine
end

