-- ==== Sys2Proof/Machine/Ops.lean ====
section
/-! DEFINITION. Shared operations: when the block acts at all, the mesh, command words, token queues, and the issue of a
command by an engine with its holds, deadlines and skips (R41 to R45, R166 to R182). -/

namespace Sys2Proof.Machine

variable {s0 : State}

/-- The cluster acts: PWR_OK and CTRL_EN are high and its internal reset is released (R423, R436). -/
def State.alive (s : State) : Bool := s.pw.pwrOk && s.pw.ctrlEn && s.pw.released

/-- Run a meaning where its event can happen; elsewhere the event does not happen (assumption log 5). -/
def runIf (c : Bool) (s : State) (m : M s Unit) : Out := if c then run s m else .next s

/-! ### What the health monitor adds up (R408) -/

/-- Lost frames of the L-port and NAKs of the N-port. -/
def countLink : M s0 Unit := modHealth fun h => { h with link := h.link + 1 }

/-! ### Units -/

/-- Core n is fenced (R399). -/
def State.fenced (s : State) (n : Nat) : Bool := bit (s.reg Fd.fencedCores) n

/-- Core n is fenced, or its domain is off: what is addressed to it is answered as R404 gives (R24, R401). -/
def State.coreGone (s : State) (n : Nat) : Bool := s.fenced n || !bit (s.reg Fd.corePwrStReady) n

/-- Core n is halted (R419). -/
def State.halted (s : State) (n : Nat) : Bool := bit (s.reg Fd.dbgHaltedCores) n

/-- Incarnation number of core n (R402). -/
def State.coreInc (s : State) (n : Nat) : Nat := s.reg Fd.coreIncInc n

/-! ### The mesh (R21) -/

/-- Send a packet on the ordered lanes. -/
def send (src dst inc : Nat) (b : Body) : M s0 Unit := do
  let s ← rd
  eff (.msgs (s.msgs ++ [⟨src, dst, inc, b⟩]))

/-- The packets of a list that may arrive next at dst, one per source: for every source its oldest packet to dst, where
that one is of the kind asked for. Packets of one source and destination arrive in sending order (R21). -/
def arrivals (dst : Nat) (kind : Body → Bool) : List Msg → List Nat → List Msg
  | [], _ => []
  | m :: l, seen =>
    if m.dst = dst && !seen.contains m.src then
      if kind m.body then m :: arrivals dst kind l (m.src :: seen) else arrivals dst kind l (m.src :: seen)
    else arrivals dst kind l seen

/-- The i-th packet of that kind that may arrive next at dst. -/
def State.arrival (s : State) (dst : Nat) (kind : Body → Bool) (i : Nat := 0) : Option Msg :=
  (arrivals dst kind s.msgs [])[i]?

/-- Take one packet off the mesh. -/
def takeMsg (m : Msg) : M s0 Unit := do
  let s ← rd
  eff (.msgs (s.msgs.erase m))

/-- Drop the packets that satisfy p. -/
def dropMsgs (p : Msg → Bool) : M s0 Unit := do
  let s ← rd
  eff (.msgs (s.msgs.filter fun m => !p m))

/-! ### Command words (R166, R187) -/

/-- Bits [hi:lo] of a command word. -/
def cf (w : Cmd) (hi lo : Nat) : Nat := bits w.toNat hi lo

def opcodeOf (w : Cmd) : Nat := cf w 127 120
def tagOf (w : Cmd) : Nat := cf w 119 104
def hardOf (w : Cmd) : Bool := cf w 103 103 = 1
def hasGrain (w : Cmd) : Bool := cf w 102 102 = 1
def traceOf (w : Cmd) : Bool := cf w 101 101 = 1

/-- Engine codes (R170). -/
def engCode : Engine → Nat
  | .mx => 0 | .vx => 1 | .tx => 2 | .dx => 3 | .sx => 4

/-- The five engines in code order. -/
def engines : List Engine := [.mx, .vx, .tx, .dx, .sx]

def Core.eng (c : Core) : Engine → Eng
  | .mx => c.mx | .vx => c.vx | .tx => c.tx | .dx => c.dx | .sx => c.sx

def Core.setEng (c : Core) (e : Engine) (x : Eng) : Core :=
  match e with
  | .mx => { c with mx := x }
  | .vx => { c with vx := x }
  | .tx => { c with tx := x }
  | .dx => { c with dx := x }
  | .sx => { c with sx := x }

def modEng (n : Nat) (e : Engine) (g : Eng → Eng) : M s0 Unit := modCore n fun c => c.setEng e (g (c.eng e))

/-- The engine that an opcode belongs to; 0x00 and 0x01 belong to every engine (Table 8-1). -/
def opEngine (op : Nat) : Option Engine :=
  if op = 0x10 ∨ op = 0x11 ∨ op = 0x12 ∨ op = 0x13 then some .mx
  else if op = 0x20 then some .vx
  else if op = 0x30 ∨ op = 0x31 ∨ op = 0x32 then some .tx
  else if 0x40 ≤ op ∧ op ≤ 0x47 then some .dx
  else if 0x50 ≤ op ∧ op ≤ 0x53 then some .sx
  else none

/-- Input end bytes of a command, with those of its PSCL word (Tables 8-1, 8-2, 8-6). -/
def inEnds (w : Cmd) (pscl : Option Cmd) : List Nat :=
  let op := opcodeOf w
  let short := [cf w 7 0, cf w 15 8]
  if op = 0x00 ∨ op = 0x10 ∨ op = 0x20 then short ++ [cf w 39 32, cf w 47 40]
  else if op = 0x12 then [cf w 39 32, cf w 47 40]
  else if op = 0x11 then
    short ++ (match pscl with | some p => [cf p 39 32, cf p 47 40] | none => [])
  else short

/-- Output end bytes of a command (Table 8-1). -/
def outEnds (w : Cmd) : List Nat :=
  let op := opcodeOf w
  if op = 0x10 ∨ op = 0x12 then [] else if op = 0x11 then [cf w 23 16] else [cf w 23 16, cf w 31 24]

/-- Tokens that an input end pops (R170). -/
def popCount (end_ : Nat) : Nat := if end_ / 64 = 1 then 1 else if end_ / 64 = 2 then 2 else if end_ / 64 = 3 then 4 else 0

/-- Queues and pop counts of a command's input ends. -/
def popsOf (w : Cmd) (pscl : Option Cmd) : List (Nat × Nat) :=
  ((inEnds w pscl).filter (fun b => popCount b ≠ 0)).map fun b => (b % 64, popCount b)

/-- Queues that a command pushes to. -/
def outsOf (w : Cmd) : List Nat := ((outEnds w).filter fun b => b / 64 = 1).map (· % 64)

/-! ### Token queues (R170 to R172) -/

def Core.queue (c : Core) (q : Nat) : List QSlot := tabGet [] c.queues q

/-- Tokens that may be popped: the filled slots before the first that is only reserved. -/
def readyTokens : List QSlot → List Token
  | [] => []
  | x :: l => match x.tok with | some t => t :: readyTokens l | none => []

/-- Pops summed per queue. -/
def sumPops (l : List (Nat × Nat)) (q : Nat) : Nat := (l.filter (·.1 = q)).foldl (fun n p => n + p.2) 0

/-- Every input end holds its pop count (R172). -/
def Core.canPop (c : Core) (pops : List (Nat × Nat)) : Bool :=
  pops.all fun p => sumPops pops p.1 ≤ (readyTokens (c.queue p.1)).length

/-- Every output queue has a free slot for each push (R172). -/
def Core.hasRoom (c : Core) (outs : List Nat) : Bool :=
  outs.all fun q => (c.queue q).length + outs.count q ≤ 16

/-- Pop the tokens of one input end. -/
def Core.pop (c : Core) (p : Nat × Nat) : Core := { c with queues := tabSet c.queues p.1 ((c.queue p.1).drop p.2) }

/-- Reserve one slot of a queue under a ticket. -/
def Core.reserve (ticket : Nat) (c : Core) (q : Nat) : Core :=
  { c with queues := tabSet c.queues q (c.queue q ++ [⟨ticket, none⟩]) }

/-- Fill the slots that a ticket reserved in a queue. -/
def Core.fill (ticket : Nat) (t : Token) (c : Core) (q : Nat) : Core :=
  { c with queues := tabSet c.queues q ((c.queue q).map fun x => if x.ticket = ticket ∧ x.tok = none then ⟨ticket, some t⟩ else x) }

/-- The tokens that a list of pops takes. -/
def Core.popped (c : Core) (pops : List (Nat × Nat)) : List Token :=
  (pops.map fun p => (readyTokens (c.queue p.1)).take p.2).flatten

/-! ### Parcels and poison -/

/-- The parcel of core n is poisoned (R183). -/
def poisonParcel (n : Nat) : M s0 Unit :=
  modCore n fun c => { c with run := c.run.map fun r => { r with poisoned := true } }

/-- Context of the parcel that core n runs. -/
def Core.runCtx (c : Core) : Nat := match c.run with | some r => r.parcel.ctx | none => 0

/-- Parcel index in its caravan. -/
def Core.runParcel (c : Core) : Nat := match c.run with | some r => r.parcel.index | none => 0

/-- No token that a ticket owes a queue stands behind a slot that is still empty: they have entered it (R172). -/
def Core.entered (c : Core) (ticket q : Nat) : Bool :=
  ((c.queue q).dropWhile (·.tok.isSome)).all fun x => x.ticket ≠ ticket

/-- A command's tokens have all entered their queues. -/
def DoneTrace.out (d : DoneTrace) (c : Core) : Bool := d.outs.all (c.entered d.ticket)

/-- Write the completion record of each command whose tokens have entered their queues; one that pushes none has completed
(R190), in a cycle that the row gives or leaves open. -/
def flushTraces (n : Nat) (cyc : Option Nat) : M s0 Unit := do
  let s ← rd
  let c := s.core n
  if c.traces.any fun d => d.out c then
    let at_ ← match cyc with
      | some k => pure k
      | none => openCycle
    modCore n fun c => { c with traces := c.traces.filter fun d => !d.out c }
    each (c.traces.filter fun d => d.out c) fun d =>
      traceRec n c.runCtx (engCode d.eng) (opcodeOf d.cmd) (tagOf d.cmd) c.runParcel at_ true d.poison d.skipped

/-- Fill the slots that an issued command reserved for its output tokens (R171, R172, R181, R183), with its completion trace
(R190): a token behind one that is still owed enters its queue with that one. -/
def pushTokens (n : Nat) (e : Engine) (w : Cmd) (ticket : Nat) (outs : List Nat) (poison : Bool)
    (cyc : Option Nat := none) (skipped : Bool := false) : M s0 Unit := do
  modCore n fun c =>
    let c := outs.foldl (Core.fill ticket ⟨poison, engCode e, tagOf w⟩) c
    if traceOf w then { c with traces := c.traces ++ [⟨e, w, ticket, outs, poison, skipped⟩] } else c
  if poison && !outs.isEmpty then poisonParcel n
  flushTraces n cyc

/-! ### Grain conditions (R38, R41 to R46) -/

/-- Start grain of a command under its GRAIN word (R167): its offset from the parcel's start. -/
def startGrain (r : Running) (x : Eng) (g : Option Cmd) : Option Nat :=
  match g with
  | none => none
  | some g => if cf g 96 96 = 1 then some (x.moved.getD (grainAdd r.start (cf g 95 64))) else none

/-- Deadline grain; in a Tyzia 3 parcel the start grain (Table 7-3). -/
def deadlineGrain (r : Running) (x : Eng) (g : Option Cmd) : Option Nat :=
  match g with
  | none => none
  | some g =>
    if r.t4 then
      (if cf g 97 97 = 1 then some (x.moved.getD (grainAdd r.start (cf g 63 32))) else none)
    else startGrain r x (some g)

/-- A deadline has passed: it lies behind the count, or, after the holdover limit, has fallen due (R43, R45, R48). -/
def State.late (s : State) (d : Nat) : Bool := reached s.tb.now d && (s.tb.limited || grainSub s.tb.now d != 0)

/-- A command may act before its start grain no sooner than that grain, and not while the holdover limit is exceeded. -/
def State.started (s : State) (g : Nat) : Bool := !s.tb.limited && reached s.tb.now g

/-- The head of an engine's stream: its GRAIN word, the command, its PSCL word, and the words behind it. -/
structure Head where
  grain : Option Cmd
  cmd   : Cmd
  pscl  : Option Cmd
  rest  : List Cmd

/-- A PASS takes the PSCL word that follows it (R197). -/
def headCmd (grain pscl : Option Cmd) : List Cmd → Option Head
  | [] => none
  | w :: l =>
    if opcodeOf w = 0x11 then
      match pscl, l with
      | some p, _ => some ⟨grain, w, some p, l⟩
      | none, p :: l' => if opcodeOf p = 0x12 then some ⟨grain, w, some p, l'⟩ else some ⟨grain, w, none, l⟩
      | none, [] => some ⟨grain, w, none, l⟩
    else some ⟨grain, w, none, l⟩

/-- The command at the head of an engine's stream with the words that belong to it. -/
def Eng.head (x : Eng) : Option Head :=
  match x.grain, x.stream with
  | some g, l => headCmd (some g) x.pscl l
  | none, w :: l => if opcodeOf w = 0x01 then headCmd (some w) x.pscl l else headCmd none x.pscl (w :: l)
  | none, [] => none

/-- The engine has words left (ENG_ACTIVE, R185). -/
def Eng.active (x : Eng) : Bool := !x.stream.isEmpty || x.grain.isSome

/-! ### Legality common to all commands (R188, Table 7-7) -/

/-- An end byte whose code is 00 holds 0x00 as a whole (R188); output codes 10 and 11 are reserved (R170). -/
def endOk (output : Bool) (b : Nat) : Bool := (b / 64 ≠ 0 || b = 0) && (!output || b / 64 ≤ 1)

/-- Bits [100:96] must be zero in every command but PASS and ACQ, where ACQ defines [96]; Tyzia 3 ignores them. -/
def flagsOk (t4 : Bool) (w : Cmd) : Bool :=
  let op := opcodeOf w
  !t4 || op = 0x11 || (if op = 0x46 || op = 0x45 then (if op = 0x45 then cf w 100 97 = 0 else cf w 100 96 = 0)
    else cf w 100 96 = 0)

/-- Reason 0x01 or 0x08 of the parts common to all commands: flags, ends, and Tyzia 4 ends in a Tyzia 3 parcel. -/
def commonReason (t4 : Bool) (h : Head) : Option Nat :=
  let ins := inEnds h.cmd h.pscl
  let outs := outEnds h.cmd
  if !flagsOk t4 h.cmd || !(ins.all (endOk false)) || !(outs.all (endOk true)) then some 0x01
  else if !t4 && ((ins ++ outs).any fun b => b / 64 > 1 || (b / 64 ≠ 0 && b % 64 > 31)) then some 0x08
  else none

/-! ### Issue -/

/-- A command that has issued: what its meaning works with. -/
structure Issued where
  core   : Nat
  eng    : Engine
  cmd    : Cmd
  pscl   : Option Cmd
  ticket : Nat
  outs   : List Nat
  /-- A token that it popped was poisoned. -/
  poison : Bool
  ctx    : Nat
  run    : Running
  ph     : Phys

/-- Tag of an issued command. -/
def Issued.tag (i : Issued) : Nat := tagOf i.cmd

/-- Push the tokens of an issued command now. -/
def Issued.push (i : Issued) (poison : Bool) : M s0 Unit := pushTokens i.core i.eng i.cmd i.ticket i.outs poison (some i.ph.cyc)

/-- Producer tags as the bytes of a record, 2 each. -/
def tagBytes (l : List Nat) : List Byte := l.flatMap fun t => toLe t 2

/-- Producer tags of the poisoned tokens that a head takes (R171). -/
def Core.poisonTags (c : Core) (h : Head) : List Nat := ((c.popped (popsOf h.cmd h.pscl)).filter (·.poison)).map (·.tag)

/-- A fault record of an issued command of core n: the fields that its rule names, then the producer tags of the poisoned
tokens that the command popped, as far as the record has room (R171, R397; their place is assumption log 101). -/
def cmdRec (k : RecKind) (c n tag ticket : Nat) (data : List Byte) : M s0 Unit := do
  let s ← rd
  ctxRec k c n tag (data ++ tagBytes (tabGet [] (s.core n).consumed ticket))

/-- A MISSED_GRAIN record: deadline and grain of the actual issue or skip (R43, R44, R54), with the producer tags of R171. -/
def missedRecord (n c tag dl actual : Nat) (tags : List Nat) : M s0 Unit := do
  ctxRec .missedGrain c n tag (toLe dl 6 ++ toLe actual 6 ++ tagBytes tags)
  bumpReg Fd.coreGrainMissMissed n
  setReg Fd.coreGrainMissLastTag n tag
  bumpReg Fd.grainMissCntMissed
  setReg Fd.coreGrainSlackMinSlack n 0

/-- A core after the head command of an engine has left its stream: its inputs popped and its outputs reserved (R172). -/
def Core.taken (c : Core) (e : Engine) (h : Head) : Core :=
  let tags := c.poisonTags h
  let c := (popsOf h.cmd h.pscl).foldl Core.pop c
  let c := (outsOf h.cmd).foldl (Core.reserve c.ticket) c
  { (c.setEng e { stream := h.rest }) with
    ticket := c.ticket + 1, consumed := if tags.isEmpty then c.consumed else tabSet c.consumed c.ticket tags }

/-- Take the head command off its stream. -/
def takeHead (n : Nat) (e : Engine) (h : Head) : M s0 Unit := modCore n fun c => c.taken e h

/-- A skipped LDW leaves its planes unchanged and poisoned (R108). -/
def skipPlanes (w : Cmd) (c : Core) : Core :=
  if opcodeOf w = 0x10 && cf w 59 58 ≠ 3 then
    (bitsSet (cf w 63 60) 4).foldl (fun c a =>
      let k := a * 4 + cf w 59 58
      { c with planes := tabSet c.planes k { tabGet {} c.planes k with poison := true } }) c
  else c

/-- Skip an illegal command (R180). -/
def skip (n : Nat) (e : Engine) (h : Head) (r : Running) (reason cyc : Nat) : M s0 Unit := do
  let s ← rd
  let t := (s.core n).ticket
  let m := s.model r.model
  takeHead n e h
  if traceOf h.cmd then
    traceRec n r.parcel.ctx (engCode e) (opcodeOf h.cmd) (tagOf h.cmd) r.parcel.index cyc false true true
  pushTokens n e h.cmd t (outsOf h.cmd) true (some cyc) true
  poisonParcel n
  modCore n (skipPlanes h.cmd)
  bumpReg Fd.coreSkipCount n
  setReg Fd.coreSkipLastTag n (tagOf h.cmd)
  setReg Fd.skipInfoOpcode n (opcodeOf h.cmd)
  setReg Fd.skipInfoReason n reason
  setReg Fd.skipInfoEngine n (engCode e)
  if s.reg Fd.progCtrlSkipRec n = 1 || !r.skipRec then
    cmdRec .illegalCmd r.parcel.ctx n (tagOf h.cmd) t
      (toLe m.modelId 8 ++ toLe r.parcel.index 4 ++ toLe (opcodeOf h.cmd) 1 ++ toLe reason 1)
  modCore n fun c => { c with run := c.run.map fun r => { r with skipRec := true } }

/-- The fewest grains that a start-grain command of the step has held (R54). -/
def recordSlack (n held : Nat) : M s0 Unit := do
  let s ← rd
  setReg Fd.coreGrainSlackMinSlack n (min held (s.reg Fd.coreGrainSlackMinSlack n))

/-- A debug consent covers the context to which core n is assigned (R388). -/
def State.covered (s : State) (n : Nat) : Bool :=
  match (s.core n).ctx with
  | some k => s.consented k
  | none => false

/-- A halt of core n is pending: it is taken at the next boundary, and no engine issues before it (R76, R419). -/
def State.haltPending (s : State) (n : Nat) : Bool :=
  bit s.dbg.wanted n && !s.halted n && !bit s.dbg.stepping n && s.covered n

/-- The TX queue is stalled whole behind a tile load that has not finished, parked or not (R25, R73). -/
def Core.stalled (c : Core) (e : Engine) : Bool := e = .tx && c.load.isSome

/-- Core n may issue on engine e: it runs a parcel, is not fenced, not halted with no halt pending, under DBG_STEP has a command
left for this engine (R76, R399, R401, R419), and the engine's queue is not stalled. -/
def State.mayIssue (s : State) (n : Nat) (e : Engine) : Bool :=
  s.alive && (s.core n).run.isSome && !s.fenced n && !s.halted n && !s.haltPending n && !(s.core n).stalled e
    && (!bit s.dbg.stepping n || s.dbg.steps.contains (n * 8 + (engCode e)))

/-- What a command works with that issues from the head of an engine of core n in state s. -/
def State.issued (s : State) (n : Nat) (e : Engine) (ph : Phys) (r : Running) (h : Head) : Issued :=
  { core := n, eng := e, cmd := h.cmd, pscl := h.pscl, ticket := (s.core n).ticket, outs := outsOf h.cmd,
    poison := ((s.core n).popped (popsOf h.cmd h.pscl)).any (·.poison), ctx := r.parcel.ctx, run := r, ph := ph }

/-- The deadline that a head has missed by now, with the one that a deferral moved (R43). -/
def State.missedBy (s : State) (r : Running) (x : Eng) (h : Head) : Option Nat :=
  match x.missed, deadlineGrain r x h.grain with
  | some d, _ => some d
  | none, some d => if s.late d then some d else none
  | none, none => none

/-- The slack of an issuing head, which counts the grains up to the end of its hold, and a deadline that it missed are noted
(R43, R54). -/
def issueNote (n : Nat) (e : Engine) (r : Running) (h : Head) : M s0 Unit := do
  let s ← rd
  let x := (s.core n).eng e
  if (startGrain r x h.grain).isSome then
    recordSlack n (match x.startHold with | some g => grainSub (x.fellDue.getD s.tb.now) g | none => 0)
  match s.missedBy r x h with
  | some d => missedRecord n r.parcel.ctx (tagOf h.cmd) d s.tb.now ((s.core n).poisonTags h)
  | none => pure ()

/-- An issue uses up the step that DBG_STEP gave its engine, and is traced where TRACE is set (R190, R419). -/
def issueTrace (n : Nat) (e : Engine) (ph : Phys) (r : Running) (h : Head) : M s0 Unit := do
  let s ← rd
  if bit s.dbg.stepping n then modDbg fun d => { d with steps := d.steps.erase (n * 8 + (engCode e)) }
  if traceOf h.cmd then
    traceRec n r.parcel.ctx (engCode e) (opcodeOf h.cmd) (tagOf h.cmd) r.parcel.index ph.cyc false false false

/-- The head of an engine leaves its stream (R41, R172). -/
def issueEnter (n : Nat) (e : Engine) (ph : Phys) (r : Running) (h : Head) : M s0 Unit := do
  issueNote n e r h
  takeHead n e h
  issueTrace n e ph r h

/-- The head of an engine issues and does what `body` says. -/
def issueNow (n : Nat) (e : Engine) (ph : Phys) (r : Running) (h : Head) (body : Issued → M s0 Unit) : M s0 Unit := do
  let s ← rd
  issueEnter n e ph r h
  body (s.issued n e ph r h)

/-- The deadline of a head has passed. -/
def State.headLate (s : State) (r : Running) (x : Eng) (h : Head) : Bool :=
  match deadlineGrain r x h.grain with
  | some d => s.late d
  | none => false

/-- The start grain of a head has not come yet. -/
def State.headEarly (s : State) (r : Running) (x : Eng) (h : Head) : Bool :=
  match startGrain r x h.grain with
  | some g => !s.started g
  | none => false

/-- The start grain for which a head still holds, where the count has reached it. -/
def State.unfallen (s : State) (n : Nat) (e : Engine) : Option Nat :=
  let x := (s.core n).eng e
  match (s.core n).run, x.head with
  | some r, some h =>
    if s.mayIssue n e && x.startHold.isSome && x.fellDue.isNone then (startGrain r x h.grain).filter s.started else none
  | _, _ => none

/-- Start grains that the count has passed fall due in their order (R39): that of this engine's head waits for an earlier
one. -/
def State.dueAfter (s : State) (n : Nat) (e : Engine) : Bool :=
  match s.unfallen n e with
  | none => false
  | some g => (List.range 32).any fun m => engines.any fun f =>
    match s.unfallen m f with
    | some g' => g' ≠ g && reached g g'
    | none => false

/-- A hold for a start grain ends as the grain falls due (R41). -/
def Eng.fall (now : Nat) (x : Eng) : Eng :=
  if x.startHold.isSome then { x with fellDue := some (x.fellDue.getD now) } else x

/-- Attempt to issue the head of an engine (R41, R172, R179, R180). `reason` gives the skip reason of the command's own
rules, `busy` the engine's own issue conditions, `body` what the command does once it has issued. A command that must hold
stays at the head, and the grain in which it began to hold is noted. A HARD command is late from the grain after its deadline
on and legality is checked at issue, so of a late and illegal one lateness applied first (R179). `seen` is the reading of the
descriptor whose contents made a command illegal with reason 0x06. -/
def issueWith (n : Nat) (e : Engine) (ops : List Nat) (ph : Phys) (reason : State → Running → Head → Option Nat)
    (busy : State → Running → Head → Bool) (body : Issued → M s0 Unit)
    (seen : Running → Head → M s0 Unit := fun _ _ => pure ()) : M s0 Unit := do
  let s ← rd
  let c := s.core n
  let x := c.eng e
  match c.run, x.head with
  | some r, some h =>
    if s.mayIssue n e && x.wait.isNone && ops.contains (opcodeOf h.cmd) then
      let hardLate := s.headLate r x h && hardOf h.cmd && r.t4
      let bad := if hardLate then some 0x09 else match commonReason r.t4 h with
        | some k => some k
        | none => reason s r h
      if s.headEarly r x h && bad.isNone then
        modEng n e fun x => { x with startHold := some (x.startHold.getD s.tb.now) }
      else if s.dueAfter n e then pure ()
      else if !(c.canPop (popsOf h.cmd h.pscl) && c.hasRoom (outsOf h.cmd)) then
        modEng n e fun x => { (x.fall s.tb.now) with hold := some (x.hold.getD s.tb.now) }
      else match bad with
        | some k =>
          match s.missedBy r x h with
          | some d =>
            if hardLate || x.missed.isSome then missedRecord n r.parcel.ctx (tagOf h.cmd) d s.tb.now (c.poisonTags h)
          | none => pure ()
          if k = 6 then seen r h
          skip n e h r k ph.cyc
        | none =>
          if busy s r h then
            modEng n e fun x => { (x.fall s.tb.now) with hold := none }
          else issueNow n e ph r h body
  | _, _ => pure ()

end Sys2Proof.Machine
end

