-- ==== Sys2Proof/Machine/Ports.lean ====
section
/-! DEFINITION. Shared operations of the M-port stations and the N-port modules, and the injection of a core's global
writes and reads (R253, R255, R312 to R317, R326 to R331). -/

namespace Sys2Proof.Machine

variable {s0 : State}

/-- Mesh nodes beside the cores. -/
def nodeHub : Nat := 32
def nodeSpine : Nat := 33
def nodeStn (n : Nat) : Nat := 40 + n
def nodeMod (k : Nat) : Nat := 48 + k
def nodeLport : Nat := 52
def nodeHport : Nat := 53

/-- Number of a station, module, the L-port or the H-port in PORT_INC0 to PORT_INC2. -/
def incStn (n : Nat) : Nat := n
def incMod (k : Nat) : Nat := 6 + k
def incLport : Nat := 10
def incHport : Nat := 11

/-- INC of a port unit (R402). -/
def State.portIncOf (s : State) (u : Nat) : Nat := s.reg (Fd.portInc u)

/-- The first request tag from `t` on that no outstanding request of the station uses (assumption log 31). -/
def freeTag (x : Station) : Nat → Nat → Nat
  | 0, t => t
  | k + 1, t =>
    if x.reads.any (·.rtag = t) || x.writes.any (·.rtag = t) then freeTag x k ((t + 1) % 1024) else t

/-- A station may send a request: it is linked up, holds the credit, and has room for one more (R314, R315). -/
def State.stnCan (s : State) (n : Nat) (q : StnReq) : Bool :=
  let x := s.stn n
  s.reg Fd.mpStnStatusReady n = 1 &&
  match q with
  | .read _ => 1 ≤ x.rdCred && x.reads.length < 512
  | .write w => w.grans.length ≤ x.wrCred && x.writes.length < 512

/-- A station sends a request to its controller with the credits it takes; a write's checks are counted on the way out.
What a read returns and when a write is applied is settled when the controller answers (R253). -/
def stnSend (n : Nat) (q : StnReq) : M s0 Unit := do
  let s ← rd
  let x := s.stn n
  let tag := freeTag x 1024 x.nextTag
  match q with
  | .read r =>
    eff (.stn n { x with
      rdCred := x.rdCred - 1, nextTag := (tag + 1) % 1024,
      reads := x.reads ++ [{ r with rtag := tag, ckvReq := s.reg Fd.mpCtrlCkvReq = 1 }] })
  | .write w =>
    eff (.stn n { x with
      wrCred := x.wrCred - w.grans.length, nextTag := (tag + 1) % 1024, writes := x.writes ++ [{ w with rtag := tag }] })
    countOut n w.grans

/-- Let the requests that wait at a station leave in their order while they can (R315). -/
def stnDrain (n : Nat) : Nat → M s0 Unit
  | 0 => pure ()
  | k + 1 => do
    let s ← rd
    match (s.stn n).waiting with
    | [] => pure ()
    | q :: l =>
      if s.stnCan n q then
        modStn n fun x => { x with waiting := l }
        stnSend n q
        stnDrain n k

/-- A request with its place in the station's order. -/
def StnReq.at_ (q : StnReq) (k : Nat) : StnReq :=
  match q with
  | .read r => .read { r with ord := k }
  | .write w => .write { w with ord := k }

/-- A request reaches its station, behind those that wait there (R315). -/
def stnPush (n : Nat) (q : StnReq) : M s0 Unit := do
  modStn n fun x => { x with waiting := x.waiting ++ [q.at_ x.nextOrd], nextOrd := x.nextOrd + 1 }
  let s ← rd
  stnDrain n (s.stn n).waiting.length

/-- Two runs of granules meet. -/
def meets (a n b m : Nat) : Bool := a < b + 64 * m && b < a + 64 * n

/-- A request of a core waits at station m behind what that station holds of the core: an NCU packet whose group it meets, or
any packet where m is its own station, whose ordered lane they share (R21, R254, R263). -/
def State.behind (s : State) (core : Nat) (q : StnReq) (m : Nat) : Bool :=
  (s.stn m).held.any fun h => h.1 = core &&
    (stationOf q.range.1 = m ||
      match h.2.2 with
      | .pkt p => meets p.addr (ncuMem p.ncu / 64) q.range.1 q.range.2
      | .req _ => false)

/-- A core sends a request to its station (R253, R254). -/
def corePush (core inc : Nat) (q : StnReq) : M s0 Unit := do
  let s ← rd
  match (List.range 6).find? (s.behind core q) with
  | some m => modStn m fun x => { x with held := x.held ++ [(core, inc, .req q)] }
  | none => stnPush (stationOf q.range.1) q

/-- Core-side packets of a group under assembly at station n. -/
def State.assembling (s : State) (n : Nat) : Nat :=
  (s.groups.filter fun g => g.write && g.left = 0 && stationOf g.addr = n).length

/-- A read or write request of a context's parcel (R314). -/
def State.readReq (s : State) (dest : ReadFor) (ctx addr ngr : Nat) : StnReq :=
  .read { dest := dest, ctx := ctx, cls := (s.ctxClass ctx).2, addr := addr, ngr := ngr }

def State.writeReq (s : State) (dest : WriteFor) (ctx addr : Nat) (gs : List GranS) : StnReq :=
  .write { dest := dest, ctx := ctx, cls := (s.ctxClass ctx).2, addr := addr, grans := gs }

/-- Write the granules of a group, each run through its own station over the ring (R323). -/
def writeGroup (id ctx addr : Nat) (gs : List GranS) : M s0 Unit := do
  let s ← rd
  each (runsOf gs.length addr gs.length) fun p =>
    stnPush (stationOf p.1) (s.writeReq (.group id) ctx p.1 ((gs.drop ((p.1 - addr) / 64)).take p.2))

/-- A group is whole: the NCU compresses it, counts, and writes its memory granules; one failed input granule marks them
all (R321, R325). -/
def closeGroup (n : Nat) (g : NcuGroup) : M s0 Unit := do
  let core := (List.range (ncuCore g.ncu)).foldr (fun i l =>
    match g.bytes.find? fun p => p.1 ≤ i && i < p.1 + p.2.length with
    | some p => p.2.getD (i - p.1) 0 :: l
    | none => 0 :: l) []
  let (mem, k) := compressGroup g.ncu core
  if k.elems ≠ 0 then bumpReg Fd.ncuClipElems n k.elems
  if k.blocks ≠ 0 then bumpReg Fd.ncuClipBlocks n k.blocks
  if k.nans ≠ 0 then bumpReg Fd.ncuInvNanBlocks n k.nans
  if g.bad then bumpReg Fd.ncuFailGroups n
  let gs : List GranS := (chunks 64 (mem.length / 64) mem).map fun d => ⟨d, mark g.bad 0⟩
  let s ← rd
  eff (.groups (s.groups.map fun x => if x.id = g.id then { x with left := (runsOf gs.length g.addr gs.length).length } else x)
    s.nextGroup)
  writeGroup g.id g.ctx g.addr gs

/-- A core-side packet enters its group's buffer, or claims one (R323). -/
def ncuEnter (n core inc : Nat) (p : Pkt) : M s0 Unit := do
  let s ← rd
  let part : Nat × List Byte := (p.place, (p.grans.map (·.data)).flatten)
  let bad := p.grans.any fun g => g.syn ≠ 0
  let g : NcuGroup :=
    match s.groups.find? fun g => g.write && g.left = 0 && g.core = core && g.addr = p.addr && g.ncu = p.ncu with
    | some g => { g with bytes := g.bytes ++ [part], bad := g.bad || bad, pkts := g.pkts ++ [p.id] }
    | none => { id := s.nextGroup, core := core, inc := inc, write := true, ncu := p.ncu, addr := p.addr,
                bytes := [part], bad := bad, pkts := [p.id], ctx := p.ctx }
  eff (.groups (s.groups.filter (·.id ≠ g.id) ++ [g]) (max s.nextGroup (g.id + 1)))
  if (g.bytes.map (·.2.length)).foldl (· + ·) 0 = ncuCore g.ncu then closeGroup n g

/-- An item of a core that a station holds may go on now: a request, or a packet whose group has a buffer or finds one of the
lane's four free. -/
def State.ncuCan (s : State) (n core : Nat) : HeldItem → Bool
  | .req _ => true
  | .pkt p => (s.groups.any fun g => g.write && g.left = 0 && g.core = core && g.addr = p.addr && g.ncu = p.ncu)
    || s.assembling n < 4

/-- Let held items go on in order, none past an earlier one of its core (R21). -/
def ncuDrain (n : Nat) : Nat → M s0 Unit
  | 0 => pure ()
  | k + 1 => do
    let s ← rd
    let l := (s.stn n).held
    let free := (List.range l.length).find? fun i =>
      match l[i]? with
      | some (c, _, p) => s.ncuCan n c p && !(l.take i).any (·.1 = c)
      | none => false
    match free.bind fun i => l[i]? with
    | some (c, inc, p) =>
      modStn n fun x => { x with held := x.held.erase (c, inc, p) }
      match p with
      | .pkt p => ncuEnter n c inc p
      | .req q => stnPush (stationOf q.range.1) q
      ncuDrain n k
    | none => pure ()

/-- A core-side packet reaches the station of its group. -/
def ncuPush (n core inc : Nat) (p : Pkt) : M s0 Unit := do
  modStn n fun x => { x with held := x.held ++ [(core, inc, .pkt p)] }
  let s ← rd
  ncuDrain n (s.stn n).held.length

/-- The base of the scratchpad aperture and its 2 GiB (R244). -/
def inAperture (a : Nat) : Bool := Config.spaBase ≤ a && a < Config.spaBase + 2 ^ 31

/-- Instance, core and offset that an aperture address names (R244). -/
def apertureInst (a : Nat) : Nat := (a - Config.spaBase) / 2 ^ 27
def apertureCore (a : Nat) : Nat := (a - Config.spaBase) / 2 ^ 22 % 32
def apertureOff (a : Nat) : Nat := (a - Config.spaBase) % 2 ^ 22

/-- The module toward cluster d, where a route is enabled and the module is neither down nor absent (R328, R331). -/
def State.route (s : State) (d : Nat) : Option Nat :=
  let k := bits (s.reg Fd.npRouteRoute) (2 * d + 1) (2 * d)
  if bit (s.reg Fd.npRouteEnEn) d && !(s.mod k).down then some k else none

/-- Acknowledge a packet to a core: 0 good, 1 error, 2 TARGET_RESET, 3 refusal (R255). -/
def ackCore (src core inc id status : Nat) : M s0 Unit := send src core inc (.ack id status)

/-- The last 128 frames of a list. -/
def last128 (l : List NOut) : List NOut := l.drop (l.length - 128)

/-- Put one frame on a module's lanes, with its SEQ, and keep it for replay (R327). -/
def modSend (k : Nat) (o : NOut) : M s0 Unit := do
  let s ← rd
  let x := s.mod k
  let f := { o.frame with
    seq := BitVec.ofNat 8 x.txSeq, inc := if o.keep then o.frame.inc else BitVec.ofNat 8 (s.portIncOf (incMod k)),
    credit := BitVec.ofNat 6 (min 63 x.owed) }
  eff (.mod k { x with
    txSeq := (x.txSeq + 1) % 256, owed := x.owed - min 63 x.owed,
    credit := if o.type = 5 ∨ o.type = 6 then x.credit else x.credit - 1,
    replay := last128 (x.replay ++ [{ o with frame := f }]), lanes := last128 (x.lanes ++ [{ o with frame := f }]) })
  bumpReg Fd.npTxFrames k
  let m := popcount o.frame.mark.toNat 8
  if o.type = 1 && m ≠ 0 then bumpReg Fd.npChkMarked k m

/-- A frame may leave: the module is in the link state and holds a credit; NAK and CRD need none. -/
def State.modCan (s : State) (k : Nat) (o : NOut) : Bool :=
  let x := s.mod k
  x.trained && x.retrain.isNone && !x.down && (o.type = 5 || o.type = 6 || x.credit ≠ 0)

/-- Let the frames that wait at a module leave in order while they can. -/
def modDrain (k : Nat) : Nat → M s0 Unit
  | 0 => pure ()
  | n + 1 => do
    let s ← rd
    match (s.mod k).waiting with
    | [] => pure ()
    | o :: l =>
      if s.modCan k o then
        modMod k fun x => { x with waiting := l }
        modSend k o
        modDrain k n

/-- Hand a frame to a module, behind those that wait there; NAK and CRD, which need no credit, go first. -/
def modPush (k : Nat) (o : NOut) : M s0 Unit := do
  modMod k fun x => { x with waiting := if 5 ≤ o.type then o :: x.waiting else x.waiting ++ [o] }
  let s ← rd
  modDrain k (s.mod k).waiting.length

/-- A frame with no granules and an empty body, from one core of this cluster to a core of another. -/
def frameTo (dinst dcore score tag : Nat) : NFrame :=
  { dinst := Fin.ofNat 16 dinst, dcore := Fin.ofNat 32 dcore, sinst := Config.inst, score := Fin.ofNat 32 score,
    mark := 0, inc := 0, seq := 0, credit := 0, tag := BitVec.ofNat 16 tag, offset := 0, grans := [], body := zeros 16,
    sctx := 0, crcOk := true }

/-- MARK of a list of granules: bit k set where granule k fails its check (Table 13-3). -/
def markBits (gs : List GranS) : Nat :=
  (List.range gs.length).foldl (fun n i => if (gs.getD i ⟨[], 0⟩).syn ≠ 0 then n + 2 ^ i else n) 0

/-- Send one write packet of core n toward its destination: a station, a core of this cluster, or another cluster
(R255). The packet is on the ordered lanes from here on. -/
def injectPkt (n : Nat) (p : Pkt) : M s0 Unit := do
  let s ← rd
  let inc := s.coreInc n
  let bytes := if p.ncu = 0 then 64 * p.grans.length else ncuMem p.ncu
  let hit := fun a : Nat => p.addr ≤ a && a < p.addr + bytes
  modCore n fun c => { c with
    outW := c.outW ++ [{ id := p.id, tag := p.tag, ch := p.ch, ctx := p.ctx,
                         dinst := if inAperture p.addr && apertureInst p.addr ≠ Config.inst.val then
                             some (apertureInst p.addr) else none,
                         dcore := apertureCore p.addr }],
    mcache := c.mcache.filter (fun l => !hit l.addr),
    mrds := c.mrds.map fun m => if hit m.line then { m with noFill := true } else m }
  if inAperture p.addr then
    if apertureInst p.addr = Config.inst.val then
      send n (apertureCore p.addr) inc
        (.write { pkg := Config.pkg, inst := Config.inst, ctx := p.ctx, score := n } (apertureOff p.addr) p)
    else
      match s.route (apertureInst p.addr) with
      | none => ackCore n n inc p.id 1
      | some k =>
        modPush k ⟨1, { frameTo (apertureInst p.addr) (apertureCore p.addr) n p.tag with
          mark := BitVec.ofNat 8 (markBits p.grans), offset := BitVec.ofNat 16 (apertureOff p.addr / 64),
          grans := p.grans.map (·.data), sctx := Fin.ofNat 8 p.ctx }, p.ctx, false⟩
  else if p.ncu = 0 then corePush n inc (s.writeReq (.packet n inc p.id) p.ctx p.addr p.grans)
  else ncuPush (stationOf p.addr) n inc p

/-- Send a write packet, or let it wait at the limit of 512 unacknowledged packets (R255). -/
def sendPkt (n : Nat) (p : Pkt) : M s0 Unit := do
  let s ← rd
  let c := s.core n
  if c.outW.length < 512 && c.injectQ.isEmpty then injectPkt n p
  else modCore n fun c => { c with injectQ := c.injectQ ++ [p] }

/-- Send a read of core n: ngr granules at a within one 4096-byte unit, or under an NCU code the memory granules of the
group at a, through their own stations (R253, R323). -/
def sendRead (n rid ctx a ngr ncu : Nat) : M s0 Unit := do
  let s ← rd
  let inc := s.coreInc n
  if ncu = 0 then corePush n inc (s.readReq (.core n inc rid) ctx a ngr)
  else
    let runs := runsOf 32 a (ncuMem ncu / 64)
    let id := s.nextGroup
    eff (.groups (s.groups ++ [{ id := id, core := n, inc := inc, write := false, ncu := ncu, addr := a,
                                 left := runs.length, rid := rid, ctx := ctx }]) (id + 1))
    each runs fun p => corePush n inc (s.readReq (.group id ((p.1 - a) / 64)) ctx p.1 p.2)

/-! ### Partitions and the scratchpad (R221, R228) -/

/-- Physical byte address in a core's scratchpad of partition offset o, for a partition of nb banks from pb (R221). -/
def spAddr (pb nb o : Nat) : Nat :=
  let q := o / 64
  (pb + q % nb) * 65536 + q / nb * 64 + o % 64

/-- First bank and bank count of context c's partition on core n (SP_PARTn). -/
def State.part (s : State) (n c : Nat) : Nat × Nat := (s.reg (Fd.spPartPb c) n, s.reg (Fd.spPartNb c) n)

/-- Bytes of context c's partition on core n. -/
def State.partSize (s : State) (n c : Nat) : Nat := s.reg (Fd.spPartNb c) n * 65536

/-- The granule that starts at offset o of nb banks from bank pb of core n. -/
def State.bankGran (s : State) (n pb nb o : Nat) : GranS :=
  let a := spAddr pb (max 1 nb) (o / 64 * 64)
  ⟨cellsRead byte0 (s.spad n).data a 64, tabGet 0 (s.spad n).syn (a / 64)⟩

/-- The granule of context c's partition on core n that starts at offset o. -/
def State.spGran (s : State) (n c o : Nat) : GranS := s.bankGran n (s.part n c).1 (s.part n c).2 o

/-- len bytes of a partition from offset o. -/
def State.spRead (s : State) (n c o len : Nat) : List Byte :=
  slice (((List.range ((o % 64 + len + 63) / 64)).map fun i => (s.spGran n c (o / 64 * 64 + 64 * i)).data).flatten)
    (o % 64) len

/-- Every granule that len bytes from offset o touch passes its check. -/
def State.spGood (s : State) (n c o len : Nat) : Bool :=
  len = 0 || (List.range ((o % 64 + len + 63) / 64)).all fun i => (s.spGran n c (o / 64 * 64 + 64 * i)).syn = 0

/-- Write a whole granule of a partition. -/
def spPut (n c o : Nat) (g : GranS) : M s0 Unit := do
  let s ← rd
  let (pb, nb) := s.part n c
  let a := spAddr pb (max 1 nb) (o / 64 * 64)
  eff (.spData n a (slice g.data 0 64))
  eff (.spSyn n (a / 64) g.syn)

/-- Write bytes of a partition; a granule covered in part is read, verified, merged and recoded, and keeps a failing check
where the old one failed (R224). The granules carry the mark when `p`. Answers whether every merge found a good granule. -/
def spWrite (n c o : Nat) (v : List Byte) (p : Bool) : M s0 Bool := do
  let s ← rd
  let gs := List.range ((o % 64 + v.length + 63) / 64)
  let base := o / 64 * 64
  let old := (gs.map fun i => (s.spGran n c (base + 64 * i)).data).flatten
  let new := spliceAt old (o % 64) v
  let bad := gs.filter fun i =>
    let whole := o ≤ base + 64 * i && base + 64 * i + 64 ≤ o + v.length
    !whole && (s.spGran n c (base + 64 * i)).syn ≠ 0
  if !v.isEmpty then
    each gs fun i => spPut n c (base + 64 * i) ⟨slice new (64 * i) 64, mark (p || bad.contains i) 0⟩
    if !bad.isEmpty then bumpReg Fd.spEccUncorr n bad.length
  pure bad.isEmpty

/-- Count the failed checks of a partition read (R228). -/
def countBadReads (n c o len : Nat) : M s0 Unit := do
  let s ← rd
  let k := ((List.range ((o % 64 + len + 63) / 64)).filter fun i => (s.spGran n c (o / 64 * 64 + 64 * i)).syn ≠ 0).length
  if len ≠ 0 && k ≠ 0 then bumpReg Fd.spEccUncorr n k

end Sys2Proof.Machine
end

