-- ==== Sys2Proof/Machine/Parcels.lean ====
section
/-! DEFINITION. The end of a parcel and what is discarded with it (R175, R176, R236, Tables 3-6 and 4-7), and the effects
that reach a whole core (R401). -/

namespace Sys2Proof.Machine

variable {s0 : State}

/-- Status of an ended parcel (R176), in the codes of PARCEL_STATUS.LAST_STATUS. -/
inductive ParcelEnd where
  | ok | poisoned | timeout | dropped | aborted
deriving DecidableEq, Repr

def ParcelEnd.code : ParcelEnd → Nat
  | .ok => 0 | .poisoned => 1 | .timeout => 2 | .dropped => 3 | .aborted => 4

/-- What a parcel's status counts as for its sequences: 1 OK, 2 DROPPED, 3 POISONED; a TIMEOUT counts as POISONED, and
an aborted step has its own outcome (R183, R298, R304). -/
def ParcelEnd.outcome : ParcelEnd → Nat
  | .ok => 1 | .poisoned => 3 | .timeout => 3 | .dropped => 2 | .aborted => 0

/-- The STU takes note of an ended parcel: its sequences take the worst outcome so far (R298). -/
def reportParcel (p : Parcel) (e : ParcelEnd) : M s0 Unit :=
  modCtx p.ctx fun x =>
    match x.caravan with
    | none => x
    | some v =>
      let seqs := v.seqs.mapIdx fun j q =>
        if p.first ≤ j && j < p.first + p.nseq then { q with outcome := max q.outcome e.outcome } else q
      { x with caravan := some { v with ended := v.ended + 1, seqs := seqs }, shownEnded := v.ended + 1 }

/-- All tokens that the queues of a core hold. -/
def Core.tokens (c : Core) : List Token := (c.queues.map fun kv => kv.2.filterMap (·.tok)).flatten

/-- Entries that the wadis of a core hold. -/
def Core.wadiCount (c : Core) : Nat := (c.wadis.map fun kv => kv.2.length).foldl (· + ·) 0

/-- The commands of a core's parcel in flight are discarded: waits, loads, chains, misses, passes, operations under a
release hold, and what waits to be injected. Writes and operations already sent stand (R237, Table 3-6). -/
def Core.discard (c : Core) : Core :=
  { c with
    mx := {}, vx := {}, tx := {}, dx := {}, sx := {}, queues := [], load := none, wadis := [], dmas := [], mrds := [],
    injectQ := [], sxOps := [], lsends := [], passes := [], latch0 := none, latch1 := none, stream := none,
    late := c.late ++ c.wadiOut, wadiOut := [], traces := [], consumed := [],
    outW := c.outW.map fun w => if w.owed then w else { w with exempt := true } }

/-- Note the cycles of a release hold that ends (Table 10-5). -/
def noteHold (n tag cycles : Nat) : M s0 Unit := do
  bumpReg Fd.ordHoldCycCycles n cycles
  let s ← rd
  if s.reg Fd.ordHoldMaxMax n < cycles then
    setReg Fd.ordHoldMaxMax n (min 0xFFFF cycles)
    setReg Fd.ordHoldMaxTag n tag

/-- Holds and a wait at the limit that a discard ends count their cycles too, which no command gives: free values (Table 10-5;
assumption log 116). -/
def noteDiscarded (n : Nat) : M s0 Unit := do
  let s ← rd
  each ((s.core n).sxOps.filter fun f => !f.left && !f.waits.isEmpty) fun f => do
    let cycles ← freshWord
    noteHold n (tagOf f.cmd) cycles.toNat
  if !(s.core n).injectQ.isEmpty then
    let cycles ← freshWord
    bumpReg Fd.ordInjWaitCycles n cycles.toNat

/-- Discard the running parcel's commands on core n (R173, R401, R304, R384): also its registration at the hub, and
TILE_RESUME.PENDING is cleared (R75). -/
def discardCore (n : Nat) : M s0 Unit := do
  let s ← rd
  let k := (s.core n).wadiCount
  if k ≠ 0 then bumpReg Fd.wadiDroppedEntries n k
  noteDiscarded n
  modCore n Core.discard
  eff (.hubReg n none)
  dropMsgs fun m => m.src = n && (match m.body with | .waitReg _ _ _ _ => true | _ => false)
  setReg Fd.tileResumePending n 0

/-- End core n's parcel with a status (R175, R176): tokens left are counted, entries of wadis left are discarded. -/
def endParcel (n : Nat) (e : ParcelEnd) : M s0 Unit := do
  let s ← rd
  let c := s.core n
  match c.run with
  | none => pure ()
  | some r =>
    let left := c.tokens
    let bad := (left.filter (·.poison)).length
    let e' := if e = .ok && (r.poisoned || bad ≠ 0) then ParcelEnd.poisoned else e
    if !left.isEmpty then bumpReg Fd.tokenLeftCount n left.length
    if bad ≠ 0 then bumpReg Fd.tokenLeftPoisoned n bad
    if c.wadiCount ≠ 0 then bumpReg Fd.wadiDroppedEntries n c.wadiCount
    modCore n fun c => { c with
      run := none, queues := [], wadis := [], stream := none, late := c.late ++ c.wadiOut, wadiOut := [], traces := [],
      consumed := [],
      outW := if e = .ok then c.outW.map fun w => { w with owed := w.owed || !w.exempt } else c.outW }
    setReg Fd.parcelStatusLastStatus n e'.code
    reportParcel r.parcel e'

/-- End core n's parcel at once with a status, discarding its commands. -/
def killParcel (n : Nat) (e : ParcelEnd) : M s0 Unit := do
  endParcel n e
  discardCore n

/-- Drop the parcels of core n's home queue (R401). -/
def dropHome (n : Nat) (e : ParcelEnd) : M s0 Unit := do
  let s ← rd
  let l := (s.core n).stolen.toList ++ (s.core n).home
  modCore n fun c => { c with home := [], stolen := none }
  each l fun p => reportParcel p e

/-- A plane after the array state is zeroed: MX_STATE.PLANE_VALID, a status field, keeps its value (R59, R109). -/
def Plane.zeroed (p : Plane) : Plane := { loaded := p.loaded }

/-- Zero the tile register file, the latches, the capture buffer and the array state of core n (R59, R78, R109). -/
def zeroFile (n : Nat) : M s0 Unit := do
  modCore n fun c => { c with
    tiles := [], latch0 := none, latch1 := none, capBuf := [], banks := [],
    planes := (c.planes.filter (·.2.loaded)).map fun kv => (kv.1, kv.2.zeroed) }

/-- Every unacknowledged packet number of core n. -/
def Core.outIds (c : Core) : List Nat := c.outW.map (·.id)

end Sys2Proof.Machine
end

