-- ==== Sys2Proof/Machine/Sync.lean ====
section
/-! DEFINITION. Semaphores and barriers (chapter 11): the SX commands, the operations that arrive at an object, releases,
waits and their ends, and the manual actions. -/

namespace Sys2Proof.Machine

variable {s0 : State}

/-! ### Objects -/

/-- Place in State.sems of a core semaphore and of a hub semaphore. -/
def coreSemKey (core i : Nat) : Nat := core * 1024 + i
def hubSemKey (i : Nat) : Nat := 32768 + i

/-- The object that a virtual identifier names for a context (R269). -/
def State.lookup (s : State) (c vid : Nat) : Option Obj :=
  match tabGet none (s.ctx c).map (vid % 1024) with
  | some e => if e.tag = vid / 1024 then some e.obj else none
  | none => none

/-- The semaphore that an object is for core n. -/
def semKeyOf (n : Nat) : Obj → Option Nat
  | .localSem l => (l.find? (·.1 = n)).map fun p => coreSemKey n p.2
  | .coreSem c i => some (coreSemKey c i)
  | .hubSem i => some (hubSemKey i)
  | .barrier _ => none

/-- A semaphore lies in core n. -/
def inCore (n k : Nat) : Bool := k < 32768 && k / 1024 = n

/-- Mesh node of a semaphore. -/
def semNode (k : Nat) : Nat := if k < 32768 then k / 1024 else nodeHub

/-- The core's context, for records about its SX commands. -/
def State.coreCtx (s : State) (n : Nat) (owner : Nat) : Nat := (s.core n).ctx.getD owner

/-- TAG and ID of the most recent synchronisation record of a context (SYNC_CTX_LAST). -/
def noteLast (c tag vid : Nat) : M s0 Unit := do
  setReg Fd.syncCtxLastTag c tag
  setReg Fd.syncCtxLastId c vid

/-- An OWNER_GONE record of a core about an object (R282). -/
def ownerGoneRec (n c tag ticket vid : Nat) (obj : List Byte) : M s0 Unit := do
  cmdRec .ownerGone c n tag ticket obj
  bumpReg Fd.syncCtxWaitOwnerGone c
  noteLast c tag vid

/-! ### Waits -/

/-- Ticket of the sync operation of a core that has a number; where it is gone, one that no command has yet. -/
def State.flightTicket (s : State) (n id : Nat) : Nat :=
  (((s.core n).sxOps.find? (·.id = id)).map (·.ticket)).getD (s.core n).ticket

/-- End the wait of an engine and push its tokens (R215, R273). -/
def endWait (n : Nat) (e : Engine) (poison : Bool) : M s0 Unit := do
  let s ← rd
  match ((s.core n).eng e).wait with
  | none => pure ()
  | some w =>
    modEng n e fun x => { x with wait := none }
    pushTokens n e w.cmd w.ticket w.outs (w.poison || poison)

/-- SX of core n waits for semaphore k; its target. -/
def State.semWait (s : State) (n k : Nat) : Option Nat :=
  match (s.core n).sx.wait with
  | some w => match w.what with
    | .sem i t _ => if i = k then some t else none
    | _ => none
  | none => none

/-- SX of core n waits on barrier b. -/
def State.barWait (s : State) (n b : Nat) : Bool :=
  match (s.core n).sx.wait with
  | some w => match w.what with
    | .barrier i _ => i == b
    | _ => false
  | none => false

/-- Test the waiters of a semaphore against COUNT (R271, R272): the own core's SX, or the hub's registrations, which get
a wake. -/
def testWaiters (k : Nat) (manual : Bool) : M s0 Unit := do
  let s ← rd
  let x := s.sem k
  if k < 32768 then
    match s.semWait (k / 1024) k with
    | some t => if t ≤ x.count then endWait (k / 1024) .sx (x.poison || manual)
    | none => pure ()
  else
    each (List.range 32) fun n => do
      match tabGet none s.hubRegs n with
      | some r =>
        if r.index = k && r.n ≤ x.count then
          eff (.hubReg n none)
          send nodeHub n (s.coreInc n) (.wake r.ticket (x.poison || manual) false)
      | none => pure ()

/-- Count an add or subtract of n (R270): answers whether it was refused. The waiters are still to be tested. -/
def countSem (k : Nat) (sub : Bool) (n : Nat) (poison : Bool) (core tag vid : Nat) : M s0 Bool := do
  let s ← rd
  let x := s.sem k
  let refused := if sub then x.count < n else x.count + n > 0xFFFFFFFF
  let count := if refused then x.count else if sub then x.count - n else x.count + n
  eff (.sem k { x with count := count, poison := x.poison || poison || refused })
  if refused then
    let c := s.coreCtx core x.owner
    ctxRec .semFault c core tag (toLe vid 2 ++ semObjBytes k ++ toLe x.count 4 ++ toLe n 4)
    bumpReg Fd.syncCtxFaultCountFaults c
    noteLast c tag vid
  pure refused

/-- Apply an add or subtract of n that no other operation meets (R270, R271): answers whether it was refused. -/
def applySem (k : Nat) (sub : Bool) (n : Nat) (poison : Bool) (core tag vid : Nat) : M s0 Bool := do
  let refused ← countSem k sub n poison core tag vid
  if n ≠ 0 || poison then testWaiters k false
  pure refused

/-! ### Barriers -/

def Barrier.leaf (b : Barrier) (n : Nat) : Leaf := tabGet {} b.leaves n

def modLeaf (i n : Nat) (g : Leaf → Leaf) : M s0 Unit :=
  modBar i fun b => { b with leaves := tabSet b.leaves n (g (b.leaf n)) }

/-- Expected count of the cluster node (R276). -/
def Barrier.expected (b : Barrier) : Nat := if b.member then popcount b.mask 32 else b.expect

/-- No arrival of core n is unreleased (R277, R278). -/
def Barrier.idle (b : Barrier) (n : Nat) : Bool :=
  let l := b.leaf n
  if b.member then l.pend = 0 else l.unassigned = 0 && l.assigned.isEmpty

/-- End core n's wait on a barrier where nothing of it is outstanding. -/
def testBarWait (i n : Nat) (poison : Bool) : M s0 Unit := do
  let s ← rd
  if s.barWait n i && (s.bar i).idle n then endWait n .sx poison

/-- BARRIER_OVERRUN: POISON is set and the record written (R277, R278). -/
def barOverrun (i core tag : Nat) : M s0 Unit := do
  modBar i fun b => { b with poison := true }
  let s ← rd
  let b := s.bar i
  let c := s.coreCtx core b.owner
  ctxRec .barrierOverrun c core tag (barObjBytes i)
  bumpReg Fd.syncCtxFaultOverruns c
  noteLast c tag b.vid

/-- The link toward a package: bundle A's route where valid, else bundle B's (R349). -/
def State.linkTo (s : State) (pkg : Nat) : Option Nat :=
  if s.reg Fd.routeAValid pkg = 1 then some (s.reg Fd.routeALink pkg)
  else if s.reg Fd.routeBValid pkg = 1 then some (4 + s.reg Fd.routeBLink pkg) else none

/-- Queue a control message on a link (R340). -/
def ctlSend (l : Nat) (m : LCtl) : M s0 Unit := do
  let s ← rd
  eff (.ctl l (tabGet [] s.ctl l ++ [m]))

/-- LINK_STATUS.STATE (Table 14-5): 0 DOWN, 1 DETECT, 2 BASE, 3 IDENT, 4 NEGOTIATE, 5 FULL, 6 ACTIVE, 7 QUARANTINE. -/
def State.linkSt (s : State) (l : Nat) : Nat := s.reg Fd.linkStatusState l

/-- The link for a message to another package: as `linkTo`, but bundle B's where bundle A's is DOWN or quarantined and B has a
route (assumption log 33). -/
def State.ctlLink (s : State) (pkg : Nat) : Option Nat :=
  let out := fun l => s.linkSt l = 0 || s.linkSt l = 7
  match s.linkTo pkg with
  | some l => if out l && l < 4 && s.reg Fd.routeBValid pkg = 1 then some (4 + s.reg Fd.routeBLink pkg) else some l
  | none => none

/-- Send a control message to another package, where a route leads to it. -/
def ctlToPkg (pkg : Nat) (m : LCtl) : M s0 Unit := do
  let s ← rd
  match s.ctlLink pkg with
  | some l => ctlSend l m
  | none => pure ()

/-- Make a barrier GONE: the waits on it end with an OWNER_GONE record each (R282). -/
def goneBar (i : Nat) : M s0 Unit := do
  modBar i fun b => { b with gone := true }
  let s ← rd
  each (List.range 32) fun n =>
    match (s.core n).sx.wait with
    | some w =>
      if s.barWait n i then do
        ownerGoneRec n (s.core n).runCtx (tagOf w.cmd) w.ticket (cf w.cmd 95 80) (barObjBytes i)
        endWait n .sx true
      else pure ()
    | none => pure ()

/-- Make a barrier GONE until the firmware forms its group again or it is reallocated (Tables 11-5, 16-2). -/
def goneLasting (i : Nat) : M s0 Unit := do
  let s ← rd
  if !(s.bar i).gone then goneBar i
  modBar i fun b => { b with lasting := true }

/-- A SYNC frame about a barrier to another cluster of the package; kind 2, operation 0 arrival or 1 release, and the
phase bit with the poison above it (Table 13-7; the codes are assumption log 32). Where no route leads there, the barrier is
GONE (assumption log 117). -/
def syncFrame (inst i : Nat) (release phase poison : Bool) : M s0 Unit := do
  let s ← rd
  match s.route inst with
  | some k => modPush k ⟨4, { frameTo inst 0 0 0 with
      body := toLe i 2 ++ toLe 2 1 ++ toLe (b2n release) 1 ++ toLe (b2n phase + 2 * b2n poison) 4 ++ zeros 8 }, 0, false⟩
  | none => goneLasting i

/-- The release of a phase at this cluster's node: CUR takes NEXT, P flips, and the release goes to every core that holds
a partition of the owner (R276, R279). -/
def clusterRelease (i : Nat) (poison : Bool) : M s0 Unit := do
  let s ← rd
  let b := s.bar i
  eff (.bar i { b with
    phase := !b.phase, cur := b.next, next := 0, curSet := b.nextSet, nextSet := 0, sent := false,
    first := b.firstNext, firstNext := none, lateDone := b.lateNext, lateNext := false })
  each (bitsSet (s.ctx b.owner).adm.mask 32) fun n => send nodeHub n (s.coreInc n) (.release i b.phase poison)

/-- Count an arrival at a node above the cluster node (R276): it answers whether the node's phase is now complete. -/
def UpNode.count (u : UpNode) (phase : Bool) (now : Nat) : UpNode × Bool :=
  if phase = u.phase then
    if u.cur < u.expect then ({ u with cur := u.cur + 1, first := some (u.first.getD now) }, u.cur + 1 = u.expect)
    else (u, false)
  else ({ u with next := min u.expect (u.next + 1), firstNext := some (u.firstNext.getD now) }, false)

/-- A release passes down through such a node; it answers whether the next phase is complete at once. -/
def UpNode.pass (u : UpNode) : UpNode × Bool :=
  ({ u with phase := !u.phase, cur := u.next, next := 0, first := u.firstNext, firstNext := none, late := u.lateNext,
            lateNext := false }, u.next = u.expect && u.expect ≠ 0)

/-- Such a node with its counters at 0; its phase bit stays. -/
def UpNode.cleared (u : UpNode) : UpNode := { phase := u.phase, expect := u.expect }

/-- The instances of the package that are members of a barrier. -/
def Barrier.memberInsts (b : Barrier) : List Nat := bitsSet b.members 16

/-- CUR of the cluster node is full, and its arrival has not gone to the parent yet (R276). -/
def Barrier.forwards (b : Barrier) : Bool := b.expected ≠ 0 && b.cur = b.expected && !b.sent

/-- Where the package node is in this cluster, a full CUR of the cluster node is counted there; answers whether that completes
the package node's phase. -/
def forwardOwn (i : Nat) : M s0 Bool := do
  let s ← rd
  let b := s.bar i
  if b.forwards then
    let (u, full) := b.pkgNode.count b.phase s.tb.now
    eff (.bar i { b with sent := true, pkgNode := u })
    pure full
  else pure false

/-- A release passes down through the package node to the member clusters, and the cluster node here, whose NEXT may be full,
acts on it; answers whether the package node's next phase is complete (R276). -/
def packageRelease (i : Nat) (poison : Bool) : M s0 Bool := do
  let s ← rd
  let b := s.bar i
  let (u, again) := b.pkgNode.pass
  eff (.bar i { b with pkgNode := u })
  each b.memberInsts fun d =>
    if d = Config.inst.val then clusterRelease i poison else syncFrame d i true b.pkgNode.phase poison
  let own ← forwardOwn i
  pure (again || own)

/-- The group root completes its phase: the release goes to every member package and down through the package node here (R276,
R279). -/
def rootRelease (i : Nat) (poison : Bool) : M s0 Bool := do
  let s ← rd
  let b := s.bar i
  modBar i fun b => { b with root := b.root.pass.1 }
  each (b.pkgs.filter (· ≠ Config.pkg.val)) fun p => ctlToPkg p (.barRelease i b.root.phase Config.pkg.val poison)
  packageRelease i poison

/-- A phase is complete at the package node: it is the top of a SCOPE 1 barrier, else the arrival goes on to the group
root. Arrivals already counted for the next phase are judged again; a node completes at most two phases in a row. -/
def packageComplete (i : Nat) : Nat → M s0 Unit
  | 0 => pure ()
  | k + 1 => do
    let s ← rd
    let b := s.bar i
    if b.scope = 1 then
      let again ← packageRelease i b.poison
      if again then packageComplete i k
    else if b.rootPkg = Config.pkg.val then
      let (u, full) := b.root.count b.pkgNode.phase s.tb.now
      eff (.bar i { b with root := u })
      if full then
        let again ← rootRelease i b.poison
        if again then packageComplete i k
    else ctlToPkg b.rootPkg (.barArrive i b.pkgNode.phase Config.pkg.val b.poison)

/-- An arrival, or a release, carries the POISON of the node that sends it (R279; assumption log 32). -/
def carryPoison (i : Nat) (poison : Bool) : M s0 Unit := modBar i fun b => { b with poison := b.poison || poison }

/-- An arrival from a cluster reaches the package node (R276). -/
def packageArrive (i : Nat) (phase poison : Bool) : M s0 Unit := do
  carryPoison i poison
  let s ← rd
  let b := s.bar i
  let (u, full) := b.pkgNode.count phase s.tb.now
  eff (.bar i { b with pkgNode := u })
  if full then packageComplete i 2

/-- The cluster node acts on its counters (R276): a full CUR is forwarded once, or completes the phase at the top. -/
def clusterTest (i : Nat) : Nat → M s0 Unit
  | 0 => pure ()
  | k + 1 => do
    let s ← rd
    let b := s.bar i
    if b.forwards then
      if b.scope = 0 then
        clusterRelease i b.poison
        clusterTest i k
      else
        modBar i fun b => { b with sent := true }
        if b.pkgInst = Config.inst.val then packageArrive i b.phase b.poison
        else syncFrame b.pkgInst i false b.phase b.poison

/-- An arrival of core n is counted at the cluster node (R276, R278). -/
def clusterArrive (i n : Nat) (phase : Option Bool) (tag : Nat) (poison : Bool) : M s0 Unit := do
  let s ← rd
  let b := s.bar i
  let now := s.tb.now
  if poison then modBar i fun b => { b with poison := true }
  match phase with
  | some p =>
    if p = b.phase then
      modBar i fun b => { b with
        cur := b.cur + 1, curSet := putBit b.curSet n true, first := some (b.first.getD now) }
    else
      modBar i fun b => { b with
        next := b.next + 1, nextSet := putBit b.nextSet n true, firstNext := some (b.firstNext.getD now) }
  | none =>
    if b.cur < b.expect then
      modBar i fun b => { b with cur := b.cur + 1, first := some (b.first.getD now) }
      modLeaf i n fun l => { l with unassigned := l.unassigned - 1, assigned := l.assigned ++ [b.phase] }
    else if b.next < b.expect then
      modBar i fun b => { b with next := b.next + 1, firstNext := some (b.firstNext.getD now) }
      modLeaf i n fun l => { l with unassigned := l.unassigned - 1, assigned := l.assigned ++ [!b.phase] }
    else
      modLeaf i n fun l => { l with unassigned := l.unassigned - 1 }
      barOverrun i n tag
      testBarWait i n true
  clusterTest i 3

/-! ### Owner-gone releases (R282) -/

/-- Make a semaphore GONE: its waiters end with poisoned tokens and OWNER_GONE records. -/
def goneSem (k : Nat) : M s0 Unit := do
  modSem k fun x => { x with gone := true }
  let s ← rd
  each (List.range 32) fun n =>
    match (s.core n).sx.wait, s.semWait n k with
    | some w, some _ => do
      eff (.hubReg n none)
      ownerGoneRec n (s.core n).runCtx (tagOf w.cmd) w.ticket (cf w.cmd 95 80) (semObjBytes k)
      endWait n .sx true
    | _, _ => pure ()

/-! ### SX commands (R214 to R217) -/

/-- Skip reasons of the SX commands (Table 8-12, Table 8-13, R272, R277). -/
def sxReason (n : Nat) (s : State) (r : Running) (h : Head) : Option Nat :=
  let w := h.cmd
  let op := opcodeOf w
  let vid := cf w 95 80
  let obj := s.lookup r.parcel.ctx vid
  if op = 0x53 then
    if cf w 79 66 ≠ 0 || cf w 63 32 ≠ 0 then some 0x01
    else match obj with
      | some (.barrier i) =>
        let b := s.bar i
        if cf w 65 64 = 0 then some 0x07
        else if b.member && (!bit b.mask n || !r.parcel.pinned) then some 0x07
        else none
      | _ => some 0x07
  else
    if cf w 79 64 ≠ 0 then some 0x01
    else match obj.bind (semKeyOf n) with
      | some k => if op = 0x50 && k < 32768 && !inCore n k then some 0x07 else none
      | none => some 0x07

/-- The semaphore that a command of core n names. -/
def Issued.semKey (i : Issued) (s : State) : Nat := ((s.lookup i.ctx (cf i.cmd 95 80)).bind (semKeyOf i.core)).getD 0

/-- The barrier that a command names. -/
def Issued.barKey (i : Issued) (s : State) : Nat :=
  match s.lookup i.ctx (cf i.cmd 95 80) with
  | some (.barrier b) => b
  | _ => 0

/-- Begin a wait at the head of the SX queue (R215, R272). -/
def beginWait (i : Issued) (w : WaitFor) : M s0 Unit := do
  let s ← rd
  modEng i.core i.eng fun x => { x with
    wait := some { cmd := i.cmd, ticket := i.ticket, outs := i.outs, poison := i.poison, since := s.tb.now, what := w } }

/-- SWAIT (R215, R272, R282). -/
def swaitBody (i : Issued) : M s0 Unit := do
  let s ← rd
  let k := i.semKey s
  let x := s.sem k
  let n := cf i.cmd 63 32
  let vid := cf i.cmd 95 80
  if x.gone then
    ownerGoneRec i.core i.ctx i.tag i.ticket vid (semObjBytes k)
    i.push true
  else if n = 0 then i.push (i.poison || x.poison)
  else if k < 32768 then
    if n ≤ x.count then i.push (i.poison || x.poison) else beginWait i (.sem k n vid)
  else
    beginWait i (.sem k n vid)
    send i.core nodeHub (s.coreInc i.core) (.waitReg k n i.tag i.ticket)

/-- Let an operation of SX leave its core (R256): onto the ordered path to its object. -/
def sxLeave (n : Nat) (f : SxFlight) : M s0 Unit := do
  let s ← rd
  let poison := f.poison || f.errTag.isSome
  match f.errTag with
  | some t => cmdRec .writeError (s.core n).runCtx n t f.ticket []
  | none => pure ()
  match f.op with
  | .add k m => send n (semNode k) (s.coreInc n) (.semOp k false m f.vid (tagOf f.cmd) f.id poison)
  | .sub k m => send n (semNode k) (s.coreInc n) (.semOp k true m f.vid (tagOf f.cmd) f.id poison)
  | .arrive b p => send n nodeHub (s.coreInc n) (.arrive b p (tagOf f.cmd) poison)
  let keep : Bool := match f.op with
    | .arrive _ _ => false
    | _ => true
  modCore n fun c => { c with
    sxOps := if keep then c.sxOps.map fun g => if g.id = f.id then { g with left := true, waits := [] } else g
             else c.sxOps.filter (·.id ≠ f.id) }

/-- Start an operation on an object outside the core, under the release hold where writes are unacknowledged (R256). -/
def sxStart (i : Issued) (op : SyncOp) (outs : List Nat) : M s0 Unit := do
  let s ← rd
  let c := s.core i.core
  let f : SxFlight := { id := c.nextId, cmd := i.cmd, ticket := i.ticket, outs := outs, poison := i.poison, op := op,
                        vid := cf i.cmd 95 80, waits := c.outIds ++ c.injectQ.map (·.id), since := s.tb.now }
  modCore i.core fun c => { c with nextId := c.nextId + 1, sxOps := c.sxOps ++ [f] }
  if f.waits.isEmpty then sxLeave i.core f
  else bumpReg Fd.ordHoldsHolds i.core

/-- SADD and SSUB (R216, R270, R282). -/
def sopBody (sub : Bool) (i : Issued) : M s0 Unit := do
  let s ← rd
  let k := i.semKey s
  let n := cf i.cmd 63 32
  if (s.sem k).gone then
    ownerGoneRec i.core i.ctx i.tag i.ticket (cf i.cmd 95 80) (semObjBytes k)
    i.push true
  else if inCore i.core k then
    let refused ← applySem k sub n i.poison i.core i.tag (cf i.cmd 95 80)
    i.push (i.poison || refused)
  else sxStart i (if sub then .sub k n else .add k n) i.outs

/-- BAR (R217, R277, R278, R282). -/
def barBody (i : Issued) : M s0 Unit := do
  let s ← rd
  let k := i.barKey s
  let b := s.bar k
  let mode := cf i.cmd 65 64
  let l := b.leaf i.core
  if b.gone then
    ownerGoneRec i.core i.ctx i.tag i.ticket (cf i.cmd 95 80) (barObjBytes k)
    i.push true
  else
    let tooMany := b.member && l.pend ≥ 2
    if mode ≠ 2 then
      modCore i.core fun c => { c with arrived := if c.arrived.contains k then c.arrived else k :: c.arrived }
      if tooMany then
        barOverrun k i.core i.tag
      else if b.member then
        modLeaf k i.core fun l => { l with pend := l.pend + 1 }
        sxStart i (.arrive k (some (if l.pend = 0 then l.bit else !l.bit))) []
      else
        modLeaf k i.core fun l => { l with unassigned := l.unassigned + 1 }
        sxStart i (.arrive k none) []
    if mode = 1 then i.push (i.poison || tooMany)
    else
      let s ← rd
      if (s.bar k).idle i.core || !(s.core i.core).arrived.contains k then i.push (i.poison || (s.bar k).poison)
      else beginWait i (.barrier k (cf i.cmd 95 80))

/-- Issue of an SX command. -/
def issueSx (n : Nat) (op : Nat) (ph : Phys) : M s0 Unit :=
  issueWith n .sx [op] ph (sxReason n) (fun _ _ _ => false) fun i =>
    if op = 0x50 then swaitBody i
    else if op = 0x51 then sopBody false i
    else if op = 0x52 then sopBody true i
    else barBody i

/-- SWAIT: holds until a semaphore's count is at least N (R215). -/
def execSwait (core : Fin 32) (ph : Phys) (s : State) : Out := run s (issueSx core 0x50 ph)

/-- SADD (R216). -/
def execSadd (core : Fin 32) (ph : Phys) (s : State) : Out := run s (issueSx core 0x51 ph)

/-- SSUB (R216). -/
def execSsub (core : Fin 32) (ph : Phys) (s : State) : Out := run s (issueSx core 0x52 ph)

/-- BAR (R217). -/
def execBar (core : Fin 32) (ph : Phys) (s : State) : Out := run s (issueSx core 0x53 ph)

/-! ### Arrivals at objects -/

/-- The packets of a kind that may arrive next anywhere: per source and destination its oldest (R21). -/
def anyArrivals (kind : Body → Bool) : List Msg → List (Nat × Nat) → List Msg
  | [], _ => []
  | m :: l, seen =>
    if seen.contains (m.src, m.dst) then anyArrivals kind l seen
    else if kind m.body then m :: anyArrivals kind l ((m.src, m.dst) :: seen)
    else anyArrivals kind l ((m.src, m.dst) :: seen)

def isSemOp : Body → Bool
  | .semOp _ _ _ _ _ _ _ => true
  | _ => false

def isArrive : Body → Bool
  | .arrive _ _ _ _ => true
  | .overrun _ => true
  | _ => false

def isRelease : Body → Bool
  | .release _ _ _ => true
  | _ => false

def isWaitReg : Body → Bool
  | .waitReg _ _ _ _ => true
  | _ => false

def isWake : Body → Bool
  | .wake _ _ _ => true
  | _ => false

/-- The operation of core n with number id has been applied: push its tokens (R216). -/
def sxApplied (n id : Nat) (poison : Bool) : M s0 Unit := do
  let s ← rd
  match (s.core n).sxOps.find? (·.id = id) with
  | some f =>
    modCore n fun c => { c with sxOps := c.sxOps.filter (·.id ≠ id) }
    pushTokens n .sx f.cmd f.ticket f.outs (f.poison || poison)
  | none => pure ()

/-- One operation at its semaphore: it is counted or refused (R270), answered with TARGET_RESET where the semaphore's core is
out of service (R24, R401), or released where the object is GONE (R282). -/
def semOpOne (m : Msg) : M s0 Unit := do
  takeMsg m
  let s ← rd
  let back := m.src < 32 && m.inc = s.coreInc m.src
  match m.body with
  | .semOp k sub n vid tag flight poison =>
    let x := s.sem k
    if x.gone || !x.alloc then
      if back then
        ownerGoneRec m.src (s.coreCtx m.src x.owner) tag (s.flightTicket m.src flight) vid (semObjBytes k)
        sxApplied m.src flight true
    else if k < 32768 && s.coreGone (k / 1024) then
      if back then sxApplied m.src flight true
    else
      let refused ← countSem k sub n poison (if m.src < 32 then m.src else unitMod (m.src - 48)) tag vid
      if back then sxApplied m.src flight (poison || refused)
  | _ => pure ()

/-- The semaphore of an operation's packet, whether it subtracts, and whether its waiters are tested (R271). -/
def Body.semKey : Body → Option Nat
  | .semOp k _ _ _ _ _ _ => some k
  | _ => none

def Body.subtracts : Body → Bool
  | .semOp _ sub _ _ _ _ _ => sub
  | _ => false

def Body.tests : Body → Bool
  | .semOp _ _ n _ _ _ poison => n ≠ 0 || poison
  | _ => false

/-- Operations that reach semaphore k in one cycle in the order of R271: adds before subtracts, each in source order, the
semaphore's own core first, then the cores, then the N-port. -/
def semOrder (k : Nat) (l : List Msg) : List Msg :=
  let srcs := ((if k < 32768 then [k / 1024] else []) ++ List.range 32 ++ (List.range 4).map nodeMod).eraseDups
  [false, true].flatMap fun sub => srcs.flatMap fun n => l.filter fun m => m.src = n && m.body.subtracts = sub

/-- SEM_OP_APPLY: the nth add or subtract that may arrive at its semaphore is applied, or refused, with those of `also` that
reach the same semaphore in the same cycle; then its waiters are tested (R270, R271). -/
def execSemOpApply (ops : SemCycle) (s : State) : Out :=
  let l := anyArrivals isSemOp s.msgs []
  match l[ops.nth]?.bind fun m => m.body.semKey with
  | none => .next s
  | some k => runIf s.alive s do
    let ms := semOrder k (((ops.nth :: ops.also).eraseDups.filterMap fun i => l[i]?).filter fun m => m.body.semKey = some k)
    each ms semOpOne
    if ms.any (·.body.tests) && !(s.sem k).gone && (s.sem k).alloc then testWaiters k false

/-- HUB_WAIT_REGISTER: an SWAIT registration of a core reaches the hub and is woken at once or held (R272). -/
def execHubWaitRegister (core : Fin 32) (s : State) : Out :=
  match (arrivals nodeHub isWaitReg (s.msgs.filter (·.src = core.val)) []).head? with
  | none => .next s
  | some m => runIf s.alive s do
    takeMsg m
    match m.body with
    | .waitReg k n tag ticket =>
      let x := s.sem k
      if m.inc = s.coreInc core then
        if x.gone then send nodeHub core m.inc (.wake ticket true true)
        else
          eff (.hubReg core (some ⟨k, n, tag, ticket⟩))
          testWaiters k false
    | _ => pure ()

/-- WAIT_WAKE: a hub wake reaches the waiting core and ends the SWAIT that it is for (R272, R273). -/
def execWaitWake (core : Fin 32) (s : State) : Out :=
  match s.arrival core isWake with
  | none => .next s
  | some m => runIf s.alive s do
    takeMsg m
    match m.body, (s.core core).sx.wait with
    | .wake ticket poison gone, some w =>
      if m.inc = s.coreInc core && w.ticket = ticket then
        match w.what with
        | .sem k _ vid =>
          if gone then ownerGoneRec core (s.core core).runCtx (tagOf w.cmd) w.ticket vid (semObjBytes k)
          endWait core .sx poison
        | _ => pure ()
    | _, _ => pure ()

/-- BARRIER_ARRIVAL: the nth arrival that may reach a cluster node is counted, and forwarded or completing as the node's
counters say (R276, R278). -/
def execBarrierArrival (nth : Nat) (s : State) : Out :=
  match (anyArrivals isArrive s.msgs [])[nth]? with
  | none => .next s
  | some m => runIf s.alive s do
    takeMsg m
    match m.body with
    | .arrive i phase tag poison => if !(s.bar i).gone then clusterArrive i m.src phase tag poison
    | .overrun i => modBar i fun b => { b with poison := true }
    | _ => pure ()

/-- BARRIER_RELEASE: the nth release that may reach a core lowers PEND or clears an assigned phase there, and ends the
wait that it satisfies (R277 to R279). -/
def execBarrierRelease (nth : Nat) (s : State) : Out :=
  match (anyArrivals isRelease s.msgs [])[nth]? with
  | none => .next s
  | some m => runIf s.alive s do
    takeMsg m
    match m.body with
    | .release i phase poison =>
      let b := s.bar i
      if b.member then
        if bit b.mask m.dst && (b.leaf m.dst).bit = phase then
          modLeaf i m.dst fun l => { l with pend := l.pend - 1, bit := !l.bit }
          testBarWait i m.dst (poison || b.poison)
      else
        modLeaf i m.dst fun l => { l with assigned := l.assigned.filter (· ≠ phase) }
        testBarWait i m.dst (poison || b.poison)
    | _ => pure ()

/-- This cluster holds the top node of a barrier (R276). -/
def Barrier.topHere (b : Barrier) : Bool :=
  b.scope = 0 || (b.scope = 1 && b.pkgInst = Config.inst.val)
    || (b.scope = 2 && b.pkgInst = Config.inst.val && b.rootPkg = Config.pkg.val)

/-- The top node of a barrier as this cluster holds it. -/
def Barrier.topNode (b : Barrier) : UpNode :=
  if b.scope = 0 then ⟨b.phase, b.cur, b.next, b.expected, b.first, b.firstNext, b.lateDone, b.lateNext⟩
  else if b.scope = 1 then b.pkgNode else b.root

/-- Note that BARRIER_LATE was written for the phase of CUR, or of NEXT. -/
def UpNode.markLate (u : UpNode) (cur : Bool) : UpNode := if cur then { u with late := true } else { u with lateNext := true }

def Barrier.markLate (b : Barrier) (cur : Bool) : Barrier :=
  if b.scope = 0 then (if cur then { b with lateDone := true } else { b with lateNext := true })
  else if b.scope = 1 then { b with pkgNode := b.pkgNode.markLate cur } else { b with root := b.root.markLate cur }

/-- A phase whose first arrival came at g is not complete when g + DL_GRAINS is reached. -/
def State.phaseLate (s : State) (dl : Nat) (done : Bool) (first : Option Nat) : Bool :=
  !done && match first with
    | some g => elapsed s.tb.now g dl
    | none => false

/-- BARRIER_DEADLINE: a phase of a barrier is not complete when its first arrival's grain plus DL_GRAINS is reached
(R280): the phase of CUR, or where that is marked already, the phase of NEXT. -/
def execBarrierDeadline (bi : Fin 256) (s : State) : Out :=
  let b := s.bar bi
  let u := b.topNode
  let cur := s.phaseLate b.dl u.late u.first
  runIf (s.alive && b.alloc && b.dl ≠ 0 && b.topHere && (cur || s.phaseLate b.dl u.lateNext u.firstNext)) s do
    modBar bi fun b => b.markLate cur
    ctxRec .barrierLate b.owner unitHub 0
      (barObjBytes bi ++ toLe (b2n (u.phase == cur)) 1 ++ toLe (if cur then u.cur else u.next) 2
        ++ (if b.member then toLe (b.mask &&& (0xFFFFFFFF - if cur then b.curSet else b.nextSet)) 4 else toLe b.expect 2))
    bumpReg Fd.syncCtxResidLate b.owner
    noteLast b.owner 0 b.vid

/-! ### Timeouts (R173, R220, R257, R281, R442) -/

/-- Wait timeout exponent of a context, 10 to 26 (R285). -/
def State.tmo (s : State) (c : Nat) : Nat := 2 ^ max 10 (min 26 (s.ctx c).adm.tmoExp)

/-- Entries at the head of a wadi that are present. -/
def presentHead : List WadiEnt → Nat
  | [] => 0
  | x :: l => if x.present then 1 + presentHead l else 0

def Core.wadi (c : Core) (w : Nat) : List WadiEnt := tabGet [] c.wadis w

/-- The oasis slot of a core that is open for a context's ID. -/
def Core.oasisOf (c : Core) (ctx id : Nat) : Option Nat :=
  (List.range 32).find? fun k =>
    let o := tabGet {} c.oases k
    o.isOpen && o.ctx = ctx && o.id = id

/-- DATA of a WAIT_TIMEOUT record (R281, Table 8-15). -/
def State.waitData (s : State) (n : Nat) (w : Wait) : List Byte :=
  let c := s.core n
  match w.what with
  | .sem k t vid => toLe vid 2 ++ semObjBytes k ++ toLe t 4 ++ toLe (s.sem k).count 4
  | .barrier i vid => toLe vid 2 ++ barObjBytes i ++ toLe (s.bar i).cur 2 ++ toLe (b2n (s.bar i).phase) 1
  | .wpost a m _ => toLe 0xFFFF 2 ++ objBytes 3 n (0x100 + a) ++ toLe m 4 ++ toLe (256 - (c.wadi a).length) 4
  | .wwait a m => toLe 0xFFFF 2 ++ objBytes 3 n (0x200 + a) ++ toLe m 4 ++ toLe (presentHead (c.wadi a)) 4
  | .wmov a m _ => toLe 0xFFFF 2 ++ objBytes 3 n (0x300 + a) ++ toLe m 4 ++ toLe (presentHead (c.wadi a)) 4
  | .arrw o m _ => toLe 0xFFFF 2 ++ objBytes 3 n (0x400 + o) ++ toLe m 4
      ++ toLe (match c.oasisOf c.runCtx o with | some k => s.reg Fd.oasisBytesBytes (n * 32 + k) | none => 0) 4

/-- The queue that keeps a held head: the first input short of its pop count, else the first output without room. -/
def holdQueue (c : Core) (h : Head) : Nat :=
  match (popsOf h.cmd h.pscl).find? fun p => (readyTokens (c.queue p.1)).length < p.2 with
  | some p => p.1
  | none => ((outsOf h.cmd).find? fun q => (c.queue q).length ≥ 16).getD 0

/-- The operation under a release hold that has waited longest. -/
def Core.heldOp (c : Core) : Option SxFlight := c.sxOps.find? fun f => !f.left && !f.waits.isEmpty

/-- The object of a sync operation, in the form of R397. -/
def SyncOp.bytes : SyncOp → List Byte
  | .add k _ => semObjBytes k
  | .sub k _ => semObjBytes k
  | .arrive i _ => barObjBytes i

/-- WAIT_TIMER_EXPIRY: a wait, a hold of R172 or a release hold of an engine has lasted the context's wait timeout: the
core writes the record of R220 and ends the parcel TIMEOUT. -/
def execWaitTimerExpiry (core : Fin 32) (e : Engine) (s : State) : Out :=
  let c := s.core core
  let x := c.eng e
  match c.run with
  | none => .next s
  | some r =>
    let t := s.tmo r.parcel.ctx
    let waitOver := match x.wait with | some w => elapsed s.tb.now w.since t | none => false
    let holdOver := match x.hold with | some g => elapsed s.tb.now g t | none => false
    let relOver := match c.heldOp with | some f => e = .sx && elapsed s.tb.now f.since t | none => false
    let relFirst := match c.heldOp with
      | some f => relOver && (match x.wait with | some w => !waitOver || reached w.since f.since | none => true)
        && (match x.hold with | some g => !holdOver || reached g f.since | none => true)
      | none => false
    runIf (s.alive && (waitOver || holdOver || relOver)) s do
      match x.wait, x.head, c.heldOp with
      | some w, _, _ =>
        if waitOver && !relFirst then
          cmdRec .waitTimeout r.parcel.ctx core (tagOf w.cmd) w.ticket (s.waitData core w)
          bumpReg Fd.syncCtxWaitTimeouts r.parcel.ctx
          noteLast r.parcel.ctx (tagOf w.cmd)
            (match w.what with | .sem _ _ v => v | .barrier _ v => v | _ => 0xFFFF)
      | none, some h, _ =>
        if holdOver && !relFirst then
          ctxRec .tokenTimeout r.parcel.ctx core (tagOf h.cmd) (toLe (holdQueue c h) 1 ++ toLe r.parcel.index 4)
      | none, none, _ => pure ()
      match c.heldOp with
      | some f =>
        if relFirst then
          cmdRec .releaseTimeout r.parcel.ctx core (tagOf f.cmd) f.ticket
            (f.op.bytes ++ toLe (match c.outW with | w :: _ => w.tag | [] => 0) 2)
      | none => pure ()
      killParcel core .timeout

/-! ### Manual actions (R284) -/

/-- Who makes an access: 0 the firmware, 1 HSRC 0 (R367). -/
def reqChan : Requester → Nat
  | .firmware => 0
  | .host _ => 1

/-- The object that SYNC_DBG_SEL names for a requester: a semaphore by its place, a barrier, or none. -/
inductive DbgObj where
  | sem (k : Nat)
  | bar (i : Nat)
  | none
deriving DecidableEq, Repr

def State.dbgObj (s : State) (q : Nat) : DbgObj :=
  let i := s.reg Fd.syncDbgSelIndex q
  match s.reg Fd.syncDbgSelSpace q with
  | 0 => if i < 1024 then .sem (coreSemKey (s.reg Fd.syncDbgSelCore q) i) else .none
  | 1 => .sem (hubSemKey i)
  | 2 => if i < 256 then .bar i else .none
  | _ => .none

/-- Owner of the selected object, where it is allocated. -/
def State.dbgOwner (s : State) : DbgObj → Option Nat
  | .sem k => if (s.sem k).alloc then some (s.sem k).owner else none
  | .bar i => if (s.bar i).alloc then some (s.bar i).owner else none
  | .none => none

/-- The firmware always has access; the host only under a debug consent that covers the owner (R284). -/
def State.dbgMay (s : State) (r : Requester) (o : DbgObj) : Bool :=
  match r with
  | .firmware => true
  | .host h => h.val = 0 && (match s.dbgOwner o with | some c => s.consentedTo r c | none => false)

/-- A SYNC_MANUAL record to the owner and the platform (R284): object, action, old and new value. -/
def manualRec (c : Option Nat) (obj : List Byte) (action old new : Nat) : M s0 Unit :=
  let d := obj ++ toLe action 1 ++ toLe old 4 ++ toLe new 4
  match c with
  | some c => ctxRec .syncManual c unitHub 0 d
  | none => platRec .syncManual unitHub 0 d

/-- CUR and NEXT as SYNC_DBG_COUNT shows them. -/
def Barrier.shown (b : Barrier) : Nat := b.cur % 65536 * 65536 + b.next % 65536

end Sys2Proof.Machine
end

