-- ==== Sys2Proof/Machine/Registers.lean ====
section
/-! DEFINITION. The H-port register window (R12 to R18, R365 to R367, R392) and staged configuration (R391): reads, writes,
what each register shows, and the COMMIT rows. -/

namespace Sys2Proof.Machine

variable {s0 : State}

/-! ### Which register -/

/-- Address within the map of Table 15-9: those of pair 0 for every pair. -/
def mapAddr (a : Nat) : Nat := if 0x1000 ≤ a ∧ a < 0x1800 then 0x1000 + a % 256 else a

/-- The fields of the register at a window offset; none at a reserved address. -/
def regFields (a : Nat) : List Fld :=
  let b := mapAddr a
  if 0x1000 ≤ b ∧ b < 0x1078 then [Fd.mbReq ((b - 0x1000) / 4)]
  else if 0x1080 ≤ b ∧ b < 0x10F8 then [Fd.mbRep ((b - 0x1080) / 4)]
  else if 0x2500 ≤ b ∧ b < 0x2520 then
    let c := (b - 0x2500) / 4
    [Fd.spPartValid c, Fd.spPartNb c, Fd.spPartPb c]
  else if 0x904C ≤ b ∧ b < 0x9058 then
    (List.range 4).map fun i => Fd.portInc (4 * ((b - 0x904C) / 4) + i)
  else Fd.all.filter fun f => f.addr = b

/-- The block that a staged field belongs to (Table 0-6 and the COMMIT registers). -/
def blockOf (a : Nat) : Block :=
  if a < 0x2000 then .hp
  else if a < 0x21C0 then .prog
  else if a < 0x2240 then .tile
  else if a < 0x2340 then .mx
  else if a < 0x2380 then .num
  else if a < 0x2440 then .vx
  else if a < 0x3000 then .sp
  else if a < 0x4000 then .lp
  else if a < 0x5000 then .mp
  else if a < 0x6000 then .np
  else if a < 0x8000 then .stu
  else if a < 0x8800 then .pwr
  else if a < 0x9000 then .grain
  else if a < 0xA000 then .hm
  else .dbg

/-- COMMIT register of a block. -/
def commitAddr : Block → Nat
  | .grain => 0x883C | .tile => 0x223C | .mx => 0x233C | .num => 0x237C | .vx => 0x243C | .prog => 0x21BC
  | .sp => 0x257C | .stu => 0x707C | .mp => 0x403C | .np => 0x503C | .lp => 0x30FC | .hp => 0x18FC | .hm => 0x90FC
  | .dbg => 0xA0FC | .pwr => 0x807C

/-- Links of a bundle as it is split now (R334). -/
def State.splitOf (s : State) (bundle : Nat) : Nat := max 1 (if bundle = 0 then s.splitA else s.splitB)

/-- The bundle is split into enough links for link l. -/
def State.linkExists (s : State) (l : Nat) : Bool := l % 4 < s.splitOf (l / 4)

/-- The link that contains a lane, 0 to 3 in bundle A and 4 to 7 in bundle B (R334, R356). -/
def State.linkOfLane (s : State) (lane : Nat) : Nat :=
  lane / 20 * 4 + lane % 20 / (20 / s.splitOf (lane / 20))

/-- The channel of a register for requester q (0 the firmware, 1 HSRC 0); none while its select holds a value that its
block does not define (R367). -/
def State.chan (s : State) (q a : Nat) : Scope → Option Nat
  | .one => some 0
  | .req => some q
  | .obj => if s.dbgObj q = .none then none else some q
  | .core => some (s.reg Fd.coreSelCore q)
  | .pair => some ((a - 0x1000) / 256)
  | .dma => some (s.reg Fd.coreSelCore q * 16 + s.reg Fd.dmaChSelCh q)
  | .oasis => some (s.reg Fd.coreSelCore q * 32 + s.reg Fd.oasisSelSlot q)
  | .syncCtx => some (s.reg Fd.syncCtxSelCtx q)
  | .stuCtx => some (s.reg Fd.stuCtxSelCtx q)
  | .protCtx => some (s.reg Fd.ctxSelCtx q)
  | .stn => if s.reg Fd.mpStnSelStn q < 6 then some (s.reg Fd.mpStnSelStn q) else none
  | .mod => some (s.reg Fd.npModSelMod q)
  | .lane => if s.reg Fd.linkSelLane q < 40 then some (s.reg Fd.linkSelLane q) else none
  | .link => if s.reg Fd.linkSelLane q < 40 then some (s.linkOfLane (s.reg Fd.linkSelLane q)) else none
  | .slot => some (s.reg Fd.slotSelDir q * 2048 + s.reg Fd.slotSelBundle q * 1024 + s.reg Fd.slotSelIndex q)
  | .flow => some (s.reg Fd.flowSelFlow q)
  | .route => some (s.reg Fd.routeSelPkg q)

/-! ### What registers show that other state holds -/

/-- FW_STATUS.STATE (R362): 0 ROM, 1 PLATFORM, 2 OPEN, 3 UPDATING. -/
def State.fwState (s : State) : Nat := s.reg Fd.fwStatusState

/-- Clock step in force: the largest of the five sources (R427). -/
def State.clkSources (s : State) : List Nat :=
  [s.pw.therm, s.pw.droop, s.pw.gov, min 4 s.pw.pcap, min 4 (s.reg Fd.clkCtrlLimit)]

def State.clkStep (s : State) : Nat := s.clkSources.foldl max 0

/-- Cores whose SX holds on a wait or a release hold (SYNC_WAITING). -/
def State.sxWaiting (s : State) : Nat :=
  (List.range 32).foldl (fun n i =>
    if (s.core i).sx.wait.isSome || (s.core i).heldOp.isSome then n + 2 ^ i else n) 0

/-- Cores registered or holding on a semaphore. -/
def State.semWaiters (s : State) (k : Nat) : Nat := ((List.range 32).filter fun n => (s.semWait n k).isSome).length

/-- A word that holds bit i where p i, for i below k. -/
def maskOf (k : Nat) (p : Nat → Bool) : Nat := (List.range k).foldl (fun n i => if p i then n + 2 ^ i else n) 0

/-- Grain at which the next cut falls due (R409). -/
def State.snapNext (s : State) : Nat := s.snap.due

def EntState.code : EntState → Nat
  | .free => 0 | .ready => 1 | .held => 2 | .done => 3

def RunState.code : RunState → Nat
  | .idle => 0 | .waiting => 1 | .running => 2 | .held => 3

def ProtState.code : ProtState → Nat
  | .free => 0 | .admitted => 1 | .tearing => 2 | .held => 3

/-- READY entries in all contexts. -/
def State.readyCount (s : State) : Nat := (s.entries.filter fun kv => kv.2.st = .ready).length

/-- SYNC_DBG_STATE to SYNC_DBG_LEAF of an object, with the leaf of core n (R284). -/
def State.objView (s : State) (n : Nat) : DbgObj → List (Fld × Nat)
  | .sem k =>
    let x := s.sem k
    [(Fd.syncDbgStateDenied, 0), (Fd.syncDbgStateValid, b2n x.alloc), (Fd.syncDbgStateOwner, x.owner),
     (Fd.syncDbgStatePoison, b2n x.poison), (Fd.syncDbgStateGone, b2n x.gone),
     (Fd.syncDbgStateWaiters, s.semWaiters k), (Fd.syncDbgCountCount, x.count), (Fd.syncDbgRefRef, x.init)]
  | .bar i =>
    let b := s.bar i
    let l := b.leaf n
    [(Fd.syncDbgStateDenied, 0), (Fd.syncDbgStateValid, b2n b.alloc), (Fd.syncDbgStateOwner, b.owner),
     (Fd.syncDbgStatePoison, b2n b.poison), (Fd.syncDbgStateGone, b2n b.gone),
     (Fd.syncDbgStatePhase, b2n b.phase), (Fd.syncDbgStateMode, b2n b.member), (Fd.syncDbgStateScope, b.scope),
     (Fd.syncDbgStateWaiters, ((List.range 32).filter fun n => s.barWait n i).length),
     (Fd.syncDbgCountCount, b.shown), (Fd.syncDbgRefRef, if b.member then b.mask else b.expect),
     (Fd.syncDbgLeafPend, if b.member then l.pend else min 3 (l.unassigned + l.assigned.length)),
     (Fd.syncDbgLeafLphase, b2n l.bit), (Fd.syncDbgLeafWaiting, b2n (s.barWait n i))]
  | .none => []

/-- What the object that a requester selects shows. -/
def State.dbgView (s : State) (q : Nat) : List (Fld × Nat) := s.objView (s.reg Fd.syncDbgSelCore q) (s.dbgObj q)

/-- The tile debug buffer word that WORD names (R78). -/
def State.capWord (s : State) (n : Nat) : Nat := leAt (s.core n).capBuf (4 * s.reg Fd.tileDbgCtrlWord n) 4

/-- The links of a bundle under a split. -/
def bundleLinks (bundle n : Nat) : List Nat := (List.range n).map (bundle * 4 + ·)

/-- Links that the split creates. -/
def State.allLinks (s : State) : List Nat := bundleLinks 0 (s.splitOf 0) ++ bundleLinks 1 (s.splitOf 1)

/-- The module is in its link state. -/
def State.modUp (s : State) (k : Nat) : Bool := (s.mod k).trained && (s.mod k).retrain.isNone && !(s.mod k).down

/-- A wired module is in training: it has left or not yet reached its link state, and is not down. -/
def State.modTraining (s : State) (k : Nat) : Bool := k < Config.nmod.val && !(s.mod k).down && !s.modUp k

/-- A link is in a state from DETECT to FULL. -/
def State.linkTraining (s : State) (l : Nat) : Bool := 1 ≤ s.linkSt l && s.linkSt l ≤ 5

/-- PWR_STATUS.STAGE: the training that follows self-test is over once nothing trains (Tables 17-7 and 17-8). -/
def State.stage (s : State) : Nat :=
  let g := s.reg Fd.pwrStatusStage
  if g = 3 && !(List.range 4).any s.modTraining && !s.allLinks.any s.linkTraining then 4 else g

/-- Fields that other state holds, at a map address, for requester q and channel ch; every other field is its own
storage. -/
def State.view (s : State) (q a ch : Nat) : List (Fld × Nat) :=
  match a with
  | 0x0004 => [(Fd.clusterCfgNmod, Config.nmod.val), (Fd.clusterCfgInst, Config.inst.val)]
  | 0x107C =>
    let p := s.pair ch
    [(Fd.mbStatusBound, b2n p.bound), (Fd.mbStatusHsrc, p.hsrc),
     (Fd.mbStatusOpen, b2n (p.bound && (s.fwState = 2 || (ch = 0 && s.fwState = 1))))]
  | 0x1800 => [(Fd.fwStatusPend, s.fw.changes.length)]
  | 0x181C =>
    let x := s.ctx ch
    [(Fd.ctxProtState, x.prot.code), (Fd.ctxProtClass, b2n x.adm.be), (Fd.ctxProtDebug, b2n x.consent.isSome),
     (Fd.ctxProtHold, b2n x.hold.isSome), (Fd.ctxProtDbgHsrc, match x.consent with | some d => d.1 | none => 0),
     (Fd.ctxProtTenant, x.adm.tenant), (Fd.ctxProtNb, x.adm.nb), (Fd.ctxProtMinNb, x.adm.minNb)]
  | 0x2180 =>
    let c := s.core ch
    [(Fd.parcelStatusEngActive, if c.run.isSome then maskOf 5 fun i => match i with
        | 0 => c.mx.active | 1 => c.vx.active | 2 => c.tx.active | 3 => c.dx.active | _ => c.sx.active else 0),
     (Fd.parcelStatusRunning, b2n c.run.isSome)]
  | 0x219C =>
    let c := s.core ch
    let may := q = 0 || (match c.ctx with | some k => s.consentedTo (.host 0) k | none => false)
    match may, readyTokens (c.queue (s.reg Fd.queueDbgSelQueue ch)) with
    | true, t :: _ =>
      [(Fd.queueDbgHeadPoison, b2n t.poison), (Fd.queueDbgHeadEngine, t.eng), (Fd.queueDbgHeadTag, t.tag)]
    | _, _ => [(Fd.queueDbgHeadPoison, 0), (Fd.queueDbgHeadEngine, 0), (Fd.queueDbgHeadTag, 0)]
  | 0x21A0 =>
    let c := s.core ch
    let may := q = 0 || (match c.ctx with | some k => s.consentedTo (.host 0) k | none => false)
    [(Fd.queueFillFill, if may then (readyTokens (c.queue (s.reg Fd.queueDbgSelQueue ch))).length else 0)]
  | 0x2224 => [(Fd.tileDbgDataData, if s.reg Fd.tileDbgCtrlDenied ch = 1 then 0 else s.capWord ch)]
  | 0x2300 =>
    [(Fd.mxCfgFoldEn, b2n (match (s.core ch).ctx with | some k => (s.ctx k).adm.logical | none => false))]
  | 0x2304 =>
    let c := s.core ch
    [(Fd.mxStateDrainPend, 0),
     (Fd.mxStateBankMark, maskOf 8 fun i =>
        let b := tabGet {} c.banks i
        !(b.failed.isEmpty && b.marked.isEmpty)),
     (Fd.mxStateArrayBusy, maskOf 4 fun a => c.passes.any fun p => bit (cf p.cmd 95 92) a),
     (Fd.mxStatePlaneValid, maskOf 12 fun i => (tabGet {} c.planes (i / 3 * 4 + i % 3)).loaded)]
  | 0x252C => [(Fd.spScrubBusy, b2n (!(s.core ch).scrub.isEmpty)), (Fd.spScrubHeld, b2n (!(s.core ch).held.isEmpty))]
  | 0x2530 =>
    let c := s.core ch
    [(Fd.wadiStatusMiss, maskOf 8 fun w => (c.wadi w).any fun e => e.status = .xmiss),
     (Fd.wadiStatusNonempty, maskOf 8 fun w => !(c.wadi w).isEmpty),
     (Fd.wadiStatusHead, maskOf 8 fun w => match c.wadi w with | e :: _ => e.present | [] => false)]
  | 0x2564 =>
    let o := tabGet {} (s.core (ch / 32)).oases (ch % 32)
    [(Fd.oasisCfgOpen, b2n o.isOpen), (Fd.oasisCfgEpoch, b2n o.openEpoch), (Fd.oasisCfgCtx, o.ctx),
     (Fd.oasisCfgId, o.id)]
  | 0x2568 =>
    let o := tabGet {} (s.core (ch / 32)).oases (ch % 32)
    [(Fd.oasisWinGbase, o.gbase / 65536), (Fd.oasisWinLen, o.len / 65536), (Fd.oasisWinPbase, o.pbase / 65536)]
  | 0x2604 => [(Fd.dmaChStatusState, b2n (tabGet none (s.core (ch / 16)).dmas (ch % 16)).isSome)]
  | 0x2680 =>
    let c := s.core ch
    [(Fd.ordStatusHolding, b2n c.heldOp.isSome), (Fd.ordStatusOutstanding, c.outW.length)]
  | 0x3008 => [(Fd.linkStatusLink, ch % 4)]
  | 0x3038 => [(Fd.lpIncInc, s.portIncOf incLport)]
  | 0x3044 => if ch % 64 = 0 then [(Fd.slotEntryOwners, 0xFFFFFFFF)] else []
  | 0x4004 =>
    [(Fd.mpStnStatusRdOut, (s.stn ch).reads.length), (Fd.mpStnStatusWrOut, (s.stn ch).writes.length)]
  | 0x6004 =>
    let x := s.ctx ch
    if x.prot = .free then [] else
      [(Fd.syncCtxCfgResiduePoison, b2n x.adm.residuePoison), (Fd.syncCtxCfgTmoExp, x.adm.tmoExp)]
  | 0x6008 =>
    [(Fd.syncCtxAllocHubSems, (s.sems.filter fun kv => 32768 ≤ kv.1 && kv.2.alloc && kv.2.owner = ch).length),
     (Fd.syncCtxAllocBarriers, (s.bars.filter fun kv => kv.2.alloc && kv.2.owner = ch).length)]
  | 0x601C => [(Fd.syncWaitingCores, s.sxWaiting)]
  | 0x6044 => if s.dbgMay (if q = 0 then .firmware else .host 0) (s.dbgObj q) then s.dbgView q
      else [(Fd.syncDbgStateDenied, 1)]
  | 0x6048 => if s.dbgMay (if q = 0 then .firmware else .host 0) (s.dbgObj q) then s.dbgView q else []
  | 0x604C => if s.dbgMay (if q = 0 then .firmware else .host 0) (s.dbgObj q) then s.dbgView q else []
  | 0x6050 => if s.dbgMay (if q = 0 then .firmware else .host 0) (s.dbgObj q) then s.dbgView q else []
  | 0x7000 =>
    [(Fd.stuStatusBuilding, b2n s.stu.builder.isSome), (Fd.stuStatusBuildCtx, s.stu.builder.getD 0),
     (Fd.stuStatusReady, s.readyCount)]
  | 0x7014 =>
    let x := s.ctx ch
    (Fd.stuCtxCfgState, x.run.code) :: (if x.prot = .admitted then
      [(Fd.stuCtxCfgValid, 1), (Fd.stuCtxCfgClass, b2n x.adm.be), (Fd.stuCtxCfgAbortLimit, x.adm.abortLimit),
       (Fd.stuCtxCfgMaxseq, x.adm.maxseq - 1)] else [])
  | 0x7018 => [(Fd.stuCtxMaskCores, (s.ctx ch).adm.mask)]
  | 0x701C => [(Fd.stuCtxStepStep, (s.ctx ch).step)]
  | 0x7020 => [(Fd.stuCtxStartGrainLo, (s.ctx ch).start)]
  | 0x7024 => [(Fd.stuCtxCaravanParcels, (s.ctx ch).shownCut)]
  | 0x7028 => [(Fd.stuCtxNactNact, (s.ctx ch).shownNact)]
  | 0x702C => [(Fd.stuCtxEndedEnded, (s.ctx ch).shownEnded)]
  | 0x7030 => [(Fd.stuCtxJobsLoJobsLo, (s.ctx ch).jobs)]
  | 0x7038 => [(Fd.stuCtxAbortRun, (s.ctx ch).abortRun)]
  | 0x7040 => [(Fd.stuCtxPoolFree, (s.ctx ch).poolCount)]
  | 0x8000 => [(Fd.pwrStatusStage, s.stage)]
  | 0x8010 =>
    let k := s.clkStep
    [(Fd.clkStatusStep, k), (Fd.clkStatusSrc, maskOf 5 fun i => (s.clkSources.getD i 9) = k)]
  | 0x801C => [(Fd.pwrEstBucket, s.pw.bucket.toNat / 64000000)]
  | 0x8800 => [(Fd.grainNowLoCountLo, s.tb.now)]
  | 0x9030 => [(Fd.snapStatusState, s.snap.st), (Fd.snapStatusBuf, s.snap.seq % 2)]
  | 0x9034 => [(Fd.snapSeqSeq, s.snap.done)]
  | 0x9038 => [(Fd.snapNextGrain, s.snapNext)]
  | _ => []

/-- What a field shows: zero for WO (Table 0-5), the view where other state holds it, else its storage. -/
def State.shown (s : State) (q a ch : Nat) (f : Fld) : Nat :=
  if f.acc = .wo then 0
  else match (s.view q a ch).find? fun p => p.1 = f with
    | some p => p.2 % 2 ^ f.width
    | none => s.reg f ch

/-- The word that a register shows (R12, R14, R15): reserved fields and addresses read as zero. -/
def State.regWord (s : State) (q a : Nat) : Nat :=
  (regFields a).foldl (fun n f =>
    match s.chan q a f.scope with
    | some ch => n + s.shown q (mapAddr a) ch f * 2 ^ f.lo.val
    | none => n) 0

/-! ### Access checks (R13, R15, R365, R367) -/

/-- The H-port takes accesses: the cluster is out of reset (R441); a warm reset and a reset of the H-port are one step. -/
def State.hportOpen (s : State) : Bool := s.alive

/-- The access can be made at all. -/
def State.takes (s : State) : Requester → Bool
  | .firmware => s.alive
  | .host _ => s.hportOpen

/-- The pair bound to a host source. -/
def State.pairOf (s : State) (hsrc : Nat) : Option Nat :=
  if hsrc = 0 then some 0
  else ((List.range 8).drop 1).find? fun n => (s.pair n).bound && (s.pair n).hsrc = hsrc

/-- A requester may reach a window offset (R365). -/
def State.mayReach (s : State) (r : Requester) (a : Nat) : Bool :=
  match r with
  | .firmware => true
  | .host h => h.val = 0 || a < 0x1000 ||
      (match s.pairOf h.val with | some p => 0x1000 + 256 * p ≤ a && a < 0x1100 + 256 * p | none => false)

/-- HP_ERR and HP_ERR_LAST (Table 15-9): kinds 1 width, 2 reserved, 3 refused, 4 select, 5 mailbox, 6 reply discarded,
7 aperture. -/
def hpErr (kind hsrc a : Nat) : M s0 Unit := do
  bumpReg Fd.hpErrCount
  setReg Fd.hpErrLastKind 0 kind
  setReg Fd.hpErrLastHsrc 0 hsrc
  setReg Fd.hpErrLastAddr 0 a

/-- A register of the L-port that takes only the firmware's writes: it holds RWS or WO fields, or has no select (R356). -/
def lpFirmwareOnly (a : Nat) (fs : List Fld) : Bool :=
  0x3000 ≤ a && a < 0x3100 && fs.any fun f => f.acc = .rws || f.acc = .wo || f.scope = .one

/-- The kind of the first rule that an access breaks, in the order of R365; a read breaks only the first two, and counts at
a reserved address without an error. -/
def State.accessKind (s : State) (r : Requester) (a width : Nat) (write : Bool) : Option Nat :=
  let fs := regFields a
  if !s.mayReach r a then some 3
  else if width ≠ 4 ∨ a % 4 ≠ 0 then some 1
  else if fs.isEmpty || (write && r != .firmware && lpFirmwareOnly a fs) then some 2
  else if write && fs.any (fun f => (s.chan (reqChan r) a f.scope).isNone) then some 4
  else none

/-- Answer a requester: data and error response. -/
def respond (data : Nat) (err : Bool) : M s0 Unit := eff (.resp (some ⟨toLe data 4, err⟩))

/-- Run `ok` where an access breaks no rule; else count it as R365 gives, with an error response for a refused access, a
width or alignment error, and a write to a reserved address. -/
def access (r : Requester) (a width : Nat) (write : Bool) (ok : M s0 Unit) : M s0 Unit := do
  let s ← rd
  match s.accessKind r a width write with
  | none => ok
  | some k =>
    match r with
    | .host h => hpErr k h.val a
    | .firmware => pure ()
    respond 0 (k = 3 || k = 1 || (k = 2 && write))

/-- A write of a register that has a row of its own: `body` is what its fields do. -/
def rowWrite (r : Requester) (a : Nat) (body : M s0 Unit) : M s0 Unit :=
  access r a 4 true do
    body
    respond 0 false

/-! ### Plain accesses -/

/-- A read of GRAIN_NOW_LO latches GRAIN_NOW_HI for the requester (R53). -/
def latchGrain (q : Nat) : M s0 Unit := do
  let s ← rd
  setReg Fd.grainNowHiCountHi q (s.tb.now / 2 ^ 32)

/-- A read of STU_CTX_JOBS_LO latches JOBS_HI for the requester (Table 12-7). -/
def latchJobs (q : Nat) : M s0 Unit := do
  let s ← rd
  setReg Fd.stuCtxJobsHiJobsHi q ((s.ctx (s.reg Fd.stuCtxSelCtx q)).jobs / 2 ^ 32)

/-- Read a register for a requester that may. -/
def readReg (q a : Nat) : M s0 Unit := do
  let s ← rd
  respond (s.regWord q a) false
  if a = 0x8800 then latchGrain q
  if a = 0x7030 then latchJobs q

/-- Requester code of a staged value: 0 the firmware, 1 + HSRC a host (R391). -/
def reqCode : Requester → Nat
  | .firmware => 0
  | .host h => 1 + h.val

/-- Stage a value: it replaces what the requester staged for that field and channel before (R391). -/
def stage (v : Staged) : M s0 Unit := do
  let s ← rd
  eff (.staged ((s.staged.filter fun x => !(x.req = v.req && x.fld = v.fld && x.chan = v.chan)) ++ [v]))

/-- NP_ROUTE and NP_ROUTE_EN are set by the firmware (R333): a host write of them has no effect (R439). -/
def fwOnly (f : Fld) : Bool := f.addr = 0x5008 || f.addr = 0x500C

/-- A host write to MB_REQ while TAKEN is 1 has no effect and is counted (R368). -/
def State.reqLocked (s : State) (a : Nat) : Bool :=
  0x1000 ≤ mapAddr a && mapAddr a < 0x1078 && s.reg Fd.mbStatusTaken ((a - 0x1000) / 256) = 1

/-- Write one field under its access code (Table 0-5). WO fields and DBG_HALT have rows of their own. -/
def writeField (r : Requester) (a word : Nat) (f : Fld) : M s0 Unit := do
  let s ← rd
  let v := bits word f.hi f.lo
  match s.chan (reqChan r) a f.scope with
  | none => pure ()
  | some ch =>
    match f.acc with
    | .ro => pure ()
    | .wo => pure ()
    | .rw => if f ≠ Fd.dbgHaltCores then setReg f ch v
    | .w1c => setReg f ch (s.reg f ch - (s.reg f ch &&& v))
    | .rws =>
      if !(f = Fd.slotEntryOwners && ch % 64 = 0) && !(fwOnly f && r != .firmware) then
        stage ⟨reqCode r, f, ch, v⟩

/-- REGISTER_WRITE: an access of the register window to fields with no behaviour of their own (R12 to R15, R365 to R367,
R391). -/
def execRegisterWrite (a : Access) (s : State) : Out :=
  runIf (s.takes a.req) s do
    access a.req a.addr a.width a.write do
      if a.write then
        match s.reqLocked a.addr, a.req with
        | true, .host h => do
          hpErr 5 h.val a.addr
          respond 0 false
        | _, _ => do
          each (regFields a.addr) (writeField a.req a.addr a.value.toNat)
          respond 0 false
      else readReg (reqChan a.req) a.addr

/-- GRAIN_NOW_LO_READ (R53). -/
def execGrainNowLoRead (r : Requester) (s : State) : Out :=
  runIf (s.takes r) s (access r 0x8800 4 false (readReg (reqChan r) 0x8800))

/-- STU_CTX_JOBS_LO_READ (R311). -/
def execStuCtxJobsLoRead (r : Requester) (s : State) : Out :=
  runIf (s.takes r) s (access r 0x7030 4 false (readReg (reqChan r) 0x7030))

/-! ### COMMIT (R391) -/

/-- A staged value falls to a COMMIT of block b under the requester's selects: the core window's blocks take the selected
core, the others have no select that divides the block. -/
def State.commits (s : State) (r : Requester) (b : Block) (x : Staged) : Bool :=
  x.req = reqCode r && blockOf x.fld.addr = b
    && (x.fld.scope != .core || x.chan = s.reg Fd.coreSelCore (reqChan r))

/-- The point of a COMMIT: the top of the next grain, or for the L-port the first grain that is 0 modulo 1024 after it. -/
def State.commitDue (s : State) : Block → Nat
  | .lp => grainAdd (s.tb.now / 1024 * 1024) 1024
  | .hp => s.tb.now
  | .np => s.tb.now
  | _ => grainAdd s.tb.now 1

/-- The blocks whose point is a step start. -/
def stepBlock : Block → Bool
  | .tile | .mx | .num | .vx | .prog | .sp | .stu => true
  | _ => false

/-- Take the requester's staged values as one set that waits for its point; with nothing staged there is no effect. -/
def commitBlock (r : Requester) (b : Block) : M s0 Unit := do
  let s ← rd
  let l := s.staged.filter (s.commits r b)
  if !l.isEmpty then
    eff (.staged (s.staged.filter fun x => !s.commits r b x))
    let ch := match b with
      | .tile | .mx | .num | .vx | .prog | .sp => s.reg Fd.coreSelCore (reqChan r)
      | _ => 0
    eff (.sets (s.sets ++ [{ block := b, chan := ch, hsrc := reqCode r, vals := l, dueAt := s.commitDue b,
                             ready := !stepBlock b }]))

/-- A COMMIT row: a write of 1 to the block's COMMIT field. -/
def commitRow (r : Requester) (b : Block) (s : State) : Out :=
  runIf (s.takes r) s (rowWrite r (commitAddr b) (commitBlock r b))

/-- GRAIN_COMMIT (R53): at the top of the next grain. -/
def execGrainCommit (r : Requester) (s : State) : Out := commitRow r .grain s
/-- TILE_COMMIT (R78): at the selected core's next step start. -/
def execTileCommit (r : Requester) (s : State) : Out := commitRow r .tile s
/-- MX_COMMIT (R111). -/
def execMxCommit (r : Requester) (s : State) : Out := commitRow r .mx s
/-- NUM_COMMIT (R134). -/
def execNumCommit (r : Requester) (s : State) : Out := commitRow r .num s
/-- VX_COMMIT (R159). -/
def execVxCommit (r : Requester) (s : State) : Out := commitRow r .vx s
/-- PROG_COMMIT (R185). -/
def execProgCommit (r : Requester) (s : State) : Out := commitRow r .prog s
/-- SP_COMMIT (R249). -/
def execSpCommit (r : Requester) (s : State) : Out := commitRow r .sp s
/-- STU_COMMIT (R311): at the next step start of each context. -/
def execStuCommit (r : Requester) (s : State) : Out := commitRow r .stu s
/-- MP_COMMIT (R332). -/
def execMpCommit (r : Requester) (s : State) : Out := commitRow r .mp s
/-- NP_COMMIT (R333): once every frame accepted on an old route has left its module. -/
def execNpCommit (r : Requester) (s : State) : Out := commitRow r .np s
/-- LP_COMMIT (R356): the first grain that is 0 modulo 1024; the firmware alone. -/
def execLpCommit (r : Requester) (s : State) : Out := commitRow r .lp s
/-- HP_COMMIT (R392): once every host access already taken has completed. -/
def execHpCommit (r : Requester) (s : State) : Out := commitRow r .hp s
/-- HM_COMMIT (R417). -/
def execHmCommit (r : Requester) (s : State) : Out := commitRow r .hm s
/-- DBG_COMMIT (R419). -/
def execDbgCommit (r : Requester) (s : State) : Out := commitRow r .dbg s
/-- PWR_COMMIT (R439). -/
def execPwrCommit (r : Requester) (s : State) : Out := commitRow r .pwr s

/-- The multiple that a field's map requires (R391): REC_BASE 2^19, the SNAP areas 2^21 and 2^24, TRACE_BASE 2^20. -/
def fieldMultiple (f : Fld) : Nat :=
  if f = Fd.recBaseLoAddr then 2 ^ 19
  else if f = Fd.snapStageLoAddr || f = Fd.snapImageLoAddr then 2 ^ 21
  else if f = Fd.snapMirrorLoOff then 2 ^ 24
  else if f = Fd.traceBaseLoAddr then 2 ^ 20
  else 1

/-- The value that a field would have after a set. -/
def CommitSet.after (c : CommitSet) (s : State) (f : Fld) : Nat :=
  match c.vals.find? fun v => v.fld = f with
  | some v => v.val
  | none => s.reg f

/-- A set breaks a consistency rule of its block (R391, R432): a multiple, the order of PPEAK and PSUS, or a reserved SPLIT
code. -/
def CommitSet.breach (c : CommitSet) (s : State) : Bool :=
  (c.vals.any fun v => v.val % fieldMultiple v.fld ≠ 0)
    || (c.block = .pwr && c.after s Fd.pcapCfgPpeak < c.after s Fd.pcapCfgPsus)
    || (c.block = .lp && (c.after s Fd.lpCfgSplitA = 3 || c.after s Fd.lpCfgSplitB = 3))

/-- The point of a set has come. -/
def CommitSet.due (c : CommitSet) (s : State) : Bool :=
  c.ready && (stepBlock c.block || reached s.tb.now c.dueAt)
    && (c.block != .np || (List.range 4).all fun k => (s.mod k).waiting.isEmpty)

/-- Number of links that a SPLIT code gives (R334). -/
def splitLinks (code : Nat) : Nat := if code = 1 then 2 else if code = 2 then 4 else 1

/-- The lanes of a link, 0 to 19 in bundle A and 20 to 39 in bundle B (R334). -/
def State.lanesOf (s : State) (l : Nat) : List Nat :=
  let w := 20 / s.splitOf (l / 4)
  (List.range w).map fun i => l / 4 * 20 + l % 4 * w + i

/-- A link enters a training state. -/
def linkEnter (l st : Nat) : M s0 Unit := do
  let s ← rd
  setReg Fd.linkStatusState l st
  setRegBit (if l < 4 then Fd.lpQuarA else Fd.lpQuarB) (l % 4) (st = 7)
  modLink l fun x => { x with since := s.tb.now }

/-- A link enters DETECT (R341): its lanes carry no frames, no width is active, and it keeps the identity it last matched;
`again` where it has trained before. -/
def linkDetect (again : Bool) (l : Nat) : M s0 Unit := do
  let s ← rd
  if again then bumpReg Fd.linkStatusRetrains l
  setReg Fd.linkStatusFaults l 0
  each (s.lanesOf l) fun i => do
    setReg Fd.laneStatusActive i 0
    setReg Fd.laneStatusFault i 0
    setReg Fd.laneStatusInverted i 0
    setReg Fd.laneStatusTxFenced i 0
  setReg Fd.linkStatusRxWidth l 0
  setReg Fd.linkStatusTxWidth l 0
  modLink l fun x => { x with
    revMap := false, identIn := none, featIn := none, losses := [], gaps := [], synced := false,
    lastId := if s.linkSt l = 6 then x.identIn else x.lastId }
  linkEnter l 1

end Sys2Proof.Machine
end

