-- ==== Sys2Proof/Machine/Debug.lean ====
section
/-! DEFINITION. Debug: the request of a capture of a tile row (R78), halts and single steps (R76, R419). -/

namespace Sys2Proof.Machine

variable {s0 : State}

/-- Requester r may debug core n: a consent covers the context to which it is assigned (R78, R388, R419). -/
def State.mayDebug (s : State) (r : Requester) (n : Nat) : Bool :=
  match (s.core n).ctx with
  | some c => s.consentedTo r c
  | none => false

/-- TILE_DBG_GO: a write of TILE_DBG_CTRL with GO requests a capture of one row, or sets DENIED; the file of an unassigned
core is readable only by the firmware (R78). -/
def execTileDbgGo (r : Requester) (value : Word) (s : State) : Out :=
  runIf (s.takes r) s do
    rowWrite r 0x2220 do
      let n := s.reg Fd.coreSelCore (reqChan r)
      let w := value.toNat
      setReg Fd.tileDbgCtrlTreg n (bits w 15 11)
      setReg Fd.tileDbgCtrlRow n (bits w 10 5)
      setReg Fd.tileDbgCtrlWord n (bits w 4 0)
      if bit w 31 then
        setReg Fd.tileDbgCtrlDone n 0
        if s.mayDebug r n || ((s.core n).ctx.isNone && r = .firmware) then
          setReg Fd.tileDbgCtrlDenied n 0
          modCore n fun c => { c with capture := some (bits w 15 11, bits w 10 5) }
        else
          setReg Fd.tileDbgCtrlDenied n 1
          modCore n fun c => { c with capture := none }

/-- Release core n from a halt and from single stepping. -/
def releaseHalt (n : Nat) : M s0 Unit := do
  setRegBit Fd.dbgHaltedCores n false
  modDbg fun d => { d with
    wanted := putBit d.wanted n false, stepping := putBit d.stepping n false,
    steps := d.steps.filter fun k => k / 8 ≠ n }

/-- DBG_HALT: each bit set requests a halt under consent or sets DBG_DENIED; each bit cleared releases the core (R419). -/
def execDbgHalt (r : Requester) (cores : Word) (s : State) : Out :=
  runIf (s.takes r) s do
    rowWrite r 0xA014 do
      setReg Fd.dbgHaltCores 0 cores.toNat
      each (List.range 32) fun n =>
        if bit cores.toNat n then do
          if s.mayDebug r n then modDbg fun d => { d with wanted := putBit d.wanted n true }
          else setRegBit Fd.dbgDeniedCores n true
        else releaseHalt n

/-- DBG_STEP: each bit set lets a halted core issue at most one command on each engine, then halt at the next boundary
(Table 16-10). -/
def execDbgStep (r : Requester) (cores : Word) (s : State) : Out :=
  runIf (s.takes r) s do
    rowWrite r 0xA018 do
      each (bitsSet cores.toNat 32) fun n => do
        if !s.mayDebug r n then setRegBit Fd.dbgDeniedCores n true
        else if s.halted n then
          setRegBit Fd.dbgHaltedCores n false
          modDbg fun d => { d with
            stepping := putBit d.stepping n true,
            steps := d.steps.filter (fun k => k / 8 ≠ n) ++ engines.map fun e => n * 8 + engCode e }

/-- DX keeps its issue slot for a WPOST that has issued and waits for room (R207). -/
def Core.posting (c : Core) : Bool :=
  match c.dx.wait with
  | some w => match w.what with | .wpost _ _ _ => true | _ => false
  | none => false

/-- Every engine of a core is at an instruction boundary (R76): no issued command is still in flight; a parked tile load
and a command held at a head do not count. -/
def Core.atBoundary (c : Core) : Bool :=
  !c.posting && c.passes.isEmpty && c.mrds.isEmpty && c.lsends.isEmpty && c.sxOps.isEmpty && (c.dmas.all fun kv => kv.2.isNone)
    && (match c.load with | some l => l.parked.isSome | none => true)

/-- DEBUG_HALT_TAKEN: a requested halt takes effect at the boundary, while a consent covers the core's context (R76,
R419). -/
def execDebugHaltTaken (core : Fin 32) (s : State) : Out :=
  runIf (s.alive && bit s.dbg.wanted core && !s.halted core && s.covered core && (s.core core).atBoundary) s do
    setRegBit Fd.dbgHaltedCores core true
    modDbg fun d => { d with
      stepping := putBit d.stepping core false, steps := d.steps.filter fun k => k / 8 ≠ core.val }

/-- The debug consent of a context ends: the halts that it carried are released (R388, R419). -/
def endConsent (c : Nat) : M s0 Unit := do
  let s ← rd
  if (s.ctx c).consent.isSome then
    modCtx c fun x => { x with consent := none }
    each (List.range 32) fun n => if (s.core n).ctx = some c then releaseHalt n else pure ()

/-- DEBUG_CONSENT_EXPIRY: the duration of a consent has passed (R388). -/
def execDebugConsentExpiry (ctx : Fin 8) (s : State) : Out :=
  match (s.ctx ctx).consent with
  | none => .next s
  | some d => runIf (s.alive && reached s.tb.now d.2) s (endConsent ctx)

/-! ### Manual actions on synchronisation objects (R284) -/

/-- A write of an action bit of SYNC_DBG_CTRL: it acts on the selected object where the requester has access, and does nothing
elsewhere (R284). -/
def manual (r : Requester) (s : State) (body : DbgObj → M s Unit) : Out :=
  runIf (s.takes r) s do
    rowWrite r 0x6058 do
      let o := s.dbgObj (reqChan r)
      if s.dbgMay r o then body o

/-- SYNC_SET: the selected semaphore's COUNT becomes VALUE, and its waiters are tested; the waits it ends are poisoned. -/
def execSyncSet (r : Requester) (s : State) : Out :=
  manual r s fun o => do
    match o with
    | .sem k =>
      let v := s.reg Fd.syncDbgValueValue
      manualRec (s.dbgOwner o) (semObjBytes k) 0 (s.sem k).count v
      modSem k fun x => { x with count := v }
      testWaiters k true
      setReg Fd.syncDbgCtrlDone 0 1
    | _ => pure ()

/-- SYNC_RELEASE: the top node's current phase completes as though it were full, and the waits that it ends are poisoned (R284).
Where the top node is in another cluster, there is none here to complete (assumption log 113). -/
def execSyncRelease (r : Requester) (s : State) : Out :=
  manual r s fun o => do
    match o with
    | .bar i =>
      let b := s.bar i
      if b.scope = 0 then
        clusterRelease i true
        clusterTest i 3
      else if b.topHere then
        let again ← (if b.scope = 1 then packageRelease i true else rootRelease i true : M s Bool)
        if again then packageComplete i 2
      let t ← rd
      manualRec (s.dbgOwner o) (barObjBytes i) 1 b.shown (t.bar i).shown
      setReg Fd.syncDbgCtrlDone 0 1
    | _ => pure ()

/-- SYNC_CLEAR: the selected barrier's counters and PENDs become 0, its phase bit stays, POISON and GONE are cleared, and
every wait on it ends poisoned. -/
def execSyncClear (r : Requester) (s : State) : Out :=
  manual r s fun o => do
    match o with
    | .bar i =>
      let b := s.bar i
      manualRec (s.dbgOwner o) (barObjBytes i) 2 b.shown 0
      modBar i fun b => { b with
        cur := 0, next := 0, curSet := 0, nextSet := 0, poison := false, gone := false, sent := false, first := none,
        firstNext := none, lateDone := false, lateNext := false, pkgNode := b.pkgNode.cleared, root := b.root.cleared,
        leaves := b.leaves.map fun kv => (kv.1, { kv.2 with pend := 0, unassigned := 0, assigned := [] }) }
      each (List.range 32) fun n => if s.barWait n i then endWait n .sx true else pure ()
      setReg Fd.syncDbgCtrlDone 0 1
    | _ => pure ()

end Sys2Proof.Machine
end

