-- ==== Sys2Proof/Machine/Fence.lean ====
section
/-! DEFINITION. The core fence (R399 to R402). -/

namespace Sys2Proof.Machine

variable {s0 : State}

/-- Number of core n among the units whose INC advances are spaced (R405): the ports are 0 to 11. -/
def incCore (n : Nat) : Nat := 16 + n

/-- A unit's INC has advanced now. -/
def noteInc (u : Nat) : M s0 Unit := do
  let s ← rd
  modResets fun r => { r with lastInc := tabSet r.lastInc u (some s.tb.now) }

/-- CORE_INC advances by 1 modulo 256. -/
def advanceCore (n : Nat) : M s0 Unit := do
  let s ← rd
  setReg Fd.coreIncInc n (s.coreInc n + 1)
  noteInc (incCore n)

/-- Objects that a core's loss takes away: its semaphores, and the MEMBER barriers that name it (R401). -/
def goneWithCore (n : Nat) : M s0 Unit := do
  let s ← rd
  each (tabKeys (fun k x => x.alloc && !x.gone && inCore n k) s.sems) goneSem
  each (tabKeys (fun _ b => b.alloc && !b.gone && b.member && bit b.mask n) s.bars) goneBar

/-- Answer the sender of an inbound packet: 0 accepted, 2 TARGET_RESET, 3 refused. A core of this cluster gets an
acknowledgement or a refusal notice, the cluster that sent it over the N-port an ACK or REFUSE frame; a sender on the L-port
hears of a refusal only (R247, R255, R349). -/
def answerWrite (core src inc : Nat) (w : Writer) (p : Pkt) (status : Nat) : M s0 Unit := do
  let s ← rd
  if src < 32 then
    send core src inc (if status = 3 then .refusal p.id else .ack p.id status)
  else if src = nodeLport then
    match w.lsrc with
    | some o => if status = 3 then ctlToPkg o.pkg (.refuse p.tag w.score w.ctx o)
    | none => pure ()
  else
    match s.route w.via with
    | some k =>
      modPush k ⟨if status = 3 then 3 else 2,
        { frameTo w.via w.score core p.tag with
          inc := BitVec.ofNat 8 w.linc, body := toLe (if status = 3 then 0 else status) 1 ++ zeros 15,
          sctx := Fin.ofNat 8 w.ctx, lsrc := w.lsrc }, w.ctx, true⟩
    | none => pure ()

/-- The inbound packets that core n has accepted and not committed whole are answered with TARGET_RESET (R401). -/
def landingLost (n : Nat) : M s0 Unit := do
  let s ← rd
  modCore n fun c => { c with landing := [] }
  each (s.core n).landing fun x => answerWrite n x.src x.inc x.by_ x.pkt 2

/-- Fence core n (R400, R401): causes 1 state error, 2 checksum limit, 3 platform, 4 self-test; a fence of a fenced core has
no effect, and one by the self-test advances no INC (R402). -/
def fence (n cause array : Nat) : M s0 Unit := do
  let s ← rd
  if !s.fenced n then
    setRegBit Fd.fencedCores n true
    if cause ≠ 4 then advanceCore n
    killParcel n .dropped
    dropHome n .dropped
    modCore n fun c => { c with mcache := [], outW := [], capture := none, late := [], wadiOut := [] }
    releaseHalt n
    goneWithCore n
    landingLost n
    platRec .coreFence n 0 (toLe cause 1 ++ toLe array 1)

/-- FENCE: a platform write fences each core whose bit is 1 (R400). -/
def execFence (r : Requester) (cores : Word) (s : State) : Out :=
  runIf (s.takes r) s do
    rowWrite r 0x9044 do
      each (bitsSet cores.toNat 32) fun n => fence n 3 0

end Sys2Proof.Machine
end

