-- ==== Sys2Proof/Machine/Power.lean ====
section
/-! DEFINITION. Clock steps, power limits and power domains (R424 to R430). -/

namespace Sys2Proof.Machine

variable {s0 : State}

/-- PCAP_STEP: the package's fastest permitted step changes; codes 5 to 7 act as 4 (R423, R427). -/
def execPcapStep (step : Fin 8) (s : State) : Out :=
  runIf s.alive s (modPw fun p => { p with pcap := step })

/-- DROOP_EVENT: VDDC falls below DROOP_THR; the droop step becomes 4, and an event in a running episode is not counted
again (R428). -/
def execDroopEvent (s : State) : Out :=
  runIf s.alive s do
    if s.pw.droop = 0 then
      bumpReg Fd.droopCntEvents
      modHealth fun h => { h with droop := h.droop + 1 }
    modPw fun p => { p with droop := 4, vddcOk := none }

/-- DROOP_CFG.HOLD in force: 0 acts as 1. -/
def State.droopHold (s : State) : Nat := max 1 (s.reg Fd.droopCfgHold)

/-- DROOP_STEP_DOWN: VDDC last rose above DROOP_THR in grain `above`; HOLD grains later the droop step falls by one per
grain (R428). -/
def execDroopStepDown (above : BitVec 48) (s : State) : Out :=
  let from_ := grainAdd above.toNat s.droopHold
  let step := 4 - min 4 (grainSub s.tb.now from_ + 1)
  runIf (s.alive && s.pw.droop != 0 && reached s.tb.now from_ && step < s.pw.droop) s do
    modPw fun p => { p with droop := step, vddcOk := some above.toNat }

/-- THERM_LIMIT in force: 60 to 110, others act as the nearest (Table 17-8). -/
def State.thermLimit (s : State) : Nat := max 60 (min 110 (s.reg Fd.thermLimit))

/-- The thermal step after a reading of the hottest sensor (R429). -/
def thermStep (limit tj step : Nat) : Nat :=
  if limit ≤ tj then min 4 (step + 1) else if tj + 5 ≤ limit then step - 1 else step

/-- THERMAL_STEP: every 256 grains the thermal step follows the hottest sensor, and THERM_TRIP is high at 115 °C or more
(R423, R429). -/
def execThermalStep (tj : Nat) (s : State) : Out :=
  runIf (s.alive && elapsed s.tb.now s.pw.thermAt 256) s do
    setReg Fd.thermTj 0 (min 255 tj)
    setReg Fd.thermTjMax 0 (max (s.reg Fd.thermTjMax) (min 255 tj))
    modPw fun p => { p with
      therm := thermStep s.thermLimit tj p.therm, thermAt := s.tb.now, thermTrip := 115 ≤ tj }

/-- BMAX in units of 1.25 × 10^-13 J (1/8 W for 1 ps): (PPEAK − PSUS) × 1 ms (R430). -/
def State.bmax (s : State) : Int := ((s.reg Fd.pcapCfgPpeak : Int) - s.reg Fd.pcapCfgPsus) * 8000000000

/-- The bucket after a grain of power p, in 1/8 W, of 14.545 ns (R430). -/
def State.bucketAfter (s : State) (p : Nat) : Int :=
  min s.bmax (s.pw.bucket + ((s.reg Fd.pcapCfgPsus : Int) * 8 - p) * 14545)

/-- The governor's step after a grain, by R430. -/
def State.govAfter (s : State) (pdyn pleak : Nat) : Nat :=
  let g := s.pw.gov
  let p := pdyn + pleak
  let b := s.bucketAfter p
  let psus := s.reg Fd.pcapCfgPsus * 8
  if s.reg Fd.pcapCfgPpeak * 8 < p ∨ (b ≤ 0 ∧ psus < p) then min 4 (g + 1)
  else if 0 < g ∧ s.bmax ≤ 2 * b ∧ elapsed s.tb.now s.pw.govAt 64 ∧
      pdyn * (8 - g + 1) + pleak * (8 - g) ≤ psus * (8 - g) then g - 1
  else g

/-- GOVERNOR_UPDATE: at the end of a grain whose estimated power was pdyn + pleak, in 1/8 W, the bucket and the governor's
step move (R430). -/
def execGovernorUpdate (pdyn pleak : Nat) (s : State) : Out :=
  runIf s.alive s do
    setReg Fd.pwrEstPower 0 (pdyn + pleak)
    let g := s.govAfter pdyn pleak
    modPw fun p => { p with
      bucket := s.bucketAfter (pdyn + pleak), gov := g, govAt := if g = p.gov then p.govAt else s.tb.now }

/-! ### Domains -/

/-- The firmware switches core n's domain on (R425); CORE_DOMAIN_READY follows. -/
def powerOn (n : Nat) : M s0 Unit := setRegBit Fd.corePwrOn n true

/-- CORE_DOMAIN_READY: core n's domain is on and its SRAM zeroed (R424). -/
def execCoreDomainReady (core : Fin 32) (s : State) : Out :=
  runIf (s.alive && bit (s.reg Fd.corePwrOn) core && !bit (s.reg Fd.corePwrStReady) core) s do
    eff (.core core {})
    setRegBit Fd.corePwrStReady core true

/-- The core is in the core mask of an admitted context. -/
def State.masked (s : State) (n : Nat) : Bool :=
  (List.range 8).any fun c => (s.ctx c).prot != .free && bit (s.ctx c).adm.mask n

/-- The core's registers and memory return to their reset state; the protection tables and the INC stay, and so does its
assignment to a step that runs (R29, R32). -/
def resetCore (n : Nat) : M s0 Unit := do
  let s ← rd
  eff (.core n { oases := (s.core n).oases, ctx := (s.core n).ctx })
  eff (.spClear n)
  eff (.regsDrop fun a ch => ch = n && ((0x2100 ≤ a && a < 0x2560 && !(0x2500 ≤ a && a < 0x2520))
    || (0x2614 ≤ a && a < 0x3000 && a != 0x2F08)))
  eff (.regsDrop fun a ch => 0x2604 ≤ a && a < 0x2614 && ch / 16 = n)

/-- CORE_POWER_OFF: the firmware powers a core's domain off after 2^16 grains in no core mask, unless it is fenced; a
domain that is off holds no state (R424, R425). -/
def execCorePowerOff (core : Fin 32) (s : State) : Out :=
  runIf (s.alive && bit (s.reg Fd.corePwrOn) core && !s.fenced core && !s.masked core
      && elapsed s.tb.now (tabGet 0 s.pw.idleFrom core) 65536) s do
    resetCore core
    setRegBit Fd.corePwrOn core false
    setRegBit Fd.corePwrStReady core false

end Sys2Proof.Machine
end

