-- ==== Sys2Proof/Machine/Wadi.lean ====
section
/-! DEFINITION. Wadis (R231 to R236): descriptors and their legality, numbering and posting of reads, the fill of entries,
translation misses, and the waits of DX on wadis and oases (R207 to R209, R212). -/

namespace Sys2Proof.Machine

variable {s0 : State}

/-! ### Global windows (R233, R239) -/

/-- n bytes at a lie wholly inside one of context c's windows. -/
def State.inWindow (s : State) (c a n : Nat) : Bool := (s.ctx c).adm.windows.any fun w => w.1 ≤ a && a + n ≤ w.1 + w.2

/-- n bytes at a lie inside a list of windows taken together; the fuel bounds how many are walked. -/
def coveredBy (ws : List (Nat × Nat)) : Nat → Nat → Nat → Bool
  | 0, _, n => n = 0
  | k + 1, a, n =>
    n = 0 || match ws.find? fun w => w.1 ≤ a && a < w.1 + w.2 with
      | some w => coveredBy ws k (w.1 + w.2) (n - (w.1 + w.2 - a))
      | none => false

/-- n bytes at a lie inside context c's windows. -/
def State.inWindows (s : State) (c a n : Nat) : Bool := coveredBy (s.ctx c).adm.windows 9 a n

/-- A signed 32-bit field. -/
def s32 (v : Nat) : Int := if v < 2 ^ 31 then v else (v : Int) - (2 ^ 32 : Nat)

/-- An address modulo 2^64. -/
def wrap64 (a : Int) : Nat := (a % (gmSize : Nat)).toNat

/-! ### WPOST descriptors (Table 9-3) -/

/-- A WPOST descriptor. -/
structure PostDesc where
  gaddr  : Nat
  stride : Int
  n      : Nat
  len    : Nat
  ncu    : Nat
  /-- Reserved fields are zero and ELEN is not 3. -/
  ok     : Bool

def postDesc (b : List Byte) : PostDesc :=
  { gaddr := leAt b 0 8, stride := s32 (leAt b 8 4), n := leAt b 12 2, len := 64 * bits (leAt b 14 1) 1 0, ncu := leAt b 15 1,
    ok := bits (leAt b 14 1) 7 2 = 0 && bits (leAt b 14 1) 1 0 ≠ 3 && leAt b 16 48 = 0 }

/-- Address of entry k. -/
def PostDesc.addr (d : PostDesc) (k : Nat) : Nat := wrap64 ((d.gaddr : Int) + k * d.stride)

/-- A descriptor is legal for context c (R207, R233, R320). -/
def State.postOk (s : State) (c : Nat) (d : PostDesc) : Bool :=
  d.ok && d.n ≤ 256 && d.gaddr % 64 = 0 && d.stride % 64 = 0 &&
  if d.ncu = 0 then
    d.len = 0 || (List.range d.n).all fun k => s.inWindow c (d.addr k) d.len && d.addr k % 4096 + d.len ≤ 4096
  else
    ncuOk d.ncu && !ncuWrites d.ncu && d.stride = 0 && d.n * d.len % ncuCore d.ncu = 0 &&
    (List.range (d.n * d.len / ncuCore d.ncu)).all fun g => s.inWindow c (d.gaddr + g * ncuMem d.ncu) (ncuMem d.ncu)

/-- The entries of a WPOST, before they are posted. -/
def PostDesc.entries (d : PostDesc) (tag : Nat) : List WadiEnt :=
  (List.range d.n).map fun k =>
    { addr := if d.ncu = 0 then d.addr k else d.gaddr + k * d.len / ncuCore d.ncu * ncuMem d.ncu,
      len := d.len, ncu := d.ncu, tag := tag, idx := k, base := d.gaddr, srcs := [] }

/-! ### Reads -/

/-- A far read to send: its number, address, granules (0 under an NCU code, whose group says it), and NCU code. -/
structure FarRead where
  rid  : Nat
  addr : Nat
  ngr  : Nat
  ncu  : Nat

/-- Group of granule j of an entry, and its place in the reply. -/
def WadiEnt.part (e : WadiEnt) (j : Nat) : Nat × Nat :=
  if e.ncu = 0 then (0, j)
  else
    let b := e.idx * e.len + 64 * j
    (b / ncuCore e.ncu, b % ncuCore e.ncu / 64)

/-- The read that brings group g of an entry. -/
def WadiEnt.read (e : WadiEnt) (g rid : Nat) : FarRead :=
  if e.ncu = 0 then ⟨rid, e.addr, e.len / 64, 0⟩ else ⟨rid, (e.base + g * ncuMem e.ncu) % gmSize, 0, e.ncu⟩

/-- Numbers given so far: what each granule waits for, the reads, the next number, and the group read last. -/
structure Plan where
  srcs  : List (Nat × Nat) := []
  reads : List FarRead := []
  next  : Nat
  last  : Option (Nat × Nat) := none

def WadiEnt.plan (e : WadiEnt) (p : Plan) (j : Nat) : Plan :=
  let (g, k) := e.part j
  match p.last with
  | some (g', rid) =>
    if g' = g then { p with srcs := p.srcs ++ [(rid, k)] }
    else { srcs := p.srcs ++ [(p.next, k)], reads := p.reads ++ [e.read g p.next], next := p.next + 1,
           last := some (g, p.next) }
  | none =>
    { srcs := p.srcs ++ [(p.next, k)], reads := p.reads ++ [e.read g p.next], next := p.next + 1, last := some (g, p.next) }

/-- Number the reads of a run of entries in posting order; a group is read once (R320). The entries come back empty. -/
def planReads (next : Nat) : Option (Nat × Nat) → List WadiEnt → List WadiEnt × List FarRead × Nat
  | _, [] => ([], [], next)
  | last, e :: l =>
    let p := (List.range (e.len / 64)).foldl e.plan
      { next := next, last := if e.ncu = 0 ∨ e.idx = 0 then none else last }
    let (es, rs, k) := planReads p.next p.last l
    ({ e with srcs := p.srcs, got := [], grans := [], status := .ok, present := e.len = 0 } :: es, p.reads ++ rs, k)

/-- Post entries at the end of wadi w of core n, or post again those from place k on (R207, R235). -/
def postFrom (n w k : Nat) (more : List WadiEnt) : M s0 Unit := do
  let s ← rd
  let c := s.core n
  let (es, rs, next) := planReads c.nextId none ((c.wadi w).drop k ++ more)
  modCore n fun c => { c with
    wadis := tabSet c.wadis w ((c.wadi w).take k ++ es), nextId := next, wadiOut := c.wadiOut ++ rs.map (·.rid) }
  each rs fun r => sendRead n r.rid c.runCtx r.addr r.ngr r.ncu

/-! ### Waits of DX -/

/-- An entry fails: its reply carried an error, or one of its granules fails its check. -/
def WadiEnt.bad (e : WadiEnt) : Bool := e.status != .ok || e.grans.any fun g => g.syn ≠ 0

/-- Write one entry into the partition with the length it carries (R209); marked where it fails. Answers whether a merge
failed or the entry did. -/
def movEntry (n c dst : Nat) (poison : Bool) (e : WadiEnt) : M s0 Bool := do
  let ok ← spWrite n c dst ((e.grans.map (·.data)).flatten.take e.len) (poison || e.bad)
  pure (e.bad || !ok)

/-- Move entries to consecutive 128-byte places; answers whether one failed. -/
def movEntries (n c : Nat) (poison : Bool) : Nat → List WadiEnt → M s0 Bool
  | _, [] => pure false
  | dst, e :: l => do
    let b ← movEntry n c dst poison e
    let r ← movEntries n c poison (dst + 128) l
    pure (b || r)

/-- The counts of an oasis of context c on core n: bytes and packets, zero where it is not open (R246). -/
def State.oasisCounts (s : State) (n c id : Nat) : Nat × Nat :=
  match (s.core n).oasisOf c id with
  | some k => (s.reg Fd.oasisBytesBytes (n * 32 + k), s.reg Fd.oasisPktsPkts (n * 32 + k))
  | none => (0, 0)

/-- The counts satisfy targets (R248). -/
def countsReach (x : Nat × Nat) (bytes pkts : Nat) : Bool :=
  (x.1 + 2 ^ 32 - bytes) % 2 ^ 32 < 2 ^ 31 && (x.2 + 2 ^ 16 - pkts) % 2 ^ 16 < 2 ^ 15

/-- End the wait of core n's DX where it is satisfied: room for a WPOST, present heads for WWAIT and WMOV, counts for ARRW
(R207 to R209, R212, R248). -/
def testDx (n : Nat) : M s0 Unit := do
  let s ← rd
  let c := s.core n
  match c.dx.wait with
  | none => pure ()
  | some w =>
    match w.what with
    | .wpost a m desc =>
      if (c.wadi a).length + m ≤ 256 then
        postFrom n a (c.wadi a).length ((postDesc desc).entries (tagOf w.cmd))
        endWait n .dx false
    | .wwait a m => if m ≤ presentHead (c.wadi a) then endWait n .dx false
    | .wmov a m dst =>
      if m ≤ presentHead (c.wadi a) then
        modCore n fun c => { c with wadis := tabSet c.wadis a ((c.wadi a).drop m) }
        let bad ← movEntries n c.runCtx w.poison dst ((c.wadi a).take m)
        endWait n .dx bad
    | .arrw o bytes pkts => if countsReach (s.oasisCounts n c.runCtx o) bytes pkts then endWait n .dx false
    | _ => pure ()

/-! ### Replies -/

/-- A granule of a reply that is not OK carries its check complemented (R234). -/
def failGran (st : FarStatus) (g : GranS) : GranS := { g with syn := mark (st != .ok) g.syn }

/-- What a reply brings to an entry. -/
def WadiEnt.take (e : WadiEnt) (rid : Nat) (st : FarStatus) (gs : List GranS) : WadiEnt :=
  let new := (List.range e.srcs.length).filterMap fun j =>
    match e.srcs[j]? with
    | some (r, k) => if r = rid then some (j, failGran st (gs.getD k ⟨zeros 64, markSyn⟩)) else none
    | none => none
  { e with got := e.got ++ new, status := if new.isEmpty || st = .ok then e.status else st }

/-- An entry whose granules have all arrived becomes present (R234, R320). -/
def WadiEnt.settle (e : WadiEnt) : WadiEnt :=
  if !e.present && e.status != .xmiss && e.got.length = e.len / 64 then
    let gs := (List.range (e.len / 64)).filterMap fun j => (e.got.find? (·.1 = j)).map (·.2)
    { e with present := true, grans := gs.map (failGran e.status), got := [] }
  else e

/-- The entry waits for read rid. -/
def WadiEnt.waitsFor (rid : Nat) (e : WadiEnt) : Bool := !e.present && e.srcs.any (·.1 = rid)

/-- The wadi of core n with an entry that waits for read rid. -/
def Core.wadiOf (c : Core) (rid : Nat) : Option Nat := (List.range 8).find? fun w => (c.wadi w).any (WadiEnt.waitsFor rid)

/-- Drop what a later entry has received; it waits to be read again (R235). -/
def WadiEnt.forget (e : WadiEnt) : WadiEnt :=
  if e.len = 0 then e else { e with present := false, status := .ok, srcs := [], got := [], grans := [] }

/-- A read of wadi w missed its translation (R235, steps 1 and 2): nothing where an earlier entry already waits. -/
def wadiMiss (n w rid : Nat) (gs : List GranS) : M s0 Unit := do
  let s ← rd
  let es := (s.core n).wadi w
  let i := es.findIdx (WadiEnt.waitsFor rid)
  match es[i]? with
  | some e =>
    if !(es.take i).any fun x => x.status = .xmiss && !x.present then
      let j := e.srcs.findIdx fun p => p.1 = rid
      let e' : WadiEnt := { e.take rid .error gs with
        status := .xmiss, missAt := s.tb.now, missed := (e.read (e.part j).1 rid).addr }
      modCore n fun c => { c with
        wadis := tabSet c.wadis w (es.take i ++ e' :: (es.drop (i + 1)).map WadiEnt.forget) }
      setReg Fd.wadiXmissTag n e.tag
      setReg Fd.wadiXmissEntry n e.idx
      setReg Fd.wadiXmissWadi n w
      setReg Fd.wadiXmissLoAddrLo n e.addr
      setReg Fd.wadiXmissHiAddrHi n (e.addr / 2 ^ 32)
  | none => pure ()

/-- A granule of open contents that carries the mark. -/
def freshGran : M s0 GranS := do
  let s ← rd
  eff (.fresh 16)
  pure ⟨(List.range 16).flatMap fun i => toLe (Config.freeWord (s.freeCtr + i)).toNat 4, markSyn⟩

/-- Open granules for the places that have no data yet. -/
def fillOpen : List Nat → List (Nat × GranS) → M s0 (List (Nat × GranS))
  | [], got => pure got
  | j :: l, got => do
    let rest ← fillOpen l got
    if rest.any (·.1 = j) then pure rest
    else
      let g ← freshGran
      pure ((j, g) :: rest)

/-- The miss at place i of wadi w ends (R235, steps 3 and 4): resolved, its read and every later one are sent again; failed,
the entry is present with ERROR and the later reads are sent again. -/
def missEnds (n w i : Nat) (resolved : Bool) : M s0 Unit := do
  let s ← rd
  match ((s.core n).wadi w)[i]? with
  | none => pure ()
  | some e =>
    if resolved then postFrom n w i []
    else
      let got ← fillOpen (List.range (e.len / 64)) e.got
      let e' := { e with status := .error, got := got }.settle
      modCore n fun c => { c with wadis := tabSet c.wadis w ((c.wadi w).set i e') }
      postFrom n w (i + 1) []

/-- Place of the entry of wadi w that waits for a translation. -/
def Core.missAt (c : Core) (w : Nat) : Option Nat :=
  let es := c.wadi w
  let i := es.findIdx fun e => e.status = .xmiss && !e.present
  if i < es.length then some i else none

end Sys2Proof.Machine
end

