-- ==== Sys2Proof/Machine/Tx.lean ====
section
/-! DEFINITION. The tile register file (R55 to R72) and the TX commands (R201 to R204, R73 to R75). -/

namespace Sys2Proof.Machine

variable {s0 : State}

/-! ### Tile descriptors and rows -/

/-- A tile descriptor (Table 3-1). -/
structure TDesc where
  treg  : Nat
  rows  : Nat
  width : Nat
  ok    : Bool

def tdesc (d : Nat) : TDesc := ⟨bits d 15 11, bits d 10 5 + 1, (bits d 4 2 + 1) * 16, bits d 1 0 = 0⟩

/-- A row slot of a tile register. -/
def Core.tile (c : Core) (t r : Nat) : TileRow := tabGet {} c.tiles (t * 64 + r)

/-- Bytes 0 to w − 1 of a row slot (R57). -/
def TileRow.bytes (x : TileRow) (w : Nat) : List Byte := slice x.data 0 w

/-- A read of w bytes verifies the check of each half-row that it reads (R72). -/
def TileRow.good (x : TileRow) (w : Nat) : Bool := x.syn0 = 0 && (w ≤ 64 || x.syn1 = 0)

/-- Failed half-row checks of a read of w bytes. -/
def TileRow.fails (x : TileRow) (w : Nat) : Nat := b2n (x.syn0 ≠ 0) + (if w ≤ 64 then 0 else b2n (x.syn1 ≠ 0))

/-- A latch no longer serves a register that a write reached (R65). -/
def Latch.drop (t : Nat) (l : Option Latch) : Option Latch :=
  match l with
  | some x => if (tdesc x.desc).treg = t then none else some x
  | none => none

/-- Write one row slot whole (R57, R68). -/
def putRow (n t r : Nat) (x : TileRow) : M s0 Unit :=
  modCore n fun c => { c with
    tiles := tabSet c.tiles (t * 64 + r) x, latch0 := Latch.drop t c.latch0, latch1 := Latch.drop t c.latch1 }

/-- A TILE_CHECK record of a command, which poisons the parcel (R72, R183). -/
def tileCheck (n c tag ticket t r : Nat) : M s0 Unit := do
  cmdRec .tileCheck c n tag ticket (toLe t 1 ++ toLe r 1)
  poisonParcel n

/-- Read a row slot of w bytes, verified: a failed check is counted and recorded (R72). Answers the bytes and whether the
check held. -/
def readRow (n c tag ticket t r w : Nat) : M s0 (List Byte × Bool) := do
  let s ← rd
  let x := (s.core n).tile t r
  if x.good w then pure (x.bytes w, true)
  else
    bumpReg Fd.tileEccUncorr n (x.fails w)
    tileCheck n c tag ticket t r
    pure (x.bytes w, false)

/-- A tile row whose lower or upper half-row fails its check from now on. -/
def TileRow.upset (x : TileRow) (upper : Bool) : TileRow :=
  if upper then { x with syn1 := mark true x.syn1 } else { x with syn0 := mark true x.syn0 }

/-- The upsets that the reads of a command meet (R72, R228): a corrected one is counted; an uncorrectable one stays in the
array, whose check then fails. -/
def applyUpsets (n c : Nat) (ph : Phys) : M s0 Unit :=
  each ph.upsets fun u => do
    let s ← rd
    if u.corrected then
      bumpReg (if u.unit < 32 then Fd.tileEccCorr else Fd.spEccCorr) n
      countCe
    else if u.unit < 32 then
      modCore n fun k => { k with
        tiles := tabSet k.tiles (u.unit * 64 + u.row) ((s.core n).tile u.unit u.row |>.upset u.upper) }
    else
      let g := s.spGran n c (64 * u.row)
      spPut n c (64 * u.row) { g with syn := mark true g.syn }

/-- An SH write that met a WR write of the same row slot in one cycle is discarded: record, and the SH command's token is
poisoned (Table 3-4). -/
def collided (ph : Phys) (t r : Nat) : Option Meet := ph.meets.find? fun m => m.treg = t && m.row = r

/-- The record of a collision: the header carries the tag of the SH command, whose write is lost, and DATA both tags, SH
before WR (assumption log 104). -/
def collisionRec (n c tag ticket : Nat) (m : Meet) : M s0 Unit := do
  setReg Fd.tileCollideShTag n tag
  setReg Fd.tileCollideWrTag n m.wrTag.toNat
  cmdRec .tileCollision c n tag ticket (toLe tag 2 ++ toLe m.wrTag.toNat 2)
  poisonParcel n

/-- Write a row slot through SH for an issued command; answers whether it was kept. -/
def shWrite (i : Issued) (t r : Nat) (x : TileRow) : M s0 Bool :=
  match collided i.ph t r with
  | some m => do
    collisionRec i.core i.ctx i.tag i.ticket m
    pure false
  | none => do
    putRow i.core t r x
    pure true

/-- A half-row of a tile load: where it is exactly one whole source granule its check is carried across, else it is computed
(R72); poisoned data are marked. -/
def loadHalf (gs : List GranS) (whole : Bool) (h : Nat) (poison : Bool) : Nat :=
  match whole, gs[h]? with
  | true, some g => mark poison g.syn
  | _, _ => mark poison 0

/-! ### TLD and TST -/

/-- The tile operand of a TX command. -/
def txTile (w : Cmd) : TDesc := tdesc (cf w 95 80)

def txStride (w : Cmd) : Nat := if cf w 55 40 = 0 then (txTile w).width else cf w 55 40

/-- Registers and rows of a TLD or TST in transfer order. -/
def txRows (w : Cmd) : List (Nat × Nat) :=
  (List.range (cf w 39 38 + 1)).flatMap fun k => (List.range (txTile w).rows).map fun j => (k, j)

/-- Partition offset of a row (R202). -/
def txAddr (w : Cmd) (k j : Nat) : Nat := cf w 79 56 + (k * (txTile w).rows + j) * txStride w

/-- Skip reasons of the TX commands (R58, Table 8-10, Table 8-13). -/
def txReason (n : Nat) (s : State) (r : Running) (h : Head) : Option Nat :=
  let w := h.cmd
  let d := txTile w
  if opcodeOf w = 0x32 then
    if cf w 76 32 ≠ 0 then some 0x01
    else if !d.ok then some 0x02
    else if !bit r.wadis (cf w 79 77) then some 0x06
    else none
  else
    let last := txAddr w (cf w 39 38) (d.rows - 1) + d.width
    if cf w 37 32 ≠ 0 then some 0x01
    else if !d.ok || cf w 79 56 % 16 ≠ 0 || cf w 55 40 % 16 ≠ 0 || d.treg + cf w 39 38 > 31
        || last > s.partSize n r.parcel.ctx
        || (opcodeOf w = 0x31 && cf w 55 40 ≠ 0 && cf w 55 40 < d.width) then some 0x02
    else none

/-- A TX command has no issue condition beyond those of R172: its queue stands still behind a tile load that has not finished
(Core.stalled, R73). -/
def txBusy (_ : State) (_ : Running) (_ : Head) : Bool := false

/-- The granules of a partition that bytes o to o + len − 1 touch. -/
def State.spGrans (s : State) (n c o len : Nat) : List GranS :=
  (List.range ((o % 64 + len + 63) / 64)).map fun i => s.spGran n c (o / 64 * 64 + 64 * i)

/-- Load the rows of a TLD in order; from a failed check on, the rows are marked (R72, R182, R219), and a row lost in a
collision poisons the tokens alone (Table 3-4). Answers whether the tokens are poisoned. -/
def tldRows (i : Issued) : List (Nat × Nat) → Bool → Bool → M s0 Bool
  | [], p, lost => pure (p || lost)
  | (k, j) :: l, p, lost => do
    let s ← rd
    let d := txTile i.cmd
    let a := txAddr i.cmd k j
    let gs := s.spGrans i.core i.ctx a d.width
    let bad := gs.any fun g => g.syn ≠ 0
    if bad then
      countBadReads i.core i.ctx a d.width
      tileCheck i.core i.ctx i.tag i.ticket (d.treg + k) j
    let p := p || bad
    let al := a % 64 = 0
    let row : TileRow := { data := s.spRead i.core i.ctx a d.width,
                           syn0 := loadHalf gs (al && 64 ≤ d.width) 0 p,
                           syn1 := loadHalf gs (al && 128 ≤ d.width) 1 p }
    let kept ← shWrite i (d.treg + k) j row
    tldRows i l p (lost || !kept)

/-- SH cycles lost and bank conflicts of an issued command (R62, R225). -/
def countConflicts (i : Issued) : M s0 Unit :=
  if i.ph.bankLoss ≠ 0 then bumpReg Fd.spConflictLocal i.core i.ph.bankLoss else pure ()

/-- TLD: n tiles from the partition into consecutive tile registers (R202). -/
def execTld (core : Fin 32) (ph : Phys) (s : State) : Out :=
  run s (issueWith core .tx [0x30] ph (txReason core) txBusy fun i => do
    applyUpsets i.core i.ctx ph
    countConflicts i
    let p ← tldRows i (txRows i.cmd) i.poison false
    i.push p)

/-- Store the rows of a TST in order (R203). -/
def tstRows (i : Issued) : List (Nat × Nat) → Bool → M s0 Bool
  | [], p => pure p
  | (k, j) :: l, p => do
    let d := txTile i.cmd
    let (b, ok) ← readRow i.core i.ctx i.tag i.ticket (d.treg + k) j d.width
    let p := p || !ok
    let merged ← spWrite i.core i.ctx (txAddr i.cmd k j) b p
    if !merged then tileCheck i.core i.ctx i.tag i.ticket (d.treg + k) j
    tstRows i l (p || !merged)

/-- TST: n tiles from consecutive tile registers into the partition (R202, R203). -/
def execTst (core : Fin 32) (ph : Phys) (s : State) : Out :=
  run s (issueWith core .tx [0x31] ph (txReason core) txBusy fun i => do
    applyUpsets i.core i.ctx ph
    countConflicts i
    let p ← tstRows i (txRows i.cmd) i.poison
    i.push p)

/-! ### TLDW -/

/-- The row slot that a wadi entry gives a load of width w (R204). -/
def entryRow (e : WadiEnt) (w : Nat) (p : Bool) : TileRow :=
  let d := (e.grans.map (·.data)).flatten.take w
  { data := slice d 0 w, syn0 := loadHalf e.grans (64 ≤ w) 0 p, syn1 := loadHalf e.grans (128 ≤ w) 1 p }

/-- Commit the rows of core n's tile load while the heads of its wadi are present, and push its tokens after the last
(R204, R73, R74). -/
def loadRows (n : Nat) (ph : Phys) : Nat → M s0 Unit
  | 0 => pure ()
  | k + 1 => do
    let s ← rd
    let c := s.core n
    match c.load with
    | none => pure ()
    | some l =>
      let d := txTile l.cmd
      let w := cf l.cmd 79 77
      let tag := tagOf l.cmd
      match l.parked, c.wadi w with
      | none, e :: es =>
        if e.present then
          let p := l.poison || e.bad
          if e.bad then tileCheck n c.runCtx tag l.ticket d.treg l.row
          modCore n fun c => { c with wadis := tabSet c.wadis w es }
          testDx n
          match collided ph d.treg l.row with
          | some m => collisionRec n c.runCtx tag l.ticket m
          | none => putRow n d.treg l.row (entryRow e d.width p)
          let lost := l.lost || (collided ph d.treg l.row).isSome
          if l.row + 1 = d.rows then
            modCore n fun c => { c with load := none }
            setReg Fd.tileResumePending n 0
            pushTokens n .tx l.cmd l.ticket l.outs (p || lost) (some ph.cyc)
          else
            modCore n fun c => { c with load := some { l with row := l.row + 1, poison := p, lost := lost } }
            loadRows n ph k
      | _, _ => pure ()

/-- TLDW: one register from a wadi, one entry per row (R204). -/
def execTldw (core : Fin 32) (ph : Phys) (s : State) : Out :=
  run s (issueWith core .tx [0x32] ph (txReason core) txBusy fun i => do
    applyUpsets i.core i.ctx ph
    modCore i.core fun c => { c with
      load := some { cmd := i.cmd, ticket := i.ticket, outs := i.outs, poison := i.poison, row := 0 } }
    loadRows i.core ph 64)

/-- The head of the wadi that a load takes from. -/
def Core.loadHead (c : Core) (l : Load) : Option WadiEnt := (c.wadi (cf l.cmd 79 77)).head?

/-- A load waits on an entry that has not arrived. -/
def Core.loadWaits (c : Core) (l : Load) : Bool :=
  match c.loadHead l with
  | some e => !e.present
  | none => true

/-- A load waits on an entry that holds a translation miss. -/
def Core.loadMissed (c : Core) (l : Load) : Bool :=
  match c.loadHead l with
  | some e => e.status = .xmiss && !e.present
  | none => false

/-- TILE_LOAD_PARK: a tile load parks on a translation miss at its wadi's head, or while it waits with a halt pending
(R73). -/
def execTileLoadPark (core : Fin 32) (cause : ParkCause) (s : State) : Out :=
  let c := s.core core
  match c.load with
  | none => .next s
  | some l =>
    let may := l.parked.isNone && match cause with
      | .xmiss => c.loadMissed l
      | .interrupt => c.loadWaits l && s.haltPending core
    runIf (s.alive && may) s do
      let d := txTile l.cmd
      let w := cf l.cmd 79 77
      setReg Fd.tileResumeTag core (tagOf l.cmd)
      setReg Fd.tileResumeTreg core d.treg
      setReg Fd.tileResumeStartRow core l.row
      setReg Fd.tileResumeWadi core w
      setReg Fd.tileResumePending core 1
      modCore core fun c => { c with load := some { l with parked := some cause } }
      if cause = .xmiss then
        cmdRec .tileXmiss c.runCtx core (tagOf l.cmd) l.ticket
          (toLe d.treg 1 ++ toLe w 1 ++ toLe l.row 1 ++ toLe (match c.loadHead l with | some e => e.addr | none => 0) 8)

/-- TILE_LOAD_RESUME: a parked load goes on at START_ROW once its rows can arrive again, or the core is released (R74); while
a halt is in force or pending it stays parked (Table 3-6). -/
def execTileLoadResume (core : Fin 32) (ph : Phys) (s : State) : Out :=
  let c := s.core core
  match c.load with
  | none => .next s
  | some l =>
    let may := match l.parked with
      | some .xmiss => !c.loadMissed l && !s.halted core && !s.haltPending core
      | some .interrupt => !bit s.dbg.wanted core && !s.halted core
      | none => false
    runIf (s.alive && may) s do
      modCore core fun c => { c with load := some { l with parked := none } }
      loadRows core ph 64

/-! ### Debug capture -/

/-- The check of a captured row: a read through SH, whose failures are counted and recorded, with tag 0 as no command reads
(R72; assumption log 105). -/
def captureCheck (n t row : Nat) : M s0 Unit := do
  let s ← rd
  let x := (s.core n).tile t row
  if !x.good 128 then
    bumpReg Fd.tileEccUncorr n (x.fails 128)
    match (s.core n).ctx with
    | some c => ctxRec .tileCheck c n 0 (toLe t 1 ++ toLe row 1)
    | none => platRec .tileCheck n 0 (toLe t 1 ++ toLe row 1)

/-- TILE_DBG_CAPTURE_DONE: the requested row is read, verified, and copied into the debug buffer, row-atomically (R63, R72,
R78). A capture that GO has granted completes even where the consent or the core's assignment has ended since (assumption
log 105). -/
def execTileDbgCaptureDone (done : CaptureEnd) (s : State) : Out :=
  let core := done.core
  match (s.core core).capture with
  | none => .next s
  | some (t, row) => runIf s.alive s do
    applyUpsets core 0 { upsets := done.ph.upsets.filter fun u => u.unit = t && u.row = row }
    captureCheck core t row
    modCore core fun c => { c with capture := none, capBuf := slice (c.tile t row).data 0 128 }
    setReg Fd.tileDbgCtrlDone core 1

end Sys2Proof.Machine
end

