-- ==== Sys2Proof/Machine/Dx.lean ====
section
/-! DEFINITION. The DX commands but LSEND (R205 to R212), DMA chains (R237 to R241), the M-cache (R242, R243), and the far
replies, acknowledgements and notices that reach a core (R234, R235, R255 to R257). -/

namespace Sys2Proof.Machine

variable {s0 : State}

/-! ### DMA descriptors (Tables 9-4, 9-5) -/

/-- The descriptor in 64 bytes; the Bool says that every reserved field is zero and SKF is not 3. -/
def dmaDesc (b : List Byte) : DmaDesc × Bool :=
  let f := leAt b 32 1
  ({ src := leAt b 0 8, dst := leAt b 8 8, len := leAt b 16 3, nrows := leAt b 20 2, sstride := s32 (leAt b 24 4),
     dstride := s32 (leAt b 28 4), more := bit f 7, skf := bits f 4 3, skew := bit f 2, dglobal := bit f 1,
     sglobal := bit f 0, ncu := leAt b 33 1 },
   leAt b 19 1 = 0 && leAt b 22 2 = 0 && bits f 6 5 = 0 && bits f 4 3 ≠ 3 && leAt b 34 30 = 0)

/-- A core-side distance counted in memory bytes (R320). -/
def memBytes (ncu : Nat) (x : Int) : Int := if ncu = 0 then x else x / (ncuCore ncu : Nat) * (ncuMem ncu : Nat)

/-- Source and destination of row r: a partition offset, or a global address before it wraps. -/
def DmaDesc.srcAt (d : DmaDesc) (r : Nat) : Int := (d.src : Int) + r * (if d.sglobal then memBytes d.ncu d.sstride else d.sstride)
def DmaDesc.dstAt (d : DmaDesc) (r : Nat) : Int := (d.dst : Int) + r * (if d.dglobal then memBytes d.ncu d.dstride else d.dstride)

/-- len bytes at a partition offset lie in a partition of `size` bytes. -/
def inPart (size : Nat) (o : Int) (len : Nat) : Bool := 0 ≤ o && o + len ≤ (size : Int)

/-- Bytes that a pre-skewed stream fills: nrows + 120 beats (R240). -/
def DmaDesc.skewBytes (d : DmaDesc) : Nat := (d.nrows + 120) * 64

/-- Alignment of one side: multiples of 64 on a global side, 16 on a partition side, whose offset has 24 bits. -/
def sideOk (isGlobal : Bool) (a len : Nat) (stride : Int) : Bool :=
  if isGlobal then a % 64 = 0 && len % 64 = 0 && stride % 64 = 0
  else a < 2 ^ 24 && a % 16 = 0 && len % 16 = 0 && stride % 16 = 0

/-- The NCU byte of a descriptor fits its direction and sizes (R318, R320). -/
def DmaDesc.ncuFits (d : DmaDesc) : Bool :=
  d.ncu = 0 || ((d.dglobal || d.sglobal) && ncuOk d.ncu && (ncuWrites d.ncu == d.dglobal) && d.len % ncuCore d.ncu = 0
    && (if d.dglobal then d.dstride else d.sstride) % (ncuCore d.ncu : Nat) = 0)

/-- Row r lies where Table 9-5 allows. -/
def State.rowOk (s : State) (n c : Nat) (d : DmaDesc) (r : Nat) : Bool :=
  let size := s.partSize n c
  let glen := (memBytes d.ncu d.len).toNat
  (if d.sglobal then s.inWindows c (wrap64 (d.srcAt r)) glen else inPart size (d.srcAt r) d.len) &&
  (if d.dglobal then
     s.inWindows c (wrap64 (d.dstAt r)) glen
       || (d.ncu = 0 && Config.spaBase ≤ wrap64 (d.dstAt r) && wrap64 (d.dstAt r) + d.len ≤ Config.spaBase + 2 ^ 31)
   else d.skew || inPart size (d.dstAt r) d.len)

/-- The SKEW row of Table 9-5. -/
def DmaDesc.skewOk (d : DmaDesc) : Bool :=
  !d.skew || (!d.sglobal && !d.dglobal && d.len = 64 / 2 ^ d.skf && 1 ≤ d.nrows && d.nrows ≤ 128 && d.dstride = 0)

/-- A descriptor breaks no row of Table 9-5 but those of its chain. -/
def State.dmaOk (s : State) (n c : Nat) (d : DmaDesc) : Bool :=
  d.len ≤ 3145728 && !(d.sglobal && d.dglobal) && d.ncuFits
    && sideOk d.sglobal d.src d.len d.sstride && sideOk d.dglobal d.dst d.len d.dstride
    && d.skewOk && (!d.skew || inPart (s.partSize n c) d.dst d.skewBytes)
    && (d.len = 0 || (List.range d.nrows).all (s.rowOk n c d))

/-- The chain at a partition offset; none where it is illegal. The fuel is the eight descriptors that a chain may have. -/
def State.chainAt (s : State) (n c : Nat) : Nat → Nat → Option (List DmaDesc)
  | 0, _ => none
  | k + 1, o =>
    if s.partSize n c < o + 64 then none
    else
      let (d, ok) := dmaDesc (s.spRead n c o 64)
      if !(ok && s.dmaOk n c d) then none
      else if d.more then (s.chainAt n c k (o + 64)).map (d :: ·)
      else some [d]

/-! ### Moving a descriptor's data (R240) -/

/-- One write of a local move: where, and the source pieces in order, zeros where a piece has no source. -/
structure MoveOp where
  dst  : Nat
  srcs : List (Option Nat × Nat)

/-- len source bytes from o, cut at bank rows. -/
def srcPieces : Nat → Nat → Nat → List (Option Nat × Nat)
  | 0, _, _ => []
  | k + 1, o, len =>
    if len = 0 then []
    else
      let m := min len (64 - o % 64)
      (some o, m) :: srcPieces k (o + m) (len - m)

/-- A row copy, cut at bank rows of the destination. -/
def rowOps : Nat → Nat → Nat → Nat → List MoveOp
  | 0, _, _, _ => []
  | k + 1, o, d, len =>
    if len = 0 then []
    else
      let m := min len (64 - d % 64)
      ⟨d, srcPieces 3 o m⟩ :: rowOps k (o + m) (d + m) (len - m)

/-- The writes of a local descriptor in order. -/
def DmaDesc.ops (d : DmaDesc) : List MoveOp :=
  if d.skew then
    (List.range (d.nrows + 120)).map fun j =>
      ⟨d.dst + 64 * j, (List.range 16).map fun g =>
        if 8 * g ≤ j && j - 8 * g < d.nrows then
          (some ((d.srcAt (j - 8 * g)).toNat + 4 * g % d.len), 4)
        else (none, 4)⟩
  else
    (List.range d.nrows).flatMap fun r => rowOps (d.len / 16 + 2) (d.srcAt r).toNat (d.dstAt r).toNat d.len

/-- The bytes of one write, from the partition as it stands or, by a free choice per piece, as it stood in `old`; and
whether every source granule was good. -/
def moveRead (n c : Nat) (old : Option State) : List (Option Nat × Nat) → M s0 (List Byte × Bool)
  | [] => pure ([], true)
  | (src, len) :: l => do
    let s ← rd
    let before ← match old, src with
      | some _, some _ => freshBit
      | _, _ => pure false
    let t := if before then old.getD s else s
    let (rest, ok) ← moveRead n c old l
    match src with
    | some o => pure (t.spRead n c o len ++ rest, t.spGood n c o len && ok)
    | none => pure (zeros len ++ rest, ok)

/-- Carry out writes in order; answers whether a source check or a merge failed. -/
def moveOps (n c : Nat) (poison : Bool) (old : Option State) : List MoveOp → M s0 Bool
  | [] => pure false
  | m :: l => do
    let (v, ok) ← moveRead n c old m.srcs
    let merged ← spWrite n c m.dst v (poison || !ok)
    let rest ← moveOps n c poison old l
    pure (!ok || !merged || rest)

/-- Where source and destination overlap a destination byte may hold the new source byte as well: each write may be made
again from what the move left. -/
def moveAgain (n c : Nat) (poison : Bool) (post : State) (l : List MoveOp) : M s0 Unit :=
  each l fun m => do
    let again ← freshBit
    let v := (m.srcs.map fun p => match p.1 with | some o => post.spRead n c o p.2 | none => zeros p.2).flatten
    let ok := m.srcs.all fun p => match p.1 with | some o => post.spGood n c o p.2 | none => true
    let s ← rd
    if again && s.spRead n c m.dst v.length ≠ v then
      let _ ← spWrite n c m.dst v (poison || !ok)
      pure ()

/-- Two extents of a descriptor overlap. -/
def DmaDesc.overlaps (d : DmaDesc) : Bool :=
  let rows := List.range d.nrows
  if d.skew then
    rows.any fun r => d.srcAt r < (d.dst + d.skewBytes : Nat) && (d.dst : Int) < d.srcAt r + d.len
  else
    let lo (f : Nat → Int) := min (f 0) (f (d.nrows - 1))
    let hi (f : Nat → Int) := max (f 0) (f (d.nrows - 1)) + d.len
    lo d.srcAt < hi d.dstAt && lo d.dstAt < hi d.srcAt

/-- Partition to partition (R240). Answers whether a check failed. -/
def moveLocal (n c : Nat) (poison : Bool) (d : DmaDesc) : M s0 Bool := do
  let s ← rd
  each (List.range d.nrows) fun r => countBadReads n c (d.srcAt r).toNat d.len
  let bad ← moveOps n c poison (if d.overlaps then some s else none) d.ops
  if d.overlaps then
    let t ← rd
    moveAgain n c poison t d.ops
  pure bad

/-- A granule of 64 partition bytes on its way out: the source granule's check carried where it is exactly one, else a new
one; marked where poisoned (R229, R240). -/
def outGran (s : State) (n c o : Nat) (poison : Bool) : GranS :=
  if o % 64 = 0 then
    let g := s.spGran n c o
    { g with syn := mark poison g.syn }
  else ⟨s.spRead n c o 64, mark (poison || !s.spGood n c o 64) 0⟩

/-- Send one packet of channel ch, with what of the partition it takes. Answers whether a source check failed. -/
def dmaSend (n ch tag ctx : Nat) (poison : Bool) (addr ncu place o ngr : Nat) : M s0 Bool := do
  let s ← rd
  let c := s.core n
  let gs := (List.range ngr).map fun i => outGran s n ctx (o + 64 * i) poison
  modCore n fun c => { c with nextId := c.nextId + 1 }
  if !(c.outW.length < 512 && c.injectQ.isEmpty) then
    modCore n fun c => { c with
      dmas := tabSet c.dmas ch ((tabGet none c.dmas ch).map fun x => { x with unsent := x.unsent + 1 }) }
  sendPkt n { id := c.nextId, tag := tag, ctx := ctx, ch := ch, addr := addr, ncu := ncu, place := place, grans := gs }
  countBadReads n ctx o (64 * ngr)
  pure (!s.spGood n ctx o (64 * ngr))

/-- Packets of a row to the global space, in ascending address: address, NCU place, partition offset, granules (R241,
R320). -/
def DmaDesc.packets (d : DmaDesc) (r : Nat) : List (Nat × Nat × Nat × Nat) :=
  let a := wrap64 (d.dstAt r)
  let o := (d.srcAt r).toNat
  if d.ncu = 0 then (runsOf (d.len / 64) a (d.len / 64)).map fun p => (p.1, 0, o + (p.1 - a), p.2)
  else
    (List.range (d.len / ncuCore d.ncu)).flatMap fun g =>
      (List.range (ncuCore d.ncu / 512)).map fun j =>
        ((a + g * ncuMem d.ncu) % gmSize, 512 * j, o + g * ncuCore d.ncu + 512 * j, 8)

def sendAll (n ch tag ctx : Nat) (poison : Bool) (ncu : Nat) : List (Nat × Nat × Nat × Nat) → M s0 Bool
  | [] => pure false
  | (a, place, o, k) :: l => do
    let b ← dmaSend n ch tag ctx poison a ncu place o k
    let r ← sendAll n ch tag ctx poison ncu l
    pure (b || r)

/-- The global reads of a row, in ascending address. -/
def DmaDesc.reads (d : DmaDesc) (r : Nat) : List DmaRead :=
  let a := wrap64 (d.srcAt r)
  let o := (d.dstAt r).toNat
  if d.ncu = 0 then
    (runsOf (d.len / 64) a (d.len / 64)).map fun p =>
      { rid := 0, addr := p.1, len := 64 * p.2, dst := o + (p.1 - a), ncu := 0 }
  else
    (List.range (d.len / ncuCore d.ncu)).map fun g =>
      { rid := 0, addr := (a + g * ncuMem d.ncu) % gmSize, len := ncuCore d.ncu, dst := o + g * ncuCore d.ncu, ncu := d.ncu }

/-! ### Running a chain -/

def Core.dma (c : Core) (ch : Nat) : Option Dma := tabGet none c.dmas ch

def modDma (n ch : Nat) (g : Dma → Dma) : M s0 Unit :=
  modCore n fun c => { c with dmas := tabSet c.dmas ch ((c.dma ch).map g) }

/-- A check of a channel's chain failed: its token will be poisoned, and DMA_CH_STATUS says so (R250). -/
def dmaBad (n ch : Nat) : M s0 Unit := do
  modDma n ch fun x => { x with bad := true }
  setReg Fd.dmaChStatusPoisoned (n * 16 + ch) 1

/-- An error reply on a channel, by the code of DMA_CH_ERR.LAST: 1 error, 2 TARGET_RESET, 3 translation limit, 4 refusal
(R250). -/
def dmaErr (n ch code : Nat) : M s0 Unit := do
  bumpReg Fd.dmaChErrErrs (n * 16 + ch)
  setReg Fd.dmaChErrLast (n * 16 + ch) code

/-- Send reads of a channel while fewer than 32 are outstanding (R241). -/
def dmaPump (n ch : Nat) : Nat → M s0 Unit
  | 0 => pure ()
  | k + 1 => do
    let s ← rd
    let c := s.core n
    match c.dma ch with
    | none => pure ()
    | some x =>
      match x.toSend with
      | r :: l =>
        if x.out.length < 32 then
          modCore n fun c => { c with nextId := c.nextId + 1 }
          modDma n ch fun x => { x with toSend := l, out := x.out ++ [{ r with rid := c.nextId }] }
          sendRead n c.nextId c.runCtx r.addr (r.len / 64) r.ncu
          dmaPump n ch k
      | [] => pure ()

/-- Begin one descriptor: local moves and packets are done at once, reads are sent. -/
def dmaBegin (n ch : Nat) (x : Dma) (d : DmaDesc) : M s0 Unit := do
  let s ← rd
  let c := (s.core n).runCtx
  if d.len ≠ 0 && d.nrows ≠ 0 then
    if d.sglobal then
      modDma n ch fun x => { x with toSend := (List.range d.nrows).flatMap d.reads }
      dmaPump n ch 32
    else
      let bad ← if d.dglobal then
          sendAll n ch (tagOf x.cmd) c x.poison d.ncu ((List.range d.nrows).flatMap d.packets)
        else moveLocal n c x.poison d
      bumpReg Fd.dmaChBytesBytes (n * 16 + ch) (d.len * d.nrows)
      if bad then dmaBad n ch

/-- The descriptor begun last has nothing left to send, to receive or to inject. -/
def Dma.settled (x : Dma) : Bool := x.toSend.isEmpty && x.out.isEmpty && x.unsent = 0

/-- Go on with a chain, descriptor by descriptor. -/
def dmaRun (n ch : Nat) : Nat → M s0 Unit
  | 0 => pure ()
  | k + 1 => do
    let s ← rd
    match (s.core n).dma ch with
    | none => pure ()
    | some x =>
      match x.settled, x.descs with
      | true, d :: l =>
        modDma n ch fun x => { x with descs := l, begun := x.begun + 1 }
        setReg Fd.dmaChStatusDidx (n * 16 + ch) x.begun
        dmaBegin n ch x d
        dmaRun n ch k
      | _, _ => pure ()

/-- The reply to a read of a chain is written into the partition; a failed granule is marked and the token will be poisoned
(R240, R241); `expired` says that its translation limit ended it. -/
def dmaReply (n ch : Nat) (r : DmaRead) (st : FarStatus) (gs : List GranS) (expired : Bool := false) : M s0 Unit := do
  let s ← rd
  let c := (s.core n).runCtx
  modDma n ch fun x => { x with out := x.out.filter (·.rid ≠ r.rid) }
  match (s.core n).dma ch with
  | none => pure ()
  | some x =>
    each (List.range (r.len / 64)) fun i => do
      let g := gs.getD i ⟨zeros 64, markSyn⟩
      let bad := st != .ok || g.syn ≠ 0
      let merged ← spWrite n c (r.dst + 64 * i) (slice g.data 0 64) (bad || x.poison)
      if bad || !merged then dmaBad n ch
    bumpReg Fd.dmaChBytesBytes (n * 16 + ch) r.len
    if st != .ok then dmaErr n ch (if expired then 3 else if st = .targetReset then 2 else 1)
    dmaPump n ch 32
    dmaRun n ch 9

/-! ### Legality of the DX commands (Tables 8-11, 8-13) -/

/-- The 8-byte pointer at a partition offset. -/
def State.pointer (s : State) (n c o : Nat) : Nat := leNat (s.spRead n c o 8)

/-- The line that an MRD reads (R210). -/
def State.mrdLine (s : State) (n c : Nat) (w : Cmd) : Nat := (s.pointer n c (cf w 63 40) + 64 * cf w 39 32) % gmSize

/-- Reserved bits of a DX command. -/
def dxReserved (w : Cmd) : Nat :=
  match opcodeOf w with
  | 0x40 => cf w 91 88 + cf w 63 32
  | 0x41 => cf w 92 88 + cf w 63 32
  | 0x42 => cf w 92 73 + cf w 63 32
  | 0x43 => cf w 92 88 + cf w 54 32
  | 0x44 => cf w 95 88
  | 0x45 => cf w 95 88 + cf w 47 32
  | 0x46 => cf w 91 80
  | _ => cf w 93 88 + cf w 63 32

/-- The operands of a DX command break Table 8-13. -/
def State.dxIllegal (s : State) (n c : Nat) (r : Running) (w : Cmd) : Bool :=
  let size := s.partSize n c
  let desc := cf w 87 64
  let descOut := desc % 64 ≠ 0 || size < desc + 64
  match opcodeOf w with
  | 0x40 => descOut || (s.chainAt n c 8 desc).isNone
  | 0x41 => descOut || !s.postOk c (postDesc (s.spRead n c desc 64))
  | 0x42 => 256 < cf w 72 64
  | 0x43 => 256 < cf w 63 55 || desc % 128 ≠ 0 || size < desc + 128 * cf w 63 55
  | 0x44 =>
    cf w 63 40 % 8 ≠ 0 || size < cf w 63 40 + 8 || desc % 64 ≠ 0 || size < desc + 64
      || s.mrdLine n c w % 64 ≠ 0 || !s.inWindow c (s.mrdLine n c w) 64
  | 0x45 =>
    if cf w 96 96 = 1 then desc ≠ 0 || cf w 63 48 ≠ 0
    else desc % 8 ≠ 0 || size < desc + 8 || s.pointer n c desc % 64 ≠ 0
  | 0x46 => !bit r.oases (cf w 95 92)
  | _ => false

/-- Descriptor rows that the check of a chain at o reads: up to eight, to the end of the partition (R238). -/
def State.chainRows (s : State) (n c : Nat) : Nat → Nat → Nat
  | 0, _ => 0
  | k + 1, o =>
    if s.partSize n c < o + 64 then 0
    else if (dmaDesc (s.spRead n c o 64)).1.more then s.chainRows n c k (o + 64) + 1 else 1

/-- What a DX command reads of the partition as it issues, its descriptor or pointer: offsets and lengths (R228). -/
def State.dxReads (s : State) (n c : Nat) (w : Cmd) : List (Nat × Nat) :=
  let desc := cf w 87 64
  let at_ := fun (o len align : Nat) => if o % align = 0 && o + len ≤ s.partSize n c then [(o, len)] else []
  match opcodeOf w with
  | 0x40 => if desc % 64 = 0 then [(desc, 64 * s.chainRows n c 8 desc)] else []
  | 0x41 => at_ desc 64 64
  | 0x44 => at_ (cf w 63 40) 8 8
  | 0x45 => if cf w 96 96 = 1 then [] else at_ desc 8 8
  | 0x47 => at_ desc 64 64
  | _ => []

/-- Skip reasons of the DX commands but LSEND. -/
def dxReason (n : Nat) (s : State) (r : Running) (h : Head) : Option Nat :=
  if dxReserved h.cmd ≠ 0 then some 0x01
  else if s.dxIllegal n r.parcel.ctx r h.cmd then some 0x06 else none

/-- DMA holds while its channel runs; MRD while 8 misses are outstanding (R206, R210). -/
def dxBusy (n : Nat) (s : State) (_ : Running) (h : Head) : Bool :=
  match opcodeOf h.cmd with
  | 0x40 => ((s.core n).dma (cf h.cmd 95 92)).isSome
  | 0x44 => 8 ≤ (s.core n).mrds.length
  | _ => false

/-- What an illegal DX command has read of the partition is verified and counted (R228). -/
def dxSeen (n : Nat) (ph : Phys) (r : Running) (h : Head) : M s0 Unit := do
  applyUpsets n r.parcel.ctx ph
  let s ← rd
  each (s.dxReads n r.parcel.ctx h.cmd) fun p => countBadReads n r.parcel.ctx p.1 p.2

/-- Issue of a DX command. -/
def issueDx (n op : Nat) (ph : Phys) (body : Issued → M s0 Unit) : M s0 Unit :=
  issueWith n .dx [op] ph (dxReason n) (dxBusy n) (fun i => do
    applyUpsets i.core i.ctx ph
    countConflicts i
    body i) (dxSeen n ph)

/-! ### The commands -/

/-- A descriptor or pointer that a command reads is counted where its check fails; answers whether it is good. -/
def readDesc (i : Issued) (o len : Nat) : M s0 Bool := do
  let s ← rd
  countBadReads i.core i.ctx o len
  pure (s.spGood i.core i.ctx o len)

/-- DMA: starts the chain at DESC on channel CH (R206, R238, R240). -/
def execDma (core : Fin 32) (ph : Phys) (s : State) : Out :=
  run s (issueDx core 0x40 ph fun i => do
    let s ← rd
    let desc := cf i.cmd 87 64
    let ch := cf i.cmd 95 92
    let ds := (s.chainAt i.core i.ctx 8 desc).getD []
    let good ← readDesc i desc (64 * ds.length)
    modCore i.core fun c => { c with
      dmas := tabSet c.dmas ch (some { cmd := i.cmd, ticket := i.ticket, outs := i.outs, poison := i.poison || !good,
                                       descs := ds }) }
    let k := i.core * 16 + ch
    setReg Fd.dmaChStatusTag k (tagOf i.cmd)
    setReg Fd.dmaChStatusPoisoned k (b2n (i.poison || !good))
    setReg Fd.dmaChStatusDidx k 0
    setReg Fd.dmaChHeadDesc k desc
    setReg Fd.dmaChBytesBytes k 0
    dmaRun i.core ch 9)

/-- DMA_COMPLETE: the last descriptor of a chain is complete and its tokens are pushed (R205, R241). -/
def execDmaComplete (core : Fin 32) (ch : Fin 16) (s : State) : Out :=
  match (s.core core).dma ch with
  | none => .next s
  | some x => runIf (s.alive && x.settled && x.descs.isEmpty) s do
    modCore core fun c => { c with dmas := tabSet c.dmas ch none }
    bumpReg Fd.dmaChainsChains core
    pushTokens core .dx x.cmd x.ticket x.outs (x.poison || x.bad)

/-- WPOST: reserves entries and posts reads, or waits for room (R207, R232, R233). -/
def execWpost (core : Fin 32) (ph : Phys) (s : State) : Out :=
  run s (issueDx core 0x41 ph fun i => do
    let s ← rd
    let desc := cf i.cmd 87 64
    let good ← readDesc i desc 64
    let b := s.spRead i.core i.ctx desc 64
    let i := { i with poison := i.poison || !good }
    if (postDesc b).n = 0 then i.push i.poison
    else
      beginWait i (.wpost (cf i.cmd 95 93) (postDesc b).n b)
      testDx i.core
      loadRows i.core ph 64)

/-- WWAIT: until the N entries at the head of a wadi are present (R208). -/
def execWwait (core : Fin 32) (ph : Phys) (s : State) : Out :=
  run s (issueDx core 0x42 ph fun i => do
    beginWait i (.wwait (cf i.cmd 95 93) (cf i.cmd 72 64))
    testDx i.core)

/-- WMOV: moves N present entries into the partition and frees them (R209). -/
def execWmov (core : Fin 32) (ph : Phys) (s : State) : Out :=
  run s (issueDx core 0x43 ph fun i => do
    beginWait i (.wmov (cf i.cmd 95 93) (cf i.cmd 63 55) (cf i.cmd 87 64))
    testDx i.core)

/-- ARRW: until an oasis's counts reach their targets; with both fields 0 at once (R212, R248). -/
def execArrw (core : Fin 32) (ph : Phys) (s : State) : Out :=
  run s (issueDx core 0x46 ph fun i =>
    if cf i.cmd 63 32 = 0 && cf i.cmd 79 64 = 0 then i.push i.poison
    else do
      beginWait i (.arrw (cf i.cmd 95 92) (cf i.cmd 63 32) (cf i.cmd 79 64))
      testDx i.core)

/-! ### The M-cache (R242, R243) -/

/-- The line of the M-cache that serves a context. -/
def Core.line (c : Core) (ctx a : Nat) : Option McLine := c.mcache.find? fun l => l.addr = a && l.ctx = ctx

/-- Set of a line (R242). -/
def mcSet (a : Nat) : Nat := a / 64 % 256

/-- The least recently used line of a list. -/
def lruOf : List McLine → Option McLine
  | [] => none
  | l :: ls => match lruOf ls with
    | some m => if m.used < l.used then some m else some l
    | none => some l

/-- Install a line, in place of the least recently used of its set where the eight ways are taken. -/
def Core.install (c : Core) (a ctx : Nat) (g : GranS) : Core :=
  let old := c.mcache.filter fun l => !(l.addr = a && l.ctx = ctx)
  let set := old.filter fun l => mcSet l.addr = mcSet a
  let kept := match decide (8 ≤ set.length), lruOf set with
    | true, some m => old.erase m
    | _, _ => old
  { c with mcache := kept ++ [⟨a, ctx, g, c.mcUse⟩], mcUse := c.mcUse + 1 }

/-- Copy a line to its destination with its check, marked where poisoned (R210, R229). -/
def putLine (n c dst : Nat) (poison : Bool) (g : GranS) : M s0 Unit := spPut n c dst { g with syn := mark poison g.syn }

/-- MRD: one line through the M-cache; a miss is answered by MRD_FILL (R210, R242). -/
def execMrd (core : Fin 32) (ph : Phys) (s : State) : Out :=
  run s (issueDx core 0x44 ph fun i => do
    let s ← rd
    let n := i.core
    let good ← readDesc i (cf i.cmd 63 40) 8
    let a := s.mrdLine n i.ctx i.cmd
    let dst := cf i.cmd 87 64
    let miss := do
      bumpReg Fd.mcMissesMisses n
      let id := (s.core n).nextId
      modCore n fun c => { c with
        nextId := id + 1,
        mrds := c.mrds ++ [{ cmd := i.cmd, ticket := i.ticket, outs := i.outs, poison := i.poison || !good, rid := id,
                             line := a, dst := dst }] }
      sendRead n id i.ctx a 1 0
    match (s.core n).line i.ctx a with
    | some l =>
      if l.gran.syn = 0 then
        bumpReg Fd.mcHitsHits n
        modCore n fun c => { c with
          mcache := c.mcache.map (fun x => if x = l then { x with used := c.mcUse } else x), mcUse := c.mcUse + 1 }
        putLine n i.ctx dst (i.poison || !good) l.gran
        i.push (i.poison || !good)
      else
        bumpReg Fd.mcStatsRefetch n
        countCe
        modCore n fun c => { c with mcache := c.mcache.erase l }
        miss
    | none => miss)

/-- ACQ: invalidates lines of the core's context; fills under way for them will not be installed (R211, R243). -/
def execAcq (core : Fin 32) (ph : Phys) (s : State) : Out :=
  run s (issueDx core 0x45 ph fun i => do
    let s ← rd
    let every := cf i.cmd 96 96 = 1
    let good ← if every then pure true else readDesc i (cf i.cmd 87 64) 8
    let base := s.pointer i.core i.ctx (cf i.cmd 87 64)
    let covers := fun a : Nat => every || (a + gmSize - base) % gmSize < 64 * cf i.cmd 63 48
    modCore i.core fun c => { c with
      mcache := c.mcache.filter (fun l => !(l.ctx = i.ctx && covers l.addr)),
      mrds := c.mrds.map fun m => if covers m.line then { m with noFill := true } else m }
    bumpReg Fd.mcStatsAcqs i.core
    i.push (i.poison || !good))

/-- A missed line has come: it is installed where the reply is good and nothing forbids it, and copied to its destination
(R210, R243); a failed reply leaves a marked granule (R219). -/
def mrdDone (n : Nat) (m : Mrd) (st : FarStatus) (g : GranS) (cyc : Nat) : M s0 Unit := do
  let s ← rd
  let ctx := (s.core n).runCtx
  let g := failGran st g
  modCore n fun c =>
    let c := { c with mrds := c.mrds.filter (·.rid ≠ m.rid) }
    if st = .ok && !m.noFill then c.install m.line ctx g else c
  putLine n ctx m.dst m.poison g
  pushTokens n .dx m.cmd m.ticket m.outs (m.poison || g.syn ≠ 0) (some cyc)

/-! ### Replies at a core -/

/-- The MRD, and the channel and read of a chain, that a read number belongs to. -/
def Core.mrdOf (c : Core) (rid : Nat) : Option Mrd := c.mrds.find? (·.rid = rid)

def Core.dmaOf (c : Core) (rid : Nat) : Option (Nat × DmaRead) :=
  ((List.range 16).filterMap fun ch => (c.dma ch).bind fun x => (x.out.find? (·.rid = rid)).map fun r => (ch, r)).head?

/-- What a reply packet is to core n: 1 a fill of an MRD, 2 a translation miss that something waits on, 0 any other (a wadi
entry, a chain, or a reply that nothing waits for). -/
def State.replyKind (s : State) (n : Nat) (m : Msg) : Option Nat :=
  let c := s.core n
  match m.body with
  | .reply rid st _ =>
    if m.inc ≠ s.coreInc n then some 0
    else if st = .xmiss && ((c.mrdOf rid).isSome || (c.dmaOf rid).isSome || (c.wadiOf rid).isSome) then some 2
    else if (c.mrdOf rid).isSome then some 1 else some 0
  | _ => none

/-- The reply of a kind that may arrive next at core n, of each source its oldest packet (R21). -/
def State.nextReply (s : State) (n kind : Nat) : Option Msg :=
  (arrivals n (fun _ => true) s.msgs []).find? fun m => s.replyKind n m = some kind

/-- A read number has been answered: a read of an earlier parcel counts as late (R236). -/
def noteAnswer (n rid : Nat) : M s0 Unit := do
  let s ← rd
  if (s.core n).late.contains rid then bumpReg Fd.wadiDroppedLate n
  modCore n fun c => { c with wadiOut := c.wadiOut.erase rid, late := c.late.erase rid }

/-- WADI_REPLY: a far reply fills its wadi entry, or a chain's rows, or is dropped: as late, or as stale where it answers
an earlier incarnation of the core (R234, R236, R241, R403). -/
def execWadiReply (core : Fin 32) (ph : Phys) (s : State) : Out :=
  match s.nextReply core 0 with
  | none => .next s
  | some m => runIf s.alive s do
    takeMsg m
    match m.body with
    | .reply rid st gs =>
      if m.inc ≠ s.coreInc core then bumpReg Fd.staleReplies
      else
        noteAnswer core rid
        match (s.core core).wadiOf rid, (s.core core).dmaOf rid with
        | some w, _ =>
          modCore core fun c => { c with
            wadis := tabSet c.wadis w ((c.wadi w).map fun e =>
              if e.present then e else (e.take rid st gs).settle) }
          testDx core
          loadRows core ph 64
        | none, some (ch, r) => dmaReply core ch r st gs
        | none, none => pure ()
    | _ => pure ()

/-- WADI_XMISS_REPLY: a reply reports a translation miss, which the wadi, chain or MRD that waits for it holds (R235). -/
def execWadiXmissReply (core : Fin 32) (s : State) : Out :=
  match s.nextReply core 2 with
  | none => .next s
  | some m => runIf s.alive s do
    takeMsg m
    match m.body with
    | .reply rid _ gs =>
      noteAnswer core rid
      match (s.core core).wadiOf rid, (s.core core).dmaOf rid with
      | some w, _ => wadiMiss core w rid gs
      | none, some (ch, r) =>
        modDma core ch fun x => { x with
          out := x.out.map fun q => if q.rid = r.rid then { q with missAt := some s.tb.now, grans := gs } else q }
      | none, none =>
        modCore core fun c => { c with
          mrds := c.mrds.map fun q => if q.rid = rid then { q with missAt := some s.tb.now, gran := gs.head? } else q }
    | _ => pure ()

/-- MRD_FILL: a missed line arrives (R210, R243). -/
def execMrdFill (core : Fin 32) (ph : Phys) (s : State) : Out :=
  match s.nextReply core 1 with
  | none => .next s
  | some m => runIf s.alive s do
    takeMsg m
    match m.body with
    | .reply rid st gs =>
      match (s.core core).mrdOf rid with
      | some q => do
        applyUpsets core (s.core core).runCtx ph
        mrdDone core q st (gs.headD ⟨zeros 64, markSyn⟩) ph.cyc
      | none => pure ()
    | _ => pure ()

/-- A miss of a chain's read ends: it is sent again, or completes with an error reply, by its limit where `expired`. -/
def dmaMissEnds (n ch : Nat) (r : DmaRead) (resolved : Bool) (expired : Bool := false) : M s0 Unit := do
  let s ← rd
  if resolved then
    let id := (s.core n).nextId
    modCore n fun c => { c with nextId := id + 1 }
    modDma n ch fun x => { x with
      out := x.out.map fun q => if q.rid = r.rid then { q with rid := id, missAt := none, grans := [] } else q }
    sendRead n id (s.core n).runCtx r.addr (r.len / 64) r.ncu
  else dmaReply n ch r .error r.grans expired

/-- A miss of an MRD ends likewise. -/
def mrdMissEnds (n : Nat) (m : Mrd) (resolved : Bool) : M s0 Unit := do
  let s ← rd
  if resolved then
    let id := (s.core n).nextId
    modCore n fun c => { c with
      nextId := id + 1, mrds := c.mrds.map fun q => if q.rid = m.rid then { q with rid := id, missAt := none, gran := none } else q }
    sendRead n id (s.core n).runCtx m.line 1 0
  else mrdDone n m .error (m.gran.getD ⟨zeros 64, markSyn⟩) 0

/-- Grains that a translation miss may last on core n (Table 9-8). -/
def State.xmissLimit (s : State) (n : Nat) : Nat := 2 ^ max 8 (min 20 (s.reg Fd.wadiCtrlXmissExp n))

/-- The reads of a channel that wait for a translation. -/
def Core.dmaMisses (c : Core) (ch : Nat) : List DmaRead :=
  match c.dma ch with
  | some x => x.out.filter (·.missAt.isSome)
  | none => []

/-- XMISS_LIMIT: a translation miss has not been resolved within its limit (R235, step 4). -/
def execXmissLimit (core : Fin 32) (u : MissUnit) (ph : Phys) (s : State) : Out :=
  let c := s.core core
  let expired := fun g : Nat => elapsed s.tb.now g (s.xmissLimit core)
  match u with
  | .wadi w =>
    match c.missAt w with
    | some i =>
      runIf (s.alive && (match (c.wadi w)[i]? with | some e => expired e.missAt | none => false)) s do
        missEnds core w i false
        testDx core
        loadRows core ph 64
    | none => .next s
  | .dma ch =>
    match (c.dmaMisses ch).find? fun r => expired (r.missAt.getD 0) with
    | some r => runIf s.alive s (dmaMissEnds core ch r false true)
    | none => .next s
  | .mrd =>
    match c.mrds.find? fun m => match m.missAt with | some g => expired g | none => false with
    | some m => runIf s.alive s (mrdMissEnds core m false)
    | none => .next s

/-- A read of n memory bytes at a touches a 4096-byte page. -/
def touchesPage (page a n : Nat) : Bool := a < (page + 1) * 4096 && page * 4096 < a + n

/-- Memory bytes of a read of len core-side bytes. -/
def readBytes (ncu len : Nat) : Nat := if ncu = 0 then len else ncuMem ncu

/-- The misses of one core on a page end (R235, R316). -/
def resolveCore (n page : Nat) (ok : Bool) : M s0 Unit := do
  let s ← rd
  let c := s.core n
  each (List.range 8) fun w => do
    match c.missAt w with
    | some i =>
      if ((c.wadi w)[i]?.map fun e => touchesPage page e.missed (readBytes e.ncu e.len)).getD false then missEnds n w i ok
    | none => pure ()
  each (List.range 16) fun ch =>
    each ((c.dmaMisses ch).filter fun r => touchesPage page r.addr (readBytes r.ncu r.len)) fun r => dmaMissEnds n ch r ok
  each (c.mrds.filter fun m => m.missAt.isSome && touchesPage page m.line 64) fun m => mrdMissEnds n m ok
  testDx n
  loadRows n {} 64

/-- RESOLVE: the surroundings have settled the translation of a page for a context (R316): missed reads of the page are sent
again, or end in ERROR. -/
def execResolve (ctx : Fin 8) (page : BitVec 52) (failed : Bool) (s : State) : Out :=
  runIf s.alive s do
    bumpReg Fd.mpXmissResolves (stationOf (page.toNat * 4096))
    each ((List.range 32).filter fun n => (s.core n).run.isSome && (s.core n).runCtx = ctx.val) fun n =>
      resolveCore n page.toNat (!failed)

/-! ### Acknowledgements (R255 to R257) -/

/-- Let packets that waited at the limit enter the mesh (R255). -/
def injectWaiting (n : Nat) : Nat → M s0 Unit
  | 0 => pure ()
  | k + 1 => do
    let s ← rd
    let c := s.core n
    match c.injectQ with
    | p :: l =>
      if c.outW.length < 512 then
        modCore n fun c => { c with injectQ := l }
        injectPkt n p
        modDma n p.ch fun x => { x with unsent := x.unsent - 1 }
        dmaRun n p.ch 9
        injectWaiting n k
    | [] => pure ()

/-- An acknowledgement of packet id reaches core n, good where `code` is 0, else with the code of DMA_CH_ERR.LAST: release
holds that waited for it last leave, in order of issue, and a waiting packet enters the mesh. -/
def ackArrives (n id code : Nat) (holds : List Nat) (inj : Nat) : M s0 Unit := do
  let s ← rd
  let c := s.core n
  let err := decide (code ≠ 0)
  match c.outW.find? (·.id = id) with
  | none => pure ()
  | some w =>
    if err then
      if w.ch < 16 then dmaErr n w.ch code
      bumpReg Fd.ordAckErrErrs n
      setReg Fd.ordAckErrLastTag n w.tag
    let hit : SxFlight → SxFlight := fun f =>
      if f.waits.contains id then
        { f with waits := f.waits.erase id, errTag := if err && f.errTag.isNone then some w.tag else f.errTag }
      else f
    let ends := (c.sxOps.filter fun f => !f.left && f.waits = [id]).map hit
    modCore n fun c => { c with outW := c.outW.filter (·.id ≠ id), sxOps := c.sxOps.map hit }
    each (List.range ends.length) fun k =>
      match ends[k]? with
      | some f => do
        noteHold n (tagOf f.cmd) (holds.getD k 0)
        sxLeave n f
      | none => pure ()
    if !c.injectQ.isEmpty && inj ≠ 0 then bumpReg Fd.ordInjWaitCycles n inj
    injectWaiting n 1

def isAck : Body → Bool
  | .ack _ _ => true
  | _ => false

def isRefusal : Body → Bool
  | .refusal _ => true
  | _ => false

/-- WRITE_ACK: an acknowledgement of a global write packet returns to its core (R255, R256). `holds` gives the cycles of the
release holds that it ends, in order of issue, and `inj` the cycles in which a packet waited at the limit since the last
one. -/
def execWriteAck (core : Fin 32) (holds : List Nat) (inj : Nat) (s : State) : Out :=
  match s.arrival core isAck with
  | none => .next s
  | some m => runIf s.alive s do
    takeMsg m
    match m.body with
    | .ack id st =>
      if m.inc ≠ s.coreInc core then bumpReg Fd.staleReplies
      else ackArrives core id (if st = 3 then 4 else st) holds inj
    | _ => pure ()

/-- REFUSAL_NOTICE: a refusal reaches the sending core, which writes WRITE_REFUSED with the tag of the write; it counts as
an acknowledgement with error, and ends holds and waits as one does (R247, R255, R256). -/
def execRefusalNotice (notice : NoticeIn) (s : State) : Out :=
  let core := notice.core
  match s.arrival core isRefusal with
  | none => .next s
  | some m => runIf s.alive s do
    takeMsg m
    match m.body with
    | .refusal id =>
      if m.inc ≠ s.coreInc core then bumpReg Fd.staleReplies
      else
        match (s.core core).outW.find? (·.id = id) with
        | some w => ctxRec .writeRefused w.ctx core w.tag []
        | none => pure ()
        ackArrives core id 4 notice.holds notice.inj
    | _ => pure ()

/-! ### Inbound writes (R226, R247, R248) -/

/-- The oasis that covers n bytes at aperture offset off of a core. -/
def Core.oasisAt (c : Core) (off n : Nat) : Option Nat :=
  (List.range 32).find? fun k =>
    let o := tabGet {} c.oases k
    o.isOpen && o.gbase ≤ off && off + n ≤ o.gbase + o.len

/-- The writer may write an oasis: any core of its context in this cluster, or a writer that its opening named (R245). -/
def Oasis.permits (o : Oasis) (w : Writer) (isHost : Bool) (hsrc : Nat) : Bool :=
  (!isHost && w.pkg = Config.pkg.val && w.inst = Config.inst.val && w.ctx = o.ctx)
    || o.writers.any fun x =>
      if isHost then x.2.2.2.1 && x.2.2.2.2 = hsrc
      else !x.2.2.2.1 && x.1 = w.pkg && x.2.1 = w.inst && x.2.2.1 = w.ctx

/-- Banks that n bytes of context c's partition from offset o touch. -/
def State.banksOf (s : State) (core c o n : Nat) : List Nat :=
  let (pb, nb) := s.part core c
  (List.range ((o % 64 + n + 63) / 64)).map fun i => pb + (o / 64 + i) % max 1 nb

/-- A bank is under scrub or under a forensic hold (R230). -/
def Core.bankBusy (c : Core) (b : Nat) : Bool :=
  (c.scrub ++ c.held).any fun x => x.1 ≤ b && b < x.1 + x.2.1

/-- The slot that accepts n bytes at off from a writer, where R247 does not refuse them. -/
def State.oasisFor (s : State) (n off len : Nat) (w : Writer) (isHost : Bool) (hsrc : Nat) : Option Nat :=
  match (s.core n).oasisAt off len with
  | some k =>
    let o := tabGet {} (s.core n).oases k
    let banks := s.banksOf n o.ctx (o.pbase + off - o.gbase) len
    if o.permits w isHost hsrc && !banks.any (s.core n).bankBusy then some k else none
  | none => none

/-- Commit some granules of a packet into an oasis with the checks they carry (R226, R228). -/
def landGrans (n k off : Nat) (gs : List GranS) (places : List Nat) : M s0 Unit := do
  let s ← rd
  let o := tabGet {} (s.core n).oases k
  each places fun i => spPut n o.ctx (o.pbase + off - o.gbase + 64 * i) (gs.getD i ⟨[], 0⟩)

/-- A packet of `bytes` bytes is committed: its oasis counts it (R248). -/
def countOasis (n k bytes : Nat) : M s0 Unit := do
  let s ← rd
  let ch := n * 32 + k
  setReg Fd.oasisBytesBytes ch ((s.reg Fd.oasisBytesBytes ch + bytes) % 2 ^ 32)
  setReg Fd.oasisPktsPkts ch ((s.reg Fd.oasisPktsPkts ch + 1) % 2 ^ 16)
  testDx n

/-- Commit granules into an oasis whole, and count them (R226, R228, R248). -/
def commitOasis (n k off : Nat) (gs : List GranS) : M s0 Unit := do
  landGrans n k off gs (List.range gs.length)
  countOasis n k (64 * gs.length)
def isWrite : Body → Bool
  | .write _ _ _ => true
  | _ => false

/-- The bank in which granule i of a landing packet lies. -/
def State.landBank (s : State) (n : Nat) (x : Landing) (i : Nat) : List Nat :=
  let o := tabGet {} (s.core n).oases x.slot
  s.banksOf n o.ctx (o.pbase + x.off - o.gbase + 64 * i) 64

/-- The granules of a landing packet that commit now: not those of `later`, nor those whose bank an earlier packet waits for
(R225, class 6). -/
def State.landsNow (s : State) (n : Nat) (earlier : List Landing) (x : Landing) (later : List Nat) : List Nat :=
  x.left.filter fun i => !later.contains i
    && !earlier.any fun y => y.left.any fun j => (s.landBank n y j).any (s.landBank n x i).contains

/-- Some granules of an accepted packet commit in this cycle (R226): with its last one it is committed, counted and
acknowledged; until then it stays among those that wait for their banks. -/
def land (n : Nat) (earlier : List Landing) (x : Landing) (aged : Nat) (later : List Nat) : M s0 Unit := do
  let s ← rd
  if aged ≠ 0 then bumpReg Fd.spConflictAged n aged
  let now := s.landsNow n earlier x later
  landGrans n x.slot x.off x.pkt.grans now
  let left := x.left.filter fun i => !now.contains i
  let rest := (s.core n).landing.drop (earlier.length + 1)
  if left.isEmpty then
    modCore n fun c => { c with landing := earlier ++ rest }
    countOasis n x.slot (64 * x.pkt.grans.length)
    answerWrite n x.src x.inc x.by_ x.pkt 0
  else modCore n fun c => { c with landing := earlier ++ { x with left := left } :: rest }

/-- A write packet arrives at a core: it is accepted, refused whole, or answered with TARGET_RESET (R24, R247). -/
def inboundArrives (n : Nat) (m : Msg) (w : Writer) (off : Nat) (p : Pkt) (aged : Nat) (later : List Nat) : M s0 Unit := do
  let s ← rd
  if s.coreGone n then answerWrite n m.src m.inc w p 2
  else
    match s.oasisFor n off (64 * p.grans.length) w false 0 with
    | some k =>
      land n (s.core n).landing
        { src := m.src, inc := m.inc, by_ := w, off := off, pkt := p, slot := k, left := List.range p.grans.length } aged later
    | none =>
      bumpReg Fd.spRefusedRefused n
      answerWrite n m.src m.inc w p 3

/-- More granules of the accepted packet at place i find their banks; where its oasis has closed meanwhile, or its banks are
scrubbed or held, the rest of it is refused (DESIGN CHOICE, assumption log 115). -/
def landMore (n i : Nat) (x : Landing) (aged : Nat) (later : List Nat) : M s0 Unit := do
  let s ← rd
  if s.oasisFor n x.off (64 * x.pkt.grans.length) x.by_ false 0 = some x.slot then
    land n ((s.core n).landing.take i) x aged later
  else
    modCore n fun c => { c with landing := c.landing.eraseIdx i }
    if s.coreGone n then answerWrite n x.src x.inc x.by_ x.pkt 2
    else
      bumpReg Fd.spRefusedRefused n
      answerWrite n x.src x.inc x.by_ x.pkt 3

/-- INBOUND_WRITE_PACKET: the nth write packet that may arrive next at a core is accepted or refused whole, or, past those, more
granules of an accepted one commit (R225, R226, R247, R248). `aged` counts granules granted under class 2 of R225, `later`
gives the places of the granules that are not granted their banks yet. -/
def execInboundWritePacket (core : Fin 32) (nth : Nat) (grants : BankGrants) (s : State) : Out :=
  let l := arrivals core isWrite s.msgs []
  match l[nth]?, (s.core core).landing[nth - l.length]? with
  | some m, _ => runIf s.alive s do
    takeMsg m
    match m.body with
    | .write w off p =>
      inboundArrives core m w off p grants.aged grants.later
    | _ => pure ()
  | none, some x => runIf s.alive s (landMore core (nth - l.length) x grants.aged grants.later)
  | none, none => .next s

end Sys2Proof.Machine
end

