-- ==== Sys2Proof/Machine/MPort.lean ====
section
/-! DEFINITION. The M-port (R312 to R325): link-up and credits, read replies, write acknowledgements, and the groups of the
NCUs. -/

namespace Sys2Proof.Machine

variable {s0 : State}

/-- The worse of two reply statuses: a miss outweighs an error. -/
def worseStatus : FarStatus → FarStatus → FarStatus
  | .xmiss, _ => .xmiss
  | _, .xmiss => .xmiss
  | .targetReset, _ => .targetReset
  | _, .targetReset => .targetReset
  | .error, _ => .error
  | .ok, b => b

/-- A whole group has been read: the NCU expands it for the core that asked (R319, R322, R325). -/
def groupRead (g : NcuGroup) : M s0 Unit := do
  let n := stationOf g.addr
  let gs := (List.range (ncuMem g.ncu / 64)).map fun i =>
    match g.grans.find? (·.1 = i) with
    | some p => p.2
    | none => ⟨zeros 64, markSyn⟩
  let bad := g.status != .ok || gs.any fun x => x.syn ≠ 0
  let (out, k) := expandGroup g.ncu ((gs.map (·.data)).flatten)
  if g.status != .xmiss && g.status != .targetReset then
    if k.nans ≠ 0 then bumpReg Fd.ncuInvNanBlocks n k.nans
    if k.ovf ≠ 0 then bumpReg Fd.ncuInvOvf n k.ovf
    if bad then bumpReg Fd.ncuFailGroups n
  let s ← rd
  eff (.groups (s.groups.filter (·.id ≠ g.id)) s.nextGroup)
  send (nodeStn n) g.core g.inc
    (.reply g.rid (if g.status = .ok && bad then .error else g.status)
      ((chunks 64 (out.length / 64) out).map fun d => ⟨d, mark bad 0⟩))

/-- Hand the granules of an answered read to the core or the group that asked for them. -/
def answerRead (n : Nat) (r : StnRead) (st : FarStatus) (gs : List GranS) : M s0 Unit := do
  modStn n fun x => { x with reads := x.reads.filter (·.rtag ≠ r.rtag) }
  match r.dest with
  | .core core inc rid => send (nodeStn n) core inc (.reply rid st gs)
  | .group id first =>
    let s ← rd
    match s.groups.find? (·.id = id) with
    | some g =>
      let g := { g with
        left := g.left - 1, status := worseStatus g.status st,
        grans := g.grans ++ (List.range gs.length).map fun i => (first + i, gs.getD i ⟨[], 0⟩) }
      if g.left = 0 then groupRead g
      else eff (.groups (s.groups.map fun x => if x.id = id then g else x) s.nextGroup)
    | none => pure ()
  let s ← rd
  stnDrain n (s.stn n).waiting.length

/-- Acknowledge an answered write to whom it came from (R255, R323): 0 good, 1 error, 2 TARGET_RESET. -/
def answerStn (n : Nat) (w : StnWrite) (status : Nat) : M s0 Unit := do
  modStn n fun x => { x with writes := x.writes.filter (·.rtag ≠ w.rtag) }
  match w.dest with
  | .packet core inc id => send (nodeStn n) core inc (.ack id status)
  | .group id =>
    let s ← rd
    match s.groups.find? (·.id = id) with
    | some g =>
      let g := { g with
        left := g.left - 1,
        status := if status = 0 then g.status else if status = 1 then worseStatus .error g.status else .targetReset }
      if g.left = 0 then
        eff (.groups (s.groups.filter (·.id ≠ id)) s.nextGroup)
        each g.pkts fun p =>
          send (nodeStn (stationOf g.addr)) g.core g.inc
            (.ack p (if g.status = .ok then 0 else if g.status = .error then 1 else 2))
        ncuDrain (stationOf g.addr) (s.stn (stationOf g.addr)).held.length
      else eff (.groups (s.groups.map fun x => if x.id = id then g else x) s.nextGroup)
    | none => pure ()
  let s ← rd
  stnDrain n (s.stn n).waiting.length

/-- The granules that an RDATA carries: what stands in memory, but for those that the controller returns changed. -/
def rdataGrans (base : List (GranS × Bool)) (changed : List (Nat × Gran)) : List (GranS × Bool) :=
  (List.range base.length).map fun i =>
    match changed.find? (·.1 = i) with
    | some (_, g) =>
      let d := slice g.data 0 64
      (⟨d, g.chk.toNat ^^^ crc32c d⟩, g.ckv)
    | none => base.getD i (⟨[], 0⟩, false)

/-- The granules of an ERROR or XMISS reply: zeros or the stored data, which of the two is open, with the check complemented
(R316, Table 13-3). -/
def failedGrans : List (GranS × Bool) → M s0 (List GranS)
  | [] => pure []
  | (g, _) :: l => do
    let stored ← freshBit
    let rest ← failedGrans l
    pure (⟨if stored then g.data else zeros 64, markSyn⟩ :: rest)

/-- The granules of an OK reply with their checks verified or generated: one with CKV 0 carries the mark under CKV_REQ
(Table 13-3). -/
def checkIn (ckvReq : Bool) (gs : List (GranS × Bool)) : List GranS :=
  gs.map fun g => if g.2 then g.1 else { g.1 with syn := mark ckvReq 0 }

/-- The status of an OK reply: under CKV_REQ one with no granule of CKV 1 is an ERROR reply (Table 13-3). -/
def okStatus (ckvReq : Bool) (gs : List (GranS × Bool)) : FarStatus :=
  if ckvReq && gs.all fun g => !g.2 then .error else .ok

/-- What a read returns of the memory: each granule as it took it before, or as it stands. -/
def StnRead.found (r : StnRead) (s : State) : List (GranS × Bool) :=
  (List.range r.ngr).map fun i =>
    match r.got.find? (·.1 = r.addr / 64 + i) with
    | some x => x.2
    | none => s.granule (r.addr / 64 + i)

/-- RDATA: a read reply reaches a station (R253, R314, R316, R317). A reply to an earlier incarnation is dropped; one whose
tag no read holds breaks the contract. `changed` gives granules that the controller does not return as stored. -/
def execRdata (stn : Fin 6) (rtag : Fin 1024) (inc : BitVec 8) (status : RdStatus) (changed : List (Nat × Gran)) (s : State) :
    Out :=
  if !s.alive then .next s
  else if inc.toNat ≠ s.portIncOf (incStn stn) then run s (bumpReg Fd.staleReplies)
  else
    match (s.stn stn).reads.find? fun r => r.rtag = rtag.val with
    | none => .fault (.portContract "RDATA")
    | some r => run s do
      acceptBefore stn r.ord r.addr r.ngr
      let t ← rd
      let r := ((t.stn stn).reads.find? fun q => q.rtag = rtag.val).getD r
      let gs := rdataGrans (r.found t) changed
      match status with
      | .ok =>
        countIn stn r.ckvReq gs
        answerRead stn r (okStatus r.ckvReq gs) (checkIn r.ckvReq gs)
      | .error =>
        bumpReg Fd.mpChkInErrors stn
        let out ← failedGrans gs
        answerRead stn r .error out
      | .xmiss =>
        bumpReg Fd.mpXmissXmiss stn
        let out ← failedGrans gs
        answerRead stn r .xmiss out

/-- WACK: the controller acknowledges a write, which stands from here on; after ERROR each of its granules is old or new
(R253, R316). -/
def execWack (stn : Fin 6) (rtag : Fin 1024) (inc : BitVec 8) (ok : Bool) (s : State) : Out :=
  if !s.alive then .next s
  else if inc.toNat ≠ s.portIncOf (incStn stn) then run s (bumpReg Fd.staleReplies)
  else
    match (s.stn stn).writes.find? fun w => w.rtag = rtag.val with
    | none => .fault (.portContract "WACK")
    | some w => run s do
      acceptBefore stn w.ord w.addr w.grans.length
      if !ok then bumpReg Fd.mpChkInErrors stn
      applyRest w ok
      answerStn stn w (if ok then 0 else 1)

/-- CRD: credits come back, never more than were advertised, and waiting requests leave (R315, R316). -/
def execCrd (stn : Fin 6) (rd wr : Nat) (s : State) : Out :=
  let x := s.stn stn
  if !(s.alive && s.reg Fd.mpStnStatusReady stn = 1) then .next s
  else if s.reg Fd.mpStnCreditRd stn < x.rdCred + rd ∨ s.reg Fd.mpStnCreditWr stn < x.wrCred + wr then
    .fault (.portContract "CRD")
  else run s do
    modStn stn fun x => { x with rdCred := x.rdCred + rd, wrCred := x.wrCred + wr }
    stnDrain stn x.waiting.length

/-- STATION_LINK_UP: the controller advertises its credits, 64 to 1023 of each kind; the station is ready and held requests
leave (R315). -/
def execStationLinkUp (stn : Fin 6) (rd wr : Nat) (s : State) : Out :=
  if !(s.alive && s.reg Fd.mpStnStatusReady stn = 0) then .next s
  else if rd < 64 ∨ 1023 < rd ∨ wr < 64 ∨ 1023 < wr then .fault (.portContract "STATION_LINK_UP")
  else run s do
    setReg Fd.mpStnStatusReady stn 1
    setReg Fd.mpStnCreditRd stn rd
    setReg Fd.mpStnCreditWr stn wr
    modStn stn fun x => { x with rdCred := rd, wrCred := wr }
    stnDrain stn (s.stn stn).waiting.length

end Sys2Proof.Machine
end

