-- ==== Sys2Proof/Machine/Aperture.lean ====
section
/-! DEFINITION. Host accesses through the H-port aperture (R264, R390, R394). -/

namespace Sys2Proof.Machine

variable {s0 : State}

/-- The global address of aperture offset o (R390). -/
def State.aperture (s : State) (o : Nat) : Nat := s.reg Fd.aperBaseBase * 2 ^ 24 + o

/-- The first and last granule numbers that n bytes at address a touch, as a list. -/
def hostGranules (a n : Nat) : List Nat := (List.range ((a + n + 63) / 64 - a / 64)).map (a / 64 + ·)

/-- A host write of one granule that the controller answers with an error. -/
def hostFails (a : Nat) (v : List Byte) : M s0 Unit := do
  viaStations .host true a 64
  bumpReg Fd.mpChkInErrors (stationOf a)
  countOut (stationOf a) [goodGran v]
  applyMaybe a [goodGran v]

/-- Write the bytes that a host write holds for one granule of a memory stack (R390, R264): a whole granule is written; part
of one is read, verified, merged and written. A write that is answered with an error may be applied or not (R316). Answers
whether it went well. -/
def hostGranule (a : Nat) (data : List Byte) (rd_ : RdStatus) (g : Nat) : M s0 Bool := do
  let from_ := max a (64 * g)
  let upto := min (a + data.length) (64 * g + 64)
  let part := slice data (from_ - a) (upto - from_)
  if upto - from_ = 64 then
    if rd_ = .ok then
      gwrite .host from_ part
      pure true
    else
      hostFails from_ part
      pure false
  else
    viaStations .host false (64 * g) 64
    let t ← rd
    if !t.ggood (64 * g) 64 then pure false
    else if rd_ = .ok then
      gwrite .host (64 * g) (spliceAt (t.gread (64 * g) 64) (from_ - 64 * g) part)
      pure true
    else
      hostFails (64 * g) (spliceAt (t.gread (64 * g) 64) (from_ - 64 * g) part)
      pure false

/-- Do each part of an access and answer whether all went well. -/
def allOf {α : Type} (f : α → M s0 Bool) : List α → M s0 Bool
  | [] => pure true
  | a :: l => do
    let x ← f a
    let y ← allOf f l
    pure (x && y)

/-- A packet of host data of k granules into an oasis of this cluster (R247, R248, R264). Answers whether it was accepted. -/
def hostPacket (hsrc a : Nat) (data : List Byte) (p : Nat × Nat) : M s0 Bool := do
  let s ← rd
  let n := apertureCore p.1
  let gs : List GranS := (List.range p.2).map fun i => goodGran (slice data (p.1 - a + 64 * i) 64)
  if apertureInst p.1 ≠ Config.inst.val || s.coreGone n then pure false
  else
    match s.oasisFor n (apertureOff p.1) (64 * p.2) { pkg := Config.pkg, inst := Config.inst, ctx := 8, score := 0 } true hsrc with
    | some k => do
      commitOasis n k (apertureOff p.1) gs
      pure true
    | none => do
      bumpReg Fd.spRefusedRefused n
      pure false

/-- APERTURE_WRITE: a host write through the aperture, with the status that memory answers it with (R264, R390). -/
def execApertureWrite (hsrc : Fin 16) (off : BitVec 24) (data : List Byte) (rd : RdStatus) (s : State) : Out :=
  runIf s.hportOpen s do
    let a := s.aperture off.toNat
    let ok ← if inAperture a then
        if a % 64 = 0 && data.length % 64 = 0 then
          allOf (hostPacket hsrc a data) (runsOf (data.length / 64) a (data.length / 64))
        else pure false
      else allOf (hostGranule a data rd) (hostGranules a data.length)
    if !ok then hpErr 7 hsrc off.toNat
    eff (.resp (some ⟨[], !ok⟩))

/-- What a host read of granules is given, and whether every granule passed (R394). -/
def hostRead (a n : Nat) (rd_ : RdStatus) : M s0 (List Byte × Bool) := do
  viaStations .host false a n (rd_ = .ok)
  let s ← rd
  if rd_ = .ok then pure (s.gread a n, s.ggood a n)
  else
    bumpReg (if rd_ = .xmiss then Fd.mpXmissXmiss else Fd.mpChkInErrors) (stationOf a)
    let l := hostGranules a n
    let gs ← failedGrans (l.map fun g => (s.ggran g, true))
    pure (slice ((gs.map (·.data)).flatten) (a % 64) n, false)

/-- APERTURE_READ: a host read through the aperture; a granule that fails, an error or a miss completes it with an error
response, and a read of the scratchpad aperture is answered with an error at once (R244, R394). -/
def execApertureRead (_hsrc : Fin 16) (off : BitVec 24) (len : Nat) (rd : RdStatus) (s : State) : Out :=
  runIf s.hportOpen s do
    let a := s.aperture off.toNat
    if inAperture a then eff (.resp (some ⟨zeros len, true⟩))
    else
      let (data, ok) ← hostRead a len rd
      if !ok then bumpReg Fd.intEgressHost
      eff (.resp (some ⟨data, !ok⟩))

end Sys2Proof.Machine
end

