-- ==== Sys2Proof/Machine/NPort.lean ====
section
/-! DEFINITION. The N-port (R326 to R331): frames of the six types, training and retraining of a module. -/

namespace Sys2Proof.Machine

variable {s0 : State}

/-- The modules that are wired are those below NMOD (R19, R326). -/
def absent (m : Fin 4) : Bool := Config.nmod.val ≤ m.val

/-- A frame that this cluster makes itself for a module. -/
def modMake (k type : Nat) (f : NFrame) (ctx : Nat := 0) : M s0 Unit := modPush k { type := type, frame := f, ctx := ctx }

/-- An acknowledgement or refusal of packet `id` is under way to core n. -/
def State.answered (s : State) (n id : Nat) : Bool :=
  s.msgs.any fun m => m.dst = n && m.inc = s.coreInc n
    && (match m.body with | .ack k _ => k == id | .refusal k => k == id | _ => false)

/-- The oldest packet of a core with a tag that awaits an acknowledgement from a core of a cluster and has none under way. -/
def State.remotePkt (s : State) (n tag dinst dcore : Nat) : Option OutW :=
  (s.core n).outW.find? fun w => w.tag = tag && w.dinst = some dinst && w.dcore = dcore && !s.answered n w.id

/-- An answer from a core of cluster `inst` to a write of core n with a tag goes on to the core (R255): 0 good, 1 error, 2
TARGET_RESET, 3 refusal. -/
def remoteAck (k n tag inst core status : Nat) : M s0 Unit := do
  let s ← rd
  match s.remotePkt n tag inst core with
  | some w => send (nodeMod k) n (s.coreInc n) (if status = 3 then .refusal w.id else .ack w.id status)
  | none => pure ()

/-- Answer a write frame of another cluster in place of the core that it names: its source core matches the answer by that
core and cluster (R255, R331). -/
def answerFor (f : NFrame) (status : Nat) : M s0 Unit := do
  let s ← rd
  match s.route f.sinst with
  | some b => modPush b { type := 2, frame := { frameTo f.sinst f.score f.dcore f.tag.toNat with
      sinst := f.dinst, inc := f.inc, body := toLe status 1 ++ zeros 15, lsrc := f.lsrc }, ctx := 0, keep := true }
  | none => pure ()

/-- A frame cannot go on (R331): the source core of a WR frame gets an acknowledgement with error; L-port data have no core
that waits. A SYNC frame of this cluster takes its barrier with it, since the cluster that it cannot reach counts as reset
(assumption log 117). -/
def failFrame (k type : Nat) (f : NFrame) : M s0 Unit :=
  if type = 1 then
    if f.sinst = Config.inst then
      if f.lsrc.isNone then remoteAck k f.score f.tag.toNat f.dinst f.dcore 1 else pure ()
    else answerFor f 1
  else if type = 4 then
    if f.sinst = Config.inst then goneLasting (leAt f.body 0 2 % 256) else answerFor f 1
  else pure ()

/-- Forward a frame for another cluster on that cluster's route (R328). -/
def forwardFrame (k type : Nat) (f : NFrame) : M s0 Unit := do
  let s ← rd
  match s.route f.dinst with
  | some b =>
    bumpReg Fd.npFwdFrames b
    modPush b { type := type, frame := f, ctx := f.sctx, keep := true }
  | none => failFrame k type f

/-- Return a NAK for the frame that the module waits for; byte 0 of its body holds that SEQ (assumption log 32). -/
def sendNak (k : Nat) : M s0 Unit := do
  let s ← rd
  bumpReg Fd.npChkNaks k
  countLink
  modMake k 5 { frameTo 0 0 0 0 with body := toLe (s.mod k).rxSeq 1 ++ zeros 15 }

/-- Credits that no frame has taken along go back in a CRD frame at once (R327; assumption log 32). -/
def returnCredit (k : Nat) : M s0 Unit := do
  let s ← rd
  if (s.mod k).owed ≠ 0 then modMake k 6 (frameTo (s.reg Fd.npModStatusPeerInst k) 0 0 0)

/-- A frame of a type arrives on a module (R327): one that fails its CRC or comes out of order is discarded and NAKed;
otherwise its credit is taken, and `body` acts on it, or it is forwarded. -/
def receiveFrame (k type : Nat) (f : NFrame) (body : M s0 Unit) : M s0 Unit := do
  let s ← rd
  let x := s.mod k
  if !f.crcOk || f.seq.toNat ≠ x.rxSeq then sendNak k
  else
    eff (.mod k { x with
      rxSeq := (x.rxSeq + 1) % 256, credit := x.credit + f.credit.toNat, owed := x.owed + b2n (type < 5) })
    bumpReg Fd.npRxFrames k
    if type < 5 && f.dinst ≠ Config.inst then forwardFrame k type f else body
    let t ← rd
    modDrain k (t.mod k).waiting.length
    returnCredit k

/-- A frame row: nothing while the module is not in its link state, a fault for a module that is not wired. -/
def frameRow (m : Fin 4) (type : Nat) (f : NFrame) (s : State) (body : M s Unit) : Out :=
  if absent m then .fault .absentModule
  else runIf (s.alive && s.modUp m) s (receiveFrame m type f body)

/-- NPORT_WR_FRAME: a write packet of another cluster goes to its core; its checks are generated from the data and
complemented where MARK is set (Table 13-3). -/
def execNportWrFrame (m : Fin 4) (f : NFrame) (s : State) : Out :=
  frameRow m 1 f s do
    let gs := (List.range f.grans.length).map fun i =>
      (⟨slice (f.grans.getD i []) 0 64, mark (bit f.mark.toNat i) 0⟩ : GranS)
    send (nodeMod m) f.dcore 0
      (.write { pkg := (f.lsrc.map (·.pkg)).getD Config.pkg, inst := (f.lsrc.map (·.inst)).getD f.sinst, ctx := f.sctx,
                score := f.score, via := f.sinst, link := m, linc := f.inc.toNat, lsrc := f.lsrc }
        (64 * f.offset.toNat)
        { id := 0, tag := f.tag.toNat, ctx := f.sctx, ch := 16, addr := 0, ncu := 0, grans := gs })

/-- A reply frame echoes the INC of this module, else it is dropped and counted (R403). -/
def echoed (m : Fin 4) (f : NFrame) (body : M s0 Unit) : M s0 Unit := do
  let s ← rd
  if f.inc.toNat = s.portIncOf (incMod m) then body else bumpReg Fd.staleReplies

/-- NPORT_ACK_FRAME: an acknowledgement goes to its core; its body holds the status (R255, R327). -/
def execNportAckFrame (m : Fin 4) (f : NFrame) (s : State) : Out :=
  frameRow m 2 f s (echoed m f (if f.lsrc.isNone then remoteAck m f.dcore f.tag.toNat f.sinst f.score (leAt f.body 0 1 % 3)
    else pure ()))

/-- The refusal of L-port data goes on toward its far sender: to the link that leads to its package, over the N-port to its
cluster, and there its core writes the WRITE_REFUSED record, unless the L-port has been reset since (R340, R349). -/
def lportRefused (tag score sctx : Nat) (o : LSrc) : M s0 Unit := do
  let s ← rd
  if o.pkg ≠ Config.pkg then ctlToPkg o.pkg (.refuse tag score sctx o)
  else if o.inst ≠ Config.inst then
    match s.route o.inst with
    | some k => modMake k 3 { frameTo o.inst score 0 tag with sctx := Fin.ofNat 8 sctx, lsrc := some o }
    | none => pure ()
  else if o.inc.toNat = s.portIncOf incLport then ctxRec .writeRefused sctx score tag []

/-- NPORT_REFUSE_FRAME: a refusal notice goes to its core (R247), or on toward the far sender of L-port data (R349). -/
def execNportRefuseFrame (m : Fin 4) (f : NFrame) (s : State) : Out :=
  frameRow m 3 f s (match f.lsrc with
    | none => echoed m f (remoteAck m f.dcore f.tag.toNat f.sinst f.score 3)
    | some o => lportRefused f.tag.toNat f.dcore f.sctx o)

/-- A release of a barrier arrives from its package node (R276). -/
def releaseHere (i : Nat) (phase poison : Bool) : M s0 Unit := do
  let s ← rd
  if (s.bar i).alloc && !(s.bar i).gone && (s.bar i).phase = phase then
    clusterRelease i poison
    clusterTest i 3

/-- An arrival from a package reaches the group root. -/
def rootArrive (i : Nat) (phase poison : Bool) : M s0 Unit := do
  carryPoison i poison
  let s ← rd
  let b := s.bar i
  let (u, full) := b.root.count phase s.tb.now
  eff (.bar i { b with root := u })
  if full then
    let again ← rootRelease i b.poison
    if again then packageComplete i 2

/-- A release from the group root, with the POISON of the top node, reaches the package node. -/
def groupRelease (i : Nat) (poison : Bool) : M s0 Unit := do
  let again ← packageRelease i poison
  if again then packageComplete i 2

/-- NPORT_SYNC_FRAME: an operation of another cluster on an object of this one (R327): bytes 0 and 1 the object, byte 2 its
kind, byte 3 the operation, bytes 4 to 7 N or the phase bit. The codes are assumption log 32. -/
def execNportSyncFrame (m : Fin 4) (f : NFrame) (s : State) : Out :=
  frameRow m 4 f s do
    let i := leAt f.body 0 2
    let kind := leAt f.body 2 1
    let op := leAt f.body 3 1
    let v := leAt f.body 4 4
    let t ← rd
    if kind = 2 then
      if i < 256 then
        if op = 0 then
          if (t.bar i).alloc && !(t.bar i).gone then packageArrive i (bit v 0) (bit v 1)
        else if op = 1 then releaseHere i (bit v 0) (bit v 1)
    else if kind = 3 then
      if i < 256 && (t.bar i).alloc && !(t.bar i).gone then
        if op = 0 then rootArrive i (bit v 0) (bit v 1) else if op = 1 then groupRelease i (bit v 1)
    else if op < 2 && i < (if kind = 0 then 1024 else 4096) then
      let k := if kind = 0 then coreSemKey f.dcore i else hubSemKey i
      send (nodeMod m) (semNode k) 0 (.semOp k (op = 1) v 0 f.tag.toNat 0 false)

/-- NPORT_NAK_FRAME: the frames from the one that was NAKed are sent again from the replay buffer (R327). -/
def execNportNakFrame (m : Fin 4) (f : NFrame) (s : State) : Out :=
  frameRow m 5 f s do
    let q := leAt f.body 0 1
    modMod m fun x => { x with lanes := last128 (x.lanes ++ x.replay.dropWhile fun o => o.frame.seq.toNat ≠ q) }

/-- NPORT_CRD_FRAME: credits alone (R327). -/
def execNportCrdFrame (m : Fin 4) (f : NFrame) (s : State) : Out := frameRow m 6 f s (pure ())

/-- NPORT_TRAINED: a module reaches its link state, at first with fresh sequence numbers and credits, after a retrain with
those it had; the sideband exchange names its peer, and 48 and 64 GT/s need UCIe 3.0 (R326, R331, Tables 13-6, 13-10). -/
def execNportTrained (m : Fin 4) (rev : Fin 4) (speed : Fin 8) (x32 : Bool) (peerInst : Fin 16) (peerMod : Fin 4)
    (s : State) : Out :=
  if absent m then .fault .absentModule
  else runIf (s.alive && !s.modUp m && rev.val ≠ 0 && (speed.val < 6 || rev.val = 3)) s do
    let x := s.mod m
    if x.trained && !x.down then modMod m fun x => { x with retrain := none }
    else eff (.mod m { trained := true, waiting := x.waiting })
    setReg Fd.npModStatusUp m 1
    setReg Fd.npModStatusRev m rev
    setReg Fd.npModStatusSpeed m speed
    setReg Fd.npModStatusX32 m (b2n x32)
    setReg Fd.npModStatusPeerInst m peerInst
    setReg Fd.npModStatusPeerMod m peerMod
    modDrain m x.waiting.length

/-- NPORT_RETRAIN: a module leaves its link state and retrains, keeping every frame (R331). -/
def execNportRetrain (m : Fin 4) (s : State) : Out :=
  if absent m then .fault .absentModule
  else runIf (s.alive && s.modUp m) s do
    modMod m fun x => { x with retrain := some s.tb.now }
    bumpReg Fd.npModStatusRetrains m

/-- Barriers of which a cluster of the package is a member become GONE here (Table 11-5). -/
def clusterLost (d : Nat) : M s0 Unit := do
  let s ← rd
  each (tabKeys (fun _ b => b.alloc && !b.lasting && b.scope ≠ 0 && bit b.members d) s.bars) goneLasting

/-- The frames that a module still buffers: those sent for which no credit has come back, and those that wait. -/
def Module.buffered (x : Module) : List NOut :=
  let sent := x.replay.filter fun o => o.type < 5
  sent.drop (sent.length - (64 - x.credit)) ++ x.waiting

/-- NPORT_RETRAIN_TIMEOUT: a module has not come back within 4096 grains: it is down, its buffered frames are dropped and the
WR frames among them answered with an error, and the clusters that it led to count as reset (R331). -/
def execNportRetrainTimeout (m : Fin 4) (s : State) : Out :=
  if absent m then .fault .absentModule
  else
    let expired := match (s.mod m).retrain with
      | some g => elapsed s.tb.now g 4096
      | none => false
    runIf (s.alive && expired) s do
      let x := s.mod m
      eff (.mod m { trained := true, down := true })
      bumpReg Fd.npDownDowns m
      setReg Fd.npModStatusUp m 0
      platRec .nportDown (unitMod m) 0
        (toLe m 1 ++ toLe (s.reg Fd.npModStatusPeerInst m) 1 ++ toLe (s.reg Fd.npModStatusPeerMod m) 1)
      each x.buffered fun o => failFrame m o.type o.frame
      each ((List.range 16).filter fun d => d ≠ Config.inst.val && bit (s.reg Fd.npRouteEnEn) d
          && bits (s.reg Fd.npRouteRoute) (2 * d + 1) (2 * d) = m.val) clusterLost

end Sys2Proof.Machine
end

