-- ==== Sys2Proof/Machine/Timebase.lean ====
section
/-! DEFINITION. The grain receiver and the package timing exchange (chapter 2). -/

namespace Sys2Proof.Machine

variable {s0 : State}

/-- Weight of one ACLK cycle at a clock step, in units of 1/1680 grain: 1680 divided by the cycles per grain of
Table 2-2. -/
def cycleWeight (step : Nat) : Nat :=
  match step with
  | 0 => 105 | 1 => 120 | 2 => 140 | 3 => 168 | _ => 210

/-- Grain a lies ahead of count c (R37). -/
def ahead (a c : Nat) : Bool := 1 ≤ grainSub a c && grainSub a c < 2 ^ 47

/-- The count after a strobe that carries a, once LOCKED has been set (R39): it never decreases. -/
def strobeCount (a c : Nat) : Nat := if ahead a c then a else c

/-- Consecutive good strobes after a strobe that carries a (R36). -/
def goodStrobes (t : Timebase) (a : Nat) : Nat :=
  match t.last with
  | some p => if a = grainAdd p 1 then min 4 (t.good + 1) else 0
  | none => 0

/-- GRAIN_STROBE: a rising edge of GRAIN_STB carries a count, and the previous grain held `cyc` cycles (R35, R36, R39, R49,
Table 2-5). GRAIN_STATUS.CYC takes `cyc` modulo 32, and the record of a discontinuity carries the count before the strobe
(assumption log 102). -/
def execGrainStrobe (cnt : BitVec 48) (cyc : Nat) (s : State) : Out :=
  runIf s.alive s do
    let a := cnt.toNat
    let t := s.tb
    let good := goodStrobes t a
    let now := if t.everLocked then strobeCount a t.now else a
    let locked := good ≥ 4
    if t.everLocked && a != grainAdd t.now 1 then
      setReg Fd.grainStatusDisc 0 1
      platRec .grainDiscontinuity unitGrain 0 []
    if now ≠ t.now then setReg Fd.grainStatusCyc 0 cyc
    modTb fun t => { t with
      now := now, good := good, last := some a, holdover := false, holdSum := 0, holdCyc := 0, holdAdv := 0,
      everLocked := t.everLocked || locked, limited := t.limited && !locked }
    if locked then setReg Fd.grainStatusLocked 0 1

/-- LOSS_LIMIT in force: below 16 it acts as 16 (Table 2-5). -/
def State.lossLimit (s : State) : Nat := max 16 (s.reg Fd.grainCtrlLossLimit)

/-- Holdover limit in force: 0 selects 4096 (Table 2-5). -/
def State.holdLimit (s : State) : Nat := if s.reg Fd.grainCtrlHoldLimit = 0 then 4096 else s.reg Fd.grainCtrlHoldLimit

/-- Cycles of a run of n cycles, each of weight w, after which a weighted sum that stands at `sum` reaches k whole grains. -/
def cyclesTo (sum w k : Nat) : Nat := cdiv (k * 1680 - sum) w

/-- The weighted sum, the cycles since its last whole grain, and the cycles of the last grain that it completed. -/
structure HoldSum where
  sum  : Nat
  cyc  : Nat
  last : Option Nat
deriving DecidableEq, Repr

/-- A run of cycles at one clock step adds to the weighted sum (R47), and completes the grains whose boundaries the sum
passes (Table 2-5). -/
def HoldSum.add (h : HoldSum) (r : CycleRun) : HoldSum :=
  let w := cycleWeight r.step
  let k := (h.sum + r.cycles * w) / 1680
  if k = h.sum / 1680 then { h with sum := h.sum + r.cycles * w, cyc := h.cyc + r.cycles }
  else
    { sum := h.sum + r.cycles * w, cyc := r.cycles - cyclesTo h.sum w k,
      last := some (if k = h.sum / 1680 + 1 then h.cyc + cyclesTo h.sum w k
        else cyclesTo h.sum w k - cyclesTo h.sum w (k - 1)) }

/-- The weighted sum of the receiver after more cycles, each run weighed at the clock step that was in force in it (R47). -/
def Timebase.weigh (t : Timebase) (runs : List CycleRun) : HoldSum := runs.foldl HoldSum.add ⟨t.holdSum, t.holdCyc, none⟩

/-- Cycles in a list of runs. -/
def cyclesOf (runs : List CycleRun) : Nat := (runs.map (·.cycles)).foldl (· + ·) 0

/-- Advance the count by itself: more cycles pass, and the count becomes the last strobe's plus the whole grains in the
weighted sum, where that lies ahead (R39, R47); GRAIN_STATUS.CYC shows the cycles of the last grain so completed. -/
def selfAdvance (runs : List CycleRun) : M s0 Unit := do
  let s ← rd
  let h := s.tb.weigh runs
  let k := h.sum / 1680
  modTb fun t => { t with
    holdSum := h.sum, holdCyc := h.cyc, holdAdv := k,
    now := match t.last with | some p => strobeCount (grainAdd p k) t.now | none => t.now }
  match h.last with
  | some c => setReg Fd.grainStatusCyc 0 c
  | none => pure ()

/-- HOLDOVER_ENTRY: the cycles of `runs` have passed since the last strobe, at least LOSS_LIMIT (R47). The record of the loss
carries the count before the receiver advances it (assumption log 102). -/
def execHoldoverEntry (runs : List CycleRun) (s : State) : Out :=
  runIf (s.alive && !s.tb.holdover && s.tb.last.isSome && s.lossLimit ≤ cyclesOf runs) s do
    setReg Fd.grainStatusLocked 0 0
    setReg Fd.grainStatusLoss 0 1
    modTb fun t => { t with holdover := true, good := 0, holdSum := 0, holdCyc := 0 }
    platRec .grainLoss unitGrain 0 []
    selfAdvance runs

/-- HOLDOVER_ADVANCE: the cycles of `runs` pass in holdover (R47). -/
def execHoldoverAdvance (runs : List CycleRun) (s : State) : Out :=
  runIf (s.alive && s.tb.holdover) s (selfAdvance runs)

/-- HOLDOVER_LIMIT: holdover has advanced the count beyond its limit; deadlines that fall due count as missed and
start-grain commands hold until LOCKED is set again (R48). -/
def execHoldoverLimit (s : State) : Out :=
  runIf (s.alive && s.tb.holdover && !s.tb.limited && s.holdLimit < s.tb.holdAdv) s do
    setReg Fd.grainStatusHoldExp 0 1
    modTb fun t => { t with limited := true }

/-! ### The timing exchange (R50 to R52) -/

/-- A link is ACTIVE with a feature of Table 14-7 in its active set. -/
def State.linkHas (s : State) (l feature : Nat) : Bool :=
  s.linkSt l = 6 && bit (s.reg Fd.linkFeatActActive l) feature

/-- A timing frame falls due: none has since reset, or the last one fell due at least 4096 grains ago (R50). The first falls
due at once after reset or the setting of SYNC_EN (assumption log 103). -/
def Timebase.timingDue (t : Timebase) : Bool :=
  match t.lastTiming with
  | some g => 4096 ≤ grainSub t.now g
  | none => true

/-- TIMING_FRAME_DUE: 4096 grains after the last one, the exchanging cluster queues a timing frame on the link that UPLINK
names, or sets SYNC_ERR where that link cannot carry it (R50). -/
def execTimingFrameDue (s : State) : Out :=
  runIf (s.alive && s.reg Fd.grainSyncSyncEn = 1 && s.tb.timingDue) s do
    let l := s.reg Fd.grainSyncUplink
    modTb fun t => { t with lastTiming := some t.now }
    if s.linkHas l 0 then
      ctlSend l .timing
      modTb fun t => { t with timingOut := true }
    else setReg Fd.grainStatusSyncErr 0 1

/-- TIMING: a neighbour's timing frame, stamped t1 at departure and t2 at arrival, is answered in a control slot of the same
link; the reply's departure stamp t3 is put on as it leaves (R50). A link in IDENT measures its delay in the same way
(R341). -/
def execTiming (link : Fin 8) (t1 t2 _t3 : Nat) (s : State) : Out :=
  runIf (s.alive && (s.linkHas link 0 || s.linkSt link = 3)) s (ctlSend link (.timingReply t1 t2))

/-- Half of a sum of stamps in units of 1/64 grain; where the sum is odd, which neighbour the register takes is open. -/
def halfStamp (x : Int) : M s0 Int := do
  if x % 2 = 0 then pure (x / 2)
  else
    let up ← freshBit
    pure (x / 2 + if up then 1 else 0)

/-- The trim that steers an offset towards zero (R50): within ±100 ppm of the grain period, shorter where the neighbour is
ahead. Its size is open. -/
def trimFor (offset : Int) : M s0 Int := do
  let w ← freshWord
  let k : Int := (w.toNat % 101 : Nat)
  pure (if offset > 0 then -k else if offset < 0 then k else 0)

/-- A signed number in a register field. -/
def setSigned (f : Fld) (v : Int) : M s0 Unit := setReg f 0 (v % (2 ^ f.width : Nat)).toNat

/-- TIMING_REPLY: the stamps give offset and delay, the firmware drives GRAIN_TRIM, and an offset beyond ±2 grains raises
GRAIN_SYNC_LOSS (R50, R52). -/
def execTimingReply (link : Fin 8) (t1 t2 t3 t4 : Nat) (s : State) : Out :=
  runIf (s.alive && s.tb.timingOut && s.reg Fd.grainSyncUplink = link.val) s do
    let twice : Int := ((t2 : Int) - t1) - ((t4 : Int) - t3)
    let offset ← halfStamp twice
    let delay ← halfStamp (((t2 : Int) - t1) + ((t4 : Int) - t3))
    setSigned Fd.grainOffsetOffset offset
    setSigned Fd.grainDelayDelay delay
    let trim ← trimFor twice
    setSigned Fd.grainSyncTrim trim
    modTb fun t => { t with timingOut := false }
    if twice > 256 ∨ twice < -256 then
      platRec .grainSyncLoss unitGrain 0 (toLe (offset % (2 ^ 32 : Nat)).toNat 4)
      setReg Fd.grainStatusSyncErr 0 1

end Sys2Proof.Machine
end

