-- ==== Sys2Proof/Machine/Lsend.lean ====
section
/-! DEFINITION. The sending side of the L-port (R213, R336 to R338, R347 to R353, R355): LSEND, slots and the frames that go
out in them. -/

namespace Sys2Proof.Machine

variable {s0 : State}

/-! ### Slots (R347) -/

/-- Granules of a slot frame by revision and active width (Table 14-2). -/
def frameGrans (rev width : Nat) : Nat :=
  match rev, width with
  | 1, 20 => 28 | 1, 10 => 13 | 1, 5 => 6 | 1, 2 => 1
  | 2, 20 => 57 | 2, 10 => 28 | 2, 5 => 13 | 2, 2 => 4
  | 3, 20 => 116 | 3, 10 => 57 | 3, 5 => 28 | 3, 2 => 10
  | _, _ => 0

/-- Granules of a frame that a link sends now. -/
def State.txGrans (s : State) (l : Nat) : Nat := frameGrans (s.reg Fd.linkStatusRev l) (s.reg Fd.linkStatusTxWidth l)

/-- Owner code of link l at a slot index in the TX (dir 0) or RX table; reserved codes act as FREE, and the codes of a link that
the split does not create are ignored. -/
def State.slotOwner (s : State) (dir l idx : Nat) : Nat :=
  if idx % 64 = 0 then 0xFF
  else if !s.linkExists l then 0
  else
    let e := s.reg Fd.slotEntryOwners (dir * 2048 + l / 4 * 1024 + idx % 1024)
    let o := bits e (8 * (l % 4) + 7) (8 * (l % 4))
    if o ≤ 8 ∨ (0x40 ≤ o ∧ o < 0x80) then o else 0

/-- Context c owns TX slots on link l. -/
def State.ownsSlots (s : State) (l c : Nat) : Bool := (List.range 1024).any fun i => s.slotOwner 0 l i = c + 1

/-- The next grain whose TX slot on link l is context c's (R43): the slot of the present grain counts (assumption log 106). -/
def State.nextOwned (s : State) (l c : Nat) : Option Nat :=
  ((List.range 1024).find? fun k => s.slotOwner 0 l ((s.tb.now + k) % 1024) = c + 1).map fun k => grainAdd s.tb.now k

/-! ### LSEND (R213, R349) -/

/-- DST of an LSEND descriptor: package, cluster, core, offset. -/
def dstPkg (d : Nat) : Nat := bits d 63 52
def dstInst (d : Nat) : Nat := bits d 51 48
def dstCore (d : Nat) : Nat := bits d 47 43
def dstOff (d : Nat) : Nat := bits d 42 27

/-- The link that ROUTE gives for a package on a bundle. -/
def State.routeOn (s : State) (bundle pkg : Nat) : Option Nat :=
  if bundle = 0 then (if s.reg Fd.routeAValid pkg = 1 then some (s.reg Fd.routeALink pkg) else none)
  else (if s.reg Fd.routeBValid pkg = 1 then some (4 + s.reg Fd.routeBLink pkg) else none)

/-- Bundle and descriptor of an LSEND. -/
def lsendBundle (w : Cmd) : Nat := cf w 94 94
def lsendRsv (w : Cmd) : Bool := cf w 95 95 = 1

def State.lsendDesc (s : State) (n c : Nat) (w : Cmd) : DmaDesc × Bool := dmaDesc (s.spRead n c (cf w 87 64) 64)

/-- Bytes that a descriptor names. -/
def DmaDesc.total (d : DmaDesc) : Nat := d.len * d.nrows

/-- An LSEND descriptor is legal (Table 9-5, R349). -/
def State.lsendOk (s : State) (n c bundle : Nat) (d : DmaDesc) : Bool :=
  !d.sglobal && !d.dglobal && d.ncu = 0 && d.len ≤ 3145728 && sideOk false d.src d.len d.sstride
    && (d.len = 0 || (List.range d.nrows).all fun r => inPart (s.partSize n c) (d.srcAt r) d.len)
    && dstPkg d.dst ≠ Config.pkg.val && (s.routeOn bundle (dstPkg d.dst)).isSome
    && dstOff d.dst * 64 + d.total ≤ 2 ^ 22 && bits d.dst 26 0 = 0
    && (d.nrows ≤ 1 || d.dstride = (d.len : Nat)) && d.skewOk

/-- A reserved send carries a GRAIN word with both enables and equal offsets (R213); in a Tyzia 3 parcel the word gives a start
offset alone, which is the deadline too (Table 7-3). -/
def rsvGrain (t4 : Bool) (g : Option Cmd) : Bool :=
  match g with
  | some g => cf g 96 96 = 1 && (!t4 || (cf g 97 97 = 1 && cf g 95 64 = cf g 63 32))
  | none => false

/-- Context c holds slots on a bundle. -/
def State.holdsSlots (s : State) (bundle c : Nat) : Bool := (List.range 4).any fun k => s.ownsSlots (bundle * 4 + k) c

/-- Skip reasons of LSEND (Table 8-13). -/
def lsendReason (n : Nat) (s : State) (r : Running) (h : Head) : Option Nat :=
  let w := h.cmd
  let c := r.parcel.ctx
  if dxReserved w ≠ 0 then some 0x01
  else if cf w 87 64 % 64 ≠ 0 || s.partSize n c < cf w 87 64 + 64 then some 0x06
  else
    let (d, ok) := s.lsendDesc n c w
    if !(ok && s.lsendOk n c (lsendBundle w) d) then some 0x06
    else if lsendRsv w && !(rsvGrain r.t4 h.grain && s.holdsSlots (lsendBundle w) c) then some 0x06
    else none

/-- A reserved send whose deadline has passed holds until DEADLINE_MISSED defers it to its context's next slot (R43). -/
def lsendBusy (s : State) (r : Running) (h : Head) (x : Eng) : Bool :=
  lsendRsv h.cmd && match deadlineGrain r x h.grain with
    | some d => s.late d
    | none => false

/-- The source offset of byte b of the stream that a send reads. -/
def LsendFlight.at (f : LsendFlight) (b : Nat) : Nat := ((f.src : Int) + (b / f.len : Nat) * f.sstride).toNat + b % f.len

/-- Granule j of the stream, padded with zeros after its last byte, with the check of its source granule where it is exactly
one; and whether every source granule was good (R240, R339). -/
def LsendFlight.gran (f : LsendFlight) (s : State) (n j : Nat) : GranS × Bool :=
  let left := f.len * f.nrows - 64 * j
  let o := f.at (64 * j)
  if o % 64 = 0 && 64 * j % f.len + 64 ≤ f.len then
    let g := s.spGran n f.ctx o
    ({ g with syn := mark f.poison g.syn }, g.syn = 0)
  else
    let parts := (List.range 4).map fun i =>
      if 16 * i < left then (s.spRead n f.ctx (f.at (64 * j + 16 * i)) 16, s.spGood n f.ctx (f.at (64 * j + 16 * i)) 16)
      else (zeros 16, true)
    let ok := parts.all (·.2)
    (⟨(parts.map (·.1)).flatten, mark (f.poison || !ok) 0⟩, ok)

/-- Granules of a send. -/
def LsendFlight.grans (f : LsendFlight) : Nat := (f.len * f.nrows + 63) / 64

/-- A send is over: its tokens are pushed (R213), poisoned where it failed. -/
def lsendDone (n : Nat) (f : LsendFlight) (err : Bool) : M s0 Unit := do
  modCore n fun c => { c with lsends := c.lsends.filter (·.id ≠ f.id) }
  pushTokens n .dx f.cmd f.ticket f.outs (f.poison || f.bad || err)

/-- The sends of all cores that use a link: by core, in order of issue (assumption log 31). -/
def State.flights (s : State) (l : Nat) : List (Nat × LsendFlight) :=
  (List.range 32).flatMap fun n => ((s.core n).lsends.filter (·.link = l)).map fun f => (n, f)

/-- Where the frames of a send are staged. -/
def stageKey (rsv : Bool) (ctx : Nat) : Nat := if rsv then ctx else 8 + ctx

/-- A frame of no granules from this cluster. -/
def frame0 : LFrame :=
  { grain := 0, sinst := Config.inst, spkg := Config.pkg, sctx := 0, score := 0, owner := 0, dinst := 0, dpkg := 0, dcore := 0,
    inc := 0, offset := 0, seq := 0, tag := 0, becrd := 0, mark := 0, grans := [], crcOk := true }

/-- MARK of a list of granules (R339). -/
def markOf (gs : List GranS) : Nat := markBits gs

/-- Take the data of the next frame of a send and stage it (R348); after its last frame the send is over. -/
def takeFrame (l n : Nat) (f : LsendFlight) : M s0 Unit := do
  let s ← rd
  let k := min (s.txGrans l) (f.grans - f.taken)
  let gs := (List.range k).map fun i => f.gran s n (f.taken + i)
  let bad := (gs.filter fun g => !g.2).length
  if bad ≠ 0 then bumpReg Fd.spEccUncorr n bad
  let fr := { frame0 with
    sctx := Fin.ofNat 8 f.ctx, score := Fin.ofNat 32 n, dinst := Fin.ofNat 16 (dstInst f.dst),
    dpkg := Fin.ofNat 4096 (dstPkg f.dst), dcore := Fin.ofNat 32 (dstCore f.dst),
    offset := BitVec.ofNat 16 (dstOff f.dst + f.taken), tag := BitVec.ofNat 16 (tagOf f.cmd),
    mark := BitVec.ofNat 120 (markOf (gs.map (·.1))), grans := gs.map (·.1.data) }
  let key := stageKey f.rsv f.ctx
  modLink l fun x => { x with
    staged := tabSet x.staged key (tabGet [] x.staged key ++ [⟨fr, if f.rsv then f.ctx + 1 else 0, []⟩]) }
  let f' : LsendFlight := { f with taken := f.taken + k, bad := f.bad || bad != 0, since := s.tb.now }
  if f'.taken = f'.grans then lsendDone n f' false
  else modCore n fun c => { c with lsends := c.lsends.map fun g => if g.id = f.id then f' else g }

/-- Stage frames of one owner on a link while fewer than two are staged (R348). -/
def stageFill (l : Nat) (rsv : Bool) (ctx : Nat) : Nat → M s0 Unit
  | 0 => pure ()
  | k + 1 => do
    let s ← rd
    if s.linkSt l = 6 && s.txGrans l ≠ 0 && (tabGet [] (s.link l).staged (stageKey rsv ctx)).length < 2 then
      match (s.flights l).find? fun p => p.2.rsv = rsv && p.2.ctx = ctx with
      | some (n, f) =>
        takeFrame l n f
        stageFill l rsv ctx k
      | none => pure ()

/-- Stage what a link can take of every owner. -/
def stageAll (l : Nat) : M s0 Unit :=
  each (List.range 8) fun c => do
    stageFill l true c 2
    stageFill l false c 2

/-- LSEND: sends the data of its descriptor over a bundle, in reserved or best-effort slots (R213); over a link that is
DOWN or quarantined it completes with error (R355). -/
def execLsend (core : Fin 32) (ph : Phys) (s : State) : Out :=
  run s (issueWith core .dx [0x47] ph (lsendReason core) (fun t r h => lsendBusy t r h ((t.core core).eng .dx)) (fun i => do
    applyUpsets i.core i.ctx ph
    countConflicts i
    let good ← readDesc i (cf i.cmd 87 64) 64
    let s ← rd
    let (d, _) := s.lsendDesc i.core i.ctx i.cmd
    let l := (s.routeOn (lsendBundle i.cmd) (dstPkg d.dst)).getD 0
    let id := (s.core i.core).nextId
    if d.total = 0 then i.push (i.poison || !good)
    else if s.linkSt l = 0 || s.linkSt l = 7 then i.push true
    else
      modCore i.core fun c => { c with
        nextId := id + 1,
        lsends := c.lsends ++ [{ id := id, cmd := i.cmd, ticket := i.ticket, outs := i.outs, poison := i.poison || !good,
                                 ctx := i.ctx, link := l, rsv := lsendRsv i.cmd, dst := d.dst, src := d.src, len := d.len,
                                 nrows := d.nrows, sstride := d.sstride, since := s.tb.now }] }
      stageFill l (lsendRsv i.cmd) i.ctx 2) (dxSeen core ph))

/-! ### What a link puts on its lanes (R338, R340) -/

/-- The 64 bytes of a frame's header (Table 14-3), for a TYPE: 0 EMPTY, 1 DATA, 2 CONTROL. -/
def frameHeader (f : LFrame) (type : Nat) : List Byte :=
  let h := toLe (type * 16) 1 ++ toLe f.grans.length 1 ++ toLe f.grain.toNat 6 ++ toLe (f.sinst.val * 4096 + f.spkg.val) 2
    ++ toLe (f.sctx.val * 32 + f.score.val) 1 ++ [f.owner] ++ toLe (f.dinst.val * 4096 + f.dpkg.val) 2 ++ toLe f.dcore.val 1
    ++ toLe f.inc.toNat 1 ++ toLe f.offset.toNat 2 ++ toLe f.seq.toNat 2 ++ toLe f.tag.toNat 2 ++ [f.becrd] ++ zeros 1
    ++ toLe f.mark.toNat 15 ++ zeros 17 ++ toLe (crc32c f.grans.flatten) 4
  h ++ toLe (crc32c h) 4

/-- The bytes of a frame: header, then granules. -/
def frameBytes (f : LFrame) (type : Nat) : List Byte := frameHeader f type ++ f.grans.flatten

/-- The 32 bytes of a ring admission message (Table 14-12). -/
def resvBytes (m : ResvMsg) (type : Nat) : List Byte :=
  toLe type 1 ++ toLe m.hop 1 ++ toLe (m.oinst.val * 4096 + m.opkg.val) 2 ++ toLe m.slice.toNat 2 ++ [m.reason] ++ zeros 1
    ++ toLe m.hopRec.toNat 8 ++ toLe m.first.toNat 2 ++ toLe m.count.toNat 2 ++ toLe m.stride.toNat 2 ++ toLe m.offset.toNat 2
    ++ toLe m.nhop 1 ++ zeros 7

/-- The 32 bytes of an IDENT message (Table 14-11). -/
def identMsg (m : IdentMsg) : List Byte :=
  toLe 1 2 ++ toLe (m.inst.val * 4096 + m.pkg.val) 2 ++ toLe (m.bundle.val + m.link.val * 2) 1 ++ zeros 3
    ++ toLe m.version.toNat 4 ++ toLe m.digest.toNat 8 ++ toLe m.rxFenced.toNat 3 ++ zeros 9

/-- The 32 bytes of a message that leaves on link l at a stamp (Table 14-4). Tables 14-11 and 14-12 give the layouts of IDENT,
FEAT and the ring messages; those of the others are assumption log 33. -/
def LCtl.bytes (l stamp : Nat) : LCtl → List Byte
  | .ident m => identMsg m
  | .feat revs bits => toLe 2 1 ++ [revs] ++ zeros 2 ++ toLe bits.toNat 4 ++ zeros 24
  | .timing => toLe 3 8 ++ toLe stamp 8 ++ zeros 16
  | .timingReply t1 t2 => toLe 4 8 ++ toLe t1 8 ++ toLe t2 8 ++ toLe stamp 8
  | .barArrive i phase pkg poison => toLe 5 1 ++ toLe (b2n phase + 2 * b2n poison) 1 ++ toLe i 2 ++ toLe pkg 2 ++ zeros 26
  | .barRelease i phase pkg poison => toLe 6 1 ++ toLe (b2n phase + 2 * b2n poison) 1 ++ toLe i 2 ++ toLe pkg 2 ++ zeros 26
  | .loss seq inc => toLe 7 1 ++ toLe l 1 ++ toLe seq 2 ++ toLe inc 1 ++ zeros 27
  | .refuse tag score sctx o =>
    toLe 8 1 ++ toLe (sctx * 32 + score) 1 ++ toLe tag 2 ++ toLe o.inc.toNat 1 ++ zeros 1
      ++ toLe (o.inst.val * 4096 + o.pkg.val) 2 ++ zeros 24
  | .resvReq m => resvBytes m 9
  | .resvAck m => resvBytes m 10
  | .resvNak m => resvBytes m 11
  | .resvRel m => resvBytes m 12
  | .resvHoldEnd m => resvBytes m 13

/-- A message may go out on a link in its present state: IDENT and QUARANTINE carry what they exchange (R341, R345), and an
ACTIVE link what its features let it (Table 14-7). -/
def State.ctlGoes (s : State) (l : Nat) (m : LCtl) : Bool :=
  match m with
  | .ident _ | .feat _ _ => s.linkSt l = 3 || s.linkSt l = 7
  | .timing | .timingReply _ _ => s.linkSt l = 3 || s.linkHas l 0
  | .barArrive _ _ _ _ | .barRelease _ _ _ _ => s.linkHas l 1
  | .loss _ _ => s.linkHas l 5
  | _ => s.linkSt l = 6

/-- Granules of a control frame of a link: before its revision is chosen that of DXL-2 (R341), at full width while the far end
has reported no width. -/
def State.ctlGrans (s : State) (l : Nat) : Nat :=
  if s.linkSt l = 6 then s.txGrans l
  else
    let w := s.reg Fd.linkStatusTxWidth l
    frameGrans 1 (if w = 0 then 20 / s.splitOf (l / 4) else w)

/-! ### A slot of a link (R348, R351, R352) -/

/-- What a link sends in a slot: EMPTY, or a frame with where it came from. -/
inductive SlotPick where
  | empty
  | again (o : LOut)
  | staged (key : Nat) (o : LOut)
  | fwdRsv (h : FwdHold)
  | fwdBe (link : Nat) (o : LOut)
  | control
  /-- A forward flow's slot with no frame: EMPTY, and late (R352). -/
  | late

/-- The local context that a FREE slot serves: round robin from after the one served last. -/
def Link.nextBe (x : Link) : Option (Nat × LOut) :=
  ((List.range 8).filterMap fun i =>
    let key := 8 + (x.lastCtx + 1 + i) % 8
    ((tabGet [] x.staged key).head?).map fun o => (key, o)).head?

/-- The frame that the slot of grain g calls for on link l (R348). A frame to send again goes first in a slot of its owner
(R351); beyond the holdover limit the reserved slots go EMPTY (R48). -/
def State.slotPick (s : State) (l g : Nat) : SlotPick :=
  let x := s.link l
  let code := s.slotOwner 0 l (g % 1024)
  let again := if s.linkSt l = 6 then x.again.find? (·.owner = code) else none
  if code = 0xFF then
    match again with
    | some o => .again o
    | none => .control
  else if code = 0 then
    match again, x.fwdBe, x.nextBe with
    | some o, _, _ => .again o
    | none, p :: _, _ => if x.credit = 0 then .empty else .fwdBe p.1 p.2
    | none, [], some (key, o) => if x.credit = 0 then .empty else .staged key o
    | none, [], none => .empty
  else if code ≤ 8 then
    match again, tabGet [] x.staged (code - 1) with
    | some o, _ => if s.tb.limited then .empty else .again o
    | none, o :: _ => if s.tb.limited then .empty else .staged (code - 1) o
    | none, [] => .empty
  else
    match again, x.fwdRsv.find? fun h => h.grain = g && h.out.owner = code with
    | some o, _ => if s.tb.limited then .late else .again o
    | none, some h => if s.tb.limited then .late else .fwdRsv h
    | none, none => .late

/-- A frame of this cluster, as opposed to one that it forwards. -/
def ownFrame (f : LFrame) : Bool := f.spkg = Config.pkg && f.sinst = Config.inst

/-- The fields that a frame takes in the slot of grain g on link l: its grain, the slot's owner, and the credits that go back;
a forwarded frame keeps the INC of its sender (R338, R352). -/
def State.framed (s : State) (l g owner seq : Nat) (f : LFrame) : LFrame :=
  { f with
    grain := BitVec.ofNat 48 g, owner := BitVec.ofNat 8 owner, seq := BitVec.ofNat 16 seq,
    inc := if ownFrame f then BitVec.ofNat 8 (s.portIncOf incLport) else f.inc,
    becrd := BitVec.ofNat 8 (min 255 (s.link l).freed) }

/-- Put a frame on the link in the slot of grain g: its header is completed, it takes the next SEQ unless it is sent again,
and it is kept for 128 grains (R338, R351). A best-effort frame takes a credit when it is first sent (R350). -/
def linkSend (l g : Nat) (replay : Bool) (o : LOut) : M s0 Unit := do
  let s ← rd
  let x := s.link l
  let o' : LOut := { o with
    frame := s.framed l g o.owner (if replay then o.frame.seq.toNat else x.txSeq) o.frame }
  eff (.link l { x with
    txSeq := if replay then x.txSeq else (x.txSeq + 1) % 65536,
    freed := x.freed - min 255 x.freed,
    credit := if !replay && o.owner = 0 then x.credit - 1 else x.credit,
    kept := (x.kept.filter fun p => !elapsed g p.1 129) ++ [(g, o')],
    sent := frameBytes o'.frame (if o.owner = 0xFF then 2 else 1) })

/-- An EMPTY frame goes out in the slot of grain g (R348); it carries the credits that go back. -/
def sendEmpty (l g : Nat) : M s0 Unit := do
  let s ← rd
  modLink l fun x => { x with
    freed := x.freed - min 255 x.freed, sent := frameBytes (s.framed l g (s.slotOwner 0 l (g % 1024)) 0 frame0) 0 }

/-- A control frame goes out with the messages that wait and may go, oldest first, as many as it holds (R340); an ACTIVE link
drops those that it may not carry. Where in the slot a timing message departs is open. -/
def sendControl (l g : Nat) : M s0 Unit := do
  let s ← rd
  let wait := (tabGet [] s.ctl l).filter fun m => s.linkSt l ≠ 6 || s.ctlGoes l m
  let n := s.ctlGrans l
  let msgs := (wait.filter (s.ctlGoes l)).take (2 * n)
  let w ← freshWord
  let body := slice (msgs.map (LCtl.bytes l (64 * g + w.toNat % 64))).flatten 0 (64 * n)
  eff (.ctl l (msgs.foldl (fun q m => q.erase m) wait))
  linkSend l g false ⟨{ frame0 with grans := chunks 64 n body }, 0xFF, msgs⟩

/-- Count a forwarded frame, in units of 2^8 (Table 14-9). -/
def countFwd (l : Nat) : M s0 Unit := do
  let s ← rd
  let t := (s.link l).fwdRem + 1
  if t / 256 ≠ 0 then bumpReg Fd.linkFwdFwd l
  modLink l fun x => { x with fwdRem := t % 256 }

/-- Reserved sends that have found no slot of their context on an ACTIVE link for a whole period complete with error
(R348). -/
def slotless (l : Nat) : M s0 Unit := do
  let s ← rd
  if s.linkSt l = 6 then
    each ((s.flights l).filter fun p => p.2.rsv && elapsed s.tb.now p.2.since 1024 && !s.ownsSlots l p.2.ctx) fun p =>
      lsendDone p.1 p.2 true

/-- A discard of a frame that passed its CRCs (R339). -/
def discard (l : Nat) : M s0 Unit := bumpReg Fd.linkLostDiscard l

/-- The first TX slot of an owner on link l, k or more grains after grain g. -/
def State.slotAfter (s : State) (l owner g k : Nat) : Option Nat :=
  ((List.range 1024).find? fun i => s.slotOwner 0 l ((g + k + i) % 1024) = owner).map fun i => grainAdd g (k + i)

/-- A frame sent again in a flow's slot displaces the frames that the flow holds by one slot each (R351). -/
def displace (l owner : Nat) : M s0 Unit := do
  let s ← rd
  modLink l fun x => { x with
    fwdRsv := x.fwdRsv.map fun h =>
      if h.out.owner = owner then { h with grain := (s.slotAfter l owner h.grain 1).getD h.grain } else h }

/-- Reserved frames held for slots up to that of grain g have missed them: they are discarded (R339, R352). -/
def dropPassed (l g : Nat) : M s0 Unit := do
  let s ← rd
  let x := s.link l
  modLink l fun x => { x with fwdRsv := x.fwdRsv.filter fun h => !reached g h.grain }
  each (x.fwdRsv.filter fun h => reached g h.grain) fun h => discard h.src

/-- Send what a slot calls for (R348). -/
def slotSend (l g : Nat) : SlotPick → M s0 Unit
  | .empty => sendEmpty l g
  | .late => do
    bumpReg Fd.linkFwdFwdLate l
    sendEmpty l g
  | .again o => do
    modLink l fun x => { x with again := x.again.erase o }
    bumpReg Fd.linkErrReplays l
    linkSend l g true o
    if 0x40 ≤ o.owner && o.owner < 0x80 then displace l o.owner
  | .staged key o => do
    modLink l fun x => { x with
      staged := tabSet x.staged key ((tabGet [] x.staged key).drop 1), lastCtx := if 8 ≤ key then key - 8 else x.lastCtx }
    linkSend l g false o
  | .fwdRsv h => do
    modLink l fun x => { x with fwdRsv := x.fwdRsv.erase h }
    linkSend l g false h.out
    countFwd l
  | .fwdBe src o => do
    modLink l fun x => { x with fwdBe := x.fwdBe.drop 1 }
    modLink src fun x => { x with freed := x.freed + 1 }
    linkSend l g false o
    countFwd l
  | .control => sendControl l g

/-- LINK_SLOT: an ACTIVE link sends the frame that the owner of this grain's slot calls for, or EMPTY (R348); a link in IDENT or
QUARANTINE sends control frames alone (R341, R345). -/
def execLinkSlot (link : Fin 8) (s : State) : Out :=
  let l := link.val
  let g := s.tb.now
  let on := s.linkSt l = 6 || ((s.linkSt l = 3 || s.linkSt l = 7) && g % 64 = 0)
  runIf (s.alive && on && (s.link l).lastSlot != some g) s do
    modLink l fun x => { x with lastSlot := some g }
    stageAll l
    let t ← rd
    slotSend l g (t.slotPick l g)
    dropPassed l g
    stageAll l
    slotless l

/-! ### A link leaves service (R355) -/

/-- Every send routed to a link that is DOWN or quarantined completes with error, and what it staged or kept is gone; the frames
that it was to forward are discarded, and the buffers of the best-effort ones are free again (R339, R350). -/
def linkFails (l : Nat) : M s0 Unit := do
  let s ← rd
  let x := s.link l
  each (s.flights l) fun p => lsendDone p.1 p.2 true
  modLink l fun x => { x with staged := [], kept := [], again := [], fwdBe := [], fwdRsv := [] }
  each x.fwdBe fun p => do
    discard p.1
    modLink p.1 fun y => { y with freed := y.freed + 1 }
  each x.fwdRsv fun h => discard h.src

/-- Lanes of a link at fault, as a mask over the 40 lanes. -/
def State.faultLanes (s : State) (l : Nat) : Nat :=
  (s.lanesOf l).foldl (fun n i => if s.reg Fd.laneStatusFault i ≠ 0 then n + 2 ^ i else n) 0

/-- A link goes DOWN with a fault code: 1 LONG, 2 TIMEOUT, 4 NO_WIDTH, 0 none; the LINK_DOWN record holds the state it left
and the lanes at fault (R341). -/
def linkDown (l fault : Nat) : M s0 Unit := do
  let s ← rd
  platRec .linkDown unitLport 0 (toLe (s.linkSt l) 1 ++ toLe (s.faultLanes l) 5)
  if fault ≠ 0 then setReg Fd.linkStatusFaults l (s.reg Fd.linkStatusFaults l ||| fault)
  each (s.lanesOf l) fun i => setReg Fd.laneStatusActive i 0
  linkEnter l 0
  linkFails l

end Sys2Proof.Machine
end

