-- ==== Sys2Proof/Machine/Apply.lean ====
section
/-! DEFINITION. Committed sets take effect (R12, R391): STAGED_SET_APPLY, and what follows from a set, a SPLIT change among it
(R334). -/

namespace Sys2Proof.Machine

variable {s0 : State}

/-- A link that the new split does not create: its sends fail, and what it held and queued is gone (R355). -/
def dropLink (l : Nat) : M s0 Unit := do
  linkFails l
  linkEnter l 0
  eff (.ctl l [])
  eff (.link l {})

/-- A SPLIT change: the bundle is split anew and every link of it retrains (R334, R341). A link that remains keeps what it
staged and holds for replay (R355). -/
def splitBundle (bundle code : Nat) : M s0 Unit := do
  let s ← rd
  let n := splitLinks code
  if n ≠ s.splitOf bundle then
    each ((bundleLinks bundle (s.splitOf bundle)).filter fun l => n ≤ l % 4) dropLink
    eff (.split (if bundle = 0 then n else s.splitOf 0) (if bundle = 1 then n else s.splitOf 1))
    each (bundleLinks bundle n) (linkDetect true)

/-- What follows from a set once its fields hold: a committed REC_BASE opens the platform's ring at SEQ 1 (R398); TRACE_HEAD
counts from the setting of EN (Table 16-10); a commit of LATCH_EN empties the latches (R66). -/
def afterSet (c : CommitSet) (old : State) : M s0 Unit := do
  if c.vals.any fun v => v.fld = Fd.recBaseLoAddr || v.fld = Fd.recBaseHiAddr then
    let s ← rd
    eff (.recs { s.recs with baseSet := true })
    setReg Fd.recSeqSeq 0 1
    flushRecords
  let s ← rd
  if c.block = .dbg && old.reg Fd.traceCfgEn = 0 && s.reg Fd.traceCfgEn = 1 then
    setReg Fd.traceHeadCount 0 0
    modDbg fun d => { d with ringPos := 0 }
  if s.reg Fd.snapCfgIvMax < s.reg Fd.snapCfgIvMin then setReg Fd.snapCfgIvMin 0 (s.reg Fd.snapCfgIvMax)
  if c.block = .tile then modCore c.chan fun c => { c with latch0 := none, latch1 := none }
  if c.block = .lp then
    splitBundle 0 (s.reg Fd.lpCfgSplitA)
    splitBundle 1 (s.reg Fd.lpCfgSplitB)

/-- The value that a staged one takes effect as, where the map gives another: LOSS_LIMIT, XMISS_EXP, TRACE_CFG.LOG (R12). -/
def inForce (f : Fld) (v : Nat) : Nat :=
  if f == Fd.grainCtrlLossLimit then max 16 (v % 256)
  else if f == Fd.wadiCtrlXmissExp then max 8 (min 20 (v % 32))
  else if f == Fd.traceCfgLog then max 20 (min 30 (v % 32)) else v

/-- STAGED_SET_APPLY: the oldest committed set of a block and channel is applied whole at its point, or discarded as a
STAGE breach (R391). -/
def execStagedSetApply (b : Block) (chan : Nat) (s : State) : Out :=
  match s.sets.find? fun c => c.block = b && c.chan = chan with
  | none => .next s
  | some c => runIf (s.alive && c.due s) s do
    eff (.sets (s.sets.erase c))
    if c.breach s then
      if c.hsrc ≠ 0 then
        setReg Fd.hpErrLastKind 0 8
        setReg Fd.hpErrLastHsrc 0 (c.hsrc - 1)
        setReg Fd.hpErrLastAddr 0 (commitAddr c.block)
    else
      each c.vals fun v => setReg v.fld v.chan (inForce v.fld v.val)
      afterSet c s

end Sys2Proof.Machine
end

