-- ==== Sys2Proof/Machine/Mailbox.lean ====
section
/-! DEFINITION. The mailbox exchange (R368 to R373): ringing, taking, checking a header, answering, acknowledging, and the
service of one command at a time in firmware order. -/

namespace Sys2Proof.Machine

variable {s0 : State}

/-! ### Status codes (Table 15-3) -/

inductive Status where
  | ok | pending | busy | notReady | badAbi | badOpcode | badLength | notPermitted | noCtx | refused | conflict
  | mismatch | expired | noSpace | address
deriving DecidableEq, Repr

def Status.code : Status → Nat
  | .ok => 0 | .pending => 1 | .busy => 2 | .notReady => 3 | .badAbi => 4 | .badOpcode => 5 | .badLength => 6
  | .notPermitted => 7 | .noCtx => 8 | .refused => 9 | .conflict => 10 | .mismatch => 11 | .expired => 12
  | .noSpace => 13 | .address => 14

/-! ### Replies (R371, Table 15-2) -/

/-- The bytes of a reply in the ABI of its request. -/
def Req.replyBytes (r : Req) (st : Status) (detail : Nat) (payload : List Byte) : List Byte :=
  if r.abi = 2 then
    toLe r.opcode 1 ++ toLe 2 1 ++ toLe payload.length 1 ++ toLe st.code 1 ++ toLe r.seq 4 ++ payload
  else
    toLe r.opcode 2 ++ toLe 3 1 ++ toLe payload.length 1 ++ toLe r.seq 4 ++ toLe st.code 2 ++ toLe detail 2 ++ zeros 4
      ++ payload

/-- Answer a request: MB_REP is written and VALID set (R368). A pair that was reset since gets no reply. -/
def reply (r : Req) (st : Status) (detail : Nat := 0) (payload : List Byte := []) : M s0 Unit := do
  let s ← rd
  if (s.pair r.pair).epoch = r.epoch then
    let b := r.replyBytes st detail payload
    each (List.range 30) fun w => setReg (Fd.mbRep w) r.pair (leAt b (4 * w) 4)
    setReg Fd.mbRepStatusValid r.pair 1
    modPair r.pair fun p => { p with validAt := s.tb.now, service := none }
  else modPair r.pair fun p => { p with service := if p.service = some r then none else p.service }

/-- Set a request aside: it is answered later. -/
def setAside (r : Req) : M s0 Unit := modPair r.pair fun p => { p with service := none }

/-! ### Ringing and acknowledging (R368, R370) -/

/-- The pair answers this host source (R364). -/
def State.answers (s : State) (pair hsrc : Nat) : Bool := (s.pair pair).bound && (s.pair pair).hsrc = hsrc

/-- MAILBOX_RING: a write of RING submits the request in MB_REQ; a second one before the acknowledgement is counted. -/
def execMailboxRing (hsrc : Fin 16) (pair : Fin 8) (s : State) : Out :=
  runIf (s.takes (.host hsrc)) s do
    rowWrite (.host hsrc) (0x1078 + 256 * pair) do
      if s.answers pair hsrc then
        if s.reg Fd.mbStatusTaken pair = 1 then hpErr 5 hsrc (0x1078 + 256 * pair)
        else
          setReg Fd.mbStatusTaken pair 1
          modPair pair fun p => { p with rung := some s.tb.now }

/-- REPLY_ACK: a write of ACK acknowledges a reply, and VALID and TAKEN are cleared. -/
def execReplyAck (hsrc : Fin 16) (pair : Fin 8) (s : State) : Out :=
  runIf (s.takes (.host hsrc)) s do
    rowWrite (.host hsrc) (0x10FC + 256 * pair) do
      if s.answers pair hsrc && s.reg Fd.mbRepStatusValid pair = 1 then
        setReg Fd.mbRepStatusValid pair 0
        setReg Fd.mbStatusTaken pair 0

/-- REPLY_DISCARD: a reply not acknowledged within 2^20 grains of VALID is discarded (R370). -/
def execReplyDiscard (pair : Fin 8) (s : State) : Out :=
  runIf (s.alive && s.reg Fd.mbRepStatusValid pair = 1 && elapsed s.tb.now (s.pair pair).validAt (2 ^ 20)) s do
    setReg Fd.mbRepStatusValid pair 0
    setReg Fd.mbStatusTaken pair 0
    hpErr 6 (s.pair pair).hsrc (0x10F8 + 256 * pair)

/-! ### Taking (R362, R369, R371 to R373) -/

/-- The commands: opcode, whether only the platform may send it, only a tenant, ABI-2 (Table 15-4). -/
def commandTable : List (Nat × Bool × Bool × Bool) :=
  [(0x01, false, false, true), (0x02, true, false, true), (0x03, true, false, true), (0x10, false, false, true),
   (0x11, false, false, true), (0x12, false, false, true), (0x13, false, false, true), (0x18, false, false, true),
   (0x19, false, true, true), (0x20, false, true, true), (0x21, false, true, true), (0x22, false, true, true),
   (0x23, false, true, true), (0x28, false, true, true), (0x29, false, true, true), (0x2A, false, true, true),
   (0x2B, false, true, true), (0x2C, false, true, true), (0x2D, false, true, true), (0x30, false, true, true),
   (0x38, false, false, true), (0x40, false, false, false), (0x48, true, false, false)]

/-- Payload bytes of a command: those of Table 15-5, else the length that the firmware defines (assumption log 10). -/
def payloadBytes (op : Nat) : Nat := if op = 0x10 then 18 else if op = 0x11 then 8 else Config.payloadLen op

/-- The firmware answers BUSY: it updates or restarts (R389, R395). -/
def State.fwBusy (s : State) : Bool := s.fw.update.isSome && s.fwState = 3 || s.fw.restarting.isSome

/-- What the header checks answer: the ABI first, then the state, the opcode, the lengths, the principal. -/
def State.headerStatus (s : State) (pair : Nat) (req : List Byte) : Status :=
  let b1 := leAt req 1 1
  let b2 := leAt req 2 1
  let abi2 := b1 = 2
  let op := if abi2 then leAt req 0 1 else leAt req 0 2
  let len := if abi2 then b2 else leAt req 3 1
  if s.fwBusy then .busy
  else if !abi2 && !(b1 = 0 && b2 = 3) then .badAbi
  else if (s.fwState = 0 && op ≠ 0x01 && op ≠ 0x48) || (s.fwState = 1 && pair ≠ 0) then .notReady
  else match commandTable.find? fun c => c.1 = op with
    | none => .badOpcode
    | some (_, plat, tenant, old) =>
      if abi2 && !old then .badOpcode
      else if len ≠ payloadBytes op || (abi2 && (112 < len || leAt req 3 1 ≠ 0))
          || (!abi2 && (104 < len || leAt req 8 8 ≠ 0)) then .badLength
      else if (plat && pair ≠ 0) || (tenant && pair = 0) then .notPermitted
      else .ok

/-- The request that MB_REQ of a pair holds; one that breaks R371 is answered in ABI-3. -/
def State.request (s : State) (pair : Nat) : List Byte :=
  ((List.range 30).map fun w => toLe (s.reg (Fd.mbReq w) pair) 4).flatten

/-- The request in the words of MB_REQ (Table 15-2); `rung` is the grain of its RING. -/
def reqOf (pair epoch rung : Nat) (b : List Byte) : Req :=
  if leAt b 1 1 = 2 then
    { pair := pair, abi := 2, opcode := leAt b 0 1, seq := leAt b 4 4, payload := slice b 8 (leAt b 2 1), epoch := epoch,
      rung := rung }
  else
    { pair := pair, abi := 3, opcode := leAt b 0 2, seq := leAt b 4 4, payload := slice b 16 (leAt b 3 1), epoch := epoch,
      rung := rung }

/-- The pair that the firmware serves next: round-robin after the last (R369); in state ROM only pair 0 answers. -/
def State.nextPair (s : State) : Option Nat :=
  ((List.range 8).map fun i => (s.fw.lastPair + 1 + i) % 8).find? fun p =>
    (s.pair p).rung.isSome && (s.fwState ≠ 0 || p = 0)

/-- Every request taken so far has been answered or set aside: requests are handled one at a time (R369). -/
def State.fwFree (s : State) : Bool := (List.range 8).all fun p => (s.pair p).service.isNone

/-- MAILBOX_TAKE: the firmware takes a rung request and answers it, or keeps it for its command. -/
def execMailboxTake (s : State) : Out :=
  match s.nextPair with
  | none => .next s
  | some p => runIf (s.alive && s.fwFree) s do
    let b := s.request p
    let r := reqOf p (s.pair p).epoch ((s.pair p).rung.getD 0) b
    modFw fun f => { f with lastPair := p }
    modPair p fun x => { x with rung := none, service := some r }
    let st := s.headerStatus p b
    if st ≠ .ok then reply r st

/-- The request that the firmware serves now, where it is of this opcode. -/
def State.serving (s : State) (op : Nat) : Option Req :=
  match (s.pair s.fw.lastPair).service with
  | some r => if r.opcode = op then some r else none
  | none => none

/-- Serve a mailbox command; without such a request in service it does not happen (assumption log 5). -/
def serve (op : Nat) (s : State) (body : Req → M s Unit) : Out :=
  match s.serving op with
  | some r => runIf s.alive s (body r)
  | none => .next s

/-- The requester may name context c: it is admitted, and its owner or the platform asks (R373). -/
def State.mayName (s : State) (r : Req) (c : Nat) : Bool :=
  (s.ctx c).prot = .admitted && (r.pair = 0 || (s.ctx c).adm.tenant = r.pair)

/-- Serve a command on a context that the requester may name; any other is answered NO_CTX. -/
def serveCtx (op c : Nat) (s : State) (body : Req → M s Unit) : Out :=
  serve op s fun r => if s.mayName r c then body r else reply r .noCtx

/-- n bytes at a lie in the staging region of a request's pair (R364). -/
def State.inStaging (s : State) (r : Req) (a n : Nat) : Bool :=
  (s.pair r.pair).staging ≤ a && a + n ≤ (s.pair r.pair).staging + 2 ^ 20

end Sys2Proof.Machine
end

