-- ==== Sys2Proof/Machine/Entries.lean ====
section
/-! DEFINITION. Sequence entries, page lists and page pools (R286 to R290), and the mailbox commands on them (R292, R373,
Table 12-2). -/

namespace Sys2Proof.Machine

variable {s0 : State}

/-! ### The context's schedule -/

/-- An event of R299, or a context that may run again: it waits for its next step. -/
def wake (c : Nat) : M s0 Unit := do
  let s ← rd
  modCtx c fun x =>
    if x.run = .idle && x.prot = .admitted then { x with quiet := false, run := .waiting, waitFrom := s.tb.now }
    else { x with quiet := false }

/-! ### Page pools and page lists (R289, R290) -/

/-- Write bytes for a context, in one granule or in two: each is read, merged and written whole (R288). -/
def mergeWrite (c a : Nat) (v : List Byte) : M s0 Unit := do
  viaStations (.step c) false a v.length
  gwrite (.step c) a v

def Adm.poolSize (a : Adm) : Nat := 2 ^ a.poolLog
def Adm.tpp (a : Adm) : Nat := 2 ^ a.tppLog

/-- Put a page at the tail of a context's pool. -/
def poolPut (c page : Nat) : M s0 Unit := do
  let s ← rd
  let x := s.ctx c
  mergeWrite c (x.adm.poolBase + 8 * ((x.poolHead + x.poolCount) % x.adm.poolSize)) (toLe page 8)
  modCtx c fun x => { x with poolCount := x.poolCount + 1 }

/-- Extend an entry's list until it covers a position, taking pages from the pool's head; false where the pool runs out or
the list is full (R290). -/
def extend (c i : Nat) (pos : Nat) : Nat → M s0 Bool
  | 0 => do
    let s ← rd
    pure (decide (pos / (s.ctx c).adm.tpp < (s.entry i).npages))
  | k + 1 => do
    let s ← rd
    let x := s.ctx c
    let e := s.entry i
    if pos / x.adm.tpp < e.npages then pure true
    else if x.poolCount = 0 || 4096 ≤ e.npages then pure false
    else
      let entry ← gget (.step c) (x.adm.poolBase + 8 * x.poolHead) 8
      let page := leNat entry
      modCtx c fun x => { x with
        poolHead := (x.poolHead + 1) % x.adm.poolSize, poolCount := x.poolCount - 1 }
      mergeWrite c (e.pages + 8 * e.npages) (toLe page 8)
      modEntry i fun e => { e with npages := e.npages + 1 }
      extend c i pos k

/-- Page k of an entry's list. -/
def State.pageOf (s : State) (e : Entry) (k : Nat) : Nat := leNat (s.gread (e.pages + 8 * k) 8)

/-- Read page k of an entry's list. -/
def readPage (who : MemUser) (e : Entry) (k : Nat) : M s0 Nat := do
  viaStations who false (e.pages + 8 * k) 8
  let s ← rd
  pure (s.pageOf e k)

/-- Pages of an image entry that the snapshot in progress mirrors: from SNAP_POS div TPP to (POS − 1) div TPP (R412). -/
def State.mirrorRange (s : State) (i : Nat) (e : Entry) : List Nat :=
  let tpp := (s.ctx e.ctx).adm.tpp
  let from_ := tabGet 0 s.snap.snapPos i
  if e.pos ≤ from_ then []
  else (List.range ((e.pos - 1) / tpp + 1)).filter fun k => from_ / tpp ≤ k

/-- A page is being mirrored for the snapshot in progress (R413). -/
def State.mirroring (s : State) (i k : Nat) : Bool :=
  s.snap.st ≠ 0 && (match s.snap.image.find? fun kv => kv.1 = i with
    | some (_, e) => e.st != .free && (s.mirrorRange i e).contains k
    | none => false)

/-- Read the pages of an entry's list, in order. -/
def readPages (who : MemUser) (e : Entry) : List Nat → M s0 (List Nat)
  | [] => pure []
  | k :: l => do
    let page ← readPage who e k
    let rest ← readPages who e l
    pure (page :: rest)

/-- Return an entry's pages to the pool in list order; those that a snapshot mirrors are held back (R289, R413). -/
def returnPages (c i : Nat) : M s0 Unit := do
  let s ← rd
  let e := s.entry i
  let pages ← readPages (.step c) e (List.range e.npages)
  each (List.range e.npages) fun k => do
    let page := pages.getD k 0
    if s.mirroring i k then modSnap fun n => { n with heldBack := n.heldBack ++ [(c, page)] }
    else poolPut c page

/-! ### Entry images (Table 12-1) -/

def EntState.ofBits (n : Nat) : EntState :=
  match n with
  | 1 => .ready
  | 2 => .held
  | 3 => .done
  | _ => .free

/-- The 64 bytes of an entry. -/
def Entry.bytes (e : Entry) : List Byte :=
  toLe e.seqId 8 ++ toLe e.pos 4 ++ toLe e.plen 4 ++ toLe e.limit 4 ++ toLe e.draw 4 ++ toLe e.pages 8
    ++ toLe e.npages 2 ++ toLe (e.ctx % 8 * 32 + e.st.code) 1 ++ toLe (e.model % 16) 1 ++ toLe e.stop 4 ++ toLe e.last 4
    ++ toLe e.invT 4 ++ toLe e.topk 2 ++ toLe e.outcome 1 ++ toLe (e.rlimit % 16 * 16 + e.rcount % 16) 1 ++ toLe e.tokens 8
    ++ zeros 4

/-- The entry that 64 bytes hold. -/
def entryOf (b : List Byte) : Entry :=
  { seqId := leAt b 0 8, pos := leAt b 8 4, plen := leAt b 12 4, limit := leAt b 16 4, draw := leAt b 20 4,
    pages := leAt b 24 8, npages := leAt b 32 2, ctx := leAt b 34 1 / 32, st := .ofBits (leAt b 34 1 % 4),
    model := leAt b 35 1 % 16, stop := leAt b 36 4, last := leAt b 40 4, invT := leAt b 44 4, topk := leAt b 48 2,
    outcome := leAt b 50 1, rlimit := leAt b 51 1 / 16, rcount := leAt b 51 1 % 16, tokens := leAt b 52 8 }

/-- The stop token that stands for none. -/
def noStop : Nat := 0xFFFFFFFF

/-! ### Commands on entries -/

/-- A LIMIT that R292 refuses: below PLEN, below POS, or above 4096 × TPP. -/
def limitBad (a : Adm) (e : Entry) : Bool := e.limit < e.plen || e.limit < e.pos || 4096 * a.tpp < e.limit

/-- The byte offset of the field for which SEQ_OPEN refuses an image. -/
def openBad (a : Adm) (c : Nat) (e : Entry) : Option Nat :=
  if e.ctx ≠ c then some 34
  else if e.plen = 0 then some 12
  else if limitBad a e then some 16
  else if e.pages % 64 ≠ 0 then some 24
  else if e.tokens % 64 ≠ 0 then some 52
  else none

/-- The fields that a SEQ_SET changes. -/
def Entry.change (e : Entry) (ch : SeqChange) : Entry :=
  { e with
    limit := (ch.limit.map BitVec.toNat).getD e.limit, stop := (ch.stop.map BitVec.toNat).getD e.stop,
    invT := (ch.invT.map BitVec.toNat).getD e.invT, topk := (ch.topk.map BitVec.toNat).getD e.topk,
    rlimit := (ch.rlimit.map BitVec.toNat).getD e.rlimit }

/-- A DONE entry may be resumed: LIMIT was extended and STOP is not the token last drawn (Table 12-2). -/
def Entry.mayResume (e : Entry) : Bool :=
  e.pos < e.limit && !(e.stop ≠ noStop && e.plen ≤ e.pos && e.last = e.stop)

/-- Apply a command to an entry of context c and answer it (Table 12-2, R292, R299). -/
def seqApply (c : Nat) (q : SeqCmd) : M s0 Unit := do
  let s ← rd
  let e := s.entry q.entry
  let a := (s.ctx c).adm
  let done : M s0 Unit := do
    wake c
    reply q.req .ok
  match q.op with
  | .opn image =>
    let n := entryOf image
    let n : Entry := { n with pos := 0, draw := 0, npages := 0, rcount := 0, outcome := 0, st := .ready }
    if e.st != .free then reply q.req .noSpace
    else match openBad a c n with
      | some off => reply q.req .refused off
      | none => do
        eff (.entry q.entry n)
        modSnap fun x => { x with
          snapPos := tabSet x.snapPos q.entry 0,
          opened := if x.st = 0 then x.opened else q.entry :: x.opened }
        done
  | .set ch =>
    if e.st == .free || e.ctx ≠ c then reply q.req .refused 34
    else if ch.limit.isSome && limitBad a (e.change ch) then reply q.req .refused 16
    else
      eff (.entry q.entry (e.change ch))
      done
  | .hold =>
    if e.st != .ready || e.ctx ≠ c then reply q.req .refused 34
    else
      modEntry q.entry fun e => { e with st := .held }
      done
  | .resume =>
    if e.ctx ≠ c then reply q.req .refused 34
    else if e.st == .held then
      modEntry q.entry fun e => { e with st := .ready, rcount := 0 }
      done
    else if e.st == .done && e.mayResume then
      modEntry q.entry fun e => { e with st := .ready }
      done
    else reply q.req .refused 34
  | .close =>
    if e.st == .free || e.ctx ≠ c then reply q.req .refused 34
    else
      returnPages c q.entry
      eff (.entry q.entry {})
      done

/-- A command on an entry: at once, or at the step's end while the context's step runs (R287). -/
def seqCommand (c : Nat) (q : SeqCmd) : M s0 Unit := do
  let s ← rd
  if (s.ctx c).run = .running then
    setAside q.req
    modCtx c fun x => { x with queued := x.queued ++ [q] }
  else seqApply c q

/-- SEQ_OPEN: the image is copied from the staging region (R287, R373). -/
def execSeqOpen (ctx : Fin 8) (entry : Fin 8192) (addr : BitVec 64) (s : State) : Out :=
  serveCtx 0x28 ctx s fun r => do
    if s.inStaging r addr.toNat 64 then
      let image ← gget .firmware addr.toNat 64
      seqCommand ctx ⟨r, entry, .opn image⟩
    else reply r .address

/-- SEQ_SET (R292). -/
def execSeqSet (ctx : Fin 8) (entry : Fin 8192) (ch : SeqChange) (s : State) : Out :=
  serveCtx 0x29 ctx s fun r => seqCommand ctx ⟨r, entry, .set ch⟩

/-- SEQ_HOLD (R287). -/
def execSeqHold (ctx : Fin 8) (entry : Fin 8192) (s : State) : Out :=
  serveCtx 0x2A ctx s fun r => seqCommand ctx ⟨r, entry, .hold⟩

/-- SEQ_RESUME (R287). -/
def execSeqResume (ctx : Fin 8) (entry : Fin 8192) (s : State) : Out :=
  serveCtx 0x2B ctx s fun r => seqCommand ctx ⟨r, entry, .resume⟩

/-- SEQ_CLOSE (R289). -/
def execSeqClose (ctx : Fin 8) (entry : Fin 8192) (s : State) : Out :=
  serveCtx 0x2C ctx s fun r => seqCommand ctx ⟨r, entry, .close⟩

/-- SEQ_READ: returns the 64-byte entry (R373). -/
def execSeqRead (ctx : Fin 8) (entry : Fin 8192) (s : State) : Out :=
  serveCtx 0x2D ctx s fun r => do
    let e := s.entry entry
    if e.st == .free || e.ctx ≠ ctx then reply r .refused 34
    else reply r .ok 0 e.bytes

/-- Pages of a context outside its ring: in the lists of its entries, or held back by a snapshot. -/
def State.pagesOut (s : State) (c : Nat) : Nat :=
  (s.entries.filter fun kv => kv.2.st != .free && kv.2.ctx = c).foldl (fun n kv => n + kv.2.npages) 0
    + (s.snap.heldBack.filter fun p => p.1 = c).length

/-- POOL_ADD: pages read from the staging region join the tail, unless more than POOL_SIZE pages would be in the ring or in
lists (R289). -/
def execPoolAdd (ctx : Fin 8) (count : Nat) (addr : BitVec 64) (s : State) : Out :=
  serveCtx 0x30 ctx s fun r => do
    let x := s.ctx ctx
    if count = 0 || 256 < count then reply r .refused
    else if !s.inStaging r addr.toNat (8 * count) then reply r .address
    else if x.adm.poolSize < x.poolCount + s.pagesOut ctx + count then reply r .refused
    else
      let image ← gget .firmware addr.toNat (8 * count)
      let pages := (List.range count).map fun k => leAt image (8 * k) 8
      if pages.any fun p => p % 2 ^ x.adm.pgShift ≠ 0 then reply r .refused
      else
        each pages (poolPut ctx)
        wake ctx
        reply r .ok

end Sys2Proof.Machine
end

