-- ==== Sys2Proof/Machine/Banks.lean ====
section
/-! DEFINITION. Admission (R378 to R380), partitions and their banks (R221, R222, R230), notices of changes (R375), and what
the eviction of a model frees (R300, R381). -/

namespace Sys2Proof.Machine

variable {s0 : State}

/-! ### Notices -/

/-- A CHANGE record to every party of a change: CHANGE_ID, KIND, outcome 0 applied or 1 cancelled (R375, R398). -/
def changeRec (h : Change) (outcome : Nat) : M s0 Unit :=
  pairRec .change unitCcp (toLe h.id 2 ++ toLe h.kind 1 ++ toLe outcome 1) h.parties

/-! ### The admission record (Table 15-7) -/

/-- The settings that an admission record holds. -/
def admOf (b : List Byte) : Adm :=
  let f := leAt b 2 1
  { tenant := leAt b 1 1, be := bit f 0, logical := bit f 1, residuePoison := bit f 2, tmoExp := leAt b 3 1,
    mask := leAt b 4 4, pb := leAt b 8 1, nb := leAt b 9 1, minNb := leAt b 10 1, abortLimit := leAt b 11 1,
    hubSems := leAt b 12 2, coreSems := leAt b 14 2, barriers := leAt b 16 2, maxseq := leAt b 18 2, chunk := leAt b 20 2,
    pgShift := leAt b 22 1, tppLog := leAt b 23 1, tokcap := leAt b 24 4, budget := leAt b 28 4, seed := leAt b 32 8,
    cslBase := leAt b 40 8, candBase := leAt b 48 8, candStride := leAt b 56 4, poolLog := leAt b 60 1,
    poolBase := leAt b 64 8,
    windows := ((List.range 8).map fun i => (leAt b (128 + 16 * i) 8, leAt b (136 + 16 * i) 8)).filter (·.2 ≠ 0) }

/-- The first entry of a list of checks whose condition holds. -/
def firstBad (l : List (Nat × Bool)) : Option Nat := (l.find? (·.2)).map (·.1)

/-- Fields out of their range, by byte offset. -/
def admRange (b : List Byte) (a : Adm) : Option Nat :=
  firstBad [(0, 7 < leAt b 0 1), (1, a.tenant = 0 || 7 < a.tenant), (2, 8 ≤ leAt b 2 1), (3, 31 < a.tmoExp),
    (4, a.mask = 0), (8, 47 < a.pb), (9, a.nb = 0 || 48 < a.pb + a.nb),
    (10, if a.be then a.minNb = 0 || a.nb < a.minNb else a.minNb ≠ a.nb),
    (11, a.be && (a.abortLimit = 0 || 15 < a.abortLimit)), (12, 4096 < a.hubSems), (14, 1024 < a.coreSems),
    (16, 256 < a.barriers), (18, a.maxseq = 0 || 8192 < a.maxseq), (20, a.chunk = 0),
    (22, a.pgShift < 16 || 24 < a.pgShift), (23, 12 < a.tppLog), (24, a.tokcap = 0 || 2 ^ 20 < a.tokcap),
    (40, a.cslBase % 64 ≠ 0), (48, a.candBase % 64 ≠ 0), (56, a.candStride < 8256 || a.candStride % 64 ≠ 0),
    (60, a.poolLog < 6 || 20 < a.poolLog), (61, leAt b 61 3 ≠ 0), (72, leAt b 72 56 ≠ 0)]

/-- Two ranges of bytes meet. -/
def overlap (a n b m : Nat) : Bool := n ≠ 0 && m ≠ 0 && a < b + m && b < a + n

/-- Contexts that hold a partition or wait for one, with their settings. -/
def State.claims (s : State) : List (Nat × Adm) :=
  (List.range 8).filterMap fun c =>
    let x := s.ctx c
    match x.bankWait with
    | some w => some (c, w.adm)
    | none => if x.prot = .free then none else some (c, x.adm)

/-- The claims of contexts other than c. -/
def State.others (s : State) (c : Nat) : List (Nat × Adm) := s.claims.filter (·.1 ≠ c)

/-- The window that is misaligned, leaves the address space, or meets the aperture or another context's window, by its byte
offset in the record. -/
def State.windowBad (s : State) (c : Nat) (b : List Byte) : Option Nat :=
  firstBad ((List.range 8).map fun i =>
    let w := leAt b (128 + 16 * i) 8
    let n := leAt b (136 + 16 * i) 8
    (128 + 16 * i, w % 4096 ≠ 0 || n % 4096 ≠ 0 || gmSize < w + n || overlap w n Config.spaBase (2 ^ 31)
      || (s.others c).any fun o => o.2.windows.any fun v => overlap w n v.1 v.2))

/-- The addresses of a record that lie outside its windows. -/
def admAddress (a : Adm) : Option Nat :=
  firstBad [(40, !coveredBy a.windows 9 a.cslBase (64 + 32 * a.maxseq)),
    (48, !coveredBy a.windows 9 a.candBase (a.maxseq * a.candStride)),
    (64, !coveredBy a.windows 9 a.poolBase (8 * a.poolSize))]

/-- Shares beyond what other contexts leave. -/
def State.shareBad (s : State) (c : Nat) (a : Adm) : Option Nat :=
  let o := s.others c
  let sum (f : Adm → Nat) (p : Adm → Bool) : Nat := (o.filter fun x => p x.2).foldl (fun n x => n + f x.2) 0
  firstBad [(12, 4096 < sum Adm.hubSems (fun _ => true) + a.hubSems),
    (14, (bitsSet a.mask 32).any fun n => 1024 < sum Adm.coreSems (fun x => bit x.mask n) + a.coreSems),
    (16, 256 < sum Adm.barriers (fun _ => true) + a.barriers)]

/-- Two partitions share a bank of some core. -/
def banksMeet (a b : Adm) : Bool := a.mask &&& b.mask ≠ 0 && overlap a.pb a.nb b.pb b.nb

/-- Banks that a best-effort partition keeps when an admission takes the banks from pb on: it keeps its first bank and gives
up those from the first one taken (R379). -/
def keeps (be : Adm) (pb : Nat) : Nat := pb - be.pb

/-- A partition that is not free: another context holds a bank of it, and it cannot be taken from a best-effort context at
its MIN_NB (R222, R379). -/
def State.partBad (s : State) (c : Nat) (a : Adm) : Bool :=
  ((s.others c).any fun o => banksMeet a o.2
      && !(!a.be && o.2.be && (s.ctx o.1).prot = .admitted && (s.ctx o.1).bankWait.isNone && o.2.minNb ≤ keeps o.2 a.pb))
    || (bitsSet a.mask 32).any fun n => (s.core n).held.any fun h => overlap a.pb a.nb h.1 h.2.1

/-- The byte offset for which an ADMIT is refused (R378). -/
def State.admitBad (s : State) (b : List Byte) : Option Nat :=
  let a := admOf b
  let c := leAt b 0 1
  (admRange b a).orElse fun _ =>
    (firstBad [(0, (s.ctx c).prot != .free || (s.ctx c).bankWait.isSome), (1, !(s.pair a.tenant).bound)]).orElse fun _ =>
      (s.windowBad c b).orElse fun _ =>
        (admAddress a).orElse fun _ =>
          (s.shareBad c a).orElse fun _ => if s.partBad c a then some 8 else none

/-- Objects allocated to a context: hub semaphores, the most in one core, barriers. -/
def State.objects (s : State) (c : Nat) : Nat × Nat × Nat :=
  let sems := s.sems.filter fun kv => kv.2.alloc && kv.2.owner = c
  ((sems.filter fun kv => 32768 ≤ kv.1).length,
    (List.range 32).foldl (fun m n => max m (sems.filter fun kv => inCore n kv.1).length) 0,
    (s.bars.filter fun kv => kv.2.alloc && kv.2.owner = c).length)

/-- The byte offset for which a RECONFIGURE is refused: a field that may not change, a share below what is allocated, a
partition below what resident models need, or a check of R378 (R222, R375, R379). -/
def State.reconfBad (s : State) (b : List Byte) : Option Nat :=
  let a := admOf b
  let c := leAt b 0 1
  let v := (s.ctx c).adm
  let (hub, core, bars) := s.objects c
  (admRange b a).orElse fun _ =>
    (firstBad [(1, a.tenant ≠ v.tenant), (2, a.be != v.be || a.logical != v.logical || a.residuePoison != v.residuePoison),
      (3, a.tmoExp ≠ v.tmoExp), (4, a.mask ≠ v.mask), (8, a.pb ≠ v.pb), (9, a.be && a.nb < v.nb),
      (9, (List.range 16).any fun k =>
        (s.model k).st = .resident && (s.model k).ctx = c && a.nb * 65536 < (s.model k).spBytes),
      (11, a.abortLimit ≠ v.abortLimit), (12, a.hubSems < hub), (14, a.coreSems < core), (16, a.barriers < bars),
      (18, a.maxseq ≠ v.maxseq), (20, a.chunk ≠ v.chunk), (22, a.pgShift ≠ v.pgShift), (23, a.tppLog ≠ v.tppLog),
      (24, a.tokcap ≠ v.tokcap), (28, a.budget ≠ v.budget), (32, a.seed ≠ v.seed), (40, a.cslBase ≠ v.cslBase),
      (48, a.candBase ≠ v.candBase), (56, a.candStride ≠ v.candStride), (60, a.poolLog ≠ v.poolLog),
      (64, a.poolBase ≠ v.poolBase)]).orElse fun _ =>
      (s.windowBad c b).orElse fun _ =>
        (admAddress a).orElse fun _ =>
          (s.shareBad c a).orElse fun _ => if s.partBad c a then some 9 else none

/-! ### Models and partitions -/

/-- Take an object away from its owner: waiters end with OWNER_GONE, and it stays GONE until it is reallocated. -/
def freeSem (k : Nat) : M s0 Unit := do
  goneSem k
  modSem k fun x => { x with alloc := false, lasting := true }

def freeBar (i : Nat) : M s0 Unit := do
  goneBar i
  modBar i fun b => { b with alloc := false, lasting := true }

def freeObj : Obj → M s0 Unit
  | .localSem l => each l fun p => freeSem (coreSemKey p.1 p.2)
  | .coreSem c i => freeSem (coreSemKey c i)
  | .hubSem i => freeSem (hubSemKey i)
  | .barrier i => freeBar i

/-- Free the objects of a model: those of its map entries, which become invalid (R300). -/
def freeModelObjects (k : Nat) : M s0 Unit := do
  let s ← rd
  let m := s.model k
  each m.vids fun v => do
    let s ← rd
    match s.lookup m.ctx v with
    | some o => freeObj o
    | none => pure ()
    modCtx m.ctx fun x => { x with map := tabSet x.map (v % 1024) none }

/-- Evict a resident model: its objects are freed; the slot keeps the binary's address, MODEL_ID and context (R381). -/
def evict (k : Nat) : M s0 Unit := do
  freeModelObjects k
  modModel k fun m =>
    { st := .evicted, ctx := m.ctx, addr := m.addr, len := m.len, modelId := m.modelId, pin := m.pin, lastEnd := m.lastEnd }

/-- Place a resident model's constant image in its context's partition on core n (R162). -/
def placeImage (k n : Nat) : M s0 Unit := do
  let s ← rd
  let m := s.model k
  viaStations .firmware false (m.addr + m.constOff) m.constLen
  let s ← rd
  each (List.range (m.constLen / 64)) fun i =>
    spPut n m.ctx (m.constAt + 64 * i) (goodGran (s.gread (m.addr + m.constOff + 64 * i) 64))

/-- Resident models of a context. -/
def State.residents (s : State) (c : Nat) : List Nat :=
  (List.range 16).filter fun k => (s.model k).st = .resident && (s.model k).ctx = c

/-- Set context c's partition on the cores of its mask (SP_PARTn). -/
def setPart (c : Nat) (a : Adm) : M s0 Unit :=
  each (bitsSet a.mask 32) fun n => do
    setReg (Fd.spPartValid c) n 1
    setReg (Fd.spPartPb c) n a.pb
    setReg (Fd.spPartNb c) n a.nb

/-- Give up the banks of context c beyond its first nb, which are scrubbed (R230): models and oases that no longer fit go,
and the constant images of the others are placed again where the smaller partition has them. -/
def shrinkPart (c nb : Nat) : M s0 Unit := do
  let s ← rd
  let a := (s.ctx c).adm
  if nb < a.nb then
    modCtx c fun x => { x with adm := { x.adm with nb := nb } }
    setPart c { a with nb := nb }
    each (bitsSet a.mask 32) fun n => modCore n fun k => { k with
      scrub := k.scrub ++ [(a.pb + nb, a.nb - nb, c)],
      oases := k.oases.map fun o =>
        (o.1, if o.2.ctx = c && nb * 65536 < o.2.pbase + o.2.len then { o.2 with isOpen := false } else o.2) }
    each (s.residents c) fun k =>
      if nb * 65536 < (s.model k).spBytes || nb * 65536 < (s.model k).constAt + (s.model k).constLen then evict k
      else each (bitsSet a.mask 32) (placeImage k)

/-- At a step boundary of best-effort context c: its partition shrinks by what admissions that wait take (R379). -/
def boundary (c : Nat) : M s0 Unit := do
  let s ← rd
  if (s.ctx c).prot = .admitted && (s.ctx c).adm.be then
    each (List.range 8) fun k =>
      match (s.ctx k).bankWait with
      | some w => do
        let t ← rd
        let a := (t.ctx c).adm
        if k ≠ c && !w.adm.be && banksMeet w.adm a && a.minNb ≤ keeps a w.adm.pb then shrinkPart c (keeps a w.adm.pb)
      | none => pure ()

/-! ### Completion of an ADMIT or RECONFIGURE (R379, R380, R425) -/

/-- The banks of a waiting change are free: no other context holds one, none is being scrubbed or held, and the cores of the
mask are on and zeroed. -/
def State.banksFree (s : State) (c : Nat) (a : Adm) : Bool :=
  ((List.range 8).all fun k => k = c || (s.ctx k).prot = .free || !banksMeet a (s.ctx k).adm)
    && (bitsSet a.mask 32).all fun n =>
      bit (s.reg Fd.corePwrStReady) n
        && !((s.core n).scrub ++ (s.core n).held).any fun h => overlap a.pb a.nb h.1 h.2.1

/-- The waiting change of context c can complete: its banks are free, and a RECONFIGURE meets no running step. -/
def State.admissible (s : State) (c : Nat) : Bool :=
  !s.fwBusy && (match (s.ctx c).bankWait with
    | some w => s.banksFree c w.adm && (w.admits || (s.ctx c).run != .running)
    | none => false)

/-- Put a waiting change of context c in force, answer its COMMIT and notify its parties. -/
def finishAdmission (c : Nat) : M s0 Unit := do
  let s ← rd
  match (s.ctx c).bankWait with
  | none => pure ()
  | some w => do
    if w.admits then
      eff (.ctx c { prot := .admitted, adm := w.adm, run := .waiting, waitFrom := s.tb.now })
      setPart c w.adm
    else
      if w.adm.nb < (s.ctx c).adm.nb then shrinkPart c w.adm.nb
      modCtx c fun x => { x with adm := w.adm, bankWait := none }
      setPart c w.adm
      let t ← rd
      if (s.ctx c).adm.nb < w.adm.nb then
        each (t.residents c) fun k => each (bitsSet w.adm.mask 32) (placeImage k)
    reply w.req .ok
    changeRec w.chg 0

/-- Begin an ADMIT or RECONFIGURE that has been committed: the domains of its cores are switched on, best-effort contexts
between steps give up the banks it takes, and it completes at once or when its banks are free. -/
def beginAdmission (c : Nat) (w : BankWait) : M s0 Unit := do
  modCtx c fun x => { x with bankWait := some w }
  setAside w.req
  let s ← rd
  each (bitsSet w.adm.mask 32) fun n => if bit (s.reg Fd.corePwrOn) n then pure () else powerOn n
  each (List.range 8) fun k => if (s.ctx k).run != .running then boundary k else pure ()
  let s ← rd
  if s.admissible c then finishAdmission c

/-- ADMISSION_COMPLETE: the banks of a committed ADMIT or RECONFIGURE are free (R380). -/
def execAdmissionComplete (ctx : Fin 8) (s : State) : Out :=
  runIf (s.alive && s.admissible ctx) s (finishAdmission ctx)

end Sys2Proof.Machine
end

