-- ==== Sys2Proof/Machine/LPort.lean ====
section
/-! DEFINITION. The receiving side of the L-port (R339, R340, R349 to R353) and the training of its links (R341 to R346). -/

namespace Sys2Proof.Machine

variable {s0 : State}

/-! ### Frames (R339, R349 to R353) -/

/-- A best-effort receive buffer of a link is free again (R350). -/
def freeBuf (l : Nat) (be : Bool) : M s0 Unit := if be then modLink l fun x => { x with freed := x.freed + 1 } else pure ()

/-- A frame is lost (R339): it is counted, and the sixteenth within 1024 grains sends the link to DETECT (R341). -/
def frameLost (l : Nat) : M s0 Unit := do
  let s ← rd
  bumpReg Fd.linkErrLost l
  countLink
  let recent := s.tb.now :: (s.link l).losses.filter fun g => !elapsed s.tb.now g 1024
  if 16 ≤ recent.length && s.linkSt l = 6 then linkDetect true l
  else modLink l fun x => { x with losses := recent }

/-- A non-EMPTY frame with SEQ q is taken: the SEQs that it skips are missing, and each is reported where REPLAY is active
(R351). Answers whether the frame is new. -/
def takeSeq (l q : Nat) (inc : Nat) : M s0 Bool := do
  let s ← rd
  let x := s.link l
  let skip := (q + 65536 - x.rxSeq) % 65536
  if !x.synced then
    modLink l fun x => { x with synced := true, rxSeq := (q + 1) % 65536 }
    pure true
  else if x.gaps.contains q then
    modLink l fun x => { x with gaps := x.gaps.erase q }
    pure true
  else if skip < 32768 then
    let missing := (List.range skip).map fun i => (x.rxSeq + i) % 65536
    let replay := s.linkHas l 5
    modLink l fun x => { x with rxSeq := (q + 1) % 65536, gaps := if replay then x.gaps ++ missing else x.gaps }
    if replay then each missing fun m => ctlSend l (.loss m (x.peerInc.getD inc))
    pure true
  else pure false

/-- Take the credits that a frame returns, and the INC of the neighbour's L-port from a frame of its own. -/
def takeCredit (l : Nat) (f : LFrame) : M s0 Unit := do
  let s ← rd
  let near := f.spkg.val = s.reg Fd.linkPeerPkg l && f.sinst.val = s.reg Fd.linkPeerInst l
  modLink l fun x => { x with
    credit := min 128 (x.credit + f.becrd.toNat), peerInc := if near then some f.inc.toNat else x.peerInc }

/-- A link carries slot frames. -/
def State.linkOn (s : State) (l : Nat) : Bool := s.alive && s.linkSt l = 6

/-- EMPTY_FRAME (R339): its credits are taken. -/
def execEmptyFrame (link : Fin 8) (f : LFrame) (s : State) : Out :=
  runIf (s.linkOn link) s (if f.crcOk then takeCredit link f else frameLost link)

/-- Messages of reserved types in a control frame are counted (Table 14-4). -/
def reservedMsgs (l : Nat) (f : LFrame) : M s0 Unit :=
  let bytes := f.grans.flatten
  each (chunks 32 (bytes.length / 32) bytes) fun m => if 0x0D < leAt m 0 1 then discard l else pure ()

/-- CONTROL_FRAME (R340): the frame is taken; messages of reserved types are counted. What its messages do are the rows of
their own that follow it (assumption log 33). A link in IDENT or QUARANTINE takes such frames too (R341). -/
def execControlFrame (link : Fin 8) (f : LFrame) (s : State) : Out :=
  runIf (s.linkOn link || (s.alive && (s.linkSt link = 3 || s.linkSt link = 7))) s do
    if !f.crcOk then frameLost link
    else if s.linkSt link = 6 then
      takeCredit link f
      let new ← takeSeq link f.seq.toNat f.inc.toNat
      if new then reservedMsgs link f else discard link
    else reservedMsgs link f

/-- The granules of a frame with their checks, generated and complemented where MARK is set (R339). -/
def frameChecked (f : LFrame) : List GranS :=
  (List.range f.grans.length).map fun i => ⟨slice (f.grans.getD i []) 0 64, mark (bit f.mark.toNat i) 0⟩

/-- Deliver a frame as inbound packets of 8 granules (R349): to a core of this cluster, or over the N-port; with no route
there it is discarded. The far sender stays the packet's writer, under this cluster's SINST (assumption log 47). -/
def deliverFrame (l : Nat) (f : LFrame) : M s0 Unit := do
  let gs := frameChecked f
  let o : LSrc := ⟨f.spkg, f.sinst, f.inc⟩
  let s ← rd
  let put (send1 : List GranS → Nat → M s0 Unit) : M s0 Unit :=
    each (List.range ((gs.length + 7) / 8)) fun k => send1 ((gs.drop (8 * k)).take 8) (f.offset.toNat + 8 * k)
  if f.dinst = Config.inst then
    put fun part off =>
      send nodeLport f.dcore 0
        (.write { pkg := f.spkg, inst := f.sinst, ctx := f.sctx, score := f.score, link := l, linc := f.inc.toNat, lsrc := some o }
          (64 * off) { id := 0, tag := f.tag.toNat, ctx := f.sctx, ch := 16, addr := 0, ncu := 0, grans := part })
  else
    match s.route f.dinst with
    | some b =>
      put fun part off =>
        modMake b 1 { frameTo f.dinst f.dcore f.score f.tag.toNat with
          mark := BitVec.ofNat 8 (markBits part), offset := BitVec.ofNat 16 off, grans := part.map (·.data), sctx := f.sctx,
          lsrc := some o } f.sctx
    | none => discard l

/-- Hold a reserved frame of flow `flow` (R352) for the slot LAG grains after its own; it is discarded where that slot has begun
or is not the flow's. A slot that a displaced frame has taken passes it on to the flow's next one (R351). -/
def forwardRsv (l flow : Nat) (f : LFrame) : M s0 Unit := do
  let s ← rd
  let out := s.reg Fd.flowCfgOutBundle flow * 4 + s.reg Fd.flowCfgOutLink flow
  let owner := 0x40 + flow
  let g := grainAdd f.grain.toNat (s.reg Fd.flowCfgLag flow)
  let held := ((s.link out).fwdRsv.filter fun h => h.out.owner = owner && reached h.grain g).map (·.grain)
  let at_ := held.foldl (fun g _ => if held.contains g then (s.slotAfter out owner g 1).getD g else g) g
  if s.reg Fd.flowCfgValid flow = 1 && s.linkHas l 3 && s.linkHas out 3 && !reached s.tb.now g
      && s.slotOwner 0 out (g % 1024) = owner then
    modLink out fun x => { x with fwdRsv := x.fwdRsv ++ [⟨at_, l, ⟨f, owner, []⟩⟩] }
  else discard l

/-- Forward a best-effort frame (R353): bundle A where both bundles have a route, with FWD_BE active on both links. -/
def forwardBe (l : Nat) (f : LFrame) : M s0 Unit := do
  let s ← rd
  match s.linkTo f.dpkg with
  | some out =>
    if s.linkHas l 4 && s.linkHas out 4 then modLink out fun x => { x with fwdBe := x.fwdBe ++ [(l, ⟨f, 0, []⟩)] }
    else
      discard l
      freeBuf l true
  | none =>
    discard l
    freeBuf l true

/-- DATA_FRAME: a frame is delivered, forwarded or discarded (R339, R349 to R353). -/
def execDataFrame (link : Fin 8) (f : LFrame) (s : State) : Out :=
  runIf (s.linkOn link) s do
    if !f.crcOk then frameLost link
    else
      takeCredit link f
      let owner := s.slotOwner 1 link (f.grain.toNat % 1024)
      let new ← takeSeq link f.seq.toNat f.inc.toNat
      if !new then
        discard link
        freeBuf link (owner = 0)
      else if f.dpkg = Config.pkg then
        deliverFrame link f
        freeBuf link (owner = 0)
      else if 0x40 ≤ owner ∧ owner < 0x80 then forwardRsv link (owner - 0x40) f
      else if owner = 0 then forwardBe link f
      else discard link

/-! ### LOSS and REFUSE -/

/-- LOSS: the missing frame is sent again where it is still held, with REPLAY active (R340, R351). -/
def execLoss (link : Fin 8) (seq : BitVec 16) (inc : BitVec 8) (s : State) : Out :=
  runIf (s.linkHas link 5 && s.alive && inc.toNat = s.portIncOf incLport) s do
    match (s.link link).kept.find? fun p => p.2.frame.seq = seq && !elapsed s.tb.now p.1 129 with
    | some p => modLink link fun x => { x with again := x.again ++ [p.2] }
    | none => bumpReg Fd.linkLostNotReplayed link

/-- REFUSE: the notice goes on to the far sender of the refused packet, where the source core writes the WRITE_REFUSED record
(R340, R349; assumption log 47). -/
def execRefuse (link : Fin 8) (tag : BitVec 16) (score : Fin 32) (sctx : Fin 8) (dst : LSrc) (s : State) : Out :=
  runIf (s.linkOn link) s (lportRefused tag.toNat score sctx dst)

/-! ### Barriers between packages (R276, R279) -/

/-- A barrier message of another package goes to the cluster of this package that holds the node: here, or over the
N-port as an operation of kind 3 (assumption log 32). -/
def barMessage (i : Nat) (release phase poison : Bool) : M s0 Unit := do
  let s ← rd
  let b := s.bar i
  if b.pkgInst = Config.inst.val then
    if release then groupRelease i poison else rootArrive i phase poison
  else
    match s.route b.pkgInst with
    | some k => modMake k 4 { frameTo b.pkgInst 0 0 0 with
        body := toLe i 2 ++ toLe 3 1 ++ toLe (b2n release) 1 ++ toLe (b2n phase + 2 * b2n poison) 4 ++ zeros 8 }
    | none => goneLasting i

/-- A barrier of SCOPE 2 that this cluster takes part in and that has not been lost. -/
def State.groupBar (s : State) (b : Nat) : Bool := (s.bar b).alloc && !(s.bar b).gone && (s.bar b).scope = 2

/-- BAR_ARRIVE: an arrival from package spkg reaches the group root of a barrier (R276). -/
def execBarArrive (link : Fin 8) (b : Fin 256) (phase : BarPhase) (_spkg : Fin 4096) (s : State) : Out :=
  runIf (s.alive && s.linkHas link 1 && s.groupBar b && (s.bar b).rootPkg = Config.pkg.val) s
    (barMessage b false phase.phase phase.poison)

/-- BAR_RELEASE: a release from the group root descends (R279). -/
def execBarRelease (link : Fin 8) (b : Fin 256) (phase : BarPhase) (_spkg : Fin 4096) (s : State) : Out :=
  runIf (s.alive && s.linkHas link 1 && s.groupBar b && (s.bar b).rootPkg ≠ Config.pkg.val) s
    (barMessage b true phase.phase phase.poison)

/-! ### Training (R341 to R346) -/

/-- The installation map's entry for a link: package, cluster, bundle, link (R344, R345). -/
def State.mapEntry (s : State) (l : Nat) : Option (Nat × Nat × Nat × Nat) :=
  match tabGet none s.imap l with
  | some e => some e
  | none => (Config.wired (Fin.ofNat 8 l)).map fun w => (w.1.val, w.2.1.val, w.2.2.1.val, w.2.2.2.val)

/-- LINK_RETRAIN: RETRAIN sends the selected link to DETECT; the firmware alone (R341, R356). -/
def execLinkRetrain (r : Requester) (s : State) : Out :=
  runIf (s.takes r) s do
    rowWrite r 0x3028 do
      match s.chan (reqChan r) 0x3028 .link with
      | some l => if r = .firmware then linkDetect true l
      | none => pure ()

/-- Give a lane a fault (Table 14-6): 1 open, 2 stuck, 3 shorted, 4 misorder. -/
def laneFault (i code : Nat) : M s0 Unit := setReg Fd.laneStatusFault i code

/-- SIG_DET: a link in DETECT goes on to BASE once every receive lane has a signal, or at the limit with the lanes that have
none fenced as open, where some lane has one (R341, R342). -/
def execSigDet (link : Fin 8) (lanes : List LaneView) (s : State) : Out :=
  let ls := s.lanesOf link
  let sig := fun i => (lanes[i]?.map (·.sig)).getD false
  let full := (List.range ls.length).all sig
  let limit := elapsed s.tb.now (s.link link).since 4096
  runIf (s.alive && s.linkSt link = 1 && (full || (limit && (List.range ls.length).any sig))) s do
    each (List.range ls.length) fun i => if sig i then pure () else laneFault (ls.getD i 0) 1
    linkEnter link 2

/-- The number of lanes that the lanes of one half cover (R343): a pair (first lane, count) per half. -/
def halves (w : Nat) : List (Nat × Nat) :=
  if w = 20 then [(0, 10), (10, 10)] else if w = 10 then [(0, 5), (5, 5)] else [(0, 2), (3, 2)]

/-- Active lanes of a direction (R343): first and count; none where no usable width remains. -/
def activeLanes (w : Nat) (fenced : Nat → Bool) (degrade : Bool) : Option (Nat × Nat) :=
  if !(List.range w).any fenced then some (0, w)
  else if degrade then (halves w).find? fun h => !(List.range h.2).any fun i => fenced (h.1 + i)
  else none

/-- The fault of lane i of a link from its view (Table 14-6), with the lane map reversed or not: none where it is sound. -/
def viewFault (w : Nat) (rev : Bool) (peerLink : Option Nat) (vs : List LaneView) (i : Nat) : Option Nat :=
  match vs[i]? with
  | none => some 1
  | some v =>
    if !v.sig then some 1
    else if !v.cdr || !v.valid then some 2
    else if (vs.filter fun u => u.valid && u.lane = v.lane).length > 1 then some 3
    else if v.lane ≠ (if rev then w - 1 - i else i) || (match peerLink with | some k => v.link ≠ k | none => false) then some 4
    else none

/-- Lanes whose number fits a map. -/
def fitting (w : Nat) (rev : Bool) (vs : List LaneView) : Nat :=
  ((List.range w).filter fun i =>
    match vs[i]? with
    | some v => v.valid && v.lane = (if rev then w - 1 - i else i)
    | none => false).length

/-- The IDENT record of this end of a link (R344, R358). -/
def State.ident (s : State) (l : Nat) : IdentMsg :=
  let ls := s.lanesOf l
  { pkg := Config.pkg, inst := Config.inst, bundle := Fin.ofNat 2 (l / 4), link := Fin.ofNat 4 (l % 4),
    version := BitVec.ofNat 32 (s.reg Fd.fwVersionVersion), digest := Config.mapDigest,
    rxFenced := BitVec.ofNat 20 ((List.range ls.length).foldl (fun n i =>
      if s.reg Fd.laneStatusFault (ls.getD i 0) ≠ 0 then n + 2 ^ i else n) 0) }

/-- Queue this end's IDENT and FEAT on a link (R341, R344, R346): the revisions that MAXREV offers, bit 2 for DXL-2 on. -/
def identSend (l : Nat) : M s0 Unit := do
  let s ← rd
  ctlSend l (.ident (s.ident l))
  ctlSend l (.feat (BitVec.ofNat 8 (4 * (2 ^ s.reg Fd.lpCfgMaxrev - 1))) (BitVec.ofNat 32 (s.reg Fd.lpFeatEnEn)))

/-- TRAIN_FRAME: a link in BASE or FULL checks its lanes and sets its receive width; it goes on to IDENT or ACTIVE, or DOWN
where no usable width remains (R342, R343). In IDENT it reports its fenced lanes. A lane counts as stuck only after 2048
grains. -/
def execTrainFrame (link : Fin 8) (lanes : List LaneView) (s : State) : Out :=
  let l := link.val
  let ls := s.lanesOf l
  let w := ls.length
  let ready := elapsed s.tb.now (s.link l).since 2048
    || (List.range w).all fun i => s.reg Fd.laneStatusFault (ls.getD i 0) ≠ 0
        || (match lanes[i]? with | some v => v.sig && v.cdr && v.valid | none => false)
  runIf (s.alive && (s.linkSt l = 2 || s.linkSt l = 5) && ready) s do
    let rev := fitting w false lanes < fitting w true lanes
    let peer := (s.mapEntry l).map fun e => e.2.2.2
    each (List.range w) fun i => do
      let lane := ls.getD i 0
      match viewFault w rev peer lanes i with
      | some k => if s.reg Fd.laneStatusFault lane = 0 then laneFault lane k
      | none => pure ()
      setReg Fd.laneStatusInverted lane (b2n ((lanes[i]?.map (·.inverted)).getD false))
    modLink l fun x => { x with revMap := rev }
    let t ← rd
    let degrade := if t.linkSt l = 2 then bit (t.reg Fd.lpFeatEnEn) 2 else bit (t.reg Fd.linkFeatActActive l) 2
    match activeLanes w (fun i => t.reg Fd.laneStatusFault (ls.getD i 0) ≠ 0) degrade with
    | none => linkDown l 4
    | some a => do
      setReg Fd.linkStatusRxWidth l a.2
      if t.linkSt l = 2 then
        linkEnter l 3
        identSend l
        ctlSend l .timing
      else
        each (List.range a.2) fun i => setReg Fd.laneStatusActive (ls.getD (a.1 + i) 0) 1
        modLink l fun x => { x with credit := 128, freed := 0, lastSlot := none }
        linkEnter l 6
        stageAll l

/-- TRAIN_STATE_TIMEOUT: a training state has exceeded its limit (Table 14-5). -/
def execTrainStateTimeout (link : Fin 8) (s : State) : Out :=
  let limit := match s.linkSt link with
    | 1 => some 4096 | 2 => some 16384 | 3 => some 4096 | 4 => some 1024 | 5 => some 16384 | _ => none
  match limit with
  | none => .next s
  | some n => runIf (s.alive && elapsed s.tb.now (s.link link).since (n + 1)) s (linkDown link 2)

/-- Features that a revision supports (Table 14-7). -/
def revFeatures (rev : Nat) : Nat := match rev with | 1 => 0x07 | 2 => 0x3F | 3 => 0x7F | _ => 0

/-- The highest revision that the peer's bitmap and MAXREV allow (R346): 0 for none. -/
def bestRev (peer maxrev : Nat) : Nat :=
  ((List.range 4).filter fun r => r ≠ 0 && r ≤ maxrev && bit peer (r + 1)).foldl max 0

/-- Select revision and features, and go on to FULL; with no common revision the link stays in NEGOTIATE (R346). -/
def negotiate (l : Nat) : M s0 Unit := do
  let s ← rd
  linkEnter l 4
  match (s.link l).featIn with
  | some (revs, bits_) =>
    let r := bestRev revs (s.reg Fd.lpCfgMaxrev)
    if r ≠ 0 then
      let act := bits_ &&& s.reg Fd.lpFeatEnEn &&& revFeatures r
      setReg Fd.linkStatusRev l r
      setReg Fd.linkFeatActActive l act
      let w := (s.lanesOf l).length
      if !bit act 2 && (s.reg Fd.linkStatusRxWidth l < w || s.reg Fd.linkStatusTxWidth l < w) then linkDown l 4
      else linkEnter l 5
  | none => pure ()

/-- Bytes 2 to 4 of an identity (Table 14-11). -/
def identBytes (m : IdentMsg) : List Byte := toLe (m.inst.val * 4096 + m.pkg.val) 2 ++ toLe (m.bundle.val + m.link.val * 2) 1

/-- A package is reached over link l and over no link that is neither DOWN nor quarantined. -/
def State.cutOff (s : State) (l pkg : Nat) : Bool :=
  let ls := (s.routeOn 0 pkg).toList ++ (s.routeOn 1 pkg).toList
  ls.contains l && ls.all fun k => s.linkSt k = 0 || s.linkSt k = 7

/-- A link goes to QUARANTINE (R344, R345): record, its sends fail, it carries IDENT and FEAT alone, and barriers that reach a
package only through it are GONE. -/
def quarantine (l : Nat) (m : IdentMsg) : M s0 Unit := do
  let s ← rd
  platRec .linkQuarantine unitLport 0
    (identBytes (s.ident l) ++ identBytes m ++ (if m.digest = Config.mapDigest then [] else toLe m.digest.toNat 8))
  linkEnter l 7
  linkFails l
  identSend l
  let t ← rd
  each (tabKeys (fun _ b => b.alloc && !b.lasting && b.scope = 2
      && b.pkgs.any fun p => p ≠ Config.pkg.val && t.cutOff l p) t.bars) goneLasting

/-- The identity and the features of the peer are both known: the link proceeds or is quarantined (R344, R346). -/
def identDone (l : Nat) : M s0 Unit := do
  let s ← rd
  let x := s.link l
  match x.identIn, x.featIn with
  | some m, some _ =>
    if s.reg Fd.linkPeerMatch l = 1 || x.lastId = some m then negotiate l else quarantine l m
  | _, _ => pure ()

/-- IDENT: a peer's identity reaches a link in IDENT or QUARANTINE, with the delay measured by the timing exchange
(R341, R344): the installation map decides. -/
def execIdent (link : Fin 8) (m : IdentMsg) (delay : Nat) (s : State) : Out :=
  let l := link.val
  runIf (s.alive && (s.linkSt l = 3 || s.linkSt l = 7)) s do
    let ls := s.lanesOf l
    let ok := s.mapEntry l = some (m.pkg.val, m.inst.val, m.bundle.val, m.link.val)
    setReg Fd.linkPeerPkg l m.pkg
    setReg Fd.linkPeerInst l m.inst
    setReg Fd.linkPeerBundle l m.bundle
    setReg Fd.linkPeerLink l m.link
    setReg Fd.linkPeerMatch l (b2n ok)
    setReg Fd.linkDelayDelay l delay
    each (List.range ls.length) fun i => setReg Fd.laneStatusTxFenced (ls.getD i 0) (b2n (bit m.rxFenced.toNat i))
    modLink l fun x => { x with identIn := some m }
    if s.linkSt l = 3 then
      if 512 < delay then linkDown l 1
      else
        match activeLanes ls.length (bit m.rxFenced.toNat) (bit (s.reg Fd.lpFeatEnEn) 2) with
        | none => linkDown l 4
        | some a => do
          setReg Fd.linkStatusTxWidth l a.2
          identDone l

/-- FEAT: a peer's revisions and features reach a link in IDENT or QUARANTINE (R346). -/
def execFeat (link : Fin 8) (revs : Byte) (bits : Word) (s : State) : Out :=
  let l := link.val
  runIf (s.alive && (s.linkSt l = 3 || s.linkSt l = 7)) s do
    setReg Fd.linkFeatPeerPeer l bits.toNat
    modLink l fun x => { x with featIn := some (revs.toNat, bits.toNat) }
    if s.linkSt l = 3 then identDone l

/-- LINK_RETRY: before OPEN, each DOWN link returns to DETECT every 65,536 grains (R438). -/
def execLinkRetry (s : State) : Out :=
  runIf (s.alive && s.fwState < 2 && elapsed s.tb.now s.pw.retryAt 65536) s do
    modPw fun p => { p with retryAt := s.tb.now }
    each (s.allLinks.filter fun l => s.linkSt l = 0) (linkDetect true)

end Sys2Proof.Machine
end

