-- ==== Sys2Proof/Machine/Sampler.lean ====
section
/-! DEFINITION. The sampler's choice of a token (R306 to R308). -/

namespace Sys2Proof.Machine

/-- Round an exact value to binary32. -/
def rne32 (v : Fv) : Fv := f32Val (roundF 24 v)

/-- One round of Philox-4x32 on the counter (c0, c1, c2, c3) under the key (k0, k1). -/
def philoxRound (k0 k1 : Nat) (c : Nat × Nat × Nat × Nat) : Nat × Nat × Nat × Nat :=
  let (c0, c1, c2, c3) := c
  let p0 := 0xD2511F53 * c0
  let p1 := 0xCD9E8D57 * c2
  (p1 / 2 ^ 32 ^^^ c1 ^^^ k0, p1 % 2 ^ 32, p0 / 2 ^ 32 ^^^ c3 ^^^ k1, p0 % 2 ^ 32)

/-- n rounds; the key words rise after every round. -/
def philox (k0 k1 : Nat) (c : Nat × Nat × Nat × Nat) : Nat → Nat × Nat × Nat × Nat
  | 0 => c
  | n + 1 => philox ((k0 + 0x9E3779B9) % 2 ^ 32) ((k1 + 0xBB67AE85) % 2 ^ 32) (philoxRound k0 k1 c) n

/-- Output word 0 of Philox-4x32-10 for position q of a sequence under a seed (R308). -/
def philoxWord (seed seqId q : Nat) : Nat :=
  (philox (seed % 2 ^ 32) (seed / 2 ^ 32 % 2 ^ 32) (q % 2 ^ 32, q % 2 ^ 32, seqId % 2 ^ 32, seqId / 2 ^ 32 % 2 ^ 32) 10).1

/-- A candidate: its token and its logit. -/
abbrev Cand := Nat × Fv

/-- The N candidates of a block's entries (R306). -/
def candidates (entries : List Byte) (n : Nat) : List Cand :=
  ((chunks 8 n entries).map fun b => (leAt b 0 4, f32Val (leAt b 4 4)))

/-- Candidates that rank before candidate i: a larger logit, or an equal one at a lower index. -/
def rankOf (l : List Cand) (i : Nat) (x : Fv) : Nat :=
  ((l.mapIdx fun j c => (j, c)).filter fun p => x.lt p.2.2 || (p.2.2.eq x && p.1 < i)).length

/-- The topk candidates of largest logit, ties to the lower index, in block order. -/
def topk (l : List Cand) (k : Nat) : List Cand :=
  ((l.mapIdx fun j c => (j, c)).filter fun p => rankOf l p.1 p.2.2 < k).map (·.2)

/-- The largest logit of a list; the first among equals. -/
def maxLogit : List Cand → Option Cand
  | [] => none
  | c :: l =>
    match maxLogit l with
    | none => some c
    | some d => if c.2.lt d.2 then some d else some c

/-- floor(w × 2^31) of a finite weight; none for a NaN or an infinity. -/
def weightOf : Fv → Option Nat
  | .fin false m e => some (if 0 ≤ e + 31 then m * 2 ^ (e + 31).toNat else m / 2 ^ (-(e + 31)).toNat)
  | .fin true _ _ => some 0
  | _ => none

/-- The weight of a candidate: e^((logit − lmax) × inv_t), each step rounded to FP32. -/
def candWeight (lmax invT x : Fv) : Option Nat :=
  weightOf (rne32 (seedExp (rne32 ((rne32 (x.add lmax.opp)).mul invT))))

/-- The first token whose running sum exceeds u. -/
def pick (u : Nat) : Nat → List (Nat × Nat) → Option Nat
  | _, [] => none
  | s, (t, w) :: l => if u < s + w then some t else pick u (s + w) l

/-- Every element, where each is present. -/
def allSome {α : Type} : List (Option α) → Option (List α)
  | [] => some []
  | x :: l =>
    match x, allSome l with
    | some a, some r => some (a :: r)
    | _, _ => none

/-- The token drawn from n candidates, none where the draw fails (R307); `r` is the Philox word. An inverse temperature of
−0 is neither +0 nor negative: it takes the weighted draw (DEDUCED, log 70). -/
def drawToken (n : Nat) (entries : List Byte) (invT k r : Nat) : Option Nat :=
  if n < 1 ∨ 1024 < n then none
  else
    let keep := (candidates entries n).filter fun c => !c.2.isNan
    let keep := if k ≠ 0 ∧ k < keep.length then topk keep k else keep
    match maxLogit keep with
    | none => none
    | some best =>
      if invT = 0 then some best.1
      else
        let t := f32Val invT
        if t.isNan || t.isInf || t.lt (.fin false 0 0) then none
        else
          match allSome (keep.map fun c => candWeight best.2 t c.2) with
          | none => none
          | some ws =>
            let s := ws.foldl (· + ·) 0
            pick (r * s / 2 ^ 32) 0 ((keep.map (·.1)).zip ws)

end Sys2Proof.Machine
end

