-- ==== Sys2Proof/Machine/Serving.lean ====
section
/-! DEFINITION. The serving engine (R286 to R310): step starts, caravans, cuts, steals and step ends. -/

namespace Sys2Proof.Machine

variable {s0 : State}

/-! ### Which context starts a step (R301, R302) -/

/-- The cores of a context's mask that are not fenced. -/
def State.maskCores (s : State) (c : Nat) : List Nat := (bitsSet (s.ctx c).adm.mask 32).filter fun n => !s.fenced n

/-- The context waits for its step. -/
def State.waits (s : State) (c : Nat) : Bool := (s.ctx c).prot = .admitted && (s.ctx c).run = .waiting

/-- Context a goes before context b where both wait for a core (R302). -/
def State.goesBefore (s : State) (a b : Nat) : Bool :=
  let wait (c : Nat) : Nat := grainSub s.tb.now (s.ctx c).waitFrom
  let turn (c : Nat) : Nat := (c + 7 - s.stu.lastBe) % 8
  match (s.ctx a).adm.be, (s.ctx b).adm.be with
  | false, true => true
  | true, false => false
  | false, false => wait b < wait a || (wait a = wait b && a < b)
  | true, true => turn a < turn b

/-- A forensic hold dumps the core's tile file: the core belongs to no context (R386). -/
def Core.dumped (c : Core) : Bool := c.held.any fun h => c.prev = some h.2.2

/-- Every unfenced core of the context's mask is free and usable, and no context that goes before it waits for one of them. -/
def State.startable (s : State) (c : Nat) : Bool :=
  s.waits c && !(s.maskCores c).isEmpty
    && ((s.maskCores c).all fun n =>
      (s.core n).ctx.isNone && bit (s.reg Fd.corePwrStReady) n && !(s.core n).dumped)
    && (List.range 8).all fun d =>
      d = c || !s.waits d || !s.goesBefore d c || !((s.maskCores d).any (s.maskCores c).contains)

/-- Context c may start its step now: the STU builds no caravan, and no other context that could start goes before it. -/
def State.starts (s : State) (c : Nat) : Bool :=
  s.stu.builder.isNone && s.startable c && (List.range 8).all fun d => d = c || !s.startable d || !s.goesBefore d c

/-! ### Choosing the model and the sequences (R290 to R292) -/

/-- READY entries of a context and model slot, ascending. -/
def State.readyOf (s : State) (c k : Nat) : List Nat :=
  tabKeys (fun _ e => e.st == .ready && e.ctx = c && e.model = k) s.entries

/-- The model that a step serves: the first resident one with READY entries after the last served (R291). -/
def State.chosen (s : State) (c : Nat) : Option Nat :=
  ((List.range 16).map fun i => ((s.ctx c).lastModel + 1 + i) % 16).find? fun k =>
    (s.model k).st = .resident && (s.model k).ctx = c && !(s.readyOf c k).isEmpty

/-- EVICTED models of a context with READY entries. -/
def State.absent (s : State) (c : Nat) : List Nat :=
  (List.range 16).filter fun k => (s.model k).st = .evicted && (s.model k).ctx = c && !(s.readyOf c k).isEmpty

/-- Entries in reading order: after the last that the previous caravan of the model took, wrapping at 8191. -/
def readOrder (last : Option Nat) (l : List Nat) : List Nat :=
  match last with
  | none => l
  | some i => l.filter (i < ·) ++ l.filter (· ≤ i)

/-- NTOK of an entry when `taken` tokens are taken (R292). -/
def ntokOf (a : Adm) (e : Entry) (taken : Nat) : Nat :=
  if e.pos < e.plen then min (min (e.plen - e.pos) (e.limit - e.pos)) (min a.chunk (a.tokcap - taken))
  else if e.pos < e.limit && taken < a.tokcap then 1 else 0

/-- An entry is left for a later caravan: outcome DEFERRED, counted. -/
def defer (c i : Nat) : M s0 Unit := do
  modEntry i fun e => { e with outcome := 5 }
  bumpReg Fd.stuCtxDeferDeferred c

/-- Read the entries in order (R292): the sequences that join, and their tokens. -/
def readEntries (c : Nat) : List Nat → List CarSeq → Nat → M s0 (List CarSeq)
  | [], acc, _ => pure acc
  | i :: l, acc, taken => do
    let s ← rd
    let a := (s.ctx c).adm
    let e := s.entry i
    let ntok := ntokOf a e taken
    if a.maxseq ≤ acc.length then readEntries c l acc taken
    else if ntok = 0 then
      defer c i
      readEntries c l acc taken
    else
      let covered ← extend c i (e.pos + ntok - 1) 4096
      if covered then
        let t ← rd
        let q : CarSeq := { entry := i, pos := e.pos, ntok := ntok, draws := e.plen ≤ e.pos + ntok,
                            npages := (t.entry i).npages, pages := e.pages, tokens := e.tokens, outcome := 0 }
        readEntries c l (acc ++ [q]) (taken + ntok)
      else
        defer c i
        if !(s.ctx c).poolRec then
          modCtx c fun x => { x with poolRec := true }
          ctxRec .poolEmpty c unitStu 0 []
        readEntries c l acc taken

/-- Choose the step's sequences: entries of EVICTED models are deferred (R300), those of the chosen model are read. -/
def chooseSeqs (c : Nat) (k : Option Nat) : M s0 (List CarSeq) := do
  let s ← rd
  setReg Fd.stuCtxDeferDeferred c 0
  each (s.absent c) fun k => each (s.readyOf c k) (defer c)
  match k with
  | none => pure []
  | some k =>
    let last := (((s.ctx c).scan.find? fun kv => kv.1 = k).map (·.2))
    readEntries c (readOrder last (s.readyOf c k)) [] 0

/-- Some sequence would join the caravan that is built now. -/
def State.joins (s : State) (c : Nat) : Bool := !((chooseSeqs c (s.chosen c) : M s _) ⟨s, .refl⟩).1.isEmpty

/-! ### Step start (R54, R59, R248, R291, R302, Table 11-5) -/

/-- Restore an object to INIT, or to empty counters with its phase bit kept (R283). A count that rises may wake a waiter of
another context (R272). -/
def restoreSem (k : Nat) : M s0 Unit := do
  modSem k fun x => { x with count := x.init }
  testWaiters k false

def restoreBar (i : Nat) : M s0 Unit :=
  modBar i fun b =>
    { b with
      leaves := b.leaves.map fun kv => (kv.1, { kv.2 with pend := 0, unassigned := 0, assigned := [] }), cur := 0, next := 0,
      curSet := 0, nextSet := 0, sent := false, first := none, firstNext := none, lateDone := false, lateNext := false }

/-- Objects that a context owns. -/
def State.ownSems (s : State) (c : Nat) : List Nat := tabKeys (fun _ x => x.alloc && x.owner = c) s.sems
def State.ownBars (s : State) (c : Nat) : List Nat := tabKeys (fun _ b => b.alloc && b.owner = c) s.bars

/-- Objects of Table 11-5 at a step start: those that are GONE until then come back at INIT, and a MEMBER barrier that names
a core without assignment is GONE for the step. -/
def startObjects (c : Nat) (cores : List Nat) : M s0 Unit := do
  let s ← rd
  each (s.ownSems c) fun k =>
    if (s.sem k).gone && !(s.sem k).lasting then do
      restoreSem k
      modSem k fun x => { x with gone := false }
    else pure ()
  each (s.ownBars c) fun i => do
    if (s.bar i).gone && !(s.bar i).lasting then
      restoreBar i
      modBar i fun b => { b with gone := false }
    if (s.bar i).member && (bitsSet (s.bar i).mask 32).any fun n => !cores.contains n then goneBar i

/-- Zero the counts of a context's STEP oases (R248). -/
def zeroCounts (c : Nat) : M s0 Unit := do
  let s ← rd
  each (List.range 32) fun n =>
    each (tabKeys (fun _ o => o.isOpen && o.ctx = c && !o.openEpoch) (s.core n).oases) fun k => do
      setReg Fd.oasisBytesBytes (n * 32 + k) 0
      setReg Fd.oasisPktsPkts (n * 32 + k) 0

/-- Assign a core to a context for its step (R29, R54, R59, R109, R133). -/
def assignCore (c n : Nat) : M s0 Unit := do
  let s ← rd
  if (s.core n).prev ≠ some c then zeroFile n
  modCore n fun k => { k with ctx := some c, prev := some c, segBuf := none, arrived := [], ranges := 0 }
  setReg Fd.coreGrainSlackMinSlack n 0xFFFFFFFF
  setReg Fd.ordHoldMaxMax n 0
  setReg Fd.ordHoldMaxTag n 0

/-- STEAL_EN that a step starting now works under: the last one committed (Table 12-7). -/
def State.stealNow (s : State) : Bool :=
  match ((s.sets.filter fun v => v.block = .stu).map fun v => v.vals).flatten.getLast? with
  | some v => v.val % 2 = 1
  | none => s.reg Fd.stuCtrlStealEn = 1

/-- Assign the cores of a step that starts: what was staged for them takes effect (R391). -/
def assignAll (c : Nat) (cores : List Nat) : M s0 Unit := do
  let s ← rd
  eff (.sets (s.sets.map fun v => if stepBlock v.block && cores.contains v.chan then { v with ready := true } else v))
  each cores (assignCore c)

/-- STEP_ASSIGN: the step of a waiting context starts, and every unfenced core of its mask is assigned to it; none where its
caravan will hold no sequence (R299, R302). -/
def execStepAssign (ctx : Fin 8) (s : State) : Out :=
  runIf (s.alive && s.starts ctx) s do
    let c := ctx.val
    let k := s.chosen c
    let cores := if s.joins c then s.maskCores c else []
    setReg Fd.stuCtxWaitMaxWait c (max (s.reg Fd.stuCtxWaitMaxWait c) (min Fd.stuCtxWaitMaxWait.max (grainSub s.tb.now (s.ctx c).waitFrom)))
    each (s.absent c) fun k => modModel k fun m => { m with wanted := true }
    modStu fun u => { u with builder := some c, lastBe := if (s.ctx c).adm.be then c else u.lastBe }
    modCtx c fun x => { x with
      run := .running, start := s.tb.now, step := if x.advance then (x.step + 1) % 2 ^ 32 else x.step, advance := false,
      quiet := true, lateDone := false, poolRec := false, shownCut := 0, shownNact := 0, shownEnded := 0,
      steal := s.stealNow,
      caravan := some { model := k.getD 0, served := k.isSome, seqs := [], cores := cores } }
    eff (.sets (s.sets.map fun v => if v.block = .stu then { v with ready := true } else v))
    zeroCounts c
    assignAll c cores
    startObjects c (s.maskCores c)

/-! ### The object check of a step end (R283) -/

/-- A SYNC_RESIDUE record: the object, its virtual ID and the value found. -/
def residueRec (c unit vid : Nat) (obj : List Byte) (value : Nat) : M s0 Unit := do
  ctxRec .syncResidue c unit 0 (obj ++ toLe vid 2 ++ toLe value 4)
  bumpReg Fd.syncCtxResidResidue c
  noteLast c 0 vid

/-- A barrier with a counter or a PEND that is not 0; beyond the cluster only the leaves count. -/
def Barrier.residue (b : Barrier) : Bool :=
  (b.scope = 0 && (b.cur ≠ 0 || b.next ≠ 0))
    || b.leaves.any fun kv => kv.2.pend ≠ 0 || kv.2.unassigned ≠ 0 || !kv.2.assigned.isEmpty

/-- The object check of a step end (R283): answers whether an object was not as the program must leave it. -/
def checkObjects (c : Nat) : M s0 Bool := do
  let s ← rd
  let sems := (s.ownSems c).filter fun k => (s.sem k).count ≠ (s.sem k).init
  let bars := (s.ownBars c).filter fun i => (s.bar i).residue
  each sems fun k => do
    restoreSem k
    residueRec c (if k < 32768 then k / 1024 else unitHub) (s.sem k).vid (semObjBytes k) (s.sem k).count
  each bars fun i => do
    restoreBar i
    residueRec c unitHub (s.bar i).vid (barObjBytes i) (s.bar i).shown
  each (s.ownSems c) fun k => modSem k fun x => { x with poison := false, gone := x.gone && x.lasting }
  each (s.ownBars c) fun i => modBar i fun b => { b with poison := false, gone := b.gone && b.lasting }
  pure (!(sems.isEmpty && bars.isEmpty))

/-! ### The caravan sequence list (R293) -/

/-- The CSL of a caravan (Table 12-3). -/
def cslBytes (a : Adm) (step : Nat) (seqs : List CarSeq) : List Byte :=
  toLe seqs.length 4 ++ toLe step 4 ++ toLe a.candBase 8 ++ toLe a.candStride 4
    ++ toLe (seqs.foldl (fun n q => n + q.ntok) 0) 4 ++ zeros 40
    ++ (seqs.map fun q => toLe q.entry 4 ++ toLe q.pos 4 ++ toLe q.ntok 2 ++ toLe (b2n q.draws) 1 ++ zeros 1
          ++ toLe q.npages 4 ++ toLe q.pages 8 ++ toLe q.tokens 8).flatten

/-- Apply the mailbox commands that waited for a step's end, in order (R287). -/
def applyQueued (c : Nat) : M s0 Unit := do
  let s ← rd
  modCtx c fun x => { x with queued := [] }
  each (s.ctx c).queued (seqApply c)

/-- The builder has read the entries and cut the caravan. -/
def builderDone : M s0 Unit := modStu fun u => { u with builder := none, stalled := false }

/-- A context's step is over and served model slot k, if any: its age counts from now (R300). -/
def servedUntil (v : Caravan) : M s0 Unit := do
  let s ← rd
  if v.served then modModel v.model fun m => { m with lastEnd := some s.tb.now }

/-- CARAVAN_BUILD: the STU reads the entries and writes the CSL; an empty caravan ends the step (R292, R293, R299). Where pages
added since the step's start let an entry join a caravan that would have been empty, the cores are assigned now. -/
def execCaravanBuild (ctx : Fin 8) (s : State) : Out :=
  let c := ctx.val
  match (s.ctx c).caravan with
  | none => .next s
  | some v => runIf (s.alive && s.stu.builder = some c && v.seqs.isEmpty) s do
    let seqs ← chooseSeqs c (if v.served then some v.model else none)
    let cores := if v.cores.isEmpty && !seqs.isEmpty then (s.maskCores c).filter fun n => (s.core n).ctx.isNone else v.cores
    if v.cores.isEmpty then assignAll c cores
    if seqs.isEmpty || cores.isEmpty then
      each seqs fun q => defer c q.entry
      each v.cores fun n => modCore n fun k => { k with ctx := none }
      let _ ← checkObjects c
      applyQueued c
      builderDone
      servedUntil v
      let t ← rd
      modCtx c fun x => { x with
        caravan := none, run := if x.quiet then .idle else .waiting, waitFrom := t.tb.now,
        lastModel := if v.served then v.model else x.lastModel }
      boundary c
    else
      let t ← rd
      gwrite (.step c) (t.ctx c).adm.cslBase (cslBytes (t.ctx c).adm (t.ctx c).step seqs)
      modCtx c fun x => { x with caravan := some { v with seqs := seqs, cores := cores }, shownNact := seqs.length }

/-! ### Cutting (R294 to R296) -/

/-- The stages of a plan, ascending, each with its records in plan order. -/
def stagesOf (l : List PlanRec) : List (List PlanRec) :=
  (l.map (·.stage)).eraseDups.map fun g => l.filter (·.stage = g)

/-- Parcels that a record emits per slice. -/
def PlanRec.fanOut (r : PlanRec) (nc nact : Nat) : Nat :=
  match r.fan with
  | 0 => nc
  | 1 => nact
  | 2 => cdiv nact (max 1 r.gparam)
  | _ => 1

/-- First caravan rank, sequences, and home rank of the parcel of a rank. -/
def PlanRec.cut (r : PlanRec) (nc nact k : Nat) : Nat × Nat × Nat :=
  match r.fan with
  | 0 => (0, nact, k)
  | 1 => (k, 1, k % nc)
  | 2 => (k * r.gparam, min r.gparam (nact - k * r.gparam), k % nc)
  | _ => (0, nact, r.gparam % nc)

/-- The next parcel to cut: its stage's records, its record, and its home core. -/
def Caravan.next (v : Caravan) (plan : List PlanRec) : Option (List PlanRec × PlanRec × Nat) := do
  let st ← (stagesOf plan)[v.stage]?
  let r ← st[v.rc]?
  let home ← v.cores[(r.cut v.cores.length v.seqs.length v.rank).2.2]?
  pure (st, r, home)

/-- The cursor after a parcel: next rank, record, slice, stage. -/
def Caravan.advance (v : Caravan) (st : List PlanRec) (r : PlanRec) : Caravan :=
  let v := { v with cut := v.cut + 1 }
  if v.rank + 1 < r.fanOut v.cores.length v.seqs.length then { v with rank := v.rank + 1 }
  else if v.rc + 1 < st.length then { v with rc := v.rc + 1, rank := 0 }
  else if v.sl + 1 < r.nslice then { v with sl := v.sl + 1, rc := 0, rank := 0 }
  else { v with stage := v.stage + 1, sl := 0, rc := 0, rank := 0 }

/-- The segment table entry of a model's segment (Table 7-2). -/
def State.segEntry (s : State) (k seg : Nat) : List Byte :=
  s.gread ((s.model k).addr + (s.model k).segtab + 32 * seg) 32

/-- The segment of a parcel as it stands in the binary of model slot k now (Table 7-2). -/
def State.loadSeg (s : State) (k : Nat) (p : Parcel) : SegBuf :=
  let entry := s.segEntry k p.seg
  let a := (s.model k).addr + leAt entry 0 4
  let n := 16 * ((List.range 5).map fun j => leAt entry (4 + 2 * j) 2).foldl (· + ·) 0
  { parcel := p, entry := entry, code := s.gread a n, good := s.ggood a n }

/-- Fetch the segment of a parcel from memory: its table entry, then its words. -/
def fetchSeg (k : Nat) (p : Parcel) : M s0 SegBuf := do
  let s ← rd
  viaStations (.step p.ctx) false ((s.model k).addr + (s.model k).segtab + 32 * p.seg) 32
  let t ← rd
  let b := t.loadSeg k p
  viaStations (.step p.ctx) false ((t.model k).addr + leAt b.entry 0 4) b.code.length
  let u ← rd
  pure (u.loadSeg k p)

/-- While core n runs a parcel, the segment of the next in its home queue loads into its free buffer; the spec leaves the time
open, and the load is taken to happen as soon as both are there (R169, R296; DESIGN CHOICE, assumption log 112). -/
def loadNext (n : Nat) : M s0 Unit := do
  let s ← rd
  let c := s.core n
  match c.run, c.home.head? with
  | some _, some p =>
    if (c.segBuf.filter fun b => b.parcel = p).isNone then
      match (s.ctx p.ctx).caravan with
      | some v => do
        let b ← fetchSeg v.model p
        modCore n fun c => { c with segBuf := some b }
      | none => pure ()
  | _, _ => pure ()

/-- CARAVAN_CUT: the builder cuts the next parcel into its home queue, or stalls while that queue is full (R295, R296). -/
def execCaravanCut (s : State) : Out :=
  match s.stu.builder with
  | none => .next s
  | some c =>
    match (s.ctx c).caravan with
    | none => .next s
    | some v => runIf (s.alive && !v.seqs.isEmpty && !s.stu.stalled) s do
      match v.next (s.model v.model).plan with
      | none =>
        modCtx c fun x => { x with caravan := some { v with cutDone := true } }
        builderDone
      | some (st, r, home) =>
        if 256 ≤ (s.core home).home.length then modStu fun u => { u with stalled := true }
        else
          let (first, nseq, _) := r.cut v.cores.length v.seqs.length v.rank
          let p : Parcel := { index := v.cut, ctx := c, seg := r.seg, slice := r.sliceBase + v.sl, first := first,
                              nseq := nseq, rank := v.rank, parg := r.parg,
                              pinned := bit (leAt (s.segEntry v.model r.seg) 14 1) 0 }
          let v' := v.advance st r
          let last := (v'.next (s.model v.model).plan).isNone
          modCtx c fun x => { x with caravan := some { v' with cutDone := last }, shownCut := v'.cut }
          if s.fenced home then reportParcel p .dropped
          else
            modCore home fun k => { k with home := k.home ++ [p] }
            loadNext home
          if last then builderDone

/-- BUILDER_RESUME: the home queue that stalled the builder has freed a record (R296). -/
def execBuilderResume (s : State) : Out :=
  match s.stu.builder with
  | none => .next s
  | some c =>
    match (s.ctx c).caravan with
    | none => .next s
    | some v =>
      match v.next (s.model v.model).plan with
      | none => .next s
      | some (_, _, home) => runIf (s.alive && s.stu.stalled && (s.core home).home.length < 256) s do
        modStu fun u => { u with stalled := false }

/-! ### Stealing (R30, R31, R297) -/

/-- Mesh neighbours of a core, ascending (R20). -/
def neighbours (n : Nat) : List Nat :=
  (List.range 32).filter fun m =>
    (m / 8 = n / 8 && (m % 8 = n % 8 + 1 || n % 8 = m % 8 + 1))
      || (m % 8 = n % 8 && (m / 8 = n / 8 + 1 || n / 8 = m / 8 + 1))

/-- The core among `l` with the most unpinned records, the lowest number among equals; none where no core has one. -/
def State.victim (s : State) : List Nat → Option Nat
  | [] => none
  | m :: l =>
    let have_ (i : Nat) : Nat := ((s.core i).home.filter fun p => !p.pinned).length
    match s.victim l with
    | none => if have_ m = 0 then none else some m
    | some k => if have_ k ≤ have_ m then some m else some k

/-- An idle core: its parcel has ended, and it holds no record (R297). -/
def Core.idle (c : Core) : Bool := c.run.isNone && c.home.isEmpty && c.stolen.isNone

/-- The unpinned record nearest the tail. -/
def tailUnpinned (l : List Parcel) : Option Parcel := (l.filter fun p => !p.pinned).getLast?

/-- The core and the record that a request of idle core n targets. -/
def State.target (s : State) (n : Nat) : Option (Nat × Parcel) :=
  match (s.core n).ctx with
  | none => none
  | some c =>
    if (s.ctx c).steal then
      match s.victim ((neighbours n).filter fun m => (s.core m).ctx = some c) with
      | some m => (tailUnpinned (s.core m).home).map fun p => (m, p)
      | none => none
    else none

/-- Core n may ask for a steal: it is idle in a step, and not fenced. -/
def State.mayAsk (s : State) (n : Nat) : Bool := (s.core n).ctx.isSome && !s.fenced n && (s.core n).idle

/-- The steals granted of the requests of one cycle, of thieves in ascending number: one per victim queue and at most 8 in all;
a home core that takes the record from its queue's head in that cycle receives it (R31, R297). `heads` are those home cores. -/
def State.grants (s : State) (heads : List (Fin 32)) : List Nat → List (Nat × Nat × Parcel) → List (Nat × Nat × Parcel)
  | [], got => got
  | n :: l, got =>
    match s.target n with
    | none => s.grants heads l got
    | some (m, p) =>
      let home := heads.any (fun h => h.val = m && (s.core h).run.isNone && (s.core h).home.head? = some p)
      if home || 8 ≤ got.length || got.any (·.2.1 = m) then s.grants heads l got else s.grants heads l (got ++ [(n, m, p)])

/-- STEAL_REQUEST: an idle core's request takes a neighbour's record or is refused, with those that reach the Arbiter in the
same cycle and the home cores that take a record then (R31, R297). -/
def execStealRequest (ask : StealCycle) (s : State) : Out :=
  runIf (s.alive && s.mayAsk ask.core) s do
    let thieves := (List.range 32).filter fun n => s.mayAsk n && (n = ask.core.val || ask.rivals.any (·.val = n))
    let got := s.grants ask.heads thieves []
    each got fun (n, m, p) => do
      modCore m fun k => { k with home := k.home.filter (· ≠ p) }
      modCore n fun k => { k with stolen := some p }
    if !got.isEmpty then bumpReg Fd.stealStatsGranted 0 got.length
    if got.length < thieves.length then bumpReg Fd.stealStatsRefused 0 (thieves.length - got.length)

/-! ### Ending a step (R258, R283, R298, R304) -/

/-- Every write packet of the context's step that the STU waits for has been acknowledged (R258). -/
def State.acked (s : State) (c n : Nat) : Bool :=
  ((s.core n).outW.all fun w => w.ctx ≠ c || w.exempt) && (s.core n).injectQ.all fun p => p.ctx ≠ c

/-- Draw for a sequence of rank j (R306, R307): the token drawn, and the outcome. -/
def drawFor (c j : Nat) (q : CarSeq) : M s0 (Option Nat) := do
  let s ← rd
  let a := (s.ctx c).adm
  let block := a.candBase + j * a.candStride
  let head ← gget (.step c) block 4
  let n := leNat head
  let cands ← gget (.step c) (block + 64) (8 * min n 1024)
  let e := s.entry q.entry
  let at_ := q.pos + q.ntok
  match drawToken n cands e.invT e.topk (philoxWord a.seed e.seqId at_) with
  | some t =>
    mergeWrite c (q.tokens + 4 * at_) (toLe t 4)
    modEntry q.entry fun e => { e with last := t, draw := at_ }
    pure (some t)
  | none =>
    ctxRec .sampleFault c unitStu 0 (toLe q.entry 2 ++ toLe n 4)
    bumpReg Fd.stuCtxLateSampleFaults c
    pure none

/-- Draw in caravan order for every sequence with outcome OK that draws: each with its outcome and its token. -/
def drawAll (c : Nat) : Nat → List CarSeq → M s0 (List (CarSeq × Option Nat))
  | _, [] => pure []
  | j, q :: l => do
    let r ← if q.outcome = 1 && q.draws then do
        let t ← drawFor c j q
        pure (if t.isSome then (q, t) else ({ q with outcome := 3 }, none))
      else pure (q, none)
    let rest ← drawAll c (j + 1) l
    pure (r :: rest)

/-- Advance one sequence by its outcome (R298 step 3). -/
def advanceSeq (c : Nat) (q : CarSeq) (tok : Option Nat) : M s0 Unit := do
  modEntry q.entry fun e => { e with outcome := q.outcome }
  if q.outcome = 1 then
    let pos := q.pos + q.ntok
    modEntry q.entry fun e => { e with pos := pos, draw := if q.draws then e.draw else pos, rcount := 0 }
    let s ← rd
    if pos % (s.ctx c).adm.tpp = 0 then
      let _ ← extend c q.entry pos 4096
    let e := s.entry q.entry
    if (e.stop ≠ noStop && tok = some e.stop) || pos = e.limit then
      modEntry q.entry fun e => { e with st := .done }
      ctxRec .seqDone c unitStu 0 (toLe q.entry 2)
  else if q.outcome = 3 then
    let s ← rd
    let e := s.entry q.entry
    let n := min 15 (e.rcount + 1)
    modEntry q.entry fun e => { e with rcount := n }
    if e.rlimit < 15 && e.rlimit < n then
      modEntry q.entry fun e => { e with st := .held }
      ctxRec .seqHeld c unitStu 0 (toLe q.entry 2)

/-- Release the cores of a step (R32). -/
def releaseCores (l : List Nat) : M s0 Unit := each l fun n => modCore n fun k => { k with ctx := none }

/-- STEP_END: every parcel has ended and its writes are acknowledged: outcomes, draws, objects beside the advance, close (R298).
What RESIDUE_POISON sets reaches the advance (R283; assumption log 64). -/
def execStepEnd (ctx : Fin 8) (s : State) : Out :=
  let c := ctx.val
  match (s.ctx c).caravan with
  | none => .next s
  | some v => runIf (s.alive && (s.ctx c).run = .running && v.cutDone && v.ended = v.cut && v.cores.all (s.acked c)) s do
    let drawn ← drawAll c 0 (v.seqs.map fun q => { q with outcome := max 1 q.outcome })
    let found ← checkObjects c
    let poisonAll := found && (s.ctx c).adm.residuePoison
    each drawn fun p => advanceSeq c (if poisonAll then { p.1 with outcome := 3 } else p.1) p.2
    applyQueued c
    let t ← rd
    modCtx c fun x => { x with
      jobs := if v.cut = 0 then x.jobs else min (2 ^ 48 - 1) (x.jobs + 1), advance := true, abortRun := 0,
      lastModel := v.model, caravan := none, run := .waiting, waitFrom := t.tb.now,
      scan := match v.seqs.getLast? with
        | some q => tabSet x.scan v.model q.entry
        | none => x.scan }
    servedUntil v
    releaseCores v.cores
    boundary c

/-- Objects of a context that another context reaches through its map (R269). -/
def State.mappedOut (s : State) (c : Nat) (p : Obj → Bool) : Bool :=
  (List.range 8).any fun d => d ≠ c && (s.ctx d).map.any fun kv =>
    match kv.2 with
    | some e => p e.obj
    | none => false

/-- A map entry names semaphore k. -/
def namesSem (k : Nat) : Obj → Bool
  | .localSem l => l.any fun p => coreSemKey p.1 p.2 = k
  | .coreSem c i => coreSemKey c i = k
  | .hubSem i => hubSemKey i = k
  | .barrier _ => false

/-- Abort a context's step (R304): every parcel ends ABORTED, every sequence keeps its position, and the step ends from its
object check on. -/
def abortStep (c : Nat) : M s0 Unit := do
  let s ← rd
  match (s.ctx c).caravan with
  | none => pure ()
  | some v => do
    each v.cores fun n => do
      killParcel n .aborted
      dropHome n .aborted
      setReg Fd.tileResumePending n 0
    each v.seqs fun q => modEntry q.entry fun e => { e with outcome := 4 }
    ctxRec .beAbort c unitStu 0 []
    bumpReg Fd.stuCtxAbortAborts c
    let found ← checkObjects c
    if found && (s.ctx c).adm.residuePoison then each v.seqs fun q => modEntry q.entry fun e => { e with outcome := 3 }
    let t ← rd
    each (t.ownSems c) fun k => if t.mappedOut c (namesSem k) then goneSem k else pure ()
    each (t.ownBars c) fun i => if t.mappedOut c (fun o => o = .barrier i) then goneBar i else pure ()
    applyQueued c
    let n := min 15 ((s.ctx c).abortRun + 1)
    let held := (s.ctx c).adm.be && (s.ctx c).adm.abortLimit ≤ n
    modCtx c fun x => { x with
      abortRun := n, caravan := none, run := if held then .held else .waiting, waitFrom := s.tb.now }
    if s.stu.builder = some c then builderDone
    servedUntil v
    if held then
      let u ← rd
      each (tabKeys (fun _ e => e.st == .ready && e.ctx = c) u.entries) fun i =>
        modEntry i fun e => { e with st := .held }
      ctxRec .ctxHeld c unitStu 0 []
    releaseCores v.cores
    boundary c

/-- BE_STEP_CAP: a best-effort step has not ended when its start grain plus 2^16 grains is reached (R304). -/
def execBeStepCap (ctx : Fin 8) (s : State) : Out :=
  let x := s.ctx ctx
  runIf (s.alive && x.adm.be && x.run = .running && elapsed s.tb.now x.start 65536) s (abortStep ctx)

/-- STEP_BUDGET: a latency-critical step lasts longer than its BUDGET (R305). -/
def execStepBudget (ctx : Fin 8) (s : State) : Out :=
  let x := s.ctx ctx
  runIf (s.alive && !x.adm.be && x.run = .running && x.adm.budget ≠ 0 && !x.lateDone
      && elapsed s.tb.now x.start (x.adm.budget + 1)) s do
    modCtx ctx fun x => { x with lateDone := true }
    ctxRec .stepLate ctx unitStu 0 []
    bumpReg Fd.stuCtxLateLate ctx

/-- CTX_RESUME: the owner resumes a context held under R304. -/
def execCtxResume (ctx : Fin 8) (s : State) : Out :=
  serveCtx 0x19 ctx s fun r => do
    if (s.ctx ctx).run = .held then
      modCtx ctx fun x => { x with run := .waiting, waitFrom := s.tb.now, abortRun := 0 }
      reply r .ok
    else reply r .refused

end Sys2Proof.Machine
end

