-- ==== Sys2Proof/Machine/Models.lean ====
section
/-! DEFINITION. Tyzia binaries and the hot set: the checks of a load (R160 to R170, R246, R268, R294, R357), the allocation of
a model's objects, and MODEL_LOAD, MODEL_EVICT, MODEL_PIN, MODEL_UNLOAD and residency loads (R300, R381 to R383). -/

namespace Sys2Proof.Machine

variable {s0 : State}

/-! ### The header (Table 7-1) -/

/-- A field of the header: n bytes at offset o. -/
abbrev hdr (b : List Byte) (o n : Nat) : Nat := leAt b o n

def magic3 : Nat := 0x335A5954
def magic4 : Nat := 0x345A5954

/-- The binary is a Tyzia 4 binary. -/
def isT4 (b : List Byte) : Bool := hdr b 0 4 = magic4

/-- Context shape modes: a LOGICAL binary needs a context in logical mode (R100, R164). -/
def headerBad (logical : Bool) (partBytes : Nat) (b : List Byte) : Bool :=
  let total := hdr b 64 4
  let inside (o n : Nat) : Bool := o + n ≤ total
  (hdr b 0 4 ≠ magic3 && hdr b 0 4 ≠ magic4) || total < 128 || b.length < total
    || crc32c (b.take 124 ++ zeros 4 ++ (b.take total).drop 128) ≠ hdr b 124 4
    || hdr b 4 2 ≠ 128 || (isT4 b && 4 < hdr b 6 1) || 1 < hdr b 7 1 || (!isT4 b && hdr b 7 1 = 1)
    || (hdr b 7 1 = 1 && !logical) || hdr b 8 2 = 0 || 4096 < hdr b 8 2 || hdr b 10 2 ≠ 0
    || hdr b 12 4 % 65536 ≠ 0 || 3145728 < hdr b 12 4 || hdr b 16 4 % 64 ≠ 0 || partBytes < hdr b 16 4 + 64
    || hdr b 20 4 % 32 ≠ 0 || !inside (hdr b 20 4) (32 * hdr b 8 2) || !inside (hdr b 24 4) 64
    || !inside (hdr b 28 4) (hdr b 32 4) || hdr b 36 4 % 64 ≠ 0 || hdr b 40 4 % 64 ≠ 0
    || !inside (hdr b 36 4) (hdr b 40 4) || hdr b 44 4 % 64 ≠ 0
    || (slice b 68 56).any (· ≠ 0)
    || (slice b (hdr b 24 4) 64).any fun q => q.toNat % 2 = 1

/-! ### The resource section (Tables 9-6, 11-1, 11-2, 12-4, 14-10) -/

/-- A record of the resource section. -/
inductive Res where
  | oasis (id : Nat) (openEpoch : Bool) (pbase len : Nat)
  | sem (loc core id init : Nat)
  | bar (member : Bool) (scope id expect mask dl : Nat)
  | plan (p : PlanRec)
  | slots (bundle first count stride dpkg : Nat)

/-- Indices of a run of slots (R357). -/
def slotRun (first count stride : Nat) : List Nat := (List.range count).map fun k => (first + k * stride) % 1024

/-- The record that bytes hold, none where a field of it is out of range or a reserved one is not zero. -/
def resOf (nseg : Nat) (r : List Byte) : Option Res :=
  let f (o n : Nat) : Nat := leAt r o n
  match f 0 1 with
  | 0x02 =>
    if 15 < f 1 1 || 1 < f 2 1 || f 3 1 ≠ 0 || f 12 4 ≠ 0 || f 4 4 % 65536 ≠ 0 || f 8 4 < 65536 || 3145728 < f 8 4
      || f 8 4 % 65536 ≠ 0 then none
    else some (.oasis (f 1 1) (f 2 1 = 1) (f 4 4) (f 8 4))
  | 0x03 =>
    if 2 < f 1 1 || (if f 1 1 = 2 then 31 < f 2 1 else f 2 1 ≠ 0) || f 3 1 ≠ 0 || f 6 2 ≠ 0 || f 12 4 ≠ 0 then none
    else some (.sem (f 1 1) (f 2 1) (f 4 2) (f 8 4))
  | 0x04 =>
    let member := bit (f 1 1) 0
    if 6 ≤ f 1 1 || f 2 2 ≠ 0 || (if member then f 6 2 ≠ 0 || f 8 4 = 0 else f 6 2 = 0 || f 8 4 ≠ 0) then none
    else some (.bar member (f 1 1 / 2) (f 4 2) (f 6 2) (f 8 4) (f 12 4))
  | 0x05 =>
    let fan := f 1 1
    let g := f 6 2
    if 3 < fan || f 3 1 ≠ 0 || nseg ≤ f 4 2 || f 8 2 = 0 || f 12 4 ≠ 0 || f 24 8 ≠ 0
      || (fan = 2 && (g = 0 || 8192 < g)) || (fan < 2 && g ≠ 0) then none
    else some (.plan { fan := fan, stage := f 2 1, seg := f 4 2, gparam := g, nslice := f 8 2, sliceBase := f 10 2,
                       parg := f 16 8 })
  | 0x06 =>
    let run := slotRun (f 2 2) (f 4 2) (f 6 2)
    if 1 < f 1 1 || 1023 < f 2 2 || f 4 2 = 0 || 1008 < f 4 2 || f 6 2 = 0 || 1023 < f 6 2 || 4095 < f 8 2 || f 10 6 ≠ 0
      || run.any (· % 64 = 0) || run.eraseDups.length ≠ run.length then none
    else some (.slots (f 1 1) (f 2 2) (f 4 2) (f 6 2) (f 8 2))
  | _ => none

/-- Records of the section with their indices, or the class and index of the record that is refused (R383). -/
def resList (nseg : Nat) : Nat → Nat → List Byte → Except (Nat × Nat) (List (Nat × Res))
  | 0, _, _ => .ok []
  | _, _, [] => .ok []
  | k + 1, i, b =>
    let size := if leAt b 0 1 = 5 then 32 else 16
    let cls := if leAt b 0 1 = 5 then 5 else 4
    match (if b.length < size then none else resOf nseg (b.take size)) with
    | none => .error (cls, i)
    | some r => do
      let l ← resList nseg k (i + 1) (b.drop size)
      pure ((i, r) :: l)

/-- The caravan plan of a list of records. -/
def planOf (l : List (Nat × Res)) : List (Nat × PlanRec) :=
  l.filterMap fun x => match x.2 with | .plan p => some (x.1, p) | _ => none

/-- Virtual identifiers of the semaphore and barrier records. -/
def vidsOf (l : List (Nat × Res)) : List (Nat × Nat) :=
  l.filterMap fun x => match x.2 with
    | .sem _ _ id _ => some (x.1, id)
    | .bar _ _ id _ _ _ => some (x.1, id)
    | _ => none

def oasesOf (l : List (Nat × Res)) : List (Nat × Nat × Bool × Nat × Nat) :=
  l.filterMap fun x => match x.2 with
    | .oasis id e p n => some (x.1, id, e, p, n)
    | _ => none

/-- The index of the first entry that repeats an earlier one's key. -/
def firstRepeat : List (Nat × Nat) → List Nat → Option Nat
  | [], _ => none
  | (i, k) :: l, seen => if seen.contains k then some i else firstRepeat l (k :: seen)

/-- The plan breaks R294: too many records, falling stages, a stage whose records disagree, or more than 2^20 parcels with nc
cores and maxseq sequences. -/
def planBad (nc maxseq : Nat) (l : List (Nat × PlanRec)) : Option Nat :=
  let pairs := l.zip (l.drop 1)
  match pairs.find? fun p =>
      p.2.2.stage < p.1.2.stage
        || (p.2.2.stage = p.1.2.stage && (p.2.2.nslice ≠ p.1.2.nslice || p.2.2.sliceBase ≠ p.1.2.sliceBase)) with
  | some p => some p.2.1
  | none =>
    match l[1024]? with
    | some p => some p.1
    | none =>
      if 2 ^ 20 < l.foldl (fun n p => n + p.2.nslice * p.2.fanOut nc maxseq) 0 then (l.head?).map (·.1) else none

/-- Every slot of a record is the context's TX slot on the link that ROUTE gives (R357). -/
def State.slotsOwned (s : State) (c : Nat) : Res → Bool
  | .slots bundle first count stride dpkg =>
    (match s.routeOn bundle dpkg with
    | some l => (slotRun first count stride).all fun i => s.slotOwner 0 l i = c + 1
    | none => false)
  | _ => true

/-! ### Segments and command words (R163 to R170) -/

/-- The opcode is defined for the engine of its stream (R186). -/
def opDefined (e : Engine) (op : Nat) : Bool := op ≤ 1 || opEngine op = some e

/-- A queue end breaks R170: a reserved output code, or a queue that is not used, or not between this engine and another. -/
def queueBad (e : Engine) (qmap : List Byte) (output : Bool) (x : Nat) : Bool :=
  let q := leAt qmap (x % 64) 1
  let prod := bits q 6 4
  let cons := bits q 3 1
  x / 64 ≠ 0 && ((output && 1 < x / 64) || q < 128 || prod = cons || 4 < prod || 4 < cons
    || (if output then prod else cons) ≠ engCode e)

/-- A GRAIN word with a non-zero reserved bit (R164, R167). -/
def grainBad (t4 : Bool) (w : Cmd) : Bool := cf w 31 0 ≠ 0 || (t4 && cf w 103 98 ≠ 0)

/-- The index of the first word of a stream that breaks R164. -/
def wordBad (t4 : Bool) (e : Engine) (qmap : List Byte) : Nat → Bool → List Cmd → Option Nat
  | i, g, [] => if g then some (i - 1) else none
  | i, g, w :: l =>
    let op := opcodeOf w
    if !opDefined e op then some i
    else if op = 1 then (if g || grainBad t4 w then some i else wordBad t4 e qmap (i + 1) true l)
    else if hasGrain w != g || (inEnds w none).any (queueBad e qmap false) || (outEnds w).any (queueBad e qmap true) then
      some i
    else wordBad t4 e qmap (i + 1) false l

/-- The five streams of a segment, from its table entry (R163). -/
def streamsOf (b entry : List Byte) : List (List Cmd) :=
  let len (j : Nat) : Nat := leAt entry (4 + 2 * j) 2
  (List.range 5).map fun j =>
    let from_ := leAt entry 0 4 + 16 * ((List.range j).foldl (fun n i => n + len i) 0)
    (chunks 16 (len j) (slice b from_ (16 * len j))).map fun w => BitVec.ofNat 128 (leNat w)

/-- A stream holds a reserved send. -/
def hasRsv (l : List Cmd) : Bool := l.any fun w => opcodeOf w = 0x47 && lsendRsv w

/-- A stream joins a barrier of more than one cluster. -/
def joinsWide (wide : List Nat) (l : List Cmd) : Bool := l.any fun w => opcodeOf w = 0x53 && wide.contains (cf w 95 80)

/-- The class and index for which a segment is refused. -/
def segmentBad (t4 : Bool) (b qmap : List Byte) (wide : List Nat) (k : Nat) (entry : List Byte) : Option (Nat × Nat) :=
  let flags := leAt entry 14 1
  let lens := (List.range 5).map fun j => leAt entry (4 + 2 * j) 2
  let n := lens.foldl (· + ·) 0
  if leAt entry 0 4 % 16 ≠ 0 || 8 ≤ flags || leAt entry 15 1 ≠ 0 || leAt entry 24 8 ≠ 0 || (if t4 then 4096 else 2048) < n
      || hdr b 64 4 < leAt entry 0 4 + 16 * n then some (2, k)
  else
    let st := streamsOf b entry
    let bad := (List.range 5).findSome? fun j =>
      wordBad t4 (engines.getD j .mx) qmap ((lens.take j).foldl (· + ·) 0) false (st.getD j [])
    match bad with
    | some i => some (3, i)
    | none =>
      if (!bit flags 0 && flags ≠ 0) || bit flags 1 != hasRsv (st.getD 3 []) || bit flags 2 != joinsWide wide (st.getD 4 [])
      then some (2, k) else none

/-! ### Shares and the evictions that they ask for (R300) -/

/-- Semaphores and barriers that records ask for: of the hub, of core n, barriers. -/
def hubAsked (l : List Res) : Nat := (l.filter fun r => match r with | .sem 1 _ _ _ => true | _ => false).length

def coreAsked (l : List Res) (n : Nat) : Nat :=
  (l.filter fun r => match r with
    | .sem 0 _ _ _ => true
    | .sem 2 c _ _ => c = n
    | _ => false).length

def barAsked (l : List Res) : Nat := (l.filter fun r => match r with | .bar _ _ _ _ _ _ => true | _ => false).length

/-- What a load needs: its records, and its constant image in the partition. -/
structure Need where
  res : List Res
  at_ : Nat
  len : Nat

/-- The unallocated shares of context c cover a need, and no resident image lies where its own goes. -/
def State.meetsNeed (s : State) (c : Nat) (x : Need) : Bool :=
  let a := (s.ctx c).adm
  let held (p : Nat → Bool) : Nat := (tabKeys (fun k v => v.alloc && v.owner = c && p k) s.sems).length
  held (32768 ≤ ·) + hubAsked x.res ≤ a.hubSems
    && ((List.range 32).all fun n =>
      if bit a.mask n then held (inCore n) + coreAsked x.res n ≤ a.coreSems
      else !x.res.any fun r => match r with | .sem 2 c _ _ => c = n | _ => false)
    && (tabKeys (fun _ b => b.alloc && b.owner = c) s.bars).length + barAsked x.res ≤ a.barriers
    && (s.residents c).all fun k => !overlap (s.model k).constAt (s.model k).constLen x.at_ x.len

/-- The step of a model runs. -/
def State.modelRuns (s : State) (k : Nat) : Bool :=
  let x := s.ctx (s.model k).ctx
  x.run = .running && (match x.caravan with | some v => v.served && v.model = k | none => false)

/-- Grains since a model's last step ended; one that never ran counts as the oldest. -/
def State.modelAge (s : State) (k : Nat) : Nat :=
  match (s.model k).lastEnd with
  | some g => grainSub s.tb.now g
  | none => grainMod

/-- The model that R300 evicts next: the one whose last step ended longest ago, the lowest slot among equals. -/
def State.nextEvict (s : State) : List Nat → Option Nat
  | [] => none
  | k :: l =>
    match s.nextEvict l with
    | some m => if s.modelAge k < s.modelAge m then some m else some k
    | none => some k

/-- Evict models of context c until a need is met; answers whether it is. -/
def evictUntil (c : Nat) (x : Need) : Nat → M s0 Bool
  | 0 => do
    let s ← rd
    pure (s.meetsNeed c x)
  | n + 1 => do
    let s ← rd
    if s.meetsNeed c x then pure true
    else match s.nextEvict ((s.residents c).filter fun k => !(s.model k).pin && !s.modelRuns k) with
      | some k => do
        evict k
        evictUntil c x n
      | none => pure false

/-- Evictions can meet the need. -/
def State.canMeet (s : State) (c : Nat) (x : Need) : Bool := ((evictUntil c x 16 : M s _) ⟨s, .refl⟩).1

/-! ### The check of a whole binary -/

/-- The length of the binary that its header gives, and its segment table entries. -/
def segEntryOf (b : List Byte) (k : Nat) : List Byte := slice b (hdr b 20 4 + 32 * k) 32

def needOf (b : List Byte) (l : List (Nat × Res)) : Need := { res := l.map (·.2), at_ := hdr b 44 4, len := hdr b 40 4 }

/-- Identifiers ID[9:0] that a context's map holds already. -/
def State.idTaken (s : State) (c id : Nat) : Bool := (tabGet none (s.ctx c).map (id % 1024)).isSome

/-- The records of a binary that context c may load, or the class and index of the failed check (R383). -/
def State.checkBinary (s : State) (c : Nat) (b : List Byte) : Except (Nat × Nat) (List (Nat × Res)) :=
  let a := (s.ctx c).adm
  if headerBad a.logical (a.nb * 65536) b then .error (1, 0)
  else do
    let nseg := hdr b 8 2
    let l ← resList nseg (hdr b 32 4) 0 (slice b (hdr b 28 4) (hdr b 32 4))
    let wide := l.filterMap fun x => match x.2 with
      | .bar _ scope id _ _ _ => if scope = 0 then none else some id
      | _ => none
    match firstRepeat ((vidsOf l).map fun v => (v.1, v.2 % 1024)) [] with
    | some i => .error (4, i)
    | none => pure ()
    match firstRepeat ((oasesOf l).map fun v => (v.1, v.2.1)) [] with
    | some i => .error (4, i)
    | none => pure ()
    match (List.range nseg).findSome? fun k =>
        segmentBad (isT4 b) b (slice b (hdr b 24 4) 64) wide k (segEntryOf b k) with
    | some e => .error e
    | none => pure ()
    match planBad (popcount a.mask 32) a.maxseq (planOf l) with
    | some i => .error (5, i)
    | none => pure ()
    match (vidsOf l).find? fun v => s.idTaken c v.2 with
    | some v => .error (4, v.1)
    | none => pure ()
    match l.find? fun r => !s.slotsOwned c r.2 with
    | some r => .error (4, r.1)
    | none => pure ()
    if a.nb * 65536 < hdr b 12 4 || a.nb * 65536 < hdr b 44 4 + hdr b 40 4 || !s.canMeet c (needOf b l) then .error (6, 0)
    else pure l

/-! ### Making a model resident -/

/-- The lowest of n objects from `from_` on that is not allocated. -/
def State.lowestSem (s : State) (from_ n : Nat) : Nat :=
  ((List.range n).find? fun i => !(s.sem (from_ + i)).alloc).getD 0

def State.lowestBar (s : State) : Nat := ((List.range 256).find? fun i => !(s.bar i).alloc).getD 0

/-- Shared map entries of other contexts that name an object are ended when it is allocated again (R269). -/
def stripMaps (c : Nat) (p : Obj → Bool) : M s0 Unit :=
  each (List.range 8) fun d =>
    if d = c then pure ()
    else modCtx d fun x => { x with map := x.map.map fun kv =>
      (kv.1, match kv.2 with | some e => if p e.obj then none else some e | none => none) }

/-- Allocate one semaphore (R268). -/
def takeSem (c k vid init : Nat) : M s0 Unit := do
  eff (.sem k { alloc := true, count := init, init := init, owner := c, vid := vid })
  stripMaps c (namesSem k)

/-- Put an object into a context's map (R269). -/
def mapObj (c vid : Nat) (o : Obj) (shared : Bool) : M s0 Unit :=
  modCtx c fun x => { x with map := tabSet x.map (vid % 1024) (some { tag := vid / 1024, obj := o, shared := shared }) }

/-- The group of a barrier that spans clusters, as an owned slice of the context gives it (R268, R360): member clusters of
this package, the cluster of the package node, the packages, and the root's. -/
def State.groupFor (s : State) (c vid scope : Nat) : Option (Nat × Nat × List Nat × Nat) :=
  (s.slices.filter fun x => x.ctx = some c && x.owned).findSome? fun x =>
    (x.bars.find? fun e => leAt e 0 2 = vid && leAt e 2 1 = scope).map fun e =>
      (leAt e 4 2, leAt e 3 1, x.pkgs, leAt e 6 2)

/-- Form the group of a barrier: its nodes are empty, and it is no longer GONE (R268, Table 11-5). -/
def Barrier.form (b : Barrier) (g : Nat × Nat × List Nat × Nat) : Barrier :=
  { b with
    members := g.1, pkgInst := g.2.1, pkgs := g.2.2.1, rootPkg := g.2.2.2, gone := false, lasting := false,
    pkgNode := { expect := popcount g.1 16 }, root := { expect := g.2.2.1.length } }

/-- Allocate the object of a record and map it (R268). -/
def allocRes (c : Nat) : Res → M s0 Unit
  | .sem 0 _ id init => do
    let s ← rd
    let l := (bitsSet (s.ctx c).adm.mask 32).map fun n => (n, s.lowestSem (coreSemKey n 0) 1024)
    each l fun p => takeSem c (coreSemKey p.1 p.2) id init
    mapObj c id (.localSem l) false
  | .sem 1 _ id init => do
    let s ← rd
    let i := s.lowestSem 32768 4096
    takeSem c (hubSemKey i) id init
    mapObj c id (.hubSem i) false
  | .sem _ n id init => do
    let s ← rd
    let i := s.lowestSem (coreSemKey n 0) 1024
    takeSem c (coreSemKey n i) id init
    mapObj c id (.coreSem n i) false
  | .bar member scope id expect mask dl => do
    let s ← rd
    let i := s.lowestBar
    let b : Barrier := { alloc := true, owner := c, vid := id, member := member, scope := scope, expect := expect,
                         mask := mask, dl := dl }
    eff (.bar i (if scope = 0 then b else
      match s.groupFor c id scope with
      | some g => b.form g
      | none => { b with gone := true, lasting := true }))
    stripMaps c fun o => o = .barrier i
    mapObj c id (.barrier i) false
  | _ => pure ()

/-- Make a checked binary resident in slot k of context c: evictions, objects, constant image (R381). -/
def makeResident (c k : Nat) (b : List Byte) (l : List (Nat × Res)) : M s0 Unit := do
  let _ ← evictUntil c (needOf b l) 16
  each l fun r => allocRes c r.2
  modModel k fun m => { m with
    st := .resident, modelId := hdr b 56 8, t4 := isT4 b, nseg := hdr b 8 2, segtab := hdr b 20 4, param := hdr b 16 4,
    spBytes := hdr b 12 4, constOff := hdr b 36 4, constAt := hdr b 44 4, constLen := hdr b 40 4,
    plan := (planOf l).map (·.2), oases := (oasesOf l).map (·.2), vids := (vidsOf l).map (·.2), wanted := false }
  let s ← rd
  each (bitsSet (s.ctx c).adm.mask 32) (placeImage k)
  wake c

/-- MODEL_LOAD: registers a binary in an EMPTY slot and loads it (R381, R383). -/
def execModelLoad (ctx : Fin 8) (slot : Fin 16) (addr : BitVec 64) (len : Word) (pin : Bool) (s : State) : Out :=
  serveCtx 0x20 ctx s fun r => do
    if (s.model slot).st != .empty then reply r .noSpace
    else if !s.inWindows ctx addr.toNat len.toNat then reply r .address
    else
      let b ← gget .firmware addr.toNat len.toNat
      match s.checkBinary ctx b with
      | .error e => reply r .refused (e.1 * 4096 + e.2 % 4096)
      | .ok l => do
        eff (.model slot { ctx := ctx, addr := addr.toNat, len := len.toNat, pin := pin })
        makeResident ctx slot b l
        reply r .ok

/-- RESIDENCY_LOAD: the firmware reloads the binary of an EVICTED slot that the STU asked for, once the need can be met
(R291, R300, R381). -/
def execResidencyLoad (slot : Fin 16) (s : State) : Out :=
  let m := s.model slot
  runIf (s.alive && m.st = .evicted && m.wanted && !s.fwBusy && (s.ctx m.ctx).prot = .admitted) s do
    let b ← gget .firmware m.addr m.len
    match s.checkBinary m.ctx b with
    | .error _ => pure ()
    | .ok l => makeResident m.ctx slot b l

/-! ### The other commands on models -/

/-- A command on a slot that is not EMPTY and names a model of the context; else it is refused. -/
def serveModel (op : Nat) (ctx : Fin 8) (slot : Fin 16) (s : State) (body : Req → M s Unit) : Out :=
  serveCtx op ctx s fun r =>
    if (s.model slot).st = .empty || (s.model slot).ctx ≠ ctx then reply r .refused else body r

/-- MODEL_EVICT: a resident model whose step does not run (R300). -/
def execModelEvict (ctx : Fin 8) (slot : Fin 16) (s : State) : Out :=
  serveModel 0x21 ctx slot s fun r => do
    if (s.model slot).st != .resident || s.modelRuns slot then reply r .refused
    else
      evict slot
      wake ctx
      reply r .ok

/-- MODEL_PIN (R300). -/
def execModelPin (ctx : Fin 8) (slot : Fin 16) (pin : Bool) (s : State) : Out :=
  serveModel 0x22 ctx slot s fun r => do
    modModel slot fun m => { m with pin := pin }
    reply r .ok

/-- MODEL_UNLOAD: the slot becomes EMPTY; refused while READY entries name it (R381). -/
def execModelUnload (ctx : Fin 8) (slot : Fin 16) (s : State) : Out :=
  serveModel 0x23 ctx slot s fun r => do
    if !(s.readyOf ctx slot).isEmpty || s.modelRuns slot then reply r .refused
    else
      if (s.model slot).st = .resident then evict slot
      eff (.model slot {})
      modCtx ctx fun x => { x with scan := x.scan.filter (·.1 ≠ slot.val) }
      wake ctx
      reply r .ok

end Sys2Proof.Machine
end

