-- ==== Sys2Proof/Machine/Slices.lean ====
section
/-! DEFINITION. Job slices over the sled ring (R352, R354, R359, R360): ring admission, hold, release. -/

namespace Sys2Proof.Machine

variable {s0 : State}

/-! ### Slot tables as the firmware sees them (R347, R391) -/

/-- The value that a field of the L-port will have when every committed set has been applied. -/
def State.lpAfter (s : State) (f : Fld) (ch : Nat) : Nat :=
  match (((s.sets.filter fun v => v.block = .lp).map (·.vals)).flatten.filter fun v => v.fld = f && v.chan = ch).getLast? with
  | some v => v.val
  | none => s.reg f ch

/-- Commit values of the firmware's for the L-port: they hold from the next grain that is 0 modulo 1024. -/
def lpSet (l : List Staged) : M s0 Unit := do
  let s ← rd
  if !l.isEmpty then
    eff (.sets (s.sets ++ [{ block := .lp, chan := 0, hsrc := 0, vals := l, dueAt := s.commitDue .lp, ready := true }]))

/-- Channel of a slot entry. -/
def SlotHold.chan (h : SlotHold) : Nat := h.dir * 2048 + h.bundle * 1024 + h.index

/-- The same link, direction and index. -/
def SlotHold.same (h k : SlotHold) : Bool := h.chan = k.chan && h.link = k.link

/-- An entry that no reservation or table holds. -/
def State.slotFree (s : State) (h : SlotHold) : Bool :=
  let o := bits (s.lpAfter Fd.slotEntryOwners h.chan) (8 * h.link + 7) (8 * h.link)
  h.index % 64 ≠ 0 && !((1 ≤ o && o ≤ 8) || (0x40 ≤ o && o < 0x80)) && !s.slices.any fun x => x.slots.any h.same

/-- The words of the entries after an owner is written into each, or taken out where `free`. -/
def State.ownerWords (s : State) (free : Bool) (l : List SlotHold) : List Staged :=
  (l.map SlotHold.chan).eraseDups.map fun ch =>
    let w := (l.filter fun h => h.chan = ch).foldl
      (fun w h => setBits w (8 * h.link + 7) (8 * h.link) (if free then 0 else h.code)) (s.lpAfter Fd.slotEntryOwners ch)
    ⟨0, Fd.slotEntryOwners, ch, w⟩

/-- The two entries of a pattern name one place. -/
def repeats : List SlotHold → Bool
  | [] => false
  | h :: l => l.any h.same || repeats l

/-- A pattern's entries on one link (R360). -/
def pattern (dir link first count stride off code : Nat) : List SlotHold :=
  (slotRun (first + off) count stride).map fun i => ⟨dir, link / 4, link % 4, i, code⟩

/-! ### Hop entries (Table 14-14) -/

def hopPkg (h : Nat) : Nat := bits h 11 0
def hopInst (h : Nat) : Nat := bits h 15 12
def hopIn (h : Nat) : Nat := bits h 16 16 * 4 + bits h 18 17
def hopOut (h : Nat) : Nat := bits h 19 19 * 4 + bits h 21 20
def hopLast (h : Nat) : Bool := bit h 22
def hopLag (h : Nat) : Nat := bits h 31 24

/-- The lowest forward flow that nothing defines or holds. -/
def State.freeFlow (s : State) : Option Nat :=
  (List.range 64).find? fun f => s.lpAfter Fd.flowCfgValid f = 0 && !s.slices.any fun x => x.flow = some f

/-! ### Records of slices -/

/-- The message speaks of this slice. -/
def Slice.named (x : Slice) (m : ResvMsg) : Bool := x.opkg = m.opkg.val && x.oinst = m.oinst.val && x.id = m.slice.toNat

/-- Replace a slice record. -/
def putSlice (old new : Slice) : M s0 Unit := do
  let s ← rd
  eff (.slices (s.slices.map fun x => if x = old then new else x))

/-- The reply or notice that travels back to the origin. -/
def backMsg (m : ResvMsg) (hop reason : Nat) : ResvMsg :=
  { m with hop := hop, reason := BitVec.ofNat 8 reason, hopRec := 0, first := 0, count := 0, stride := 0, offset := 0, nhop := 0 }

/-- Forward a ring admission message, which needs RESV_RING on the link (Table 14-7). -/
def ringSend (l : Option Nat) (m : LCtl) : M s0 Unit := do
  let s ← rd
  match l with
  | some l => if s.linkHas l 6 then ctlSend l m
  | none => pure ()

/-- HELD entries become owned: the slot tables and the forward flow are committed (R354). -/
def ownSlice (x : Slice) : M s0 Unit := do
  let s ← rd
  let flow : List Staged := match x.flow, x.outLink with
    | some f, some o =>
      [⟨0, Fd.flowCfgValid, f, 1⟩, ⟨0, Fd.flowCfgOutBundle, f, o / 4⟩, ⟨0, Fd.flowCfgOutLink, f, o % 4⟩,
        ⟨0, Fd.flowCfgLag, f, x.lag⟩]
    | _, _ => []
  lpSet (s.ownerWords false x.slots ++ flow)
  putSlice x { x with owned := true }

/-- Free a slice's entries, and the flow and tables where they were owned. -/
def dropSlice (x : Slice) : M s0 Unit := do
  let s ← rd
  eff (.slices (s.slices.filter (· ≠ x)))
  if x.owned then
    lpSet (s.ownerWords true x.slots ++ match x.flow with
      | some f => [⟨0, Fd.flowCfgValid, f, 0⟩]
      | none => [])

/-- Barriers of a context whose group an owned slice gives are formed (R268, Table 11-5). -/
def formGroups (c : Nat) : M s0 Unit := do
  let s ← rd
  each (tabKeys (fun _ b => b.alloc && b.owner = c && b.scope ≠ 0 && b.lasting) s.bars) fun i =>
    match s.groupFor c (s.bar i).vid (s.bar i).scope with
    | some g => modBar i fun b => b.form g
    | none => pure ()

/-- Admission of a slice of this cluster ends: the final COMMIT is answered and the parties are notified (R360, R375). -/
def sliceEnds (id : Nat) (st : Status) (detail : Nat) : M s0 Unit := do
  let s ← rd
  match s.fw.slices.find? fun p => p.1 = id with
  | some (_, r, h) => do
    modFw fun f => { f with slices := f.slices.filter fun p => p.1 ≠ id }
    reply r st detail
    changeRec h (if st = .ok then 0 else 1)
  | none => pure ()

/-! ### Origin -/

/-- The pattern of a slice record (Table 14-13): first, count, stride. -/
def recPattern (b : List Byte) : Nat × Nat × Nat := (leAt b 6 2, leAt b 8 2, leAt b 10 2)

/-- The outbound link of the origin, and its TX entries. -/
def recOut (b : List Byte) : Nat := leAt b 3 1 % 2 * 4 + leAt b 3 1 / 2 % 4

def recSlots (b : List Byte) : List SlotHold :=
  let (f, n, t) := recPattern b
  pattern 0 (recOut b) f n t 0 (leAt b 0 1 + 1)

/-- Hop i of a slice record, from 0. -/
def recHop (b : List Byte) (i : Nat) : Nat := leAt b (16 + 8 * i) 8

/-- Set the origin's entries HELD and send one RESV_REQ for each hop (R359, R360). -/
def sliceBegin (b : List Byte) : M s0 Unit := do
  let s ← rd
  let (f, n, t) := recPattern b
  let nhop := leAt b 1 1
  let hops := (List.range nhop).map (recHop b)
  let x : Slice := {
    opkg := Config.pkg.val, oinst := Config.inst.val, id := leAt b 4 2, ctx := some (leAt b 0 1), hop := 0,
    slots := recSlots b, since := s.tb.now, inLink := none, outLink := some (recOut b),
    bars := (List.range (leAt b 2 1)).map fun i => slice b (144 + 8 * i) 8,
    pkgs := (Config.pkg.val :: hops.map hopPkg).eraseDups }
  eff (.slices (s.slices ++ [x]))
  each (List.range nhop) fun i =>
    let off := ((hops.take i).map hopLag).foldl (· + ·) 0 % 1024
    ctlSend (recOut b) (.resvReq {
      hop := i + 1, opkg := Config.pkg, oinst := Config.inst, slice := BitVec.ofNat 16 (leAt b 4 2), reason := 0,
      hopRec := BitVec.ofNat 64 (hops.getD i 0), first := BitVec.ofNat 16 f, count := BitVec.ofNat 16 n,
      stride := BitVec.ofNat 16 t, offset := BitVec.ofNat 16 off, nhop := nhop })

/-- Release a slice of this cluster: its own entries, and a RESV_REL along its path (R354). -/
def sliceFree (x : Slice) : M s0 Unit := do
  dropSlice x
  match x.outLink with
  | some l =>
    ctlSend l (.resvRel {
      hop := 0, opkg := Config.pkg, oinst := Config.inst, slice := BitVec.ofNat 16 x.id, reason := 0, hopRec := 0, first := 0,
      count := 0, stride := 0, offset := 0, nhop := 0 })
  | none => pure ()

/-- SLICE_RELEASE: the owner or the platform frees an admitted slice of the context (R354, R373). -/
def execSliceRelease (ctx : Fin 8) (slice : BitVec 16) (s : State) : Out :=
  serveCtx 0x40 ctx s fun r => do
    match s.slices.find? fun x => x.ctx = some ctx.val && x.id = slice.toNat && x.owned with
    | some x => do
      sliceFree x
      reply r .ok
    | none => reply r .refused

/-! ### Hops -/

/-- The entries that a hop needs, with the code of its flow; the last hop owns RX entries only, under a code that the spec
leaves open but for the equality of R347. -/
def hopSlots (m : ResvMsg) (code : Nat) : List SlotHold :=
  let h := m.hopRec.toNat
  let at_ (dir link off : Nat) := pattern dir link m.first.toNat m.count.toNat m.stride.toNat (m.offset.toNat + off) code
  at_ 1 (hopIn h) 0 ++ if hopLast h then [] else at_ 0 (hopOut h) (hopLag h)

/-- The reason for which a hop refuses a request (R354, Table 14-12), in the order of its codes but for 5, which comes
first. A slice that comes in by the same link a second time fails. -/
def State.resvReason (s : State) (m : ResvMsg) : Option Nat :=
  let h := m.hopRec.toNat
  let slots := hopSlots m 0
  let mine := s.slices.filter fun x => x.named m
  if !s.linkExists (hopIn h) || (!hopLast h && !s.linkExists (hopOut h)) then some 5
  else if repeats slots || mine.any fun x => x.inLink = some (hopIn h) || x.slots.any fun k => slots.any k.same then some 2
  else if slots.any fun k => !s.slotFree k then some 1
  else if hopLast h then none
  else if 63 < hopLag h || hopLag h < cdiv (s.reg Fd.linkDelayDelay (hopIn h)) 64 + 3 then some 3
  else if !([hopIn h, hopOut h].all fun l => s.linkHas l 3 && s.linkHas l 6) then some 4
  else if s.freeFlow.isNone then some 6
  else none

/-- The owner code of a last hop's RX entries: that of the far sender, which the request does not name. -/
def lastCode (first : Bool) : M s0 Nat := do
  let w ← freshWord
  pure (if first then 1 + w.toNat % 8 else 0x40 + w.toNat % 64)

/-- A request that is for this hop: it holds its entries, and the last hop answers (R354). -/
def resvAct (l : Nat) (m : ResvMsg) : M s0 Unit := do
  let s ← rd
  let h := m.hopRec.toNat
  match s.resvReason m with
  | some k => ctlSend l (.resvNak (backMsg m m.hop k))
  | none => do
    let code ← if hopLast h then lastCode (m.hop = 1) else pure (0x40 + s.freeFlow.getD 0)
    let x : Slice := {
      opkg := m.opkg, oinst := m.oinst, id := m.slice.toNat, ctx := none, hop := m.hop, slots := hopSlots m code,
      since := s.tb.now, flow := if hopLast h then none else s.freeFlow, inLink := some l,
      outLink := if hopLast h then none else some (hopOut h), lag := hopLag h }
    eff (.slices (s.slices ++ [x]))
    if hopLast h then
      ownSlice x
      ctlSend l (.resvAck (backMsg m m.hop 0))

/-- A ring message finds the slice by the link that it came in by. -/
def State.sliceAt (s : State) (m : ResvMsg) (back : Bool) (l : Nat) : Option Slice :=
  s.slices.find? fun x => x.named m && (if back then x.outLink else x.inLink) = some l

/-- A ring message reaches the firmware: on an ACTIVE link, while the firmware is not replaced. -/
def ringRow (link : Fin 8) (s : State) (body : M s Unit) : Out := runIf (s.linkOn link && !s.fwBusy) s body

/-- The message names this cluster as the hop that comes in by a link. -/
def namesHere (l : Nat) (m : ResvMsg) : Bool :=
  let h := m.hopRec.toNat
  hopPkg h = Config.pkg.val && hopInst h = Config.inst.val && hopIn h = l

/-- RESV_REQ (R354, R359): the hop that it names acts; every later one is forwarded; one of no slice known here is
dropped. A request that names this hop and has passed here once has gone round the ring: the hop acts on it, and refuses. -/
def execResvReq (link : Fin 8) (m : ResvMsg) (s : State) : Out :=
  ringRow link s do
    match s.sliceAt m false link with
    | some x =>
      if namesHere link m && x.passed.contains m.hop then resvAct link m
      else
        putSlice x { x with passed := x.passed ++ [m.hop] }
        ringSend x.outLink (.resvReq m)
    | none => if namesHere link m then resvAct link m else discard link

/-- RESV_ACK: HELD entries become owned, and the message goes on to the origin, which answers its COMMIT (R354, R360). -/
def execResvAck (link : Fin 8) (m : ResvMsg) (s : State) : Out :=
  ringRow link s do
    match s.sliceAt m true link with
    | some x => do
      if !x.owned then ownSlice x
      match x.ctx with
      | some c => do
        formGroups c
        sliceEnds x.id .ok 0
      | none => ringSend x.inLink (.resvAck m)
    | none => discard link

/-- A refusal or an expired hold comes back: HELD entries are freed, and the origin answers CONFLICT. -/
def resvFails (link : Fin 8) (m : ResvMsg) (msg : LCtl) (detail : Nat) (s : State) : Out :=
  ringRow link s do
    match s.sliceAt m true link with
    | some x => do
      if !x.owned then dropSlice x
      match x.ctx with
      | some _ => sliceEnds x.id .conflict detail
      | none => ringSend x.inLink msg
    | none => discard link

/-- RESV_NAK (R354, R360). -/
def execResvNak (link : Fin 8) (m : ResvMsg) (s : State) : Out :=
  resvFails link m (.resvNak m) (m.hop % 256 * 256 + m.reason.toNat) s

/-- RESV_HOLD_END (R354, R360). -/
def execResvHoldEnd (link : Fin 8) (m : ResvMsg) (s : State) : Out := resvFails link m (.resvHoldEnd m) 0xFF s

/-- RESV_REL: the slice's entries are freed here and the message goes on (R354). -/
def execResvRel (link : Fin 8) (m : ResvMsg) (s : State) : Out :=
  ringRow link s do
    match s.sliceAt m false link with
    | some x => do
      dropSlice x
      ringSend x.outLink (.resvRel m)
    | none => discard link

/-- RESV_HOLD_EXPIRY: entries HELD for 2^16 grains are freed, and the origin is told (R354). -/
def execResvHoldExpiry (opkg : Fin 4096) (oinst : Fin 16) (slice : BitVec 16) (s : State) : Out :=
  match s.slices.find? fun x =>
      x.opkg = opkg.val && x.oinst = oinst.val && x.id = slice.toNat && !x.owned && elapsed s.tb.now x.since 65536 with
  | none => .next s
  | some x => runIf (s.alive && !s.fwBusy) s do
    dropSlice x
    match x.ctx with
    | some _ => sliceEnds x.id .conflict 0xFF
    | none => each x.inLink.toList fun l => ctlSend l (.resvHoldEnd {
        hop := x.hop, opkg := opkg, oinst := oinst, slice := slice, reason := 0, hopRec := 0, first := 0, count := 0,
        stride := 0, offset := 0, nhop := 0 })

end Sys2Proof.Machine
end

