-- ==== Sys2Proof/Machine/Teardown.lean ====
section
/-! DEFINITION. Teardown of a context, its scrub, and the forensic hold (R230, R384 to R387). -/

namespace Sys2Proof.Machine

variable {s0 : State}

/-! ### Counters that a teardown clears (R77, R78, R111, R134, R159, R185, R249, R250, R266, R285, R311) -/

/-- Counters of a core. -/
def coreCounters : List Fld :=
  [Fd.coreSkipCount, Fd.tokenLeftPoisoned, Fd.tokenLeftCount, Fd.tileReuseHitHits, Fd.tileReadsReads, Fd.mxPassesPasses,
    Fd.mxBeatsBeats, Fd.mxGatedGated, Fd.mxCheckFails, Fd.numAccSatNeg, Fd.numAccSatPos, Fd.numAccInvInvalid,
    Fd.numUnderUnder, Fd.numRqSatSat, Fd.numRqInvInvalid, Fd.numBlkClipBlocks, Fd.numBlkClipElems, Fd.vxCmdsCmds,
    Fd.vxBeatsBeats, Fd.vxStallShLoss, Fd.vxStallBank, Fd.vxCheckFails, Fd.vxOverOvers, Fd.vxZeroZero, Fd.spEccUncorr,
    Fd.spEccCorr, Fd.spConflictAged, Fd.spConflictLocal, Fd.spRefusedRefused, Fd.wadiDroppedEntries, Fd.wadiDroppedLate,
    Fd.mcHitsHits, Fd.mcMissesMisses, Fd.mcStatsRefetch, Fd.mcStatsAcqs, Fd.dmaChainsChains, Fd.ordHoldsHolds,
    Fd.ordHoldCycCycles, Fd.ordAckErrErrs, Fd.ordInjWaitCycles, Fd.coreGrainMissMissed]

/-- Counters of a context; JOBS stays until the number is admitted again. -/
def ctxCounters : List Fld :=
  [Fd.syncCtxFaultCountFaults, Fd.syncCtxFaultOverruns, Fd.syncCtxWaitTimeouts, Fd.syncCtxWaitOwnerGone,
    Fd.syncCtxResidResidue, Fd.syncCtxResidLate, Fd.stuCtxAbortAborts, Fd.stuCtxDeferDeferred, Fd.stuCtxLateLate,
    Fd.stuCtxLateSampleFaults, Fd.stuCtxWaitMaxWait]

/-- Clear the counters of context c and of the cores whose most recent assignment was to it. -/
def clearCounters (c : Nat) : M s0 Unit := do
  let s ← rd
  each ctxCounters fun f => setReg f c 0
  each (List.range 32) fun n =>
    if (s.core n).prev = some c then do
      each coreCounters fun f => setReg f n 0
      modCore n fun c => { c with gatedRem := 0 }
      each (List.range 16) fun k => do
        setReg Fd.dmaChBytesBytes (n * 16 + k) 0
        setReg Fd.dmaChErrErrs (n * 16 + k) 0
        setReg Fd.dmaChErrLast (n * 16 + k) 0
    else pure ()

/-! ### Pending changes (R377) -/

/-- A pending change concerns context c. -/
def Change.about (h : Change) (c : Nat) : Bool :=
  h.kind ≠ 5 && (leAt h.record 0 1 = c || (h.kind = 4 && leAt h.record 1 1 = c))

/-- Cancel a pending change and notify its parties. -/
def cancelChange (h : Change) : M s0 Unit := do
  modFw fun f => { f with changes := f.changes.filter (·.id ≠ h.id) }
  changeRec h 1

/-- Cancel what is pending for context c: changes, a waiting RECONFIGURE, slices under admission. -/
def cancelChanges (c : Nat) : M s0 Unit := do
  let s ← rd
  each (s.fw.changes.filter fun h => h.about c) cancelChange
  match (s.ctx c).bankWait with
  | some w => do
    modCtx c fun x => { x with bankWait := none }
    reply w.req .conflict
    changeRec w.chg 1
  | none => pure ()
  each (s.slices.filter fun x => x.ctx = some c && !x.owned) fun x => do
    sliceFree x
    sliceEnds x.id .conflict 0

/-! ### The steps of R384 -/

/-- Step 2: parcels end, oases close, objects are GONE. -/
def dropWork (c : Nat) : M s0 Unit := do
  let s ← rd
  each (List.range 32) fun n => do
    if (s.core n).ctx = some c then
      killParcel n .dropped
      dropHome n .dropped
      modCore n fun k => { k with ctx := none, capture := none }
      releaseHalt n
    modCore n fun k => { k with
      oases := k.oases.map fun o => (o.1, if o.2.ctx = c then { o.2 with isOpen := false } else o.2) }
  each (s.ownSems c) freeSem
  each (s.ownBars c) freeBar
  if s.stu.builder = some c then builderDone

/-- Step 3: entries become FREE without returning pages, model slots EMPTY, and a snapshot leaves the context out. -/
def dropEntries (c : Nat) : M s0 Unit := do
  let s ← rd
  each (s.ctx c).queued fun q => reply q.req .noCtx
  let mine := tabKeys (fun _ e => e.st != .free && e.ctx = c) s.entries
  each mine fun i => eff (.entry i {})
  each (List.range 16) fun k => if (s.model k).st != .empty && (s.model k).ctx = c then eff (.model k {}) else pure ()
  modSnap fun n => { n with
    image := n.image.filter (·.2.ctx ≠ c), ctxRecs := n.ctxRecs.filter (·.1 ≠ c),
    snapPos := n.snapPos.filter fun kv => !mine.contains kv.1, heldBack := n.heldBack.filter (·.1 ≠ c) }

/-- Step 4: the context's link slots and forward flows are released (R354): its slices, and entries that the firmware's own
tables give it. -/
def dropSlots (c : Nat) : M s0 Unit := do
  let s ← rd
  each (s.slices.filter fun x => x.ctx = some c) sliceFree
  let t ← rd
  let own := ((List.range 8).map fun l =>
    ((List.range 1024).filter fun i => i % 64 ≠ 0
        && bits (t.lpAfter Fd.slotEntryOwners (l / 4 * 1024 + i)) (8 * (l % 4) + 7) (8 * (l % 4)) = c + 1).map fun i =>
      (⟨0, l / 4, l % 4, i, c + 1⟩ : SlotHold)).flatten
  lpSet (t.ownerWords true own)

/-- Context c holds no partition on core n (SP_PARTn). -/
def dropPart (c n : Nat) : M s0 Unit := do
  setReg (Fd.spPartValid c) n 0
  setReg (Fd.spPartPb c) n 0
  setReg (Fd.spPartNb c) n 0

/-- The banks of a context's partition on the cores of its mask go under scrub, or under a forensic hold, while which they
belong to no partition (R230). -/
def closeBanks (c : Nat) (hold : Bool) : M s0 Unit := do
  let s ← rd
  let a := (s.ctx c).adm
  each (bitsSet a.mask 32) fun n => modCore n fun k =>
    if hold then { k with held := k.held ++ [(a.pb, a.nb, c)] } else { k with scrub := k.scrub ++ [(a.pb, a.nb, c)] }
  if hold then each (bitsSet a.mask 32) (dropPart c)

/-- Tear down context c (R384), for a KILL_CTX or a fault: steps 1 to 4, and the scrub or the hold of step 5 begins. -/
def teardown (c : Nat) (req : Option Req) : M s0 Unit := do
  let s ← rd
  if (s.ctx c).prot = .admitted then
    cancelChanges c
    dropWork c
    dropEntries c
    dropSlots c
    endConsent c
    clearCounters c
    let hold := (s.ctx c).hold.isSome
    modCtx c fun x => { x with
      prot := if hold then .held else .tearing, run := .idle, caravan := none, queued := [], map := [], bankWait := none,
      hold := x.hold.map fun h => { h with acting := true }, tearReq := req, scrubbing := !hold }
    closeBanks c hold

/-- KILL_CTX: the platform or the owner tears the context down (R373, R384). -/
def execKillCtx (ctx : Fin 8) (s : State) : Out :=
  serveCtx 0x18 ctx s fun r => do
    setAside r
    teardown ctx (some r)

/-! ### Scrub -/

/-- The scrub of context c on core n: banks, M-cache lines, and where the core last served c its file, arrays and wadis. -/
def scrubCore (c n : Nat) : M s0 Unit := do
  let s ← rd
  let k := s.core n
  each (k.scrub.filter (·.2.2 = c)) fun b => eff (.spZero n b.1 b.2.1)
  modCore n fun k => { k with scrub := k.scrub.filter (·.2.2 ≠ c) }
  if (s.ctx c).scrubbing then
    modCore n fun k => { k with mcache := k.mcache.filter (·.ctx ≠ c) }
    if k.prev = some c && k.ctx.isNone then
      zeroFile n
      modCore n fun k => { k with wadis := [], prev := none }

/-- The context number is free: the reply and the notice carry JOBS. -/
def freeCtx (c : Nat) : M s0 Unit := do
  let s ← rd
  let x := s.ctx c
  match x.tearReq with
  | some r => reply r .ok 0 (toLe x.jobs 6)
  | none => pure ()
  ctxRec .teardown c unitCcp 0 (toLe x.jobs 6)
  each (bitsSet x.adm.mask 32) (dropPart c)
  eff (.ctx c { jobs := x.jobs })
  let t ← rd
  each (bitsSet x.adm.mask 32) fun n =>
    if t.masked n then pure () else modPw fun p => { p with idleFrom := tabSet p.idleFrom n t.tb.now }

/-- BANK_SCRUB_DONE: the scrub of a teardown, or of the banks that a partition gave up, is complete (R230, R384). -/
def execBankScrubDone (ctx : Fin 8) (s : State) : Out :=
  let c := ctx.val
  let cores := (List.range 32).filter fun n => (s.core n).scrub.any (·.2.2 = c)
  runIf (s.alive && !s.fwBusy && (!cores.isEmpty || (s.ctx c).scrubbing)) s do
    each (if (s.ctx c).scrubbing then bitsSet ((s.ctx c).adm.mask) 32 else cores) (scrubCore c)
    if (s.ctx c).scrubbing then freeCtx c

/-! ### The forensic hold (R386) -/

/-- Bytes that the dump of one core takes. -/
def dumpBytes (nb : Nat) : Nat := 262144 + nb * 65536

/-- The granules of a core's dump: the tile file where the core last served c, else zeros, then the partition; each with its
check. -/
def State.dumpOf (s : State) (c n : Nat) : List GranS :=
  let k := s.core n
  let tile := (List.range 2048).map fun i =>
    let r := if k.prev = some c then tabGet {} k.tiles i else {}
    let d := slice r.data 0 128
    [(⟨d.take 64, r.syn0⟩ : GranS), ⟨d.drop 64, r.syn1⟩]
  tile.flatten ++ (List.range ((s.ctx c).adm.nb * 1024)).map fun i =>
    s.bankGran n (s.ctx c).adm.pb (s.ctx c).adm.nb (64 * i)

/-- HOLD_DUMP_DONE: every dump write has been acknowledged; the hold ends and the scrub runs (R386). -/
def execHoldDumpDone (ctx : Fin 8) (s : State) : Out :=
  let c := ctx.val
  match (s.ctx c).hold with
  | none => .next s
  | some h => runIf (s.alive && !s.fwBusy && (s.ctx c).prot = .held && h.acting) s do
    let cores := bitsSet (s.ctx c).adm.mask 32
    each (List.range cores.length) fun i => do
      let t ← rd
      let n := cores.getD i 0
      let gs := t.dumpOf c n
      each (List.range gs.length) fun j =>
        let g := gs.getD j ⟨[], 0⟩
        gwrite .firmware (h.addr + i * dumpBytes (s.ctx c).adm.nb + 64 * j) g.data g.syn
    each cores fun n => modCore n fun k => { k with held := k.held.filter (·.2.2 ≠ c) }
    modCtx c fun x => { x with prot := .tearing, hold := none, scrubbing := true }
    closeBanks c false

end Sys2Proof.Machine
end

