-- ==== Sys2Proof/Machine/Changes.lean ====
section
/-! DEFINITION. Two-party changes (R374 to R377, R360, R386, R388): PROPOSE, COMMIT, WITHDRAW, REVOKE and deadlines. -/

namespace Sys2Proof.Machine

variable {s0 : State}

/-! ### What a change asks for, and who must agree (Table 15-6) -/

/-- The answer of a check: a refusal, or the parties of the change. -/
abbrev Check := Except (Status × Nat) (List Nat)

/-- Refuse with the byte offset of the first condition that holds, else answer the parties. -/
def refuseAt (l : List (Nat × Bool)) (parties : List Nat) : Check :=
  match firstBad l with
  | some off => .error (.refused, off)
  | none => .ok parties

/-- A check about a context that must be admitted. -/
def State.ifAdmitted (s : State) (c : Nat) (k : Adm → Check) : Check :=
  if c < 8 && (s.ctx c).prot = .admitted then k (s.ctx c).adm else .error (.noCtx, 0)

/-- The oasis record of a resident model of context c (R246): EPOCH OPEN, PBASE, LEN. -/
def State.oasisRec (s : State) (c id : Nat) : Option (Bool × Nat × Nat) :=
  ((s.residents c).map fun k => (s.model k).oases).flatten.findSome? fun o => if o.1 = id then some o.2 else none

/-- Writers of an OASIS record: package, INST, CTX, host flag, HSRC. -/
def writersOf (b : List Byte) : List (Nat × Nat × Nat × Bool × Nat) :=
  (List.range 8).filterMap fun i =>
    let w := leAt b (8 + 4 * i) 4
    if bit w 0 then some (bits w 31 20, bits w 19 16, bits w 15 13, bit w 12, bits w 11 8) else none

/-- The tenant that owns the context a writer names: of this cluster from its admission; of another cluster as the installation
has it (assumption log 72). -/
def State.writerTenant (s : State) (w : Nat × Nat × Nat × Bool × Nat) : Option Nat :=
  if w.2.2.2.1 then none
  else if w.1 = Config.pkg.val && w.2.1 = Config.inst.val then
    if (s.ctx w.2.2.1).prot = .admitted then some (s.ctx w.2.2.1).adm.tenant else none
  else (Config.farTenant w.1 w.2.1 w.2.2.1).map fun t => t.val + 1

/-- The parties of an oasis: its owner, with the other tenants whose contexts writers name, else with the platform. -/
def State.oasisParties (s : State) (c : Nat) (ws : List (Nat × Nat × Nat × Bool × Nat)) : List Nat :=
  let t := (s.ctx c).adm.tenant
  let others := (ws.filterMap s.writerTenant).filter (· ≠ t)
  if others.isEmpty then [0, t] else t :: others.eraseDups

/-- Core n can open an oasis of context c: the ID is not open there, a slot is free, and no open window meets it (R245). -/
def State.canOpen (s : State) (n c id gbase len : Nat) : Bool :=
  let os := (List.range 32).map fun k => tabGet {} (s.core n).oases k
  os.any (!·.isOpen) && os.all fun o => !o.isOpen || (!(o.ctx = c && o.id = id) && !overlap o.gbase o.len gbase len)

/-- An OASIS record (R245). -/
def State.checkOasis (s : State) (b : List Byte) : Check :=
  let c := leAt b 0 1
  s.ifAdmitted c fun a =>
    let id := leAt b 1 1
    let gbase := leAt b 2 2 * 65536
    let mask := leAt b 4 4
    match s.oasisRec c id with
    | none => .error (.refused, 1)
    | some (_, pbase, len) =>
      let first : List (Nat × Bool) := [(1, 15 < id), (2, 2 ^ 22 < gbase + len), (1, a.nb * 65536 < pbase + len),
        (4, mask = 0 || (bitsSet mask 32).any fun n => !bit a.mask n)]
      let ws : List (Nat × Bool) := (List.range 8).map fun i => (8 + 4 * i, bits (leAt b (8 + 4 * i) 4) 7 1 ≠ 0)
      refuseAt (first ++ ws ++ [(2, (bitsSet mask 32).any fun n => !s.canOpen n c id gbase len)])
        (s.oasisParties c (writersOf b))

/-- A MAP record (R269): the owner's identifier names an object that it owns, the user's entry is free. -/
def State.checkMap (s : State) (b : List Byte) : Check :=
  let o := leAt b 0 1
  let u := leAt b 1 1
  s.ifAdmitted o fun a => s.ifAdmitted u fun v =>
    let own := match tabGet none (s.ctx o).map (leAt b 2 2 % 1024) with
      | some e => e.tag = leAt b 2 2 / 1024 && !e.shared
      | none => false
    refuseAt [(1, o = u), (2, !own), (4, s.idTaken u (leAt b 4 2))] [a.tenant, v.tenant].eraseDups

/-- Bytes 2 to 31 of the IDENT message that a link received (Table 14-11). -/
def identRecord (m : IdentMsg) : List Byte :=
  identBytes m ++ zeros 3 ++ toLe m.version.toNat 4 ++ toLe m.digest.toNat 8 ++ toLe m.rxFenced.toNat 3 ++ zeros 9

/-- Tenants whose contexts hold TX slots on a link. -/
def State.slotTenants (s : State) (l : Nat) : List Nat :=
  (((List.range 8).filter fun c => (s.ctx c).prot = .admitted && s.ownsSlots l c).map fun c => (s.ctx c).adm.tenant).eraseDups

/-- A QUAR_ACCEPT record (R345). -/
def State.checkQuar (s : State) (b : List Byte) : Check :=
  let l := leAt b 0 1 * 4 + leAt b 1 1
  refuseAt [(0, 1 < leAt b 0 1), (1, 3 < leAt b 1 1 || !s.linkExists l || s.linkSt l ≠ 7),
    (2, (s.link l).identIn.map identRecord ≠ some (slice b 2 30))] (0 :: s.slotTenants l)

/-- A DEBUG record (R388). -/
def State.checkDebug (s : State) (b : List Byte) : Check :=
  s.ifAdmitted (leAt b 0 1) fun a => refuseAt [(1, 15 < leAt b 1 1), (4, 2 ^ 28 < leAt b 4 4)] [0, a.tenant]

/-- A HOLD record (R386): the dump region takes the dump and lies outside the aperture. -/
def State.checkHold (s : State) (b : List Byte) : Check :=
  s.ifAdmitted (leAt b 0 1) fun a =>
    refuseAt [(8, leAt b 8 8 % 64 ≠ 0 || gmSize < leAt b 8 8 + leAt b 16 8 || overlap (leAt b 8 8) (leAt b 16 8) Config.spaBase (2 ^ 31)),
      (16, leAt b 16 8 < popcount a.mask 32 * dumpBytes a.nb)] [0, a.tenant]

/-- Hop i of a slice record breaks Table 14-14. -/
def hopBad (nhop i h : Nat) : Bool :=
  if nhop ≤ i then h ≠ 0
  else hopLast h != (i + 1 = nhop) || bit h 23 || bits h 63 32 ≠ 0 || 63 < hopLag h || (hopLast h && hopLag h ≠ 0)

/-- Barrier entry of a slice record breaks Table 14-14. -/
def barBad (nbar i : Nat) (e : List Byte) : Bool :=
  if nbar ≤ i then e.any (· ≠ 0)
  else leAt e 2 1 = 0 || 2 < leAt e 2 1 || 15 < leAt e 3 1 || 4095 < leAt e 6 2 || (leAt e 2 1 = 1 && leAt e 6 2 ≠ 0)

/-- A SLICE record (R354, R360). -/
def State.checkSlice (s : State) (b : List Byte) : Check :=
  s.ifAdmitted (leAt b 0 1) fun a =>
    let l := recOut b
    let nhop := leAt b 1 1
    let nbar := leAt b 2 1
    let bars := (List.range nbar).map fun i => slice b (144 + 8 * i) 8
    let wraps := hopPkg (recHop b (nhop - 1)) = Config.pkg.val
    let first : List (Nat × Bool) := [(1, nhop = 0 || 16 < nhop), (2, 4 < nbar), (3, 8 ≤ leAt b 3 1 || !s.linkExists l),
      (4, s.slices.any fun x => x.ctx.isSome && x.id = leAt b 4 2), (6, 1023 < leAt b 6 2),
      (8, leAt b 8 2 = 0 || 1008 < leAt b 8 2), (10, leAt b 10 2 = 0 || 1023 < leAt b 10 2), (12, leAt b 12 4 ≠ 0)]
    let hops : List (Nat × Bool) := (List.range 16).map fun i => (16 + 8 * i, hopBad nhop i (recHop b i))
    let ends : List (Nat × Bool) := (List.range 4).map fun i => (144 + 8 * i, barBad nbar i (slice b (144 + 8 * i) 8))
    let last : List (Nat × Bool) := [(176, (slice b 176 80).any (· ≠ 0)),
      (6, repeats (recSlots b) || (recSlots b).any fun h => !s.slotFree h),
      (2, (bars.any fun e => leAt e 2 1 = 2) && !s.linkHas l 1), (3, wraps && !s.linkHas l 6)]
    refuseAt (first ++ hops ++ ends ++ last) [0, a.tenant]

/-- The record bytes that a kind needs. -/
def recordNeeds (kind : Nat) : Nat := if kind = 1 ∨ kind = 2 ∨ kind = 8 then 256 else 64

/-- The check of a change, made when it is proposed and again when it is applied (R377, R378). -/
def State.checkChange (s : State) (kind : Nat) (b : List Byte) : Check :=
  match kind with
  | 1 =>
    (match s.admitBad b with
    | some off => .error (.refused, off)
    | none => .ok [0, leAt b 1 1])
  | 2 => s.ifAdmitted (leAt b 0 1) fun a =>
    if (s.ctx (leAt b 0 1)).bankWait.isSome then .error (.refused, 0)
    else
      (match s.reconfBad b with
      | some off => .error (.refused, off)
      | none => .ok [0, a.tenant])
  | 3 => s.checkOasis b
  | 4 => s.checkMap b
  | 5 => s.checkQuar b
  | 6 => s.checkDebug b
  | 7 => s.checkHold b
  | 8 => s.checkSlice b
  | _ => .error (.refused, 0)

/-! ### PROPOSE (R374) -/

/-- DIGEST: the CRC-32C over KIND and the copied record. -/
def digestOf (kind : Nat) (b : List Byte) : Nat := crc32c (toLe kind 1 ++ b)

/-- The change identifier after n; never 0. -/
def nextChange (n : Nat) : Nat := if 65535 ≤ n then 1 else n + 1

/-- An identifier that no pending change has, from n on. -/
def freeChange (used : List Nat) : Nat → Nat → Nat
  | 0, n => n
  | k + 1, n => if used.contains n then freeChange used k (nextChange n) else n

/-- The status with which a PROPOSE payload is turned away before its record is checked. -/
def State.proposeBad (s : State) (r : Req) : Option (Status × Nat) :=
  let p := r.payload
  let kind := leAt p 0 1
  let a := leAt p 8 8
  let n := leAt p 16 2
  if leAt p 1 1 ≠ 0 || leAt p 2 2 = 0 then some (.badLength, 0)
  else if r.abi = 2 && 6 ≤ kind && kind ≤ 8 then some (.badOpcode, 0)
  else if kind = 0 || 8 < kind then some (.refused, 0)
  else if 2 ^ 20 < leAt p 4 4 then some (.refused, 4)
  else if n = 0 || 256 < n || n % 64 ≠ 0 || n < recordNeeds kind then some (.refused, 16)
  else if a % 64 ≠ 0 || (r.pair ≠ 0 && !s.inStaging r a n) || overlap a n Config.spaBase (2 ^ 31) then some (.address, 0)
  else if 16 ≤ s.fw.changes.length || 4 ≤ (s.fw.changes.filter fun h => h.proposer = r.pair).length then some (.noSpace, 0)
  else none

/-- PROPOSE: the record is copied and checked, and the change is pending with the proposer's commit (R374). Its deadline counts
from the grain of its RING, as the worked example after R377 counts (DEDUCED, log 71). A change whose
only party is the proposer waits for its second token (R345). -/
def execPropose (s : State) : Out :=
  serve 0x10 s fun r => do
    let kind := leAt r.payload 0 1
    match s.proposeBad r with
    | some e => reply r e.1 e.2
    | none =>
      let b ← gget .firmware (leAt r.payload 8 8) (leAt r.payload 16 2)
      match s.checkChange kind b with
      | .error e => reply r e.1 e.2
      | .ok parties =>
        if !parties.contains r.pair then reply r .notPermitted
        else
          let dl := leAt r.payload 4 4
          let id := freeChange (s.fw.changes.map (·.id)) 16 s.fw.nextId
          let h : Change := {
            id := id, kind := kind, token := leAt r.payload 2 2, digest := digestOf kind b,
            deadline := grainAdd r.rung (if dl = 0 then 65536 else dl), record := b, proposer := r.pair,
            parties := parties, committed := if parties = [r.pair] then [] else [r.pair] }
          modFw fun f => { f with
            changes := f.changes ++ [h], nextId := nextChange id, expired := f.expired.filter (·.1 ≠ id) }
          reply r .pending 0 (toLe id 2 ++ toLe h.digest 4 ++ toLe h.deadline 6)

/-! ### COMMIT and its effects (R375 to R377) -/

/-- Open an oasis on a core, with both counts at zero (R245, R248). -/
def openOasis (n : Nat) (o : Oasis) : M s0 Unit := do
  let s ← rd
  match (List.range 32).find? fun k => !(tabGet {} (s.core n).oases k).isOpen with
  | some k => do
    modCore n fun c => { c with oases := tabSet c.oases k o }
    setReg Fd.oasisBytesBytes (n * 32 + k) 0
    setReg Fd.oasisPktsPkts (n * 32 + k) 0
  | none => pure ()

/-- What an applied change does, but for ADMIT, RECONFIGURE and SLICE. -/
def applyChange (h : Change) : M s0 Unit := do
  let s ← rd
  let b := h.record
  let c := leAt b 0 1
  match h.kind with
  | 3 =>
    (match s.oasisRec c (leAt b 1 1) with
    | some (e, pbase, len) =>
      each (bitsSet (leAt b 4 4) 32) fun n => openOasis n {
        isOpen := true, ctx := c, id := leAt b 1 1, openEpoch := e, gbase := leAt b 2 2 * 65536, pbase := pbase, len := len,
        writers := writersOf b }
    | none => pure ())
  | 4 =>
    (match s.lookup c (leAt b 2 2) with
    | some o => mapObj (leAt b 1 1) (leAt b 4 2) o true
    | none => pure ())
  | 5 => do
    let l := c * 4 + leAt b 1 1
    let x := leAt b 2 2
    let y := leAt b 4 1
    eff (.imap l (some (bits x 11 0, bits x 15 12, y % 2, y / 2 % 4)))
    setReg Fd.linkPeerMatch l 1
    identDone l
  | 6 => modCtx c fun x => { x with consent := some (leAt b 1 1, grainAdd s.tb.now (leAt b 4 4)) }
  | 7 => modCtx c fun x => { x with hold := some { addr := leAt b 8 8, len := leAt b 16 8, acting := false } }
  | _ => pure ()

/-- The last party has committed: the change is checked again and applied, or cancelled with CONFLICT (R377). -/
def finalCommit (r : Req) (h : Change) : M s0 Unit := do
  let s ← rd
  modFw fun f => { f with changes := f.changes.filter (·.id ≠ h.id) }
  match s.checkChange h.kind h.record with
  | .error e => do
    reply r .conflict e.2
    changeRec h 1
  | .ok _ =>
    if h.kind = 1 ∨ h.kind = 2 then
      beginAdmission (leAt h.record 0 1) { req := r, chg := h, adm := admOf h.record, admits := h.kind = 1 }
    else if h.kind = 8 then
      setAside r
      modFw fun f => { f with slices := f.slices ++ [(leAt h.record 4 2, r, h)] }
      sliceBegin h.record
    else
      applyChange h
      reply r .ok
      changeRec h 0

/-- A change's deadline cancels it; it is counted, and its identifier stays known as expired (R376). -/
def expireChange (h : Change) : M s0 Unit := do
  bumpReg Fd.hpChgExpired
  cancelChange h
  modFw fun f => { f with expired := (h.id, h.parties) :: f.expired.filter (·.1 ≠ h.id) }

/-- COMMIT (R376). -/
def execCommit (s : State) : Out :=
  serve 0x11 s fun r => do
    let p := r.payload
    if leAt p 2 2 = 0 then reply r .badLength
    else
      match s.fw.changes.find? fun h => h.id = leAt p 0 2 with
      | none =>
        (match s.fw.expired.find? fun e => e.1 = leAt p 0 2 with
        | some e => if e.2.contains r.pair then reply r .expired else reply r .notPermitted
        | none => reply r .conflict)
      | some h =>
        if !h.parties.contains r.pair then reply r .notPermitted
        else if reached s.tb.now h.deadline then
          reply r .expired
          expireChange h
        else if leAt p 2 2 ≠ h.token || leAt p 4 4 ≠ h.digest then
          bumpReg Fd.hpChgMismatch
          reply r .mismatch
          cancelChange h
        else
          let l := if h.committed.contains r.pair then h.committed else h.committed ++ [r.pair]
          if h.parties.all l.contains && !h.committed.contains r.pair then finalCommit r h
          else
            modFw fun f => { f with changes := f.changes.map fun x => if x.id = h.id then { x with committed := l } else x }
            reply r .pending

/-- The platform's withdrawal of a QUAR_ACCEPT change rejects the link, which goes DOWN (R345; assumption log 50). -/
def quarRejected (h : Change) : M s0 Unit := do
  let s ← rd
  let l := leAt h.record 0 1 * 4 + leAt h.record 1 1
  if h.kind = 5 && h.proposer = 0 && s.linkSt l = 7 then linkDown l 0

/-- WITHDRAW: the proposer cancels its pending change (R373). -/
def execWithdraw (change : BitVec 16) (s : State) : Out :=
  serve 0x12 s fun r =>
    match s.fw.changes.find? fun h => h.id = change.toNat with
    | none => reply r .conflict
    | some h =>
      if h.proposer ≠ r.pair then reply r .notPermitted
      else do
        cancelChange h
        quarRejected h
        reply r .ok

/-- CHANGE_DEADLINE: a pending change whose deadline grain is reached is cancelled (R376). -/
def execChangeDeadline (change : BitVec 16) (s : State) : Out :=
  match s.fw.changes.find? fun h => h.id = change.toNat with
  | none => .next s
  | some h => runIf (s.alive && reached s.tb.now h.deadline) s (expireChange h)

/-! ### REVOKE (R373, R377, R386, R388) -/

/-- Close the oases of context c with an ID. -/
def closeOasis (c id : Nat) : M s0 Unit :=
  each (List.range 32) fun n => modCore n fun k => { k with
    oases := k.oases.map fun o => (o.1, if o.2.ctx = c && o.2.id = id then { o.2 with isOpen := false } else o.2) }

/-- The open oases of context c with an ID, on any core. -/
def State.openOf (s : State) (c id : Nat) : List Oasis :=
  ((List.range 32).map fun n => ((s.core n).oases.map (·.2)).filter fun o => o.isOpen && o.ctx = c && o.id = id).flatten

/-- The owner of an object. -/
def State.objOwner (s : State) : Obj → Nat
  | .localSem l => match l with | p :: _ => (s.sem (coreSemKey p.1 p.2)).owner | [] => 0
  | .coreSem c i => (s.sem (coreSemKey c i)).owner
  | .hubSem i => (s.sem (hubSemKey i)).owner
  | .barrier i => (s.bar i).owner

/-- REVOKE of a map entry: the user's shared entry, or, named by the owner, every shared entry of the object. -/
def revokeMap (r : Req) (c vid : Nat) : M s0 Unit := do
  let s ← rd
  match tabGet none (s.ctx c).map (vid % 1024) with
  | some e =>
    let tenants := [(s.ctx c).adm.tenant, (s.ctx (s.objOwner e.obj)).adm.tenant]
    if e.tag ≠ vid / 1024 then reply r .refused
    else if !tenants.contains r.pair then reply r .notPermitted
    else
      if e.shared then modCtx c fun x => { x with map := tabSet x.map (vid % 1024) none }
      else stripMaps c fun o => o = e.obj
      reply r .ok
  | none => reply r .refused

/-- REVOKE: either party ends a debug consent, a hold not yet acting, an object map or an oasis. -/
def execRevoke (what : RevokeWhat) (s : State) : Out :=
  serve 0x13 s fun r =>
    match what with
    | .debug c => do
      if !s.mayName r c then reply r .noCtx
      else if (s.ctx c).consent.isNone then reply r .refused
      else
        endConsent c
        reply r .ok
    | .hold c => do
      if !s.mayName r c then reply r .noCtx
      else
        match (s.ctx c).hold with
        | some h =>
          if h.acting then reply r .refused
          else
            modCtx c fun x => { x with hold := none }
            reply r .ok
        | none => reply r .refused
    | .map c vid => if (s.ctx c).prot = .admitted then revokeMap r c vid.toNat else reply r .noCtx
    | .oasis c id =>
      match (s.ctx c).prot, s.openOf c id with
      | .admitted, o :: _ =>
        if (s.oasisParties c o.writers).contains r.pair then do
          closeOasis c id
          reply r .ok
        else reply r .notPermitted
      | .admitted, [] => reply r .refused
      | _, _ => reply r .noCtx

end Sys2Proof.Machine
end

