-- ==== Sys2Proof/Machine/Firmware.lean ====
section
/-! DEFINITION. The firmware's own commands (R361, R362, R364, R389, R438): HELLO, BIND_PAIR, OPEN_TENANTS, SYNC_DUMP, and
the loading of firmware. -/

namespace Sys2Proof.Machine

variable {s0 : State}

/-- HELLO: FW_VERSION, the ABIs served as bits 2 and 3, CLUSTER_ID and the pair (R373). -/
def execHello (s : State) : Out :=
  serve 0x01 s fun r =>
    reply r .ok 0 (toLe (s.reg Fd.fwVersionVersion) 4 ++ toLe 0x0C 1 ++ toLe (s.regWord 0 0) 4 ++ toLe r.pair 1)

/-! ### BIND_PAIR (R364) -/

/-- Pair n's tenant owns a context, or waits for one. -/
def State.ownsCtx (s : State) (n : Nat) : Bool := s.claims.any fun x => x.2.tenant = n

/-- A host source is bound to another pair than n; HSRC 0 is the platform's. -/
def State.hsrcTaken (s : State) (n hsrc : Nat) : Bool :=
  hsrc = 0 || (List.range 8).any fun p => p ≠ n && (s.pair p).bound && (s.pair p).hsrc = hsrc

/-- BIND_PAIR: binds one of pairs 1 to 7 to a host source and a staging region, or unbinds it. -/
def execBindPair (pair : Fin 8) (hsrc : Fin 16) (bind : Bool) (staging : BitVec 64) (s : State) : Out :=
  serve 0x02 s fun r => do
    let a := staging.toNat
    if pair.val = 0 then reply r .refused
    else if s.ownsCtx pair then reply r .refused
    else if !bind then
      modPair pair fun p => { p with bound := false, hsrc := 0, staging := 0 }
      reply r .ok
    else if s.hsrcTaken pair hsrc then reply r .refused
    else if a % 2 ^ 20 ≠ 0 || overlap a (2 ^ 20) Config.spaBase (2 ^ 31) then reply r .address
    else
      modPair pair fun p => { p with bound := true, hsrc := hsrc, staging := a }
      eff (.recs { s.recs with seqs := tabSet s.recs.seqs pair 1 })
      reply r .ok

/-! ### OPEN_TENANTS (R438) -/

/-- The conditions that OPEN_TENANTS lacks, as DETAIL shows them. -/
def State.openLacks (s : State) : Nat :=
  maskOf 5 fun i => match i with
    | 0 => s.reg Fd.selftestDone = 0
    | 1 => s.reg Fd.selftestDone = 1 && s.reg Fd.selftestPass = 0
    | 2 => s.reg Fd.grainStatusLocked = 0
    | 3 => (List.range 4).any s.modTraining
    | _ => s.allLinks.any s.linkTraining

/-- OPEN_TENANTS: the state becomes OPEN, or the answer shows what is lacking. -/
def execOpenTenants (s : State) : Out :=
  serve 0x03 s fun r => do
    if s.openLacks ≠ 0 then reply r .refused s.openLacks
    else
      setReg Fd.fwStatusState 0 2
      setReg Fd.pwrStatusStage 0 5
      reply r .ok

/-! ### SYNC_DUMP (R284, R388) -/

/-- The word of a register that a view holds. -/
def viewWord (v : List (Fld × Nat)) (a : Nat) : Nat :=
  (v.filter fun p => p.1.addr = a).foldl (fun n p => n + p.2 % 2 ^ p.1.width * 2 ^ p.1.lo.val) 0

/-- The record of one object in a dump: the object with the core whose leaf is shown, and SYNC_DBG_STATE, COUNT, REF and LEAF.
-/
def dumpRec (obj : List Byte) (v : List (Fld × Nat)) : List Byte :=
  obj ++ zeros 1 ++ toLe (viewWord v 0x6044) 4 ++ toLe (viewWord v 0x6048) 4 ++ toLe (viewWord v 0x604C) 4
    ++ toLe (viewWord v 0x6050) 4 ++ zeros 12

/-- The dump of what context c owns: its semaphores, and every leaf of its barriers (assumption log 60). -/
def State.syncDump (s : State) (c : Nat) : List Byte :=
  ((s.ownSems c).map fun k => dumpRec (semObjBytes k) (s.objView 0 (.sem k))).flatten
    ++ ((s.ownBars c).map fun i =>
      ((List.range 32).map fun n => dumpRec (objBytes 2 n i) (s.objView n (.bar i))).flatten).flatten

/-- A requester may write a global address: the platform any outside the aperture, a tenant within its staging region. -/
def State.mayWriteTo (s : State) (r : Req) (a n : Nat) : Bool :=
  a % 64 = 0 && a + n ≤ gmSize && !overlap a n Config.spaBase (2 ^ 31) && (r.pair = 0 || s.inStaging r a n)

/-- SYNC_DUMP: the state of the objects of a context, for the debugger that its consent names. -/
def execSyncDump (ctx : Fin 8) (addr : BitVec 64) (s : State) : Out :=
  serve 0x38 s fun r => do
    let x := s.ctx ctx
    let b := s.syncDump ctx
    if x.prot != .admitted then reply r .noCtx
    else if (x.consent.map (·.1)) ≠ some (s.pair r.pair).hsrc then reply r .notPermitted
    else if !s.mayWriteTo r addr.toNat ((b.length + 63) / 64 * 64) then reply r .address
    else
      gwrite .firmware addr.toNat (slice b 0 ((b.length + 63) / 64 * 64))
      reply r .ok

/-! ### FW_LOAD (R361, R389) -/

/-- Every request taken so far has been answered, but for the one in service. -/
def State.allAnswered (s : State) : Bool :=
  s.fw.slices.isEmpty && (List.range 8).all fun c =>
    (s.ctx c).queued.isEmpty && (s.ctx c).bankWait.isNone && (s.ctx c).tearReq.isNone

/-- FW_LOAD: the firmware answers the requests it has taken, then verifies the image; a good one is started, in state ROM as
the first firmware, else as a live update. The signature's verdict is an input. -/
def execFwLoad (addr : BitVec 64) (len : Word) (sigOk : Bool) (version : Word) (s : State) : Out :=
  match s.serving 0x48 with
  | none => .next s
  | some r => runIf (s.alive && s.allAnswered) s do
    if s.fw.update.isSome then reply r .busy
    else if overlap addr.toNat len.toNat Config.spaBase (2 ^ 31) || gmSize < addr.toNat + len.toNat then reply r .address
    else if !sigOk || len.toNat = 0 || 2 ^ 21 < len.toNat then reply r .refused
    else
      setAside r
      modFw fun f => { f with
        imageOk := false,
        update := some { req := r, prev := s.fwState, version := version.toNat, start := s.tb.now } }
      if s.fwState ≠ 0 then setReg Fd.fwStatusState 0 3

/-- Pairs that are bound. -/
def State.boundPairs (s : State) : List Nat := (List.range 8).filter fun n => (s.pair n).bound

/-- Signed firmware starts out of state ROM: state PLATFORM, the port domains and every core domain are switched on, and
self-test begins (R425, R436, R437). -/
def firmwareStarts : M s0 Unit := do
  setReg Fd.fwStatusState 0 1
  setReg Fd.pwrStatusStage 0 2
  setReg Fd.portPwrReady 0 7
  setReg Fd.corePwrOn 0 (2 ^ 32 - 1)
  modPw fun p => { p with selfTest := true }

/-- VERSION notices to every bound pair, with FW_VERSION. -/
def versionRecs : M s0 Unit := do
  let s ← rd
  pairRec .version unitCcp (toLe (s.reg Fd.fwVersionVersion) 4) s.boundPairs

/-- The firmware that FW_LOAD named runs: FW_LOAD is answered OK, and after an update in state OPEN every bound pair has its
notice. -/
def updateEnds (u : FwUpdate) : M s0 Unit := do
  modFw fun f => { f with image := some u.version, imageOk := true, update := none, restarting := none }
  setReg Fd.fwVersionVersion 0 u.version
  if u.prev = 0 then firmwareStarts else setReg Fd.fwStatusState 0 u.prev
  reply u.req .ok
  flushRecords
  if u.prev = 2 then versionRecs

/-- The firmware has restarted from its global copy (R395, R389 steps 2 to 6). -/
def restartEnds (prev : Nat) : M s0 Unit := do
  modFw fun f => { f with restarting := none }
  setReg Fd.fwStatusState 0 prev
  flushRecords
  versionRecs

/-- FW_UPDATE_DONE: the new firmware runs, or the restarted one. -/
def execFwUpdateDone (s : State) : Out :=
  match s.fw.update, s.fw.restarting with
  | some u, _ => runIf s.alive s (updateEnds u)
  | none, some p => runIf s.alive s (restartEnds p)
  | none, none => .next s

end Sys2Proof.Machine
end

