-- ==== Sys2Proof/Machine/Snapshots.lean ====
section
/-! DEFINITION. The health monitor and the sirocco snapshots (R408 to R415). -/

namespace Sys2Proof.Machine

variable {s0 : State}

/-! ### The health monitor (R408, R409) -/

/-- One weighted term of RAW. -/
def term63 (w x : Nat) : Nat := min 63 (w * x)

/-- RAW of a window's counts; b(x) of R408 is bitLen. -/
def State.rawRisk (s : State) (ce droop temp link : Nat) : Nat :=
  term63 (s.reg Fd.hmWeightWCe) (bitLen ce) + term63 (s.reg Fd.hmWeightWDroop) droop
    + term63 (s.reg Fd.hmWeightWTemp) (temp - s.reg Fd.hmCfgTempBase) + term63 (s.reg Fd.hmWeightWLink) (bitLen link)

/-- IV_MIN in force: above IV_MAX it acts as IV_MAX (Table 16-9). -/
def State.ivMin (s : State) : Nat := min (s.reg Fd.snapCfgIvMin) (s.reg Fd.snapCfgIvMax)

/-- The sirocco interval at a risk (R409). -/
def State.interval (s : State) (risk : Nat) : Nat := max (2 ^ s.ivMin) (2 ^ s.reg Fd.snapCfgIvMax / 2 ^ (risk / 32))

/-- HEALTH_WINDOW: 4096 grains end: RAW, RISK and the interval are recomputed (R408, R409), and the corrected FEC symbols of
the window join LANE_STATUS.CORR (R356; assumption log 118). -/
def execHealthWindow (h : HealthIn) (s : State) : Out :=
  runIf (s.alive && elapsed s.tb.now s.health.start 4096) s do
    let w := s.health
    let ce := w.ce + h.ce
    let fec := w.fec + h.fec.foldl (· + ·) 0
    let link := w.link + fec / 256
    let lane := fun i => tabGet 0 w.lanes i + h.fec.getD i 0
    let raw := s.rawRisk ce w.droop h.temp link
    let old := s.reg Fd.hmRiskRisk
    let risk := max raw (old - s.reg Fd.hmCfgDecay)
    let alarm := s.reg Fd.hmCfgAlarm
    setReg Fd.hmRiskRaw 0 raw
    setReg Fd.hmRiskRisk 0 risk
    setReg Fd.hmIn0Ce 0 (min Fd.hmIn0Ce.max ce)
    setReg Fd.hmIn0Droop 0 (min Fd.hmIn0Droop.max w.droop)
    setReg Fd.hmIn1Temp 0 (min Fd.hmIn1Temp.max h.temp)
    setReg Fd.hmIn1Link 0 (min Fd.hmIn1Link.max link)
    each (List.range 40) fun i => bumpReg Fd.laneStatusCorr i (lane i / 256)
    eff (.health { start := grainAdd w.start 4096, fec := fec % 256,
                   lanes := (List.range 40).foldl (fun t i => tabSet t i (lane i % 256)) [] })
    modSnap fun n => { n with due := if n.everCut then grainAdd n.lastCut (s.interval risk) else n.due }
    if old < alarm && alarm ≤ risk then platRec .risk unitHealth 0 []

/-! ### The image (Table 16-8) -/

/-- Bytes of a 64-bit register pair's value. -/
def State.reg64 (s : State) (lo hi : Fld) : Nat := s.reg lo + s.reg hi * 2 ^ 32

/-- The context record of an image. -/
def snapCtxBytes (r : Option (Nat × Nat × Nat)) : List Byte :=
  match r with
  | some (tenant, crc, step) => toLe (128 + tenant % 8) 1 ++ zeros 3 ++ toLe crc 4 ++ toLe step 4 ++ zeros 52
  | none => zeros 64

/-- The record of context c. -/
def Snap.ctxRec (n : Snap) (c : Nat) : Option (Nat × Nat × Nat) := (n.ctxRecs.find? fun kv => kv.1 = c).map (·.2)

/-- Granule i of an image's bytes 64 to 524,863: the 8 context records, then the 8192 entries. -/
def Snap.body (n : Snap) (i : Nat) : List Byte :=
  if i < 8 then snapCtxBytes (n.ctxRec i) else (tabGet {} n.image (i - 8)).bytes

/-- The header of an image with its CRC, which also covers the body. -/
def Snap.header (n : Snap) : List Byte :=
  let h := toLe n.seq 8 ++ toLe n.lastCut 6 ++ toLe Config.inst.val 1 ++ toLe n.ctxEn 1 ++ toLe n.npages 4 ++ zeros 40
  h ++ toLe (crc32c (h ++ ((List.range 8200).map n.body).flatten)) 4

/-- Write an image's body into a buffer: the staging buffer, and then the image buffer, of its parity (R411, R413). -/
def writeBody (base : Nat) : M s0 Unit := do
  let s ← rd
  each (List.range 8200) fun i => gwrite .drain ((base + 2 ^ 20 * (s.snap.seq % 2) + 64 + 64 * i) % gmSize) (s.snap.body i)

/-- Copy n granules with their checks. -/
def copyGrans (who : MemUser) (src dst n : Nat) : M s0 Unit :=
  each (List.range n) fun i => do
    let a := (src + 64 * i) % gmSize
    viaStations who false a 64
    let s ← rd
    gwrite who ((dst + 64 * i) % gmSize) (s.gread a 64) (s.gsyn (a / 64))

/-- Granules of a page of context c. -/
def State.pageGrans (s : State) (c : Nat) : Nat := 2 ^ (s.ctx c).adm.pgShift / 64

/-! ### Cut, drain and completion (R411 to R414) -/

/-- Take a cut: the entries of the included contexts as they stand (R410, R411). -/
def takeCut : M s0 Unit := do
  let s ← rd
  let en := s.reg Fd.snapCfgCtxEn
  let incl (c : Nat) : Bool := bit en c && (s.ctx c).prot = .admitted
  eff (.snap { s.snap with
    st := 1, seq := s.snap.done + 1, lastCut := s.tb.now, everCut := true,
    due := grainAdd s.tb.now (s.interval (s.reg Fd.hmRiskRisk)), ctxEn := en,
    stage := s.reg64 Fd.snapStageLoAddr Fd.snapStageHiAddr, imageAt := s.reg64 Fd.snapImageLoAddr Fd.snapImageHiAddr,
    mirror := s.reg64 Fd.snapMirrorLoOff Fd.snapMirrorHiOff,
    image := s.entries.filter fun kv => kv.2.st != .free && incl kv.2.ctx,
    ctxRecs := ((List.range 8).filter incl).map fun c =>
      (c, (s.ctx c).adm.tenant, crc32c (toLe (s.ctx c).adm.seed 8), (s.ctx c).step),
    opened := [], npages := 0, lateCut := false })

/-- SNAPSHOT_CUT: a due cut is taken, or, while a drain runs, it waits and is recorded as late once (R409, R411, R414). -/
def execSnapshotCut (s : State) : Out :=
  runIf (s.alive && s.reg Fd.snapCfgEn = 1 && reached s.tb.now s.snap.due) s do
    if s.snap.st = 0 then takeCut
    else if s.snap.st = 2 && !s.snap.lateCut then
      modSnap fun n => { n with lateCut := true }
      platRec .snapLate unitHealth 0 []
      bumpReg Fd.snapStatusLate

/-- SNAPSHOT_DRAIN: the capture has ended in the staging buffer; the pages newly covered are mirrored in entry order, and the
staging buffer is copied into the image buffer (R411 to R413). The header waits for the acknowledgements of these writes. -/
def execSnapshotDrain (s : State) : Out :=
  runIf (s.alive && s.snap.st = 1) s do
    let n := s.snap
    writeBody n.stage
    each n.image fun kv => each (s.mirrorRange kv.1 kv.2) fun k => do
      let page ← readPage .drain kv.2 k
      copyGrans .drain page (page + n.mirror) (s.pageGrans kv.2.ctx)
    writeBody n.imageAt
    modSnap fun x => { x with
      st := 2, drainAt := s.tb.now, npages := (n.image.map fun kv => (s.mirrorRange kv.1 kv.2).length).foldl (· + ·) 0 }

/-- Give the pages that closes held back to their pools, whose contexts may start again (R299). -/
def freeHeldBack : M s0 Unit := do
  let s ← rd
  modSnap fun n => { n with heldBack := [] }
  each s.snap.heldBack fun p => do
    poolPut p.1 p.2
    wake p.1

/-- SNAPSHOT_COMPLETE: every earlier write is acknowledged; the header is written and acknowledged, and the snapshot becomes
the new base (R413). The body is written again, without the contexts that were torn down during the drain (R414). -/
def execSnapshotComplete (s : State) : Out :=
  runIf (s.alive && s.snap.st = 2) s do
    let n := s.snap
    writeBody n.imageAt
    gwrite .drain ((n.imageAt + 2 ^ 20 * (n.seq % 2)) % gmSize) n.header
    modSnap fun x => { x with
      st := 0, done := n.seq, lateCut := false, opened := [],
      snapPos := n.image.foldl (fun t kv => if n.opened.contains kv.1 then t else tabSet t kv.1 kv.2.pos) x.snapPos }
    freeHeldBack
    platRec .snapDone unitHealth 0 []

/-- DRAIN_TIMEOUT: a drain that met an error acknowledgement, or ran longer than 2^IV_MIN grains, is abandoned; the next cut is
due at once, into the same parity (R414). -/
def execDrainTimeout (ackError : Bool) (s : State) : Out :=
  runIf (s.alive && s.snap.st = 2 && (ackError || elapsed s.tb.now s.snap.drainAt (2 ^ s.ivMin + 1))) s do
    modSnap fun n => { n with st := 0, due := s.tb.now, lateCut := false, opened := [] }
    freeHeldBack
    platRec .snapFail unitHealth 0 []
    bumpReg Fd.snapFailFails

/-! ### Restore (R415) -/

/-- The entries that an image gives to context c: indices and entries. -/
def State.imageEntries (s : State) (base c : Nat) : List (Nat × Entry) :=
  ((List.range 8192).map fun i => (i, entryOf (s.gread (base + 576 + 64 * i) 64))).filter fun p =>
    p.2.st != .free && p.2.ctx = c

/-- A restore of context c from the image at `base` is refused. -/
def State.restoreBad (s : State) (base c : Nat) : Bool :=
  let h := s.gread base 64
  let r := s.gread (base + 64 + 64 * c) 64
  let a := (s.ctx c).adm
  crc32c (h.take 60 ++ s.gread (base + 64) 524800) ≠ leAt h 60 4
    || !bit (leAt r 0 1) 7
    || (s.ctx c).prot != .admitted || a.tenant ≠ leAt r 0 1 % 8
    || leAt r 4 4 ≠ crc32c (toLe a.seed 8)
    || (s.imageEntries base c).any fun p => (s.entry p.1).st != .free

/-- Restore one entry: its SNAP_POS, its pages from the mirror, and R309 where its draw is ahead. Answers whether it was. -/
def restoreEntry (pages : Bool) (c : Nat) (p : Nat × Entry) : M s0 Unit := do
  let s ← rd
  let e := p.2
  eff (.entry p.1 { e with draw := e.pos })
  modSnap fun n => { n with snapPos := tabSet n.snapPos p.1 e.pos }
  if pages then
    each (List.range e.npages) fun k => do
      let page ← readPage .firmware e k
      copyGrans .firmware (page + s.reg64 Fd.snapMirrorLoOff Fd.snapMirrorHiOff) page (s.pageGrans c)
  if e.draw ≠ e.pos then
    ctxRec .seqRngSkew c unitStu 0 (toLe e.seqId 8 ++ toLe e.pos 4 ++ toLe e.draw 4)
    bumpReg Fd.stuSkewSkew

/-- SNAP_RESTORE: a write with GO restores a context's entries from an image buffer, or sets ERR with nothing changed. -/
def execSnapRestore (r : Requester) (value : Word) (s : State) : Out :=
  runIf (s.takes r) s do
    rowWrite r 0x9040 do
      let w := value.toNat
      let c := bits w 2 0
      setReg Fd.snapRestorePages 0 (bits w 28 28)
      setReg Fd.snapRestoreBuf 0 (bits w 27 27)
      setReg Fd.snapRestoreCtx 0 c
      if bit w 31 then
        let base := s.reg64 Fd.snapImageLoAddr Fd.snapImageHiAddr + 2 ^ 20 * bits w 27 27
        setReg Fd.snapRestoreDone 0 0
        viaStations .firmware false base 524864
        let s ← rd
        if s.restoreBad base c then setReg Fd.snapRestoreErr 0 1
        else
          let l := s.imageEntries base c
          setReg Fd.snapRestoreErr 0 0
          each l (restoreEntry (bit w 28) c)
          setReg Fd.snapRestoreDone 0 1
          bumpReg Fd.snapFailRestores
          ctxRec .restore c unitCcp 0 (toLe l.length 2 ++ toLe (l.filter fun p => p.2.draw ≠ p.2.pos).length 2)

end Sys2Proof.Machine
end

