-- ==== Sys2Proof/Machine/Resets.lean ====
section
/-! DEFINITION. Resets and start-up (R402 to R407, R433 to R437): per-port, per-core, warm and cold, and the pins that start
them. -/

namespace Sys2Proof.Machine

variable {s0 : State}

/-! ### What every reset of a unit does -/

/-- Fewer than 4096 grains have passed since unit u's last INC advance (R405). -/
def State.incBusy (s : State) (u : Nat) : Bool :=
  match tabGet none s.resets.lastInc u with
  | some g => !elapsed s.tb.now g 4096
  | none => false

/-- A port unit's INC advances (R402). -/
def advancePort (u : Nat) : M s0 Unit := do
  let s ← rd
  setReg (Fd.portInc u) 0 (s.portIncOf u + 1)
  noteInc u

/-- A reset that reaches a block discards its staged values and the sets not yet applied (R391). -/
def dropStaged (b : Block) : M s0 Unit := do
  let s ← rd
  eff (.staged (s.staged.filter fun v => blockOf v.fld.addr != b))
  eff (.sets (s.sets.filter fun v => v.block != b))

/-- n granules as a reply with TARGET_RESET carries them: any data, marked (R404). -/
def lostGrans : Nat → M s0 (List GranS)
  | 0 => pure []
  | n + 1 => do
    let g ← freshGran
    let rest ← lostGrans n
    pure ({ g with syn := markSyn } :: rest)

/-! ### Per-port resets -/

/-- An NCU group whose buffer a reset clears is answered with TARGET_RESET (R404). -/
def groupLost (n : Nat) (g : NcuGroup) : M s0 Unit := do
  let s ← rd
  eff (.groups (s.groups.filter (·.id ≠ g.id)) s.nextGroup)
  if g.write then each g.pkts fun p => send (nodeStn n) g.core g.inc (.ack p 2)
  else
    let gs ← lostGrans (ncuCore g.ncu / 64)
    send (nodeStn n) g.core g.inc (.reply g.rid .targetReset gs)

/-- Reset M-port station n (R404, R407): what it has sent completes with TARGET_RESET, its INC advances, and requests that
wait in the lanes stay until the controller advertises credits again. -/
def stationReset (n : Nat) : M s0 Unit := do
  setReg Fd.mpStnStatusReady n 0
  setReg Fd.mpStnCreditRd n 0
  setReg Fd.mpStnCreditWr n 0
  modStn n fun x => { x with rdCred := 0, wrCred := 0 }
  let s ← rd
  each (s.stn n).reads fun r => do
    let gs ← lostGrans r.ngr
    answerRead n r .targetReset gs
  each (s.stn n).writes fun w => do
    applyRest w false
    answerStn n w 2
  let t ← rd
  each (t.groups.filter fun g => stationOf g.addr = n) (groupLost n)
  ncuDrain n (t.stn n).held.length
  dropStaged .mp
  advancePort (incStn n)
  platRec .stationReset (unitStn n) 0 []

/-- Reset N-port module k (R404): writes of this cluster that await an answer through it complete with TARGET_RESET, and it
trains again. -/
def moduleReset (k : Nat) : M s0 Unit := do
  let s ← rd
  eff (.mod k {})
  setReg Fd.npModStatusUp k 0
  each (List.range 32) fun n => each (s.core n).outW fun w =>
    match w.dinst with
    | some d =>
      if s.route d = some k && !s.answered n w.id then
        send (nodeMod k) n (s.coreInc n) (.ack w.id 2)
      else pure ()
    | none => pure ()
  each (s.mod k).buffered fun o =>
    if o.type = 1 && o.frame.sinst ≠ Config.inst then answerFor o.frame 2
    else if o.type = 4 then failFrame k 4 o.frame
    else pure ()
  dropStaged .np
  advancePort (incMod k)

/-- Reset the L-port (R355, R404): its sends complete with error, what it holds is gone, and every link trains again. -/
def lportReset : M s0 Unit := do
  let s ← rd
  each s.allLinks fun l => do
    linkFails l
    eff (.ctl l [])
    linkDetect true l
  dropStaged .lp
  advancePort incLport

/-- Reset the H-port (R435): requests not yet taken and replies not yet acknowledged are discarded. -/
def hportReset : M s0 Unit := do
  each (List.range 8) fun p => do
    modPair p fun x => { x with rung := none, epoch := x.epoch + 1 }
    setReg Fd.mbRepStatusValid p 0
    setReg Fd.mbStatusTaken p 0
  dropStaged .hp
  advancePort incHport

/-! ### Per-core resets (R435) -/

/-- Start the reset of core n: its objects go as at a fence (Table 11-5), its state is zeroed, and its self-test runs. -/
def coreReset (n : Nat) : M s0 Unit := do
  goneWithCore n
  resetCore n
  modResets fun r => { r with testing := putBit r.testing n true }

/-- CORE_SELFTEST_DONE: the core part of self-test after a per-core reset ends; a pass clears the fence and the core holds the
constant images of its contexts' resident models again, a failure leaves it fenced with cause 4 (R435). -/
def execCoreSelftestDone (core : Fin 32) (pass : Bool) (s : State) : Out :=
  let n := core.val
  runIf (s.alive && bit s.resets.testing n) s do
    modResets fun r => { r with testing := putBit r.testing n false }
    setRegBit Fd.selftestCoresFailed n (!pass)
    if pass then
      setRegBit Fd.fencedCores n false
      each (List.range 16) fun k =>
        if (s.model k).st = .resident && bit (s.ctx (s.model k).ctx).adm.mask n then placeImage k n else pure ()
    else platRec .coreFence n 0 (toLe 4 1 ++ toLe 0 1)

/-! ### Warm reset (R434) -/

/-- Pins that a warm reset does not reach, and the grain from which the power controller counts. -/
def State.warmPower (s : State) : Power :=
  { pwrOk := true, ctrlEn := true, pcap := s.pw.pcap, thermTrip := s.pw.thermTrip, released := true,
    govAt := s.tb.now, thermAt := s.tb.now, retryAt := s.tb.now }

/-- The boot ROM runs: an image that passes starts in state PLATFORM, else the state is ROM (R434 step 4). -/
def boot : M s0 Unit := do
  let s ← rd
  match s.fw.imageOk, s.fw.image with
  | true, some v => do
    setReg Fd.fwVersionVersion 0 v
    firmwareStarts
  | _, _ => setReg Fd.pwrStatusStage 0 1

/-- A warm reset with its RST_CAUSE.KIND, as one step (R434): every core is fenced and every port unit's INC advances; writes
under way to memory may or may not be applied; everything that it reaches is lost; the boot ROM runs. -/
def warmReset (kind : Nat) : M s0 Unit := do
  let s ← rd
  each (List.range 32) fun n => if s.fenced n then pure () else advanceCore n
  each (List.range 12) advancePort
  each (List.range 6) fun n => each (s.stn n).writes fun w => applyRest w false
  eff (.warm s.warmPower)
  setReg Fd.rstCauseKind 0 kind
  bumpReg Fd.rstCauseWarms
  boot

/-! ### Requests, holds, starts (R405, R435) -/

/-- Units whose INC a reset advances, or, for a core, whose advance it waits out. -/
def incUnits : ResetUnit → List Nat
  | .core n => [incCore n]
  | .stn n => [incStn n]
  | .mod k => [incMod k]
  | .lport => [incLport]
  | .hport => [incHport]
  | .warm => List.range 12 ++ (List.range 32).map incCore

/-- A reset must be held (R405). -/
def State.mustHold (s : State) (u : ResetUnit) : Bool := (incUnits u).any s.incBusy

/-- Carry out a reset. -/
def startReset (u : ResetUnit) (kind : Nat) : M s0 Unit :=
  match u with
  | .core n => coreReset n
  | .stn n => stationReset n
  | .mod k => moduleReset k
  | .lport => lportReset
  | .hport => hportReset
  | .warm => warmReset kind

/-- Request a reset: merged into one of the same unit that is held or runs, held, or started (R405, R435). -/
def askReset (u : ResetUnit) (kind : Nat := 0) : M s0 Unit := do
  let s ← rd
  let running := match u with
    | .core n => bit s.resets.testing n
    | _ => false
  if running || s.resets.held.any (fun h => h.1 == u) then pure ()
  else if s.mustHold u then modResets fun r => { r with held := r.held ++ [(u, kind)] }
  else startReset u kind

/-- HELD_RESET_START: the 4096 grains of a held reset have passed (R405). -/
def execHeldResetStart (u : ResetUnit) (s : State) : Out :=
  match s.resets.held.find? fun h => h.1 == u with
  | none => .next s
  | some h => runIf (s.alive && !s.mustHold u) s do
    modResets fun r => { r with held := r.held.filter fun h => h.1 != u }
    startReset u h.2

/-- WARM_RESET: a write of RST_CTRL.WARM (R434). -/
def execWarmReset (r : Requester) (s : State) : Out :=
  runIf (s.takes r) s (rowWrite r 0x8040 (askReset .warm 3))

/-- WARM_RST_N: a low pulse of at least 4 grains (R423). -/
def execWarmRstN (s : State) : Out := runIf s.alive s (askReset .warm 2)

/-- CORE_RST: each core named is fenced, unless it is already, and its reset requested (R435). -/
def execCoreRst (r : Requester) (cores : Word) (s : State) : Out :=
  runIf (s.takes r) s do
    rowWrite r 0x8044 do
      each (bitsSet cores.toNat 32) fun n => do
        fence n 3 0
        askReset (.core (Fin.ofNat 32 n))

/-- PORT_RST: resets of the units named (Table 17-8). -/
def execPortRst (r : Requester) (value : Word) (s : State) : Out :=
  runIf (s.takes r) s do
    rowWrite r 0x8048 do
      let w := value.toNat
      each (bitsSet (bits w 5 0) 6) fun n => askReset (.stn (Fin.ofNat 6 n))
      each ((bitsSet (bits w 11 8) 4).filter fun k => k < Config.nmod.val) fun k => askReset (.mod (Fin.ofNat 4 k))
      if bit w 16 then askReset .lport
      if bit w 17 then askReset .hport

/-! ### Power and cold start (R423, R425, R433, R436) -/

/-- A cold reset with the levels of the pins (R433). -/
def cold (pwrOk ctrlEn : Bool) : M s0 Unit := do
  let s ← rd
  eff (.cold { pwrOk := pwrOk, ctrlEn := ctrlEn, pcap := s.pw.pcap })

/-- PWR_OK_RISE: with CTRL_EN high a cold reset begins; CTRL_EN is sampled only while PWR_OK is high (R423, R436). -/
def execPwrOkRise (s : State) : Out := runIf (!s.pw.pwrOk) s (cold true s.pw.ctrlEn)

/-- PWR_OK_FALL: a cold reset that loses all state (R423, R433). -/
def execPwrOkFall (s : State) : Out := runIf s.pw.pwrOk s (cold false s.pw.ctrlEn)

/-- CTRL_EN_RISE: with PWR_OK high the control domain comes on as a cold reset (R433). -/
def execCtrlEnRise (s : State) : Out :=
  runIf (!s.pw.ctrlEn) s do
    if s.pw.pwrOk then
      cold true true
      setReg Fd.rstCauseKind 0 1
    else modPw fun p => { p with ctrlEn := true }

/-- CTRL_EN_FALL: issue stops, and every domain is switched off: none holds state (R424, R425). -/
def execCtrlEnFall (s : State) : Out :=
  runIf s.pw.ctrlEn s do
    if s.pw.pwrOk then cold true false
    else modPw fun p => { p with ctrlEn := false }

/-- INTERNAL_RESET_RELEASE: the PLL has locked, internal reset is released, and the boot ROM enters state ROM (R436 stages 3
and 4). -/
def execInternalResetRelease (s : State) : Out :=
  runIf (s.pw.pwrOk && s.pw.ctrlEn && !s.pw.released) s do
    modPw fun p => { p with released := true }
    setReg Fd.clkStatusPllLock 0 1
    setReg Fd.pwrStatusStage 0 1

/-- SELFTEST_DONE: self-test ends: cores that failed are fenced with cause 4, and training begins (R437, R436 stage 7). -/
def execSelftestDone (failed : Word) (othersOk : Bool) (s : State) : Out :=
  runIf (s.alive && s.pw.selfTest) s do
    setReg Fd.selftestDone 0 1
    setReg Fd.selftestPass 0 (b2n othersOk)
    setReg Fd.selftestCoresFailed 0 failed.toNat
    setReg Fd.pwrStatusStage 0 3
    modPw fun p => { p with selfTest := false, retryAt := s.tb.now }
    each (bitsSet failed.toNat 32) fun n => fence n 4 0
    each s.allLinks (linkDetect false)

end Sys2Proof.Machine
end

