-- ==== Sys2Proof/Machine/Integrity.lean ====
section
/-! DEFINITION. Uncorrectable errors in state outside the granule check, and the CCP watchdog (R395, R406). -/

namespace Sys2Proof.Machine

variable {s0 : State}

/-- The firmware restarts from its copy in the global space: requests in service are answered BUSY, and the state is UPDATING
until it runs again (R395, R389). In state ROM no firmware runs. -/
def ccpRestart : M s0 Unit := do
  let s ← rd
  if s.fwState ≠ 0 then
    let prev := match s.fw.restarting with
      | some p => p
      | none => s.fwState
    modFw fun f => { f with restarting := some prev }
    setReg Fd.fwStatusState 0 3
    each (List.range 8) fun p =>
      match (s.pair p).service with
      | some r => reply r .busy
      | none => pure ()
    platRec .ccpRestart unitCcp 0 []

/-- CCP_WATCHDOG: the watchdog expires. -/
def execCcpWatchdog (s : State) : Out := runIf s.alive s ccpRestart

/-- A synchronisation object is lost: its waiters get owner-gone releases and it stays GONE until it is reallocated
(Table 16-2). The record goes to its owner and the platform. -/
def objectError (o : SyncObj) : M s0 Unit := do
  let s ← rd
  let report (owner : Option Nat) (unit : Nat) (obj : List Byte) : M s0 Unit :=
    match owner with
    | some c => ctxRec .objError c unit 0 obj
    | none => platRec .objError unit 0 obj
  match o with
  | .coreSem n i => do
    let k := coreSemKey n i
    goneSem k
    modSem k fun x => { x with gone := true, lasting := true }
    report (if (s.sem k).alloc then some (s.sem k).owner else none) n (semObjBytes k)
  | .hubSem i => do
    let k := hubSemKey i
    goneSem k
    modSem k fun x => { x with gone := true, lasting := true }
    report (if (s.sem k).alloc then some (s.sem k).owner else none) unitHub (semObjBytes k)
  | .barrier i => do
    goneLasting i
    report (if (s.bar i).alloc then some (s.bar i).owner else none) unitHub (barObjBytes i)

/-- The owning context is torn down (R384), with a CTX_FATAL record. -/
def ctxFatal (c : Nat) : M s0 Unit := do
  let s ← rd
  if (s.ctx c).prot = .admitted then
    ctxRec .ctxFatal c unitStu 0 []
    teardown c none

/-- STATE_ECC_ERROR: an uncorrectable error in protected state has the effect of Table 16-2. -/
def execStateEccError (u : EccUnit) (s : State) : Out :=
  runIf s.alive s do
    match u with
    | .coreState n => fence n 1 0
    | .object o => objectError o
    | .ctxTable c => ctxFatal c
    | .stuEntry i => if (s.entry i).st = .free then pure () else ctxFatal (s.entry i).ctx
    | .stuShared => do
      each ((List.range 8).filter fun c => (s.ctx c).run = .running) abortStep
      platRec .stuRestart unitStu 0 []
    | .station n => askReset (.stn n)
    | .firmware => ccpRestart

end Sys2Proof.Machine
end

