-- ==== Sys2Proof/Machine/Mx.lean ====
section
/-! DEFINITION. The matrix arrays (chapter 4, R120 to R135): LDW, PASS with its completion, and DRAIN. -/

namespace Sys2Proof.Machine

variable {s0 : State}

/-! ### Range monitors (R133) -/

/-- What a command adds to the range monitors of Table 5-7. -/
structure Ranges where
  pos   : Nat := 0
  neg   : Nat := 0
  inv   : Nat := 0
  under : Nat := 0
  sat   : Nat := 0
  rqInv : Nat := 0
  elems : Nat := 0
  blocks : Nat := 0

def Ranges.add (a b : Ranges) : Ranges :=
  ⟨a.pos + b.pos, a.neg + b.neg, a.inv + b.inv, a.under + b.under, a.sat + b.sat, a.rqInv + b.rqInv,
   a.elems + b.elems, a.blocks + b.blocks⟩

/-- The counters in the order of RANGE_ALARM_EN; BLOCKS has no bit of its own. -/
def Ranges.list (r : Ranges) : List (Fld × Nat) :=
  [(Fd.numAccSatPos, r.pos), (Fd.numAccSatNeg, r.neg), (Fd.numAccInvInvalid, r.inv), (Fd.numUnderUnder, r.under),
   (Fd.numRqSatSat, r.sat), (Fd.numRqInvInvalid, r.rqInv), (Fd.numBlkClipElems, r.elems)]

/-- Add to the range monitors of a core: a counter that first moves in a step makes one record where its alarm is enabled. DATA
names the counter by its bit number in RANGE_ALARM_EN (assumption log 107). -/
def countRanges (n c tag : Nat) (r : Ranges) : M s0 Unit := do
  each (List.range 7) fun i => do
    let (f, k) := r.list.getD i (Fd.numRqSatSat, 0)
    if k ≠ 0 then
      let s ← rd
      bumpReg f n k
      setReg Fd.numLastLastTag n tag
      if !bit (s.core n).ranges i then
        modCore n fun x => { x with ranges := putBit x.ranges i true }
        if bit (s.reg Fd.rangeAlarmEnEn n) i then ctxRec .numericRange c n tag (toLe i 1)
  if r.blocks ≠ 0 then bumpReg Fd.numBlkClipBlocks n r.blocks

/-! ### Tile reads through RD0 and RD1 (R60, R65, R66) -/

/-- Verify rows that a port read, in ascending order (R61): every failed one is counted and recorded. -/
def verifyRows (n c tag ticket t w : Nat) : Nat → List TileRow → M s0 Bool
  | _, [] => pure true
  | r, x :: l => do
    if x.good w then verifyRows n c tag ticket t w (r + 1) l
    else
      bumpReg Fd.tileEccUncorr n (x.fails w)
      tileCheck n c tag ticket t r
      let _ ← verifyRows n c tag ticket t w (r + 1) l
      pure false

/-- The row slots of a tile. -/
def Core.tileRows (c : Core) (d : TDesc) : List TileRow := (List.range d.rows).map (c.tile d.treg)

/-- MX reads a tile through port 0 or 1: from the reuse latch on a hit, else from the file, which refills the latch. -/
def mxRead (n port d : Nat) : M s0 (List TileRow) := do
  let s ← rd
  let k := s.core n
  let latch := if port = 0 then k.latch0 else k.latch1
  bumpReg Fd.tileReadsReads n
  match latch with
  | some l =>
    if l.desc = d && s.reg Fd.tileCtrlLatchEn n = 1 then
      bumpReg Fd.tileReuseHitHits n
      pure l.rows
    else
      let rows := k.tileRows (tdesc d)
      modCore n fun k => if port = 0 then { k with latch0 := some ⟨d, rows⟩ } else { k with latch1 := some ⟨d, rows⟩ }
      pure rows
  | none =>
    let rows := k.tileRows (tdesc d)
    modCore n fun k => if port = 0 then { k with latch0 := some ⟨d, rows⟩ } else { k with latch1 := some ⟨d, rows⟩ }
    pure rows

/-! ### LDW (R82 to R86, R192 to R194) -/

/-- Arrays that a mask names, ascending. -/
def arraysOf (mask : Nat) : List Nat := bitsSet mask 4

/-- Skip reasons of LDW (R58, Table 4-6, R193): a shape that MX does not accept is 0x02 (assumption log 108). -/
def ldwReason (_ : State) (_ : Running) (h : Head) : Option Nat :=
  let w := h.cmd
  let wt := tdesc (cf w 95 80)
  let ck := tdesc (cf w 79 64)
  let mask := cf w 63 60
  if cf w 57 48 ≠ 0 || cf w 31 16 ≠ 0 then some 0x01
  else if !wt.ok || !ck.ok || wt.rows ≠ 64 || wt.width ≠ 128 || ck.rows ≠ 32 || ck.width ≠ 128 then some 0x02
  else if mask = 0 || cf w 59 58 = 3 || wt.treg + (arraysOf mask).length - 1 > 31 then some 0x03
  else none

/-- The 128 plane rows that a weight tile holds (R82). -/
def planeRows (rows : List TileRow) : List (List Byte) :=
  rows.flatMap fun x => [slice x.data 0 64, slice x.data 64 64]

/-- The words S and T of array a's 128 rows from the checksum tile (R83). -/
def planeSums (rows : List TileRow) (a : Nat) : List (Nat × Nat) :=
  (List.range 8).flatMap fun h =>
    let d := (rows.getD (4 * h + a) {}).data
    (List.range 16).map fun r => (leAt d (8 * r) 4, leAt d (8 * r + 4) 4)

/-- Fill a plane of each array of the mask: the k-th from register WT.TREG + k (R193, R194). A poisoned token or a failed
check of what an array reads marks its plane (R107, Table 8-14). -/
def ldwArrays (i : Issued) (ck : List TileRow) : List (Nat × Nat) → M s0 Unit
  | [] => pure ()
  | (k, a) :: l => do
    let d := cf i.cmd 95 80 + k * 2 ^ 11
    let rows ← mxRead i.core 0 d
    let ok ← verifyRows i.core i.ctx i.tag i.ticket (tdesc d).treg 128 0 rows
    let ckOk := (List.range 8).all fun h => (ck.getD (4 * h + a) {}).good 128
    modCore i.core fun c => { c with
      planes := tabSet c.planes (a * 4 + cf i.cmd 59 58)
        { loaded := true, poison := i.poison || !ok || !ckOk, rows := planeRows rows, sums := planeSums ck a } }
    ldwArrays i ck l

/-- LDW (R194). -/
def execLdw (core : Fin 32) (ph : Phys) (s : State) : Out :=
  run s (issueWith core .mx [0x10] ph ldwReason (fun _ _ _ => false) fun i => do
    applyUpsets i.core i.ctx ph
    let cd := cf i.cmd 79 64
    let ck ← mxRead i.core 0 cd
    let _ ← verifyRows i.core i.ctx i.tag i.ticket (tdesc cd).treg 128 0 ck
    let arrays := arraysOf (cf i.cmd 63 60)
    ldwArrays i ck ((List.range arrays.length).zip arrays)
    i.push i.poison)

/-! ### PASS: its fields and legality (R195 to R197, Tables 4-6, 5-8, 8-13) -/

/-- The fields of a PASS (Table 8-5). -/
structure PassF where
  zero  : Bool
  neg   : Bool
  cont  : Bool
  src   : Bool
  wsgn  : Bool
  mask  : Nat
  plane : Nat
  bank  : Nat
  base  : Nat
  beats : Nat
  fold  : Nat
  shift : Nat
  camel : Nat
  two   : Bool
  asgn  : Bool
  anib  : Nat
  wfmt  : Nat
  afmt  : Nat
  off   : Nat
  acts  : List Nat

def passF (w : Cmd) : PassF :=
  { zero := cf w 100 100 = 1, neg := cf w 99 99 = 1, cont := cf w 98 98 = 1, src := cf w 97 97 = 1,
    wsgn := cf w 96 96 = 1, mask := cf w 95 92, plane := cf w 91 90, bank := cf w 89 89, base := cf w 88 82,
    beats := cf w 81 75 + 1, fold := cf w 74 73, shift := 4 * cf w 72 71, camel := cf w 70 68, two := cf w 67 67 = 1,
    asgn := cf w 66 66 = 1, anib := cf w 65 64, wfmt := cf w 63 60, afmt := cf w 59 56, off := cf w 47 24,
    acts := if cf w 55 40 = cf w 39 24 then [cf w 55 40] else [cf w 55 40, cf w 39 24] }

/-- F, L, K_l, n_out and the bytes of a beat. -/
def PassF.f (p : PassF) : Nat := 2 ^ p.fold
def PassF.l (p : PassF) : Nat := if p.two then 256 else 128
def PassF.kl (p : PassF) : Nat := 128 / p.f
def PassF.nout (p : PassF) : Nat := p.l * p.f
def PassF.beatBytes (p : PassF) : Nat := if p.anib = 0 then p.kl / 2 else p.kl

/-- The pass runs in scaled mode (R120, R197). -/
def PassF.scaled (p : PassF) : Bool := scaledFmt p.wfmt || scaledFmt p.afmt

def Core.bank (c : Core) (a b : Nat) : AccBank := tabGet {} c.banks (a * 2 + b)

def Core.plane (c : Core) (a p : Nat) : Plane := tabGet {} c.planes (a * 4 + p)

/-- A format combination is illegal (Table 5-8, R130). -/
def PassF.badFormat (p : PassF) (c : Core) (pscl : Option Cmd) : Bool :=
  let codes := [7, 0xB, 0xE, 0xF]
  let two := [5, 6].contains p.wfmt
  let eight := [8, 9, 0xA].contains p.afmt
  let banks := (arraysOf p.mask).map fun a => c.bank a p.bank
  codes.contains p.wfmt || codes.contains p.afmt || [3, 5, 6].contains p.afmt
    || two != p.two || eight != (p.anib ≠ 0)
    || (p.anib ≠ 0 && ([0xC, 0xD].contains p.wfmt || [0xC, 0xD].contains p.afmt))
    || (!p.zero && banks.any fun b => b.scaled != p.scaled)
    || p.scaled != pscl.isSome
    || (p.scaled && (p.src || p.two))
    || (match p.scaled, pscl with
        | true, some w =>
          let ws := tdesc (cf w 95 80)
          let as := tdesc (cf w 79 64)
          ws.rows ≠ 16 || ws.width ≠ 128 || as.width ≠ 128 || as.rows < cdiv p.beats 16
        | _, _ => false)
    || p.camel > 4 || (p.camel ≠ 0 && (p.two || [8, 9, 0xA, 0xC, 0xD].contains p.wfmt))

/-- A tile of a pass with tile source whose width is no multiple of the beat (R58, R88). -/
def PassF.badTiles (p : PassF) : Bool := !p.src && p.acts.any fun d => (tdesc d).width % p.beatBytes ≠ 0

/-- An illegal pass (Table 4-6, R88, R98, R196, Table 8-13), but for the shapes of its tiles. -/
def PassF.badShape (p : PassF) (s : State) (n ctx : Nat) : Bool :=
  let c := s.core n
  let tiles := p.acts.map tdesc
  let start := if p.cont then c.stream.getD 0 else p.off
  p.mask = 0 || p.plane = 3 || p.fold = 3 || (p.fold ≠ 0 && !(s.ctx ctx).adm.logical)
    || p.base + p.beats > 16384 / p.nout
    || (!p.zero && (arraysOf p.mask).any fun a => (c.bank a p.bank).nout ≠ p.nout)
    || (p.cont && (!p.src || p.off ≠ 0 || c.stream.isNone))
    || (if p.src then
          p.anib ≠ 0 || start % 64 ≠ 0 || start + 64 * (p.beats + 120) > s.partSize n ctx
        else
          p.beats > (tiles.map fun d => d.rows * (d.width / p.beatBytes)).foldl (· + ·) 0)

/-- Skip reasons of PASS. -/
def passReason (n : Nat) (s : State) (r : Running) (h : Head) : Option Nat :=
  let p := passF h.cmd
  let descs := (if p.src then [] else p.acts) ++ (match h.pscl with
    | some w => [cf w 95 80, cf w 79 64]
    | none => [])
  if p.anib = 1 || (p.src && cf h.cmd 55 48 ≠ 0)
      || (match h.pscl with | some w => cf w 119 (if r.t4 then 96 else 104) ≠ 0 || cf w 63 48 ≠ 0 || cf w 31 0 ≠ 0 | none => false) then some 0x01
  else if !r.t4 && (p.fold ≠ 0 || p.camel ≠ 0 || [3, 0xA, 0xD].contains p.wfmt || [3, 0xA, 0xD].contains p.afmt) then
    some 0x08
  else if p.badTiles || descs.any fun d => !(tdesc d).ok then some 0x02
  else if p.badShape s n r.parcel.ctx then some 0x03
  else if p.badFormat (s.core n) h.pscl then some 0x04
  else none

/-! ### PASS: arithmetic (R92, R105, R124 to R129) -/

/-- A column of a group of 64 that belongs to a camel pair (R128). -/
def isCamel (m l : Nat) : Bool := 64 ≤ l % 64 + 2 * m

/-- Cell values of the logical columns that one array row carries (R80, R92, R128). -/
def PassF.cells (p : PassF) (row : List Byte) : List Int :=
  let bytes := slice row 0 64
  if p.two then
    bytes.flatMap fun b => (List.range 4).map fun m => pairCell p.wfmt (b.toNat / 4 ^ m % 4) p.wsgn
  else
    ((List.range 64).zip bytes).flatMap fun x =>
      let lo : Nat := x.2.toNat % 16
      let hi : Nat := x.2.toNat / 16
      if isCamel p.camel (2 * x.1) then [Int.ofNat lo, sext hi 4]
      else [nibCell p.wfmt lo p.wsgn, nibCell p.wfmt hi p.wsgn]

/-- Cell value of element k of a beat (R87, R114, R117). -/
def PassF.actCell (p : PassF) (beat : List Byte) (k : Nat) : Int :=
  if p.anib = 0 then
    let b := (beat.getD (k / 2) 0).toNat
    nibCell p.afmt (if k % 2 = 0 then b % 16 else b / 16) p.asgn
  else
    let v := ofSigned (v8 p.afmt (beat.getD k 0).toNat) 8
    nibCell 0 (if p.anib = 3 then v / 16 else v % 16) p.asgn

/-- Activations of the 128 array rows for one beat of a tile: the feeders copy element k to rows k + seg × K_l (R100). -/
def PassF.tileActs (p : PassF) (beat : List Byte) : List Int :=
  let v := (List.range p.kl).map (p.actCell beat)
  (List.replicate p.f v).flatten

/-- Activations of the 128 array rows for beat t of a pre-skewed stream whose rows are given (R90). -/
def PassF.streamActs (p : PassF) (rows : List (List Byte)) (t : Nat) : List Int :=
  (List.range 16).flatMap fun g =>
    let d := rows.getD (t + 8 * g) []
    (List.range 8).map fun r =>
      let b := (d.getD (4 * g + r / 2) 0).toNat
      nibCell p.afmt (if r % 2 = 0 then b % 16 else b / 16) p.asgn

/-- Column sums over some rows. -/
def colSums (n : Nat) : List Int → List (List Int) → List Int
  | a :: as, r :: rs => if a = 0 then colSums n as rs else List.zipWith (fun x y => a * x + y) r (colSums n as rs)
  | _, _ => List.replicate n 0

/-- Camel recombination from column l on (R129). -/
def camelFix (m : Nat) : Nat → List Int → List Int
  | l, a :: b :: t => if isCamel m l then (a + 16 * b) :: 0 :: camelFix m (l + 2) t else a :: b :: camelFix m (l + 2) t
  | _, t => t

/-- A sum modulo 2^32. -/
def mod32 (x : Int) : Nat := (x % 4294967296).toNat

/-- A value modulo 2^32, read as signed. -/
def wrap32 (x : Int) : Int := sext (mod32 x) 32

/-- Σ (l + 1) × u_l from column l on. -/
def ramp : Int → List Int → Int
  | _, [] => 0
  | l, u :: t => (l + 1) * u + ramp (l + 1) t

/-- Σ aval × word over rows. -/
def wordSum : List Int → List Nat → Int
  | a :: as, w :: ws => a * w + wordSum as ws
  | _, _ => 0

/-- D0 and D1 of a segment (R105). -/
def checkSeg (u acts : List Int) (sums : List (Nat × Nat)) : Nat × Nat :=
  (mod32 (u.foldl (· + ·) 0 - wordSum acts (sums.map (·.1))), mod32 (ramp 0 u - wordSum acts (sums.map (·.2))))

/-- The one logical column that explains D0 and D1 (R106). -/
def locate (l d0 d1 : Nat) : Option Nat :=
  match (List.range l).filter fun k => ((k + 1) * d0) % 2 ^ 32 = d1 with
  | [k] => some k
  | _ => none

/-- accumulate of R125. -/
def accumulate (old w : Int) (bad : Bool) : Int × Ranges :=
  if bad then (-2147483648, { inv := 1 })
  else if old = -2147483648 ∨ old = 2147483647 ∨ old = -2147483647 then (old, {})
  else if 2147483647 ≤ old + w then (2147483647, { pos := 1 })
  else if old + w ≤ -2147483647 then (-2147483647, { neg := 1 })
  else (old + w, {})

/-- Scales of a scaled pass: the WS rows of one array, and the AS row slots. -/
structure Scales where
  ws : List (List Byte)
  as : List (List Byte)

/-- Weight scale of row block j and column l of an array: 127 where the format has none. -/
def Scales.xw (x : Scales) (p : PassF) (j l : Nat) : Nat :=
  if scaledFmt p.wfmt && !(isCamel p.camel l && l % 2 = 1) then ((x.ws.getD j []).getD l 0).toNat else 127

/-- Activation scale of block m of beat t. -/
def Scales.xa (x : Scales) (p : PassF) (t m : Nat) : Nat :=
  if scaledFmt p.afmt then ((x.as.getD (t / 16) []).getD (8 * (t % 16) + m) 0).toNat else 127

/-- Reference exponent of beat t (R121). -/
def Scales.et (x : Scales) (t : Nat) : Nat := leAt (x.as.getD (t / 16) []) (8 * (t % 16) + 4) 2 % 512

/-- One column of a scaled contribution: its block sums u with their scales (R124). -/
def scaledSum (s e : Int) (xa : List Nat) : List (Int × Nat) → Nat → Int × Bool × Nat
  | [], _ => (0, false, 0)
  | (u, xw) :: l, m =>
    let (w, bad, under) := scaledSum s e xa l (m + 1)
    let a := xa.getD m 127
    if xw = 0xFF ∨ a = 0xFF then (w, true, under)
    else
      let c := rneInt u ((xw : Int) + a - e + s)
      (w + c, bad, under + b2n (u ≠ 0 && c = 0))

/-- What one beat of one array gives: the accumulators of its slot, its reference exponent, the failures found, and the
range counts. -/
structure BeatOut where
  acc   : List Int
  ref   : Nat
  fails : List (Nat × Nat × Nat)
  rng   : Ranges

/-- The unshifted column sums of a segment, in blocks of 32 rows, with the faults that met them. -/
def PassF.blocks (p : PassF) (acts : List Int) (cells : List (List Int)) (seg : Nat) : List (List Int) :=
  (List.range (p.kl / 32)).map fun b =>
    let o := seg * p.kl + 32 * b
    colSums p.l ((acts.drop o).take 32) ((cells.drop o).take 32)

/-- Faults added to a segment's column sums. -/
def addFaults (fs : List ColFault) (u : List Int) : List Int :=
  fs.foldl (fun u f => u.mapIdx fun l x => if l = f.col then x + f.add else x) u

/-- Sum of a list of equally long rows. -/
def sumRows (n : Nat) : List (List Int) → List Int
  | [] => List.replicate n 0
  | r :: l => List.zipWith (· + ·) r (sumRows n l)

/-- One segment of one beat (R92, R124): new accumulators and ranges from the old ones. -/
def PassF.segOut (p : PassF) (blocks : List (List Int)) (sc : Option Scales) (t seg : Nat) (e : Nat)
    (old : List Int) : List Int × Ranges :=
  match sc with
  | none =>
    let u := camelFix p.camel 0 (sumRows p.l blocks)
    (List.zipWith (fun u o =>
      let v := u * 2 ^ p.shift
      let v := if p.neg then -v else v
      wrap32 (if p.zero then v else o + v)) u old, {})
  | some x =>
    let us := blocks.map (camelFix p.camel 0)
    let xa := (List.range (p.kl / 32)).map (x.xa p t)
    let cols := (List.range p.l).map fun l =>
      let pairs := (List.range us.length).map fun b => ((us.getD b []).getD l 0, x.xw p (seg * p.kl / 32 + b) l)
      scaledSum p.shift e xa pairs 0
    let outs := List.zipWith (fun c o =>
      let w := if p.neg then -c.1 else c.1
      let (v, r) := accumulate (if p.zero then 0 else o) w c.2.1
      (v, { r with under := c.2.2 })) cols old
    (outs.map (·.1), outs.foldl (fun r o => r.add o.2) {})

/-- One beat of one array. -/
def PassF.beatOut (p : PassF) (acts : List Int) (cells : List (List Int)) (sums : List (Nat × Nat)) (sc : Option Scales)
    (fs : List ColFault) (t : Nat) (e : Nat) (old : List Int) : BeatOut :=
  let segs := (List.range p.f).map fun seg =>
    let blocks := p.blocks acts cells seg
    let fs := fs.filter (·.seg = seg)
    let blocks := match blocks with
      | b :: l => addFaults fs b :: l
      | [] => []
    let u := sumRows p.l blocks
    let part := (acts.drop (seg * p.kl)).take p.kl
    let d := checkSeg u part ((sums.drop (seg * p.kl)).take p.kl)
    (p.segOut blocks sc t seg e ((old.drop (seg * p.l)).take p.l), d)
  { acc := (segs.map (·.1.1)).flatten, ref := e,
    fails := (List.range p.f).filterMap fun k =>
      match segs[k]? with
      | some x => if x.2 = (0, 0) then none else some (k, x.2.1, x.2.2)
      | none => none,
    rng := segs.foldl (fun r x => r.add x.1.2) {} }

/-- The beats of an array, in order, into its bank. -/
def PassF.arrayBeats (p : PassF) (a : Nat) (acts : List (List Int)) (cells : List (List Int)) (sums : List (Nat × Nat))
    (sc : Option Scales) (fs : List ColFault) : Nat → AccBank → List (Nat × Nat × Nat × Option Nat × Nat × Nat) →
    Ranges → List (List Int) → AccBank × List (Nat × Nat × Nat × Option Nat × Nat × Nat) × Ranges
  | _, b, fl, r, [] => (b, fl, r)
  | t, b, fl, r, v :: l =>
    let slot := p.base + t
    let e := match sc with
      | some x => if p.zero then x.et t else tabGet 0 b.ref slot
      | none => 0
    let out := p.beatOut v cells sums sc (fs.filter fun f => f.beat = t) t e (tabGetRun 0 b.acc (slot * p.nout) p.nout)
    let units := (List.range (p.nout / 128)).map (slot * (p.nout / 128) + ·)
    let b := { b with
      acc := tabSetRun b.acc (slot * p.nout) out.acc, ref := if p.zero && p.scaled then tabSet b.ref slot e else b.ref,
      failed := if out.fails.isEmpty then b.failed else units ++ b.failed }
    let fl := fl ++ out.fails.map fun x => (a, slot, x.1, locate p.l x.2.1 x.2.2, x.2.1, x.2.2)
    p.arrayBeats a acts cells sums sc fs (t + 1) b fl (r.add out.rng) l

/-- The bank as a pass begins to write it: a ZERO pass sets its width and mode and clears the marks of its slots (R98, R107,
R123); a poisoned pass marks them. -/
def PassF.begin (p : PassF) (bad : Bool) (b : AccBank) : AccBank :=
  let k := p.nout / 128
  let mine := fun u => p.base * k ≤ u && u < (p.base + p.beats) * k
  let b := if p.zero then
      { b with nout := p.nout, scaled := p.scaled, failed := b.failed.filter fun u => !mine u,
               marked := b.marked.filter fun u => !mine u }
    else b
  if bad then { b with marked := (List.range (p.beats * k)).map (p.base * k + ·) ++ b.marked } else b

/-- The cell values of the 128 rows of a plane. -/
def PassF.planeCells (p : PassF) (pl : Plane) : List (List Int) := (List.range 128).map fun k => p.cells (pl.rows.getD k [])

/-- Run a pass in each array of its mask (R198). Answers the failures, the ranges and whether a plane was poisoned. -/
def passArrays (i : Issued) (p : PassF) (acts : List (List Int)) (sc : Nat → Option Scales) (bad : Bool) :
    List Nat → List (Nat × Nat × Nat × Option Nat × Nat × Nat) → Ranges → Bool →
    M s0 (List (Nat × Nat × Nat × Option Nat × Nat × Nat) × Ranges × Bool)
  | [], fl, r, q => pure (fl, r, q)
  | a :: l, fl, r, q => do
    let s ← rd
    let c := s.core i.core
    let pl := c.plane a p.plane
    let q := q || pl.poison
    let cells := p.planeCells pl
    let sums := (List.range 128).map fun k => pl.sums.getD k (0, 0)
    let b := p.begin (bad || pl.poison) (c.bank a p.bank)
    let (b, fl, r) := p.arrayBeats a acts cells sums (sc a) (i.ph.faults.filter fun f => f.arr = a) 0 b fl r acts
    modCore i.core fun c => { c with banks := tabSet c.banks (a * 2 + p.bank) b }
    passArrays i p acts sc bad l fl r q

/-- Beats of the activation tiles in order (R88). -/
def PassF.tileBeats (p : PassF) (tiles : List (TDesc × List TileRow)) : List (List Byte) :=
  (tiles.flatMap fun x => x.2.flatMap fun r => chunks p.beatBytes 128 (r.bytes x.1.width)).take p.beats

/-- Read the activation tiles of a pass through RD1; answers them and whether every check held. -/
def readActs (i : Issued) : List Nat → M s0 (List (TDesc × List TileRow) × Bool)
  | [] => pure ([], true)
  | d :: l => do
    let rows ← mxRead i.core 1 d
    let ok ← verifyRows i.core i.ctx i.tag i.ticket (tdesc d).treg (tdesc d).width 0 rows
    let (rest, oks) ← readActs i l
    pure ((tdesc d, rows) :: rest, ok && oks)

/-- Read a scale tile: it neither hits nor refills the latch (R122). -/
def readScale (i : Issued) (d : Nat) : M s0 (List (List Byte) × Bool) := do
  let s ← rd
  bumpReg Fd.tileReadsReads i.core
  let rows := (s.core i.core).tileRows (tdesc d)
  let ok ← verifyRows i.core i.ctx i.tag i.ticket (tdesc d).treg (tdesc d).width 0 rows
  pure (rows.map fun x => x.bytes (tdesc d).width, ok)

/-- Lanes and checksum cells of one array row that a beat leaves gated: all of them under a zero activation, else those whose
weight has cell value zero (R101; the count of the checksum cells is assumption log 28). -/
def gatedRow (lanes : Nat) (act : Int) (cells : List Int) : Nat := if act = 0 then lanes + 2 else cells.countP (· = 0)

/-- Gated lane cycles of a pass in one array: one cycle per beat. -/
def gatedCycles (lanes : Nat) (acts : List (List Int)) (cells : List (List Int)) : Nat :=
  (acts.map fun beat => (List.zipWith (gatedRow lanes) beat cells).foldl (· + ·) 0).foldl (· + ·) 0

/-- Gated lane cycles, in units of 2^16 (R101). -/
def countGated (n g : Nat) : M s0 Unit := do
  let s ← rd
  if s.reg Fd.mxCfgGateEn n = 1 then
    let t := (s.core n).gatedRem + g
    if t / 65536 ≠ 0 then bumpReg Fd.mxGatedGated n (t / 65536)
    modCore n fun c => { c with gatedRem := t % 65536 }

/-- Failed checks in the order in which they are decided: by beat, which its slot tells, then by array and segment (R93). -/
def failsInOrder (l : List (Nat × Nat × Nat × Option Nat × Nat × Nat)) : List (Nat × Nat × Nat × Option Nat × Nat × Nat) :=
  (List.range 128).flatMap fun slot => l.filter fun f => f.2.1 = slot

/-- Stream rows that a pass reads anew: a continued one finds its first 120 read by its predecessor (R90). -/
def PassF.newRows (p : PassF) (start : Nat) : Nat × Nat :=
  if p.cont then (start + 64 * 120, 64 * p.beats) else (start, 64 * (p.beats + 120))

/-- PASS (R198): the beats are computed at issue; PASS_COMPLETE decides their checks and pushes the token. -/
def passBody (i : Issued) : M s0 Unit := do
  let p := passF i.cmd
  applyUpsets i.core i.ctx i.ph
  let s ← rd
  let start := if p.cont then (s.core i.core).stream.getD 0 else p.off
  let (beats, good) ← (if p.src then do
      let len := 64 * (p.beats + 120)
      let rows := chunks 64 (p.beats + 120) (s.spRead i.core i.ctx start len)
      let ok := s.spGood i.core i.ctx start len
      countBadReads i.core i.ctx (p.newRows start).1 (p.newRows start).2
      if !ok then poisonParcel i.core
      modCore i.core fun c => { c with stream := some (start + 64 * p.beats) }
      pure ((List.range p.beats).map (p.streamActs rows), ok)
    else do
      let (tiles, ok) ← readActs i p.acts
      pure ((p.tileBeats tiles).map p.tileActs, ok) : M s0 (List (List Int) × Bool))
  let (ws, as, scGood) ← (match i.pscl with
    | some w => do
      let (ws, a) ← readScale i (cf w 95 80)
      let (as, b) ← readScale i (cf w 79 64)
      pure (ws, as, a && b)
    | none => pure ([], [], true) : M s0 (List (List Byte) × List (List Byte) × Bool))
  let sc : Nat → Option Scales := fun a => if p.scaled then some ⟨(ws.drop (4 * a)).take 4, as⟩ else none
  let bad := i.poison || !good || !scGood
  let (fails, rng, planes) ← passArrays i p beats sc bad (arraysOf p.mask) [] {} false
  countRanges i.core i.ctx i.tag rng
  countGated i.core (((arraysOf p.mask).map fun a =>
    gatedCycles p.l beats (p.planeCells ((s.core i.core).plane a p.plane))).foldl (· + ·) 0)
  modCore i.core fun c => { c with
    passes := c.passes ++ [{ cmd := i.cmd, ticket := i.ticket, outs := i.outs,
                             poison := bad || planes || !fails.isEmpty, fails := failsInOrder fails }] }

/-- A PASS waits until its plane is loaded in every masked array; an LDW that was skipped leaves a plane poisoned for the passes
that follow, and none waits for it (R94, R108). -/
def passBusy (n : Nat) (s : State) (_ : Running) (h : Head) : Bool :=
  let p := passF h.cmd
  (arraysOf p.mask).any fun a => !(((s.core n).plane a p.plane).loaded || ((s.core n).plane a p.plane).poison)

def execPass (core : Fin 32) (ph : Phys) (s : State) : Out :=
  run s (issueWith core .mx [0x11] ph (passReason core) (passBusy core) passBody)

/-- PSCL as a command of its own: it follows no PASS and is illegal with reason 0x03; it pops its ends and pushes nothing
(R197). -/
def execPscl (core : Fin 32) (ph : Phys) (s : State) : Out :=
  run s (issueWith core .mx [0x12] ph (fun _ _ _ => some 0x03) (fun _ _ _ => false) fun _ => pure ())

/-- One failed check of a pass: registers, record, and the count that fences the core beyond CHK_LIMIT within 2^CHK_WIN
grains (R106, R400). With no single column that explains it, COLUMN becomes 0 (assumption log 109). -/
def passFail (n c tag ticket bank : Nat) (f : Nat × Nat × Nat × Option Nat × Nat × Nat) : M s0 Unit := do
  let (a, slot, seg, col, d0, d1) := f
  bumpReg Fd.mxCheckFails n
  setReg Fd.mxCheckLastTag n tag
  setReg Fd.mxCheckLocArray n a
  setReg Fd.mxCheckLocBank n bank
  setReg Fd.mxCheckLocSeg n seg
  setReg Fd.mxCheckLocSlot n slot
  setReg Fd.mxCheckLocLocated n (b2n col.isSome)
  setReg Fd.mxCheckLocColumn n (col.getD 0)
  setReg Fd.mxCheckD0D0 n d0
  setReg Fd.mxCheckD1D1 n d1
  cmdRec .arrayCheck c n tag ticket
    (toLe a 1 ++ toLe bank 1 ++ toLe seg 1 ++ toLe slot 1 ++ toLe d0 4 ++ toLe d1 4)
  let s ← rd
  let win := 2 ^ s.reg Fd.chkCfgChkWin
  modCore n fun k => { k with
    chkFails := (a, s.tb.now) :: k.chkFails.filter fun x => !elapsed s.tb.now x.2 win }
  let s ← rd
  if s.reg Fd.chkCfgChkLimit < ((s.core n).chkFails.filter fun x => x.1 = a).length then fence n 2 a

/-- PASS_COMPLETE: the oldest pass of a core ends: its failures are recorded and its token pushed (R93, R106, R198). -/
def execPassComplete (core : Fin 32) (s : State) : Out :=
  match (s.core core).passes with
  | [] => .next s
  | f :: rest => runIf (s.alive && (s.core core).run.isSome) s do
    let p := passF f.cmd
    let c := (s.core core).runCtx
    modCore core fun k => { k with passes := rest }
    bumpReg Fd.mxPassesPasses core
    bumpReg Fd.mxBeatsBeats core (p.beats * (arraysOf p.mask).length)
    if !f.fails.isEmpty then poisonParcel core
    pushTokens core .mx f.cmd f.ticket f.outs f.poison
    each f.fails (passFail core c (tagOf f.cmd) f.ticket p.bank)

/-! ### DRAIN (R95, R99, R199) -/

/-- Skip reasons of DRAIN. -/
def drainReason (n : Nat) (s : State) (_ : Running) (h : Head) : Option Nat :=
  let w := h.cmd
  let d := tdesc (cf w 95 80)
  let b := (s.core n).bank (cf w 79 78) (cf w 77 77)
  let per := b.nout / 32
  if cf w 69 32 ≠ 0 then some 0x01
  else if !d.ok || d.width ≠ 128 || d.rows % per ≠ 0 then some 0x02
  else if cf w 76 70 + d.rows / per > 16384 / b.nout then some 0x03
  else none

/-- A slot of a bank is marked failed or poisoned. -/
def AccBank.slotMarked (b : AccBank) (slot : Nat) : Bool :=
  (b.failed ++ b.marked).any fun u => u / (b.nout / 128) = slot

/-- A DRAIN waits until every earlier pass into its bank has pushed its token (R95). -/
def drainBusy (n : Nat) (s : State) (_ : Running) (h : Head) : Bool :=
  (s.core n).passes.any fun f =>
    let p := passF f.cmd
    bit p.mask (cf h.cmd 79 78) && p.bank = cf h.cmd 77 77

/-- DRAIN: r × 32 accumulators into a tile; rows of a marked slot have complemented checks and poison the token (R99,
R107). -/
def drainBody (i : Issued) : M s0 Unit := do
  let s ← rd
  let w := i.cmd
  let d := tdesc (cf w 95 80)
  let b := (s.core i.core).bank (cf w 79 78) (cf w 77 77)
  let first := cf w 76 70 * b.nout
  each (List.range d.rows) fun q => do
    let vs := tabGetRun 0 b.acc (first + 32 * q) 32
    let bad := b.slotMarked ((first + 32 * q) / b.nout)
    let syn := mark (bad || i.poison) 0
    putRow i.core d.treg q { data := (vs.map fun v => toLe (mod32 v) 4).flatten, syn0 := syn, syn1 := syn }
  let bad := (List.range d.rows).any fun q => b.slotMarked ((first + 32 * q) / b.nout)
  i.push (bad || i.poison)

def execDrain (core : Fin 32) (ph : Phys) (s : State) : Out :=
  run s (issueWith core .mx [0x13] ph (drainReason core) (drainBusy core) drainBody)

end Sys2Proof.Machine
end

