-- ==== Sys2Proof/Machine/Vx.lean ====
section
/-! DEFINITION. The vector stage chain (chapter 6): VRUN with its descriptor, streams, stages, reductions, compress and
expand, and the encoding of its sinks. -/

namespace Sys2Proof.Machine

variable {s0 : State}

/-! ### The descriptor (R143 to R145) -/

/-- A stream record (Table 6-7). -/
structure Strm where
  kind   : Nat
  base   : Nat
  s1     : Int
  s2     : Int
  s3     : Int
  inner0 : Bool
  fmt    : Nat
  expadj : Int
  resv   : Bool
deriving DecidableEq

/-- A descriptor (Table 6-6). -/
structure VDesc where
  n0 : Nat
  n1 : Nat
  n2 : Nat
  n3 : Nat
  sym    : Bool
  comb   : Bool
  ty     : Nat
  alu1   : Nat
  alu2   : Nat
  seedIn : Bool
  sel1   : List Nat
  sel2   : List Nat
  seed   : Nat
  row    : Bool
  fill   : Bool
  pred   : Bool
  selOp  : Nat
  redOp  : Nat
  cntAddr : Nat
  cap    : Nat
  a : Strm
  b : Strm
  c : Strm
  d : Strm
  o : Strm
  x : Strm
  resv : Bool

def strmOf (raw : List Byte) (off : Nat) : Strm :=
  { kind := leAt raw (off + 13) 1 % 4, base := leAt raw off 4, s1 := sext (leAt raw (off + 4) 3) 24,
    s2 := sext (leAt raw (off + 7) 3) 24, s3 := sext (leAt raw (off + 10) 3) 24, inner0 := bit (leAt raw (off + 13) 1) 2,
    fmt := leAt raw (off + 14) 1 % 32, expadj := sext (leAt raw (off + 15) 1) 8,
    resv := leAt raw (off + 13) 1 / 8 ≠ 0 || leAt raw (off + 14) 1 / 32 ≠ 0 }

def vdescOf (raw : List Byte) : VDesc :=
  let b8 := leAt raw 8 1
  let ops := leAt raw 10 3
  let b14 := leAt raw 14 1
  let sel := fun i => bits ops (3 * i + 2) (3 * i)
  { n0 := leAt raw 0 2, n1 := leAt raw 2 2, n2 := leAt raw 4 2, n3 := leAt raw 6 2,
    sym := bit b8 3, comb := bit b8 2, ty := b8 % 4, alu1 := leAt raw 9 1 % 16, alu2 := leAt raw 9 1 / 16,
    seedIn := bit ops 18, sel1 := [sel 0, sel 1, sel 2], sel2 := [sel 3, sel 4, sel 5], seed := leAt raw 13 1 % 8,
    row := bit b14 7, fill := bit b14 6, pred := bit b14 5, selOp := bits b14 4 3, redOp := b14 % 8,
    cntAddr := leAt raw 16 3, cap := leAt raw 20 3,
    a := strmOf raw 32, b := strmOf raw 48, c := strmOf raw 64, d := strmOf raw 80, o := strmOf raw 96,
    x := strmOf raw 112,
    resv := b8 / 16 ≠ 0 || ops / 2 ^ 19 ≠ 0 || leAt raw 13 1 / 8 ≠ 0 || leAt raw 15 1 ≠ 0 || leAt raw 19 1 ≠ 0
      || leAt raw 23 1 ≠ 0 || leAt raw 24 8 ≠ 0 }

/-- Streams in the order A, B, C, D, O, X. -/
def VDesc.streams (v : VDesc) : List Strm := [v.a, v.b, v.c, v.d, v.o, v.x]

/-- Rows and elements of the loop (R146). -/
def VDesc.rows (v : VDesc) : Nat := v.n1 * v.n2 * v.n3
def VDesc.total (v : VDesc) : Nat := v.n0 * v.rows

/-- Elements per beat (Table 6-1). -/
def VDesc.width (v : VDesc) : Nat := if v.ty = 1 then 256 else 128

/-- Beats of the command, and the beat of an element (R146). -/
def VDesc.perRow (v : VDesc) : Nat := cdiv v.n0 v.width
def VDesc.beatOf (v : VDesc) (f : Nat) : Nat := f / v.n0 * v.perRow + f % v.n0 / v.width

/-! ### Addresses (R146, R151, R152) -/

/-- A place in the loop. -/
structure Ix where
  i0 : Nat
  i1 : Nat
  i2 : Nat
  i3 : Nat

def VDesc.ix (v : VDesc) (f : Nat) : Ix := ⟨f % v.n0, f / v.n0 % v.n1, f / v.n0 / v.n1 % v.n2, f / v.n0 / v.n1 / v.n2⟩

/-- Place of row r, at its first element. -/
def VDesc.rowIx (v : VDesc) (r : Nat) : Ix := ⟨0, r % v.n1, r / v.n1 % v.n2, r / v.n1 / v.n2⟩

/-- Byte at which the group or record of an element starts: a partition offset, or a tile's linear byte. -/
def Strm.unitAt (s : Strm) (i : Ix) : Int :=
  (if s.kind = 2 then 0 else (s.base : Int)) + i.i1 * s.s1 + i.i2 * s.s2 + i.i3 * s.s3
    + (if s.inner0 then 0 else (i.i0 / unitElems s.fmt * unitBytes s.fmt : Nat))

/-- Bit address of an element's code. -/
def Strm.codeBit (s : Strm) (i : Ix) : Nat :=
  8 * (s.unitAt i).toNat + (if blockLen s.fmt ≠ 0 then 8 else 0)
    + (if s.inner0 then 0 else i.i0 % unitElems s.fmt * elemBits s.fmt)

/-- O element of an output: in row-mode COMPRESS, O's S2 and S3 are ignored (R152). -/
def VDesc.oIx (v : VDesc) (f : Nat) : Ix := if v.selOp = 1 && v.row then ⟨f % v.n0, f / v.n0, 0, 0⟩ else v.ix f

/-- Least and greatest byte of the rows of a stream. -/
def VDesc.extent (v : VDesc) (s : Strm) (isO isX : Bool) : Int × Int :=
  let rb : Nat := if (isX && v.redOp ≠ 0) || s.inner0 then unitBytes s.fmt
    else cdiv v.n0 (unitElems s.fmt) * unitBytes s.fmt
  let dims : List (Nat × Int) :=
    if isO && v.selOp = 1 && v.row then [(v.rows, s.s1)] else [(v.n1, s.s1), (v.n2, s.s2), (v.n3, s.s3)]
  let lo := dims.foldl (fun t d => t + min 0 (((d.1 : Int) - 1) * d.2)) 0
  let hi := dims.foldl (fun t d => t + max 0 (((d.1 : Int) - 1) * d.2)) 0
  let b : Int := if s.kind = 2 then 0 else s.base
  (b + lo, b + hi + rb)

/-! ### Legality (Table 6-10) -/

/-- Operands that an operation uses (Table 6-3). -/
def aluUses (op : Nat) : Nat := if op = 0 then 1 else if op = 4 ∨ op = 0xA then 3 else 2

/-- Formats of Table 6-5 that exist. -/
def vxFmt (f : Nat) : Bool := f ≤ 0x14 && f ≠ 7

/-- Integer formats, which INT32 mode accepts. -/
def intFmt (f : Nat) : Bool := [0, 5, 6, 8, 0xC, 0x10, 0x11].contains f

/-- A source stream by selector code. -/
def VDesc.src (v : VDesc) (k : Nat) : Option Strm := [v.a, v.b, v.c, v.d][k]?

/-- An operand that names a stream of KIND 0. -/
def VDesc.emptyOperand (v : VDesc) (sel : List Nat) (op : Nat) : Bool :=
  (sel.take (aluUses op)).any fun k => match v.src k with | some s => s.kind = 0 | none => false

/-- A stream record breaks a rule; j is its place among A, B, C, D, O, X. -/
def VDesc.badStream (v : VDesc) (part j : Nat) (s : Strm) : Bool :=
  let sink := 4 ≤ j
  s.resv
    || (sink && (s.expadj ≠ 0 || s.kind = 3 || (s.kind ≠ 0 && s.inner0) || (j = 5 && s.kind = 2)))
    || (s.expadj ≠ 0 && (v.ty = 2 || (v.comb && (j = 3 || (j = 0 && v.o.kind ≠ 0 && v.o.fmt = 0x12)))))
    || ((s.kind = 1 || s.kind = 2) &&
      (!vxFmt s.fmt
        || (sink && ([3, 0x11, 0x13, 0x14].contains s.fmt || (s.fmt = 0x12 && (j = 5 || !v.comb))))
        || (!sink && (s.fmt = 0x12 || (v.ty = 2 && !intFmt s.fmt)))
        || (1 < unitElems s.fmt && (v.n0 % unitElems s.fmt ≠ 0
            || ((if j = 4 && v.selOp = 1 && v.row then [(v.rows, s.s1)] else [(v.n1, s.s1), (v.n2, s.s2), (v.n3, s.s3)]).any
                fun d => 1 < d.1 && d.2 % (unitBytes s.fmt : Nat) ≠ 0)))
        || (s.kind = 1 && s.base / 2 ^ 24 ≠ 0)
        || (s.kind = 2 && (s.base / 65536 ≠ 0 || !(tdesc s.base).ok))
        || (v.total ≠ 0 &&
            let e := v.extent s (j = 4) (j = 5)
            e.1 < 0 || (if s.kind = 1 then (part : Int) < e.2
              else ((tdesc s.base).rows * (tdesc s.base).width : Nat) < e.2))))

/-- The descriptor is illegal for a partition of `part` bytes. -/
def VDesc.bad (v : VDesc) (part : Nat) : Bool :=
  let sels := v.sel1 ++ v.sel2
  v.resv || v.ty = 3 || 0xB < v.alu1 || 0xB < v.alu2 || 4 < v.seed || 5 < v.redOp || v.selOp = 3 || sels.contains 7
    || v.alu2 = 0xB || v.sel1.contains 4 || v.sel1.contains 5
    || v.emptyOperand v.sel1 v.alu1 || v.emptyOperand v.sel2 v.alu2
    || (v.seed ≠ 0 && v.seedIn && v.b.kind = 0)
    || (v.alu1 = 0xB && (v.ty ≠ 0 || (v.a.fmt ≠ 0x10 && v.a.fmt ≠ 0x11)))
    || (v.seed ≠ 0 && v.ty = 2)
    || (v.comb && (v.a.kind = 0 || v.d.kind = 0 || v.a.fmt ≠ 0x10 || v.d.fmt ≠ 0x10
        || (if v.o.kind ≠ 0 && v.o.fmt = 0x12 then
              v.alu1 ≠ 0 || v.alu2 ≠ 0 || v.seed ≠ 0 || v.redOp ≠ 0 || v.selOp ≠ 0
            else v.ty ≠ 0)))
    || (v.redOp ≠ 0 && v.selOp ≠ 0)
    || ((v.redOp = 4 || v.redOp = 5) && v.x.kind ≠ 0 && v.x.fmt ≠ 0x10)
    || (v.selOp ≠ 0 && v.cntAddr % 4 ≠ 0)
    || (v.selOp = 1 && part < v.cntAddr + 4)
    || (v.selOp ≠ 0 && v.pred && v.d.kind = 0)
    || (List.range 6).any fun j => match v.streams[j]? with | some s => v.badStream part j s | none => false

/-- The descriptor that a VRUN names, as it stands in the partition. -/
def State.vdesc (s : State) (n c : Nat) (w : Cmd) : VDesc := vdescOf (s.spRead n c (cf w 87 64) 128)

/-- Skip reasons of VRUN. -/
def vrunReason (n : Nat) (s : State) (r : Running) (h : Head) : Option Nat :=
  let w := h.cmd
  let c := r.parcel.ctx
  if cf w 95 88 ≠ 0 || cf w 63 48 ≠ 0 then some 0x01
  else if cf w 87 64 % 64 ≠ 0 || s.partSize n c < cf w 87 64 + 128 then some 0x05
  else if (s.vdesc n c w).bad (s.partSize n c) then some 0x05
  else none

/-! ### Lanes -/

/-- A lane: a binary32 pattern, or 32 bits of an integer in INT32 mode, and a saturation mark (R141). -/
structure Lane where
  w   : Nat
  sat : Option Bool := none

/-- The value of a lane. -/
def laneVal (ty w : Nat) : Fv := if ty = 2 then .ofInt (sext w 32) else f32Val w

/-- Significand bits of the lane type. -/
def prec (ty : Nat) : Nat := if ty = 1 then 8 else 24

/-- A value rounded once to the lane type. -/
def toLane (ty : Nat) (v : Fv) : Nat := roundF (prec ty) v

/-- Convert an element to the lane type (R146, R147). -/
def Strm.conv (x : Strm) (ty code : Nat) (scale : Option Nat) : Nat :=
  if ty = 2 then
    (match elemVal x.fmt code with
     | .fin neg m e => ofSigned (if neg then -((m * 2 ^ e.toNat : Nat) : Int) else (m * 2 ^ e.toNat : Nat)) 32
     | _ => code)
  else toLane ty ((scaledVal (elemVal x.fmt code) scale).scale x.expadj)

/-- The lane value of an immediate (R146). -/
def Strm.immediate (x : Strm) (ty : Nat) : Nat :=
  if ty = 2 then x.base
  else toLane ty ((f32Val (if ty = 1 then x.base % 65536 * 65536 else x.base)).scale x.expadj)

/-! ### The stages (R140 to R142) -/

/-- MIN and MAX of Table 6-3. -/
def fvMin (x y : Fv) : Fv := if x.isNan || y.isNan then .nan else if y.below x then y else x
def fvMax (x y : Fv) : Fv := if x.isNan || y.isNan then .nan else if x.below y then y else x

/-- Compare operations: whether they hold. -/
def cmpHolds (op : Nat) (x y : Fv) : Bool := if op = 7 then x.lt y else if op = 8 then x.lt y || x.eq y else x.eq y

def isCmp (op : Nat) : Bool := op = 7 || op = 8 || op = 9

/-- One ALU operation on lanes: INT32 wraps, floating results are rounded once (R137, R138, Table 6-3). -/
def aluOp (ty op x y z : Nat) : Nat :=
  let a := laneVal ty x
  let b := laneVal ty y
  if ty = 2 then
    let i := sext x 32
    let j := sext y 32
    match op with
    | 1 => ofSigned (i + j) 32
    | 2 => ofSigned (i - j) 32
    | 3 => ofSigned (i * j) 32
    | 4 => ofSigned (i * j + sext z 32) 32
    | 5 => if j < i then y else x
    | 6 => if i < j then y else x
    | 7 | 8 | 9 => b2n (cmpHolds op a b)
    | 0xA => if z ≠ 0 then x else y
    | _ => x
  else
    match op with
    | 1 => toLane ty (a.add b)
    | 2 => toLane ty (a.add b.opp)
    | 3 => toLane ty (a.mul b)
    | 4 => toLane ty ((a.mul b).add (laneVal ty z))
    | 5 => toLane ty (fvMin a b)
    | 6 => toLane ty (fvMax a b)
    | 7 | 8 | 9 => if cmpHolds op a b then 0x3F800000 else 0
    | 0xA => if (laneVal ty z).isZero then y else x
    | _ => x

/-- RQMUL (R131, R141): signed(x) × 2^EXPADJ × q rounded once, with the sentinels of an INT32S accumulator. -/
def rqmul (sentinels : Bool) (x : Int) (expadj : Int) (q : Nat) : Lane :=
  if sentinels && x = -2147483648 then ⟨f32Nan, none⟩
  else if sentinels && x = 2147483647 then ⟨f32Max false, some false⟩
  else if sentinels && x = -2147483647 then ⟨f32Max true, some true⟩
  else
    let v := f32Val q
    if v.isNan || v.isInf then ⟨f32Nan, none⟩ else ⟨roundF 24 ((Fv.ofInt x expadj).mul v), none⟩

/-- What the chain makes of one element: its ALU2 value and predicate, the IN value of B, the exact value of a COMB16 command,
and the element of stream A that it reads. An EXPAND reads A densely, at a true position only (R152). -/
structure Elem where
  r    : Lane
  p    : Bool
  b    : Nat
  comb : Int
  fa   : Option Nat

/-! ### RED (R151) -/

/-- Reduction operation on lanes; floating sums are binary32. -/
def redOp (ty op x y : Nat) : Nat :=
  let t := if ty = 2 then 2 else 0
  if op = 1 then aluOp t 1 x y 0 else if op = 2 ∨ op = 4 then aluOp t 6 x y 0 else aluOp t 5 x y 0

/-- Identities of R151. -/
def redId (ty op : Nat) : Nat :=
  if op = 1 then (if ty = 2 then 0 else 0x80000000)
  else if op = 2 ∨ op = 4 then (if ty = 2 then 0x80000000 else 0xFF800000)
  else (if ty = 2 then 0x7FFFFFFF else 0x7F800000)

/-- Partial p: the elements p, p + 128, p + 256, … in ascending order. -/
def redPart (ty op : Nat) (vs : List Nat) (p : Nat) : Nat :=
  (List.range (cdiv (vs.length - p) 128)).foldl (fun a i => redOp ty op a (vs.getD (p + 128 * i) 0)) (redId ty op)

/-- One level of the pairwise tree. -/
def redLevel (ty op : Nat) : List Nat → List Nat
  | a :: b :: l => redOp ty op a b :: redLevel ty op l
  | l => l

/-- The reduction of one row. ARGMAX and ARGMIN give the first place that holds the result itself, whose −0 is no +0. -/
def reduceRow (ty op : Nat) (vs : List Nat) : Nat :=
  let parts := (List.range 128).map (redPart ty op vs)
  let tree := (List.range 7).foldl (fun l _ => redLevel ty op l) parts
  let r := tree.headD 0
  if op < 4 then r
  else
    let v := laneVal ty r
    vs.findIdx fun w => if ty ≠ 2 && v.isNan then (laneVal ty w).isNan else w = r

/-! ### OUT (R148) -/

/-- Bits to write: bit address, count, value, and the beat that produced them. -/
structure Wr where
  bit  : Nat
  n    : Nat
  v    : Nat
  beat : Nat

/-- An element on its way to a sink: its place, the beat, and its value; `raw` is an integer that is written as it is. -/
structure OutEl where
  i    : Ix
  beat : Nat
  y    : Y
  raw  : Option Int := none

/-- Encode the elements of a sink without blocks. -/
def encPlain (s : Strm) (sym : Bool) (e : OutEl) : Wr × Ranges :=
  match e.raw with
  | some z => (⟨s.codeBit e.i, elemBits s.fmt, ofSigned z (elemBits s.fmt), e.beat⟩, {})
  | none =>
    let c := encElem s.fmt sym e.y
    (⟨s.codeBit e.i, elemBits s.fmt, c.code, e.beat⟩, { sat := b2n c.sat, rqInv := b2n c.inv })

/-- Elements gathered by a key, in the order of the keys' first elements. -/
def gather {κ : Type} [DecidableEq κ] (key : OutEl → κ) : List OutEl → List (κ × List OutEl) → List (κ × List OutEl)
  | [], acc => acc
  | e :: l, acc =>
    if acc.any (·.1 = key e) then gather key l (acc.map fun p => if p.1 = key e then (p.1, p.2 ++ [e]) else p)
    else gather key l (acc ++ [(key e, [e])])

/-- The row of an element: a block's elements are of one row (R148). -/
def OutEl.row (e : OutEl) : Nat × Nat × Nat := (e.i.i1, e.i.i2, e.i.i3)

/-- Encode one row of a BFB16 sink. The spec does not say which elements of a sink form a BFB16 block, whose scale is held apart
(R118, R147): a row is one (DESIGN CHOICE, assumption log 20). -/
def encBfbRow (s : Strm) (es : List OutEl) : List Wr × Ranges :=
  let b := (encBfb (es.map (·.y))).2
  (List.zipWith (fun e (c : Enc) => ⟨s.codeBit e.i, 16, c.code, e.beat⟩) es b,
   { sat := (b.filter (·.sat)).length, rqInv := (b.filter (·.inv)).length })

/-- Encode one record of a block sink: elements that the command does not produce count as zeros and stay unwritten. -/
def encRecord (s : Strm) (es : List OutEl) : List Wr × Ranges :=
  let u := (es.head?.map fun e => (s.unitAt e.i).toNat).getD 0
  let ys := (List.range (blockLen s.fmt)).map fun j =>
    match es.reverse.find? fun e => e.i.i0 % blockLen s.fmt = j with
    | some e => e.y
    | none => { v := .fin false 0 0 }
  let b := encBlock s.fmt ys
  let beat := es.foldl (fun m e => max m e.beat) 0
  (⟨8 * u, 8, b.scale, beat⟩ :: es.map fun e =>
      ⟨s.codeBit e.i, elemBits s.fmt, b.codes.getD (e.i.i0 % blockLen s.fmt) 0, beat⟩,
   { sat := (es.filter (·.y.sat.isSome)).length, rqInv := b.invs, elems := b.clips, blocks := b2n (b.clips ≠ 0) })

/-- Encode the elements of a sink. -/
def encSink (s : Strm) (sym : Bool) (es : List OutEl) : List Wr × Ranges :=
  if s.kind = 0 then ([], {})
  else
    let out := if blockLen s.fmt ≠ 0 then
        (gather (fun e => (e.row, s.unitAt e.i)) es []).map fun p => encRecord s p.2
      else if s.fmt = 0xD then (gather OutEl.row es []).map fun p => encBfbRow s p.2
      else es.map fun e => ((fun r => ([r.1], r.2)) (encPlain s sym e) : List Wr × Ranges)
    ((out.map (·.1)).flatten, out.foldl (fun r o => r.add o.2) {})

/-- Write bits into a granule held as a number of 512 bits. -/
def putBits (g : Nat) (w : Wr) (x : Nat × Nat) : Nat × Nat :=
  let lo := max w.bit (512 * g)
  let hi := min (w.bit + w.n) (512 * g + 512)
  if lo < hi then
    let n := hi - lo
    let v := w.v / 2 ^ (lo - w.bit) % 2 ^ n
    let o := lo - 512 * g
    (x.1 - x.1 / 2 ^ o % 2 ^ n * 2 ^ o + v * 2 ^ o, x.2 ||| ((2 ^ n - 1) * 2 ^ o))
  else x

/-- Write one granule of the partition (R155, R156, R224): whole, or merged into the old row. Answers whether the merge found
a good row. -/
def vxGranule (n c g : Nat) (bad : Bool) (ws : List Wr) : M s0 Bool := do
  let s ← rd
  let old := s.spGran n c (64 * g)
  let (v, m) := ws.foldl (fun x w => putBits g w x) (leNat old.data, 0)
  let ok := m = 2 ^ 512 - 1 || old.syn = 0
  if !ok then bumpReg Fd.spEccUncorr n
  spPut n c (64 * g) ⟨toLe v 64, mark (bad || !ok) 0⟩
  pure ok

/-- A row is marked from the cycle of detection on (R156): a row that a later beat than the failed one produces is marked;
whether a row of earlier beats alone is, depends on cycles and is free (assumption log 1). -/
def rowMarked (always : Bool) (det : Option Nat) (ws : List Wr) : M s0 Bool :=
  if always then pure true
  else match det with
    | none => pure false
    | some b => if ws.any fun w => b ≤ w.beat then pure true else freshBit

/-- Write the granules of the scratchpad sinks in the order of their first bytes' writes. Answers the first granule whose
merge failed, from which on every row is marked (R156). -/
def vxWrite (n c : Nat) (always : Bool) (det : Option Nat) (ws : List Wr) : List Nat → M s0 (Option Nat)
  | [] => pure none
  | g :: l => do
    let mine := ws.filter fun w => w.bit < 512 * g + 512 && 512 * g < w.bit + w.n
    let bad ← rowMarked always det mine
    let ok ← vxGranule n c g bad mine
    let rest ← vxWrite n c (always || !ok) det ws l
    pure (if ok then rest else some g)

/-- Granules that a list of writes touches, in order. -/
def granulesOf (ws : List Wr) : List Nat :=
  (ws.flatMap fun w => (List.range ((w.bit % 512 + w.n + 511) / 512)).map (w.bit / 512 + ·)).eraseDups

/-- Write a tile sink through SH: what the command does not produce is zero (R148). Answers whether every row was kept. -/
def vxTile (i : Issued) (d : TDesc) (bad : Bool) (ws : List Wr) : Nat → M s0 Bool
  | 0 => pure true
  | k + 1 => do
    let r := d.rows - (k + 1)
    let b := 8 * d.width * r
    let n := 8 * d.width
    let v := (ws.filter fun w => w.bit < b + n && b < w.bit + w.n).foldl (fun v w =>
      let lo := max w.bit b
      let hi := min (w.bit + w.n) (b + n)
      let x := w.v / 2 ^ (lo - w.bit) % 2 ^ (hi - lo)
      let o := lo - b
      v - v / 2 ^ o % 2 ^ (hi - lo) * 2 ^ o + x * 2 ^ o) 0
    let syn := mark bad 0
    let kept ← shWrite i d.treg r { data := slice (toLe v d.width) 0 128, syn0 := syn, syn1 := syn }
    let rest ← vxTile i d bad ws k
    pure (kept && rest)

/-! ### SEL (R152) -/

/-- Units that SEL works on, rows or elements, with their first elements. -/
def VDesc.units (v : VDesc) : Nat := if v.row then v.rows else v.total
def VDesc.perUnit (v : VDesc) : Nat := if v.row then v.n0 else 1

/-- True units of a command, ascending. -/
def VDesc.trueUnits (v : VDesc) (es : List Elem) : List Nat :=
  (List.range v.units).filter fun u => match es[u * v.perUnit]? with | some e => e.p | none => false

/-- An ALU2 value on its way to OUT. -/
def VDesc.outY (v : VDesc) (l : Lane) : Y := ⟨laneVal v.ty l.w, l.sat⟩

/-- O and X elements and the count of a COMPRESS. -/
def VDesc.compress (v : VDesc) (es : List Elem) : List OutEl × List OutEl × Nat :=
  let us := v.trueUnits es
  let kept := (List.range (min v.cap us.length)).map fun k => (k, us.getD k 0)
  let last := fun u => v.beatOf (u * v.perUnit + v.perUnit - 1)
  (kept.flatMap fun p => (List.range v.perUnit).filterMap fun j =>
      (es[p.2 * v.perUnit + j]?).map fun e =>
        { i := v.oIx (p.1 * v.perUnit + j), beat := v.beatOf (p.2 * v.perUnit + j), y := v.outY e.r },
   kept.map fun p => { i := v.ix p.1, beat := last p.2, y := { v := .ofInt p.2 },
                       raw := if v.x.fmt = 0x10 then some p.2 else none },
   us.length)

/-- O elements of an EXPAND: the ALU2 value at a true position, operand B at a false one under FILL. -/
def VDesc.expand (v : VDesc) (es : List Elem) : List OutEl :=
  es.zipIdx.filterMap fun (e, f) =>
    let y : Option Y := if e.p then some (v.outY e.r) else if v.fill then some { v := laneVal v.ty e.b } else none
    y.map fun y => { i := v.ix f, beat := v.beatOf f, y := y }

/-- O and X elements, and the count, of a command whose first elements the chain has made into es. -/
def VDesc.outs (v : VDesc) (es : List Elem) : List OutEl × List OutEl × Option Nat :=
  if v.comb && v.o.kind ≠ 0 && v.o.fmt = 0x12 then
    (es.zipIdx.map fun (e, f) => { i := v.ix f, beat := v.beatOf f, y := { v := .nan }, raw := some e.comb }, [], none)
  else
    if v.selOp = 1 then
      let (o, x, n) := v.compress es
      (o, x, some n)
    else if v.selOp = 2 then (v.expand es, [], none)
    else
      (es.zipIdx.map fun (e, f) => { i := v.ix f, beat := v.beatOf f, y := v.outY e.r },
       if v.redOp = 0 then [] else
         (List.range (es.length / v.n0)).map fun r =>
           let vs := ((es.drop (r * v.n0)).take v.n0).map fun e => e.r.w
           let w := reduceRow v.ty v.redOp vs
           let beat := v.beatOf (r * v.n0 + v.n0 - 1)
           if 4 ≤ v.redOp then { i := v.rowIx r, beat := beat, y := { v := .ofInt w }, raw := some w }
           else { i := v.rowIx r, beat := beat, y := { v := laneVal v.ty w },
                  raw := if v.ty = 2 && v.x.fmt = 0x10 then some (sext w 32) else none },
       none)

/-! ### Reading (R147, R154) -/

/-- n bits of a partition from a bit address. -/
def State.spBits (s : State) (c k b n : Nat) : Nat :=
  let (pb, nb) := s.part c k
  leNat ((List.range ((b % 8 + n + 7) / 8)).map fun i =>
    cellRead byte0 (s.spad c).data (spAddr pb (max 1 nb) (b / 8 + i))) / 2 ^ (b % 8) % 2 ^ n

/-- n bits of a tile's linear bytes, w to a row. -/
def Core.tileBits (c : Core) (d : TDesc) (b n : Nat) : Nat :=
  leNat ((List.range ((b % 8 + n + 7) / 8)).map fun i =>
    (c.tile d.treg ((b / 8 + i) / d.width)).data.getD ((b / 8 + i) % d.width) 0) / 2 ^ (b % 8) % 2 ^ n

/-- n bits that a stream names. -/
def State.strmBits (s : State) (c k : Nat) (x : Strm) (b n : Nat) : Nat :=
  if x.kind = 1 then s.spBits c k b n else (s.core c).tileBits (tdesc x.base) b n

/-- Granules (KIND 1) or tile rows (KIND 2) that an element's code and scale lie in. -/
def Strm.places (x : Strm) (i : Ix) : List Nat :=
  let per := if x.kind = 1 then 64 else (tdesc x.base).width
  let b := x.codeBit i
  let code := (List.range ((b % 8 + elemBits x.fmt + 7) / 8)).map fun j => (b / 8 + j) / per
  (if blockLen x.fmt ≠ 0 then [(x.unitAt i).toNat / per] else []) ++ code

/-- A place of a source passes its check. -/
def State.placeGood (s : State) (c k : Nat) (x : Strm) (p : Nat) : Bool :=
  if x.kind = 1 then (s.spGran c k (64 * p)).syn = 0
  else ((s.core c).tile (tdesc x.base).treg p).good (tdesc x.base).width

/-- What the reads of a VRUN work with: the state in which it issued, the core and context, the descriptor, the bytes of R150,
the first free value, and what OUT has written for the beats before this one. -/
structure VxIn where
  s     : State
  n     : Nat
  c     : Nat
  v     : VDesc
  open_ : List Nat
  k     : Nat
  ws    : List Wr

/-- Bytes that the sinks of a command may write: producing beat, or none where no one beat produces the byte (R150). -/
def VDesc.sinkBytes (v : VDesc) : Tab (List (Option Nat)) :=
  let put : Tab (List (Option Nat)) → Nat → Option Nat → Tab (List (Option Nat)) := fun t a p =>
    let l := tabGet [] t a
    if l.contains p then t else tabSet t a (p :: l)
  let run : Tab (List (Option Nat)) → Int × Int → Tab (List (Option Nat)) := fun t e =>
    (List.range (e.2 - e.1).toNat).foldl (fun t i => put t (e.1.toNat + i) none) t
  let t : Tab (List (Option Nat)) := if v.o.kind = 1 then
      (if v.selOp = 0 then
        (List.range v.total).foldl (fun t f =>
          let u := (v.o.unitAt (v.ix f)).toNat
          let b := v.o.codeBit (v.ix f)
          let own := (if blockLen v.o.fmt ≠ 0 then [u] else [])
            ++ (List.range ((b % 8 + elemBits v.o.fmt + 7) / 8)).map (b / 8 + ·)
          own.foldl (fun t a => put t a (some (v.beatOf f))) t) []
       else run [] (v.extent v.o true false))
    else []
  let t := if v.x.kind = 1 && (v.redOp ≠ 0 || v.selOp = 1) then run t (v.extent v.x false true) else t
  if v.selOp = 1 then run t ((v.cntAddr : Int), (v.cntAddr : Int) + 4) else t

/-- Bytes that an element of a source reads. -/
def Strm.bytesOf (x : Strm) (i : Ix) : List Nat :=
  let b := x.codeBit i
  (if blockLen x.fmt ≠ 0 then [(x.unitAt i).toNat] else [])
    ++ (List.range ((b % 8 + elemBits x.fmt + 7) / 8)).map (b / 8 + ·)

/-- Beats that read each byte of the partition. -/
def VDesc.readers (v : VDesc) : Tab (List Nat) :=
  (List.range v.total).foldl (fun t f =>
    [v.a, v.b, v.c, v.d].foldl (fun t x =>
      if x.kind = 1 then
        (x.bytesOf (v.ix f)).foldl (fun t a =>
          let l := tabGet [] t a
          if l.contains (v.beatOf f) then t else tabSet t a (v.beatOf f :: l)) t
      else t) t) []

/-- The extents of a source and of a sink meet. -/
def VDesc.meets (v : VDesc) : Bool :=
  let sinks : List (Int × Int) :=
    (if v.o.kind = 1 then [v.extent v.o true false] else [])
    ++ (if v.x.kind = 1 && (v.redOp ≠ 0 || v.selOp = 1) then [v.extent v.x false true] else [])
    ++ (if v.selOp = 1 then [((v.cntAddr : Int), (v.cntAddr : Int) + 4)] else [])
  [v.a, v.b, v.c, v.d].any fun x =>
    x.kind = 1 && (let e := v.extent x false false; sinks.any fun k => e.1 < k.2 && k.1 < e.2)

/-- Byte a may be read by a beat that its place in the loop does not tell: an EXPAND reads A densely (R152). -/
def VDesc.dense (v : VDesc) (a : Nat) : Bool :=
  v.selOp = 2 && v.a.kind = 1 && (let e := v.extent v.a false false; e.1 ≤ a && (a : Int) < e.2)

/-- Bytes whose reads may see the old row or the new one (R150): a sink writes them, and not only the one beat that reads
them produces them. -/
def VDesc.openBytes (v : VDesc) : List Nat :=
  if v.meets then
    let rd := v.readers
    tabKeys (fun a ps => v.dense a || (!(tabGet [] rd a).isEmpty &&
      !(match ps, tabGet [] rd a with | [some p], [q] => p = q | _, _ => false))) v.sinkBytes
  else []

/-- Granule g as beat q reads it where it may see the old row or the new one: the row before the command, or with what some of
the beats before q write, which one being free (R150; assumption log 25). -/
def VxIn.row (x : VxIn) (q g : Nat) : Nat :=
  let seen := (Config.freeWord (x.k + q * 65536 + g)).toNat % (q + 1)
  ((x.ws.filter fun w => w.beat < seen).foldl (fun y w => putBits g w y) (leNat (x.s.spGran x.n x.c (64 * g)).data, 0)).1

/-- n bits at bit address b that beat q reads of a stream; what lies in the bytes of R150 is as VxIn.row gives it. -/
def VxIn.bits (x : VxIn) (q : Nat) (st : Strm) (b n : Nat) : Nat :=
  if st.kind = 1 && (List.range ((b % 8 + n + 7) / 8)).any fun j => x.open_.contains (b / 8 + j) then
    (x.row q (b / 512) + x.row q (b / 512 + 1) * 2 ^ 512) / 2 ^ (b % 512) % 2 ^ n
  else x.s.strmBits x.n x.c st b n

/-- The code and scale of element f of a stream as the beat of element g reads them. -/
def VxIn.element (x : VxIn) (st : Strm) (f g : Nat) : Nat × Option Nat :=
  let i := x.v.ix f
  let q := x.v.beatOf g
  (x.bits q st (st.codeBit i) (elemBits st.fmt),
   if blockLen st.fmt ≠ 0 then some (x.bits q st (8 * (st.unitAt i).toNat) 8) else none)

/-- The integer that stream A or D of a COMB16 command supplies, or RQMUL's accumulator. -/
def VxIn.rawInt (x : VxIn) (st : Strm) (f g : Nat) : Int :=
  if st.kind = 3 then sext st.base 32 else sext (x.element st f g).1 32

/-- The exact COMB16 value before EXPADJ (R147). -/
def VxIn.combInt (x : VxIn) (fa g : Nat) : Int := x.rawInt x.v.d g g * 65536 + x.rawInt x.v.a fa g

/-- The lane value of source j for element g; stream A is read at element fa. -/
def VxIn.lane (x : VxIn) (j fa g : Nat) : Nat :=
  match x.v.src j with
  | none => 0
  | some st =>
    if j = 0 && x.v.comb then roundF 24 ((Fv.ofInt (x.combInt fa g)).scale st.expadj)
    else if st.kind = 0 then 0
    else if st.kind = 3 then st.immediate x.v.ty
    else
      let e := x.element st (if j = 0 then fa else g) g
      st.conv x.v.ty e.1 e.2

/-- The result of ALU1. An RQMUL whose x names no accumulator of format INT32 or INT32S has no stated result: it is free
(assumption log 1). -/
def VxIn.alu1 (x : VxIn) (fa g : Nat) (ops : List Nat) : Lane :=
  let v := x.v
  let op := fun i => ops.getD (v.sel1.getD i 6) 0
  if v.alu1 = 0xB then
    let xs := v.sel1.getD 0 6
    match v.src xs with
    | some st =>
      if (st.fmt = 0x10 || st.fmt = 0x11) && st.kind ≠ 0 && !(v.comb && xs = 0) then
        rqmul (xs = 0 && v.a.fmt = 0x11) (x.rawInt st (if xs = 0 then fa else g) g) st.expadj (op 1)
      else ⟨(Config.freeWord (x.k + v.rows * v.perRow * 65536 + g)).toNat, none⟩
    | none => rqmul false 0 0 (op 1)
  else ⟨aluOp v.ty v.alu1 (op 0) (op 1) (op 2), none⟩

/-- Element g through ALU1, SEED and ALU2 (R139, R140), with stream A at element fa. A saturation mark reaches OUT where what
ALU2 passes is ALU1's result, as ALU1 gave it or through a bypassed SEED. -/
def VxIn.chain (x : VxIn) (fa g : Nat) : Elem :=
  let v := x.v
  let lane := fun j => x.lane j fa g
  let ops := [lane 0, lane 1, lane 2, lane 3, 0, 0, 0]
  let r1 := x.alu1 fa g ops
  let p1 := cmpHolds v.alu1 (laneVal v.ty (ops.getD (v.sel1.getD 0 6) 0)) (laneVal v.ty (ops.getD (v.sel1.getD 1 6) 0))
  let sin := if v.seedIn then lane 1 else r1.w
  let seed := if v.seed = 0 then sin else toLane v.ty (seedFn v.seed (laneVal v.ty sin))
  let ops2 := [lane 0, lane 1, lane 2, lane 3, r1.w, seed, 0]
  let op2 := fun i => ops2.getD (v.sel2.getD i 6) 0
  let r2 := aluOp v.ty v.alu2 (op2 0) (op2 1) (op2 2)
  let p := if v.pred then !(laneVal v.ty (lane 3)).isZero
    else if isCmp v.alu2 then cmpHolds v.alu2 (laneVal v.ty (op2 0)) (laneVal v.ty (op2 1))
    else isCmp v.alu1 && p1
  let from1 := v.sel2.getD 0 6 = 4 || (v.sel2.getD 0 6 = 5 && v.seed = 0 && !v.seedIn)
  { r := ⟨r2, if v.alu2 = 0 && from1 then r1.sat else none⟩, p := p, b := lane 1,
    comb := if v.comb then x.combInt fa g else 0, fa := some fa }

/-- Element g of a command; k is the dense unit of an EXPAND, whose predicate holds for a whole unit (R152). -/
def VxIn.elemAt (x : VxIn) (k g : Nat) (unit : Bool) : Elem :=
  let per := x.v.perUnit
  if x.v.selOp = 2 then
    let e := x.chain (k * per + g % per) g
    let p := if g % per = 0 then e.p else unit
    { e with p := p, fa := if p then e.fa else none }
  else x.chain g g

/-- What OUT has written to the partition for the elements so far: of a block sink the records that are complete. -/
def VDesc.written (v : VDesc) (es : List Elem) : List Wr :=
  let (o, x, _) := v.outs es
  let whole := fun (s : Strm) (l : List OutEl) =>
    if blockLen s.fmt ≠ 0 then
      ((gather (fun e => (e.row, s.unitAt e.i)) l []).filter fun p => p.2.length = blockLen s.fmt).flatMap (·.2)
    else l
  (if v.o.kind = 1 then (encSink v.o v.sym (whole v.o o)).1 else []) ++ (encSink v.x v.sym (whole v.x x)).1

/-- The elements of a command in loop order, m to go; `done` are those so far, newest first, k the dense unit of an EXPAND,
and `unit` the predicate of the unit that has begun. -/
def VxIn.elemsFrom (x : VxIn) : Nat → List Elem → Nat → Bool → List Elem
  | 0, done, _, _ => done.reverse
  | m + 1, done, k, unit =>
    let g := x.v.total - (m + 1)
    let x := if x.open_.isEmpty || g % x.v.n0 % x.v.width ≠ 0 then x else { x with ws := x.v.written done.reverse }
    let e := x.elemAt k g unit
    x.elemsFrom m (e :: done) (if e.p && g % x.v.perUnit = x.v.perUnit - 1 then k + 1 else k) e.p

/-- The elements of a VRUN that issues in s. -/
def State.vxElems (s : State) (n c : Nat) (v : VDesc) : List Elem :=
  ({ s := s, n := n, c := c, v := v, open_ := v.openBytes, k := s.freeCtr, ws := [] } : VxIn).elemsFrom v.total [] 0 false

/-- The element of source j that the chain reads at element g. -/
def Elem.reads (e : Elem) (j g : Nat) : Option Nat := if j = 0 then e.fa else some g

/-- The first failed place among those of an element's streams: stream and address. -/
def State.failAt (s : State) (c k : Nat) (v : VDesc) (e : Elem) (g : Nat) : Option (Nat × Nat) :=
  ((List.range 4).filterMap fun j =>
    match v.src j, e.reads j g with
    | some x, some f =>
      if x.kind = 1 || x.kind = 2 then
        ((x.places (v.ix f)).find? fun p => !s.placeGood c k x p).map fun p => (j, if x.kind = 1 then 64 * p else p)
      else none
    | _, _ => none).head?

/-- The first failed read of a command: element, stream and address. -/
def State.firstFail (s : State) (c k : Nat) (v : VDesc) : List Elem → Nat → Option (Nat × Nat × Nat)
  | [], _ => none
  | e :: l, g =>
    match s.failAt c k v e g with
    | some x => some (g, x)
    | none => s.firstFail c k v l (g + 1)

/-- Failed places of source j, each once. -/
def State.badPlaces (s : State) (c k : Nat) (v : VDesc) (es : List Elem) (j : Nat) (x : Strm) : List Nat :=
  (es.zipIdx.flatMap fun (e, g) => match e.reads j g with
    | some f => x.places (v.ix f)
    | none => []).eraseDups.filter fun p => !s.placeGood c k x p

/-! ### VRUN (R143, R149, R153, R156, R200) -/

/-- A VX_CHECK record with its registers (R156); the address of a poisoned token, which has none, is 0 (DESIGN CHOICE,
assumption log 110). -/
def vxCheck (i : Issued) (stream addr : Nat) : M s0 Unit := do
  bumpReg Fd.vxCheckFails i.core
  setReg Fd.vxCheckLastTag i.core i.tag
  setReg Fd.vxCheckAddrStream i.core stream
  setReg Fd.vxCheckAddrAddr i.core addr
  cmdRec .vxCheck i.ctx i.core i.tag i.ticket (toLe stream 1 ++ toLe addr 3)
  poisonParcel i.core

/-- Count the failed reads of a source (R72, R228). -/
def countSource (i : Issued) (v : VDesc) (es : List Elem) (j : Nat) (x : Strm) : M s0 Unit := do
  let s ← rd
  if x.kind = 1 then
    let k := (s.badPlaces i.core i.ctx v es j x).length
    if k ≠ 0 then bumpReg Fd.spEccUncorr i.core k
  else if x.kind = 2 then
    let d := tdesc x.base
    each (s.badPlaces i.core i.ctx v es j x) fun r => do
      let s ← rd
      bumpReg Fd.tileEccUncorr i.core (((s.core i.core).tile d.treg r).fails d.width)
      tileCheck i.core i.ctx i.tag i.ticket d.treg r

/-- The first granule of the descriptor whose check fails. -/
def State.descFail (s : State) (n c off : Nat) : Nat := if (s.spGran n c off).syn = 0 then off + 64 else off

/-- What a VRUN records of what made its results bad: of several causes one, the poisoned token before the descriptor, that
before the first failed source, that before a failed merge (DESIGN CHOICE, assumption log 111). -/
def vxCause (i : Issued) (desc : Option Nat) (fail : Option (Nat × Nat × Nat)) (merge : Option Nat) : M s0 Unit := do
  if i.poison then vxCheck i 5 0
  else match desc, fail, merge with
    | some a, _, _ => vxCheck i 4 a
    | none, some x, _ => vxCheck i x.2.1 x.2.2
    | none, none, some g => do
      let w ← freshWord
      vxCheck i (w.toNat % 8) (64 * g)
    | none, none, none => pure ()

/-- VRUN. -/
def vrunBody (i : Issued) : M s0 Unit := do
  applyUpsets i.core i.ctx i.ph
  let s ← rd
  let n := i.core
  let v := s.vdesc n i.ctx i.cmd
  let off := cf i.cmd 87 64
  let dok := s.spGood n i.ctx off 128
  countBadReads n i.ctx off 128
  bumpReg Fd.vxCmdsCmds n
  if v.total = 0 then
    bumpReg Fd.vxZeroZero n
    vxCause i (if dok then none else some (s.descFail n i.ctx off)) none none
    i.push (i.poison || !dok)
  else
    bumpReg Fd.vxBeatsBeats n (v.rows * v.perRow)
    if i.ph.shLoss ≠ 0 then bumpReg Fd.vxStallShLoss n i.ph.shLoss
    if i.ph.bankLoss ≠ 0 then bumpReg Fd.vxStallBank n i.ph.bankLoss
    countConflicts i
    eff (.fresh (v.rows * v.perRow * 65536 + v.total))
    let es := s.vxElems n i.ctx v
    let fail := s.firstFail n i.ctx v es 0
    each [(0, v.a), (1, v.b), (2, v.c), (3, v.d)] fun x => countSource i v es x.1 x.2
    let (oes, xes, cnt) := v.outs es
    let (ow, orng) := encSink v.o v.sym oes
    let (xw, xrng) := encSink v.x v.sym xes
    countRanges n i.ctx i.tag (orng.add xrng)
    let last := v.rows * v.perRow
    let cw : List Wr := match cnt with
      | some m => [⟨8 * v.cntAddr, 32, m % 2 ^ 32, last⟩]
      | none => []
    match cnt with
    | some m => if v.cap < m then
        bumpReg Fd.vxOverOvers n
        setReg Fd.vxOverLastTag n i.tag
    | none => pure ()
    let always := i.poison || !dok
    let det := fail.map fun x => v.beatOf x.1
    let ws := (if v.o.kind = 1 then ow else []) ++ xw ++ cw
    let merge ← vxWrite n i.ctx always det ws (granulesOf ws)
    let kept ← (if v.o.kind = 2 then
        vxTile i (tdesc v.o.base) (always || det.isSome || merge.isSome) ow (tdesc v.o.base).rows
      else pure true : M s0 Bool)
    vxCause i (if dok then none else some (s.descFail n i.ctx off)) fail merge
    i.push (always || det.isSome || merge.isSome || !kept)

/-- VRUN (R200). -/
def execVrun (core : Fin 32) (ph : Phys) (s : State) : Out :=
  run s (issueWith core .vx [0x20] ph (vrunReason core) (fun _ _ _ => false) vrunBody)

end Sys2Proof.Machine
end

