-- ==== Sys2Proof/Machine/Program.lean ====
section
/-! DEFINITION. Parcels (R163, R169, R174 to R176, R395), and the commands and events of every stream: NOP, GRAIN, and the
events that let a head issue (R41, R43, R167, R168, R172). -/

namespace Sys2Proof.Machine

variable {s0 : State}

/-! ### Starting and ending a parcel -/

/-- The parameter block of a parcel (Tables 7-5 and 12-5). -/
def paramBlock (x : Ctx) (v : Caravan) (p : Parcel) (now : Nat) : List Byte :=
  let q := v.seqs[p.first]?
  toLe p.index 4 ++ toLe x.step 4 ++ toLe now 6 ++ toLe p.nseq 2
    ++ toLe (match q with | some q => q.entry | none => 0) 4 ++ toLe p.slice 4
    ++ toLe (match q with | some q => q.pages | none => 0) 8
    ++ toLe p.rank 4 ++ toLe v.cores.length 2 ++ zeros 2 ++ toLe v.seqs.length 4 ++ toLe p.first 4
    ++ toLe x.adm.cslBase 8 ++ toLe p.parg 8

/-- The command streams of a segment. -/
def SegBuf.streams (b : SegBuf) : List (List Cmd) := streamsOf b.code (zeros 4 ++ b.entry.drop 4)

/-- Wadis that a DX stream posts to, as a mask (Table 8-13). -/
def wadisPosted (l : List Cmd) : Nat := maskOf 8 fun w => l.any fun c => opcodeOf c = 0x41 && cf c 95 93 = w

/-- A step start has left a set for core n that it must still take up (R391). -/
def State.setsPending (s : State) (n : Nat) : Bool := s.sets.any fun v => stepBlock v.block && v.block != .stu && v.chan = n && v.ready

/-- The parcel that core n takes next: a stolen one, else the head of its home queue (R296, R297). -/
def Core.nextParcel (c : Core) : Option Parcel :=
  match c.stolen with
  | some p => some p
  | none => c.home.head?

/-- Start a parcel on core n from its segment buffer: its parameter block, its streams, and what its registers show (R174, R175,
R185); the other buffer takes the next queued parcel's segment (R296). -/
def startParcel (n : Nat) (p : Parcel) (v : Caravan) (b : SegBuf) : M s0 Unit := do
  let s ← rd
  let x := s.ctx p.ctx
  let m := s.model v.model
  let st := b.streams
  let eng (j : Nat) : Eng := { stream := st.getD j [] }
  spPut n p.ctx m.param (goodGran (paramBlock x v p s.tb.now))
  modCore n fun c => { c with
    mx := eng 0, vx := eng 1, tx := eng 2, dx := eng 3, sx := eng 4, queues := [], wadis := [], latch0 := none,
    latch1 := none, stream := none,
    run := some { parcel := p, model := v.model, step := x.step, t4 := m.t4, start := s.tb.now,
                  wadis := wadisPosted (st.getD 3 []), oases := maskOf 16 fun i => m.oases.any fun o => o.1 = i } }
  setReg Fd.parcelStatusSegment n p.seg
  setReg Fd.parcelStatusFormat n (b2n m.t4)
  setReg Fd.parcelIdParcel n p.index
  setReg Fd.parcelStartGrainLo n (s.tb.now % 2 ^ 32)
  if st.all (·.isEmpty) then endParcel n .ok else loadNext n

/-- PARCEL_START: a core without a parcel takes its next one and starts it, with the segment that a buffer holds already or that
is loaded now (R169, R174, R296); a segment granule that fails its check twice ends the parcel POISONED (R395). `segUpset`
says that the loads failed on the way. -/
def execParcelStart (core : Fin 32) (segUpset : Bool) (s : State) : Out :=
  let n := core.val
  let c := s.core n
  match c.nextParcel with
  | none => .next s
  | some p =>
    match (s.ctx p.ctx).caravan with
    | none => .next s
    | some v => runIf (s.alive && c.run.isNone && c.ctx = some p.ctx && !s.fenced n && !s.setsPending n) s do
      modCore n fun c =>
        let c := { c with segBuf := none }
        if c.stolen.isSome then { c with stolen := none } else { c with home := c.home.drop 1 }
      let b ← match c.segBuf.filter fun b => b.parcel = p with
        | some b => pure b
        | none => fetchSeg v.model p
      if segUpset || !b.good then
        ctxRec .segCheck p.ctx n 0 []
        setReg Fd.parcelStatusLastStatus n ParcelEnd.poisoned.code
        reportParcel p .poisoned
      else startParcel n p v b

/-- Every stream of a core is exhausted and every issued command has completed (R175). -/
def Core.complete (c : Core) : Bool :=
  (engines.all fun e => !(c.eng e).active && (c.eng e).pscl.isNone && (c.eng e).wait.isNone)
    && c.load.isNone && c.mrds.isEmpty && c.passes.isEmpty && c.lsends.isEmpty && c.sxOps.isEmpty
    && c.dmas.all fun kv => kv.2.isNone

/-- PARCEL_END: the parcel of a core ends OK, or POISONED where it is poisoned (R175, R176). -/
def execParcelEnd (core : Fin 32) (s : State) : Out :=
  runIf (s.alive && (s.core core).run.isSome && (s.core core).complete) s (endParcel core .ok)

/-! ### Commands of every stream -/

/-- Bits [95:48] of a NOP are reserved (Table 8-3). -/
def nopReason (_ : State) (_ : Running) (h : Head) : Option Nat := if cf h.cmd 95 48 ≠ 0 then some 0x01 else none

/-- NOP: pops its inputs and pushes its outputs, poisoned where an input was (R168). -/
def execNop (core : Fin 32) (e : Engine) (ph : Phys) (s : State) : Out :=
  run s (issueWith core e [0x00] ph nopReason (fun _ _ _ => false) fun i => i.push i.poison)

/-- GRAIN: the word leaves the stream and waits for the command that it belongs to (R167, R189). -/
def execGrain (core : Fin 32) (e : Engine) (s : State) : Out :=
  let x := (s.core core).eng e
  match x.stream with
  | [] => .next s
  | w :: l => runIf (s.mayIssue core e && x.wait.isNone && x.grain.isNone && x.pscl.isNone && opcodeOf w = 0x01) s do
    modEng core e fun x => { x with grain := some w, stream := l }

/-! ### Events at the head of a stream -/

/-- Attempt to issue what stands at the head of an engine. -/
def issueHead (core : Fin 32) (e : Engine) (s : State) : Out :=
  match ((s.core core).eng e).head with
  | none => .next s
  | some h =>
    match opcodeOf h.cmd with
    | 0x00 => execNop core e {} s
    | 0x10 => execLdw core {} s
    | 0x11 => execPass core {} s
    | 0x12 => execPscl core {} s
    | 0x13 => execDrain core {} s
    | 0x20 => execVrun core {} s
    | 0x30 => execTld core {} s
    | 0x31 => execTst core {} s
    | 0x32 => execTldw core {} s
    | 0x40 => execDma core {} s
    | 0x41 => execWpost core {} s
    | 0x42 => execWwait core {} s
    | 0x43 => execWmov core {} s
    | 0x44 => execMrd core {} s
    | 0x45 => execAcq core {} s
    | 0x46 => execArrw core {} s
    | 0x47 => execLsend core {} s
    | 0x50 => execSwait core {} s
    | 0x51 => execSadd core {} s
    | 0x52 => execSsub core {} s
    | 0x53 => execBar core {} s
    | _ => .next s

/-- TOKEN_ARRIVAL: the tokens or the room for which a head held under R172 have come. -/
def execTokenArrival (core : Fin 32) (e : Engine) (s : State) : Out :=
  let c := s.core core
  match (c.eng e).head with
  | some h =>
    if (c.eng e).hold.isSome && c.canPop (popsOf h.cmd h.pscl) && c.hasRoom (outsOf h.cmd) then issueHead core e s else .next s
  | none => .next s

/-- START_GRAIN_REACHED: the start grain for which a head held has come (R41), and no other head holds for an earlier one that
the count has passed (R39). -/
def execStartGrainReached (core : Fin 32) (e : Engine) (s : State) : Out :=
  let x := (s.core core).eng e
  match (s.core core).run, x.head with
  | some r, some h =>
    (match startGrain r x h.grain with
    | some g =>
      if !(x.startHold.isSome && s.started g) || s.dueAfter core e then .next s
      else if s.mayIssue core e then issueHead core e s
      else run s (modEng core e fun x => x.fall s.tb.now)
    | none => .next s)
  | _, _ => .next s

/-- The next slot of context c on the link that a send's descriptor names (R43). -/
def State.nextSlot (s : State) (n c : Nat) (w : Cmd) : Option Nat :=
  (s.routeOn (lsendBundle w) (dstPkg (s.lsendDesc n c w).1.dst)).bind fun l => s.nextOwned l c

/-- DEADLINE_MISSED: the deadline grain of a head has passed (R43, R44): a reserved send with HARD clear is deferred to its
context's next slot on the same link and direction, and once more where it is not ready in that one; the record of its miss is
written as it issues or is skipped, with that grain. Any other command is skipped, or issues late, when its operands are
there. -/
def execDeadlineMissed (core : Fin 32) (e : Engine) (s : State) : Out :=
  let n := core.val
  let x := (s.core n).eng e
  match (s.core n).run, x.head with
  | some r, some h =>
    (match deadlineGrain r x h.grain with
    | some d =>
      if !(s.mayIssue n e && s.late d) then .next s
      else if opcodeOf h.cmd = 0x47 && lsendRsv h.cmd && !(hardOf h.cmd && r.t4) then
        (match s.nextSlot n r.parcel.ctx h.cmd with
        | some g => run s do
          modEng n e fun x => { x with moved := some g, missed := some (x.missed.getD d), startHold := none, fellDue := none }
          setReg Fd.coreGrainSlackMinSlack n 0
        | none => issueHead core e s)
      else issueHead core e s
    | none => .next s)
  | _, _ => .next s

end Sys2Proof.Machine
end

