-- ==== Sys2Proof/Machine/Dispatch.lean ====
section
/-! DEFINITION. Which command has which meaning: one arm per constructor of Instr. -/

namespace Sys2Proof.Machine

def exec (i : Instr) (s : State) : Host.Outcome State Fault Refusal :=
  match i with
  | .registerWrite a => Sys2Proof.Machine.execRegisterWrite a s
  | .stagedSetApply b chan => Sys2Proof.Machine.execStagedSetApply b chan s
  | .grainCommit r => Sys2Proof.Machine.execGrainCommit r s
  | .tileCommit r => Sys2Proof.Machine.execTileCommit r s
  | .mxCommit r => Sys2Proof.Machine.execMxCommit r s
  | .numCommit r => Sys2Proof.Machine.execNumCommit r s
  | .vxCommit r => Sys2Proof.Machine.execVxCommit r s
  | .progCommit r => Sys2Proof.Machine.execProgCommit r s
  | .spCommit r => Sys2Proof.Machine.execSpCommit r s
  | .stuCommit r => Sys2Proof.Machine.execStuCommit r s
  | .mpCommit r => Sys2Proof.Machine.execMpCommit r s
  | .npCommit r => Sys2Proof.Machine.execNpCommit r s
  | .lpCommit r => Sys2Proof.Machine.execLpCommit r s
  | .hpCommit r => Sys2Proof.Machine.execHpCommit r s
  | .hmCommit r => Sys2Proof.Machine.execHmCommit r s
  | .dbgCommit r => Sys2Proof.Machine.execDbgCommit r s
  | .pwrCommit r => Sys2Proof.Machine.execPwrCommit r s
  | .grainNowLoRead r => Sys2Proof.Machine.execGrainNowLoRead r s
  | .stuCtxJobsLoRead r => Sys2Proof.Machine.execStuCtxJobsLoRead r s
  | .tileDbgGo r value => Sys2Proof.Machine.execTileDbgGo r value s
  | .tileDbgCaptureDone done => Sys2Proof.Machine.execTileDbgCaptureDone done s
  | .syncSet r => Sys2Proof.Machine.execSyncSet r s
  | .syncRelease r => Sys2Proof.Machine.execSyncRelease r s
  | .syncClear r => Sys2Proof.Machine.execSyncClear r s
  | .fence r cores => Sys2Proof.Machine.execFence r cores s
  | .snapRestore r value => Sys2Proof.Machine.execSnapRestore r value s
  | .dbgHalt r cores => Sys2Proof.Machine.execDbgHalt r cores s
  | .dbgStep r cores => Sys2Proof.Machine.execDbgStep r cores s
  | .debugHaltTaken core => Sys2Proof.Machine.execDebugHaltTaken core s
  | .linkRetrain r => Sys2Proof.Machine.execLinkRetrain r s
  | .warmReset r => Sys2Proof.Machine.execWarmReset r s
  | .coreRst r cores => Sys2Proof.Machine.execCoreRst r cores s
  | .portRst r value => Sys2Proof.Machine.execPortRst r value s
  | .heldResetStart u => Sys2Proof.Machine.execHeldResetStart u s
  | .coreSelftestDone core pass => Sys2Proof.Machine.execCoreSelftestDone core pass s
  | .mailboxRing hsrc pair => Sys2Proof.Machine.execMailboxRing hsrc pair s
  | .mailboxTake => Sys2Proof.Machine.execMailboxTake s
  | .replyAck hsrc pair => Sys2Proof.Machine.execReplyAck hsrc pair s
  | .replyDiscard pair => Sys2Proof.Machine.execReplyDiscard pair s
  | .hello => Sys2Proof.Machine.execHello s
  | .bindPair pair hsrc bind staging => Sys2Proof.Machine.execBindPair pair hsrc bind staging s
  | .openTenants => Sys2Proof.Machine.execOpenTenants s
  | .propose => Sys2Proof.Machine.execPropose s
  | .commit => Sys2Proof.Machine.execCommit s
  | .withdraw change => Sys2Proof.Machine.execWithdraw change s
  | .revoke what => Sys2Proof.Machine.execRevoke what s
  | .killCtx ctx => Sys2Proof.Machine.execKillCtx ctx s
  | .ctxResume ctx => Sys2Proof.Machine.execCtxResume ctx s
  | .modelLoad ctx slot addr len pin => Sys2Proof.Machine.execModelLoad ctx slot addr len pin s
  | .modelEvict ctx slot => Sys2Proof.Machine.execModelEvict ctx slot s
  | .modelPin ctx slot pin => Sys2Proof.Machine.execModelPin ctx slot pin s
  | .modelUnload ctx slot => Sys2Proof.Machine.execModelUnload ctx slot s
  | .seqOpen ctx entry addr => Sys2Proof.Machine.execSeqOpen ctx entry addr s
  | .seqSet ctx entry ch => Sys2Proof.Machine.execSeqSet ctx entry ch s
  | .seqHold ctx entry => Sys2Proof.Machine.execSeqHold ctx entry s
  | .seqResume ctx entry => Sys2Proof.Machine.execSeqResume ctx entry s
  | .seqClose ctx entry => Sys2Proof.Machine.execSeqClose ctx entry s
  | .seqRead ctx entry => Sys2Proof.Machine.execSeqRead ctx entry s
  | .poolAdd ctx count addr => Sys2Proof.Machine.execPoolAdd ctx count addr s
  | .syncDump ctx addr => Sys2Proof.Machine.execSyncDump ctx addr s
  | .sliceRelease ctx slice => Sys2Proof.Machine.execSliceRelease ctx slice s
  | .fwLoad addr len sigOk version => Sys2Proof.Machine.execFwLoad addr len sigOk version s
  | .fwUpdateDone => Sys2Proof.Machine.execFwUpdateDone s
  | .admissionComplete ctx => Sys2Proof.Machine.execAdmissionComplete ctx s
  | .debugConsentExpiry ctx => Sys2Proof.Machine.execDebugConsentExpiry ctx s
  | .holdDumpDone ctx => Sys2Proof.Machine.execHoldDumpDone ctx s
  | .bankScrubDone ctx => Sys2Proof.Machine.execBankScrubDone ctx s
  | .apertureWrite hsrc off data rd => Sys2Proof.Machine.execApertureWrite hsrc off data rd s
  | .apertureRead hsrc off len rd => Sys2Proof.Machine.execApertureRead hsrc off len rd s
  | .grainStrobe cnt cyc => Sys2Proof.Machine.execGrainStrobe cnt cyc s
  | .holdoverEntry runs => Sys2Proof.Machine.execHoldoverEntry runs s
  | .holdoverAdvance runs => Sys2Proof.Machine.execHoldoverAdvance runs s
  | .holdoverLimit => Sys2Proof.Machine.execHoldoverLimit s
  | .timingFrameDue => Sys2Proof.Machine.execTimingFrameDue s
  | .timing link t1 t2 t3 => Sys2Proof.Machine.execTiming link t1 t2 t3 s
  | .timingReply link t1 t2 t3 t4 => Sys2Proof.Machine.execTimingReply link t1 t2 t3 t4 s
  | .startGrainReached core e => Sys2Proof.Machine.execStartGrainReached core e s
  | .deadlineMissed core e => Sys2Proof.Machine.execDeadlineMissed core e s
  | .tokenArrival core e => Sys2Proof.Machine.execTokenArrival core e s
  | .nop core e ph => Sys2Proof.Machine.execNop core e ph s
  | .grain core e => Sys2Proof.Machine.execGrain core e s
  | .ldw core ph => Sys2Proof.Machine.execLdw core ph s
  | .pass core ph => Sys2Proof.Machine.execPass core ph s
  | .pscl core ph => Sys2Proof.Machine.execPscl core ph s
  | .passComplete core => Sys2Proof.Machine.execPassComplete core s
  | .drain core ph => Sys2Proof.Machine.execDrain core ph s
  | .vrun core ph => Sys2Proof.Machine.execVrun core ph s
  | .tld core ph => Sys2Proof.Machine.execTld core ph s
  | .tst core ph => Sys2Proof.Machine.execTst core ph s
  | .tldw core ph => Sys2Proof.Machine.execTldw core ph s
  | .tileLoadPark core cause => Sys2Proof.Machine.execTileLoadPark core cause s
  | .tileLoadResume core ph => Sys2Proof.Machine.execTileLoadResume core ph s
  | .dma core ph => Sys2Proof.Machine.execDma core ph s
  | .dmaComplete core ch => Sys2Proof.Machine.execDmaComplete core ch s
  | .wpost core ph => Sys2Proof.Machine.execWpost core ph s
  | .wwait core ph => Sys2Proof.Machine.execWwait core ph s
  | .wmov core ph => Sys2Proof.Machine.execWmov core ph s
  | .mrd core ph => Sys2Proof.Machine.execMrd core ph s
  | .mrdFill core ph => Sys2Proof.Machine.execMrdFill core ph s
  | .acq core ph => Sys2Proof.Machine.execAcq core ph s
  | .arrw core ph => Sys2Proof.Machine.execArrw core ph s
  | .lsend core ph => Sys2Proof.Machine.execLsend core ph s
  | .swait core ph => Sys2Proof.Machine.execSwait core ph s
  | .sadd core ph => Sys2Proof.Machine.execSadd core ph s
  | .ssub core ph => Sys2Proof.Machine.execSsub core ph s
  | .bar core ph => Sys2Proof.Machine.execBar core ph s
  | .wadiReply core ph => Sys2Proof.Machine.execWadiReply core ph s
  | .wadiXmissReply core => Sys2Proof.Machine.execWadiXmissReply core s
  | .xmissLimit core u ph => Sys2Proof.Machine.execXmissLimit core u ph s
  | .resolve ctx page failed => Sys2Proof.Machine.execResolve ctx page failed s
  | .writeAck core holds inj => Sys2Proof.Machine.execWriteAck core holds inj s
  | .inboundWritePacket core nth grants => Sys2Proof.Machine.execInboundWritePacket core nth grants s
  | .refusalNotice notice => Sys2Proof.Machine.execRefusalNotice notice s
  | .semOpApply ops => Sys2Proof.Machine.execSemOpApply ops s
  | .hubWaitRegister core => Sys2Proof.Machine.execHubWaitRegister core s
  | .waitWake core => Sys2Proof.Machine.execWaitWake core s
  | .barrierArrival nth => Sys2Proof.Machine.execBarrierArrival nth s
  | .barrierRelease nth => Sys2Proof.Machine.execBarrierRelease nth s
  | .barrierDeadline b => Sys2Proof.Machine.execBarrierDeadline b s
  | .waitTimerExpiry core e => Sys2Proof.Machine.execWaitTimerExpiry core e s
  | .stepAssign ctx => Sys2Proof.Machine.execStepAssign ctx s
  | .caravanBuild ctx => Sys2Proof.Machine.execCaravanBuild ctx s
  | .caravanCut => Sys2Proof.Machine.execCaravanCut s
  | .builderResume => Sys2Proof.Machine.execBuilderResume s
  | .residencyLoad slot => Sys2Proof.Machine.execResidencyLoad slot s
  | .parcelStart core segUpset => Sys2Proof.Machine.execParcelStart core segUpset s
  | .parcelEnd core => Sys2Proof.Machine.execParcelEnd core s
  | .stealRequest ask => Sys2Proof.Machine.execStealRequest ask s
  | .stepEnd ctx => Sys2Proof.Machine.execStepEnd ctx s
  | .beStepCap ctx => Sys2Proof.Machine.execBeStepCap ctx s
  | .stepBudget ctx => Sys2Proof.Machine.execStepBudget ctx s
  | .rdata stn rtag inc status changed => Sys2Proof.Machine.execRdata stn rtag inc status changed s
  | .wack stn rtag inc ok => Sys2Proof.Machine.execWack stn rtag inc ok s
  | .crd stn rd wr => Sys2Proof.Machine.execCrd stn rd wr s
  | .nportWrFrame m f => Sys2Proof.Machine.execNportWrFrame m f s
  | .nportAckFrame m f => Sys2Proof.Machine.execNportAckFrame m f s
  | .nportRefuseFrame m f => Sys2Proof.Machine.execNportRefuseFrame m f s
  | .nportSyncFrame m f => Sys2Proof.Machine.execNportSyncFrame m f s
  | .nportNakFrame m f => Sys2Proof.Machine.execNportNakFrame m f s
  | .nportCrdFrame m f => Sys2Proof.Machine.execNportCrdFrame m f s
  | .nportRetrainTimeout m => Sys2Proof.Machine.execNportRetrainTimeout m s
  | .linkSlot link => Sys2Proof.Machine.execLinkSlot link s
  | .dataFrame link f => Sys2Proof.Machine.execDataFrame link f s
  | .emptyFrame link f => Sys2Proof.Machine.execEmptyFrame link f s
  | .controlFrame link f => Sys2Proof.Machine.execControlFrame link f s
  | .trainFrame link lanes => Sys2Proof.Machine.execTrainFrame link lanes s
  | .sigDet link lanes => Sys2Proof.Machine.execSigDet link lanes s
  | .trainStateTimeout link => Sys2Proof.Machine.execTrainStateTimeout link s
  | .ident link m delay => Sys2Proof.Machine.execIdent link m delay s
  | .feat link revs bits => Sys2Proof.Machine.execFeat link revs bits s
  | .barArrive link b phase spkg => Sys2Proof.Machine.execBarArrive link b phase spkg s
  | .barRelease link b phase spkg => Sys2Proof.Machine.execBarRelease link b phase spkg s
  | .loss link seq inc => Sys2Proof.Machine.execLoss link seq inc s
  | .refuse link tag score sctx dst => Sys2Proof.Machine.execRefuse link tag score sctx dst s
  | .resvReq link m => Sys2Proof.Machine.execResvReq link m s
  | .resvAck link m => Sys2Proof.Machine.execResvAck link m s
  | .resvNak link m => Sys2Proof.Machine.execResvNak link m s
  | .resvRel link m => Sys2Proof.Machine.execResvRel link m s
  | .resvHoldEnd link m => Sys2Proof.Machine.execResvHoldEnd link m s
  | .resvHoldExpiry opkg oinst slice => Sys2Proof.Machine.execResvHoldExpiry opkg oinst slice s
  | .linkRetry => Sys2Proof.Machine.execLinkRetry s
  | .stateEccError u => Sys2Proof.Machine.execStateEccError u s
  | .ccpWatchdog => Sys2Proof.Machine.execCcpWatchdog s
  | .healthWindow h => Sys2Proof.Machine.execHealthWindow h s
  | .snapshotCut => Sys2Proof.Machine.execSnapshotCut s
  | .snapshotDrain => Sys2Proof.Machine.execSnapshotDrain s
  | .snapshotComplete => Sys2Proof.Machine.execSnapshotComplete s
  | .drainTimeout ackError => Sys2Proof.Machine.execDrainTimeout ackError s
  | .pwrOkRise => Sys2Proof.Machine.execPwrOkRise s
  | .pwrOkFall => Sys2Proof.Machine.execPwrOkFall s
  | .ctrlEnRise => Sys2Proof.Machine.execCtrlEnRise s
  | .ctrlEnFall => Sys2Proof.Machine.execCtrlEnFall s
  | .warmRstN => Sys2Proof.Machine.execWarmRstN s
  | .internalResetRelease => Sys2Proof.Machine.execInternalResetRelease s
  | .selftestDone failed othersOk => Sys2Proof.Machine.execSelftestDone failed othersOk s
  | .coreDomainReady core => Sys2Proof.Machine.execCoreDomainReady core s
  | .corePowerOff core => Sys2Proof.Machine.execCorePowerOff core s
  | .pcapStep step => Sys2Proof.Machine.execPcapStep step s
  | .droopEvent => Sys2Proof.Machine.execDroopEvent s
  | .droopStepDown above => Sys2Proof.Machine.execDroopStepDown above s
  | .thermalStep tj => Sys2Proof.Machine.execThermalStep tj s
  | .governorUpdate pdyn pleak => Sys2Proof.Machine.execGovernorUpdate pdyn pleak s
  | .changeDeadline change => Sys2Proof.Machine.execChangeDeadline change s
  | .nportTrained m rev speed x32 peerInst peerMod => Sys2Proof.Machine.execNportTrained m rev speed x32 peerInst peerMod s
  | .nportRetrain m => Sys2Proof.Machine.execNportRetrain m s
  | .stationLinkUp stn rd wr => Sys2Proof.Machine.execStationLinkUp stn rd wr s

end Sys2Proof.Machine
end

