-- ==== Sys2Proof/Safety.lean ====
section
/-! DEFINITION. The terms in which claims are made: the invariant that every step keeps, and the parts of the state by
which a frame says what a command leaves alone. -/

namespace Sys2Proof.Machine

/-! ### The invariant -/

/-- The canonical form of a memory of n bytes: data cells at rising addresses below n and none that reads as an unwritten
byte; check differences at rising granules and none that is good. -/
def Memory.wf (n : Nat) (m : Memory) : Bool :=
  cellsWf byte0 m.data && (m.data.all fun c => c.1 < n) && cellsWf 0 m.syn

/-- The width in bits of the register field whose key is k. -/
def keyWidth (k : Nat) : Nat := k / 65536 / 32 % 32 + 1 - k / 65536 % 32

/-- Every listed register field holds a value of its width. -/
def regsWf (t : Tab Nat) : Bool := tabWf t && t.all fun kv => kv.2 < 2 ^ keyWidth kv.1

/-- What every step keeps: the memories stay in canonical form, every register field holds a value of its width, and the
tables stay sorted by key, so that equal contents are equal data. -/
structure State.Inv (s : State) : Prop where
  regs    : regsWf s.regs = true
  gmem    : s.gmem.wf gmSize = true
  spads   : ∀ kv ∈ s.spads, kv.2.wf spSize = true
  sorted  : (tabWf s.pairs && tabWf s.ctxs && tabWf s.models && tabWf s.entries && tabWf s.sems && tabWf s.bars
    && tabWf s.hubRegs && tabWf s.cores && tabWf s.spads && tabWf s.written && tabWf s.stns && tabWf s.ctl
    && tabWf s.links && tabWf s.imap && tabWf s.mods) = true

/-! ### Parts of the state -/

/-- A group of the fields of a core. -/
inductive CorePart where
  /-- Its assignment: context, home queue, stolen parcel. -/
  | assign
  /-- The parcel it runs. -/
  | run
  /-- The stream and the head of an engine. -/
  | eng (e : Engine)
  /-- Its token queues and tickets. -/
  | queues
  /-- The tile register file with its latches and capture buffer. -/
  | tiles
  /-- The tile load in flight. -/
  | load
  /-- The wadis, and the reads they wait for. -/
  | wadis
  /-- DMA channels, MRD misses, M-cache. -/
  | far
  /-- Write packets without acknowledgement or waiting. -/
  | writes
  /-- Sync operations in flight. -/
  | sync
  /-- Link sends in flight. -/
  | lsends
  /-- Its oases. -/
  | oases
  /-- Planes, accumulator banks, passes in flight, check failures. -/
  | arrays
  /-- Accepted inbound packets not yet committed whole. -/
  | landing
  /-- Trace records still to write, producer tags of poisoned tokens consumed. -/
  | notes
  /-- Its free segment buffer, scrubs, held banks, range marks and remainders. -/
  | rest
deriving DecidableEq, Repr

/-- The part of two cores is the same. -/
def CorePart.same (c d : Core) : CorePart → Prop
  | .assign => c.ctx = d.ctx ∧ c.prev = d.prev ∧ c.home = d.home ∧ c.stolen = d.stolen
  | .run => c.run = d.run
  | .eng e => c.eng e = d.eng e
  | .queues => c.queues = d.queues ∧ c.ticket = d.ticket
  | .tiles => c.tiles = d.tiles ∧ c.latch0 = d.latch0 ∧ c.latch1 = d.latch1 ∧ c.capture = d.capture ∧ c.capBuf = d.capBuf
  | .load => c.load = d.load
  | .wadis => c.wadis = d.wadis ∧ c.wadiOut = d.wadiOut ∧ c.late = d.late
  | .far => c.dmas = d.dmas ∧ c.mrds = d.mrds ∧ c.mcache = d.mcache ∧ c.mcUse = d.mcUse ∧ c.nextId = d.nextId
  | .writes => c.outW = d.outW ∧ c.injectQ = d.injectQ
  | .sync => c.sxOps = d.sxOps ∧ c.arrived = d.arrived
  | .lsends => c.lsends = d.lsends
  | .oases => c.oases = d.oases
  | .landing => c.landing = d.landing
  | .notes => c.traces = d.traces ∧ c.consumed = d.consumed
  | .arrays => c.planes = d.planes ∧ c.banks = d.banks ∧ c.passes = d.passes ∧ c.stream = d.stream ∧ c.chkFails = d.chkFails
  | .rest => c.scrub = d.scrub ∧ c.held = d.held ∧ c.ranges = d.ranges ∧ c.gatedRem = d.gatedRem
      ∧ c.segBuf = d.segBuf

/-- k is the key of some channel of f. -/
def Fld.has (f : Fld) (k : Nat) : Prop := k / 65536 = f.key 0 / 65536

/-- A part of the state: one channel of a register field, by its key, one entry of a table, one byte or one check of a memory,
or one of the other fields whole. `pair` is a mailbox pair but for its staging region's address, which is `staging`. -/
inductive Part where
  | reg (k : Nat)
  | tb | pw | recs | fw | stu
  | pair (n : Nat) | staging (n : Nat) | ctx (n : Nat) | model (n : Nat) | entry (n : Nat)
  | sem (n : Nat) | bar (n : Nat) | hubReg (n : Nat)
  | core (n : Nat) (c : CorePart)
  | spByte (n a : Nat) | spChk (n g : Nat)
  | gmByte (a : Nat) | gmChk (g : Nat) | written (g : Nat)
  | msgs | stn (n : Nat) | groups | mod (n : Nat) | ctl (l : Nat) | link (n : Nat)
  | slices | imap (n : Nat) | split | health | snap | dbg | resets | staged | sets | resp | free | pending

/-- The byte at address a of the global space. -/
def State.gbyte (s : State) (a : Nat) : Byte := cellRead byte0 s.gmem.data a

/-- The byte at physical address a of core n's scratchpad. -/
def State.spbyte (s : State) (n a : Nat) : Byte := cellRead byte0 (s.spad n).data a

/-- A part is the same in two states. -/
def Part.same (s t : State) : Part → Prop
  | .reg k => ∀ d, tabGet d s.regs k = tabGet d t.regs k
  | .tb => s.tb = t.tb
  | .pw => s.pw = t.pw
  | .recs => s.recs = t.recs
  | .fw => s.fw = t.fw
  | .stu => s.stu = t.stu
  | .pair n => { s.pair n with staging := 0 } = { t.pair n with staging := 0 }
  | .staging n => (s.pair n).staging = (t.pair n).staging
  | .ctx n => s.ctx n = t.ctx n
  | .model n => s.model n = t.model n
  | .entry n => s.entry n = t.entry n
  | .sem n => s.sem n = t.sem n
  | .bar n => s.bar n = t.bar n
  | .hubReg n => tabGet none s.hubRegs n = tabGet none t.hubRegs n
  | .core n c => c.same (s.core n) (t.core n)
  | .spByte n a => s.spbyte n a = t.spbyte n a
  | .spChk n g => tabGet 0 (s.spad n).syn g = tabGet 0 (t.spad n).syn g
  | .gmByte a => s.gbyte a = t.gbyte a
  | .gmChk g => s.gsyn g = t.gsyn g
  | .written g => tabGet false s.written g = tabGet false t.written g
  | .msgs => s.msgs = t.msgs
  | .stn n => s.stn n = t.stn n
  | .groups => s.groups = t.groups ∧ s.nextGroup = t.nextGroup
  | .mod n => s.mod n = t.mod n
  | .ctl l => tabGet [] s.ctl l = tabGet [] t.ctl l
  | .link n => s.link n = t.link n
  | .slices => s.slices = t.slices
  | .imap n => tabGet none s.imap n = tabGet none t.imap n
  | .split => s.splitA = t.splitA ∧ s.splitB = t.splitB
  | .health => s.health = t.health
  | .snap => s.snap = t.snap
  | .dbg => s.dbg = t.dbg
  | .resets => s.resets = t.resets
  | .staged => s.staged = t.staged
  | .sets => s.sets = t.sets
  | .resp => s.hostResp = t.hostResp
  | .free => s.freeCtr = t.freeCtr
  | .pending => s.pending = t.pending

/-- Granule g (its address divided by 64) holds bytes of a record of a fault record ring or of the trace ring (R398, R416). -/
def State.inRing (s : State) (g : Nat) : Prop :=
  (∃ ring k i, k < 16384 ∧ i < 32 ∧ g = ((s.ringBase ring + 32 * k) % gmSize + i) / 64)
    ∨ ∃ k i, k < s.traceSize ∧ i < 32
        ∧ g = ((s.reg Fd.traceBaseLoAddr + s.reg Fd.traceBaseHiAddr * 2 ^ 32 + k) % gmSize + i) / 64

/-- Station n serves a granule of a ring. -/
def State.ringStn (s : State) (n : Nat) : Prop := ∃ g, s.inRing g ∧ n = stationOf (64 * g)

/-- What making fault records and trace records may change: the record queue, the sequence and drop counters, the trace
position, the granules of the rings, and the stations that serve them with their count of granules written. -/
def State.noted (s : State) : Part → Prop
  | .recs | .dbg => True
  | .reg k => k = Fd.recSeqSeq.key 0 ∨ k = Fd.recDropDropped.key 0 ∨ k = Fd.traceHeadCount.key 0 ∨ k = Fd.traceDropDropped.key 0
      ∨ ∃ n, s.ringStn n ∧ k = Fd.mpWrGranGran.key n
  | .gmByte b => s.inRing (b / 64)
  | .gmChk g | .written g => s.inRing g
  | .stn n => s.ringStn n
  | _ => False

/-- Every part that `may` does not name is the same in s and t. -/
def SameBut (may : Part → Prop) (s t : State) : Prop := ∀ p, ¬ may p → p.same s t

/-! ### Engines -/

/-- The head h of engine e of core n stands ready to issue in the running parcel r (R41, R172, R180, R188): the core runs and
may issue, nothing that the engine did before still waits, the parts common to all commands are legal, its start grain has
come and no other head's earlier one waits to fall due, a passed deadline does not carry HARD, the input ends hold their pop
counts and the output queues have room. -/
structure State.Ready (s : State) (n : Nat) (e : Engine) (r : Running) (h : Head) : Prop where
  may   : s.mayIssue n e = true
  run   : (s.core n).run = some r
  head  : ((s.core n).eng e).head = some h
  idle  : ((s.core n).eng e).wait = none
  legal : commonReason r.t4 h = none
  come  : s.headEarly r ((s.core n).eng e) h = false
  turn  : s.dueAfter n e = false
  soft  : (s.headLate r ((s.core n).eng e) h && hardOf h.cmd && r.t4) = false
  pops  : (s.core n).canPop (popsOf h.cmd h.pscl) = true
  room  : (s.core n).hasRoom (outsOf h.cmd) = true

end Sys2Proof.Machine
end

