-- ==== Sys2Proof/Certificates/Slice0/Obligations.lean ====
section
/-! DEFINITION. The statements for the provers: whole-machine statements first, then per family of commands what its commands
do where they take effect (each names the next state or what it holds) and what they leave alone. -/

open Sys2Proof Sys2Proof.Machine

namespace Sys2Proof.Said

/-- The row that commits the staged values of a block (R391). -/
def commitOf (r : Requester) : Block → Instr
  | .grain => .grainCommit r | .tile => .tileCommit r | .mx => .mxCommit r | .num => .numCommit r | .vx => .vxCommit r
  | .prog => .progCommit r | .sp => .spCommit r | .stu => .stuCommit r | .mp => .mpCommit r | .np => .npCommit r
  | .lp => .lpCommit r | .hp => .hpCommit r | .hm => .hmCommit r | .dbg => .dbgCommit r | .pwr => .pwrCommit r

/-- s after a write of `word` to one field under its access code, by requester r (R12): RO and WO ignore it, RW takes its
bits, W1C clears where they are 1, RWS stages them in place of what r staged for the same field and channel. -/
def fieldWritten (r : Requester) (a word : Nat) (s : State) (f : Fld) : State :=
  match s.chan (reqChan r) a f.scope with
  | none => s
  | some ch =>
    let v := bits word f.hi f.lo
    match f.acc with
    | .ro => s
    | .wo => s
    | .rw => if f = Fd.dbgHaltCores then s else (Eff.reg f ch v).apply s
    | .w1c => (Eff.reg f ch (s.reg f ch - (s.reg f ch &&& v))).apply s
    | .rws =>
      if (f = Fd.slotEntryOwners && ch % 64 = 0) || (fwOnly f && r != .firmware) then s
      else { s with
        staged := (s.staged.filter fun x => !(x.req = reqCode r && x.fld = f && x.chan = ch)) ++ [⟨reqCode r, f, ch, v⟩] }

/-- s after an access by HSRC h at address a broke the rule of kind k: HP_ERR counts it and HP_ERR_LAST records it (R365). -/
def hostError (k h a : Nat) (s : State) : State :=
  (Eff.reg Fd.hpErrLastAddr 0 a).apply <| (Eff.reg Fd.hpErrLastHsrc 0 h).apply <| (Eff.reg Fd.hpErrLastKind 0 k).apply <|
    (Eff.reg Fd.hpErrCount 0 (min Fd.hpErrCount.max (s.reg Fd.hpErrCount + 1))).apply s

/-- A register access of a requester, as the row that makes it: a plain write or read. -/
def accessOf (r : Requester) (a width : Nat) (write : Bool) (v : Word) : Instr := .registerWrite ⟨r, a, width, write, v⟩

/-- The answer to an access. -/
def answer (data : Nat) (err : Bool) : Option HostResp := some ⟨toLe data 4, err⟩

/-- t is s after a warm reset: everything that it reaches is as after reset, the rest stays (R433, R434). -/
def Warmed (s t : State) : Prop :=
  t.ctxs = [] ∧ t.entries = [] ∧ t.models = [] ∧ t.sems = [] ∧ t.bars = [] ∧ t.cores = [] ∧ t.spads = [] ∧ t.msgs = []
    ∧ t.stns = [] ∧ t.mods = [] ∧ t.links = [] ∧ t.slices = [] ∧ t.tb = s.tb
    ∧ t.reg Fd.rstCauseWarms = min Fd.rstCauseWarms.max (s.reg Fd.rstCauseWarms + 1)
    ∧ (∀ u, u < 12 → t.reg (Fd.portInc u) = (s.reg (Fd.portInc u) + 1) % 256)
    ∧ ∀ n, n < 32 → t.coreInc n = if s.fenced n then s.coreInc n else (s.coreInc n + 1) % 256

/-- The bit of PORT_RST that names a unit of this cluster (Table 17-8). -/
def portBit : ResetUnit → Option Nat
  | .stn n => some n.val
  | .mod k => if k.val < Config.nmod.val then some (8 + k.val) else none
  | .lport => some 16
  | .hport => some 17
  | .core _ => none
  | .warm => none

/-- A reset of a unit, of the given RST_CAUSE.KIND, has been carried out between s and t (R404, R407, R433, R435). -/
def WasReset (kind : Nat) (s t : State) : ResetUnit → Prop
  | .core n => t.core n = { oases := (s.core n).oases, ctx := (s.core n).ctx } ∧ t.spad n = {}
      ∧ bit t.resets.testing n = true ∧ ∀ k, inCore n k = true → (s.sem k).alloc = true → (t.sem k).gone = true
  | .stn n => t.reg Fd.mpStnStatusReady n = 0 ∧ t.reg Fd.mpStnCreditRd n = 0 ∧ t.reg Fd.mpStnCreditWr n = 0
      ∧ (t.stn n).reads = [] ∧ (t.stn n).writes = [] ∧ t.reg (Fd.portInc n) = (s.reg (Fd.portInc n) + 1) % 256
  | .mod k => t.reg Fd.npModStatusUp k = 0 ∧ (t.mod k).trained = false
      ∧ t.reg (Fd.portInc (6 + k)) = (s.reg (Fd.portInc (6 + k)) + 1) % 256
  | .lport => (∀ l ∈ s.allLinks, t.linkSt l = 1) ∧ t.reg (Fd.portInc 10) = (s.reg (Fd.portInc 10) + 1) % 256
  | .hport => (∀ p, p < 8 → (t.pair p).rung = none ∧ t.reg Fd.mbRepStatusValid p = 0 ∧ t.reg Fd.mbStatusTaken p = 0)
      ∧ t.reg (Fd.portInc 11) = (s.reg (Fd.portInc 11) + 1) % 256
  | .warm => Warmed s t ∧ t.reg Fd.rstCauseKind = kind % 2 ^ Fd.rstCauseKind.width

/-- Request r of s is answered in t: MB_REP holds the reply, VALID is set, and the pair serves nothing (R368, R371). -/
def Answered (s t : State) (r : Req) (st : Status) (detail : Nat) (payload : List Byte) : Prop :=
  (∀ w, w < 30 → t.reg (Fd.mbRep w) r.pair = leAt (r.replyBytes st detail payload) (4 * w) 4 % 2 ^ 32)
    ∧ t.reg Fd.mbRepStatusValid r.pair = 1 ∧ (t.pair r.pair).service = none ∧ (t.pair r.pair).validAt = s.tb.now

/-- What answering request r changes: MB_REP and MB_REP_STATUS of its pair, and the pair. -/
def replied (r : Req) (p : Part) : Prop :=
  p = .pair r.pair ∨ ∃ k, p = .reg k ∧ ((∃ w, w < 30 ∧ k = (Fd.mbRep w).key r.pair) ∨ k = Fd.mbRepStatusValid.key r.pair)

/-- A token that the head h of core n pops is poisoned (R171). -/
def popPoison (s : State) (n : Nat) (h : Head) : Bool := ((s.core n).popped (popsOf h.cmd h.pscl)).any (·.poison)

/-- The head h of engine e of core n has left its stream with its input tokens popped, and its output queues hold its
tokens, poisoned where p (R171, R172). -/
def Pushed (s t : State) (n : Nat) (e : Engine) (h : Head) (p : Bool) : Prop :=
  (t.core n).eng e = { stream := h.rest } ∧ (t.core n).queues =
    ((outsOf h.cmd).foldl (Core.fill (s.core n).ticket ⟨p, engCode e, tagOf h.cmd⟩) ((s.core n).taken e h)).queues

/-- The head h of engine e of core n has left its stream with its input tokens popped, and its output queues have a slot
kept for each token that it pushes later (R172). -/
def Entered (s t : State) (n : Nat) (e : Engine) (h : Head) : Prop :=
  (t.core n).eng e = { stream := h.rest } ∧ (t.core n).queues = ((s.core n).taken e h).queues

/-- The head h of engine e of core n has issued and waits for w (R220). -/
def Waits (s t : State) (n : Nat) (e : Engine) (h : Head) (w : WaitFor) : Prop :=
  (t.core n).eng e = { stream := h.rest, wait := some { cmd := h.cmd, ticket := (s.core n).ticket, outs := outsOf h.cmd,
                                                         poison := popPoison s n h, since := s.tb.now, what := w } }
    ∧ (t.core n).queues = ((s.core n).taken e h).queues

/-- The wait w of engine e of core n has ended with its tokens pushed, poisoned where p or where it popped a poisoned one. -/
def Woken (s t : State) (n : Nat) (e : Engine) (w : Wait) (p : Bool) : Prop :=
  (t.core n).eng e = { (s.core n).eng e with wait := none }
    ∧ (t.core n).queues = (w.outs.foldl (Core.fill w.ticket ⟨w.poison || p, engCode e, tagOf w.cmd⟩) (s.core n)).queues

/-- What the issue of a command by engine e of core n may change beside its own effect: its stream, token queues, the poison
of its parcel, the tags that it consumed, records, traces and the grain counters (R41, R172, R183, R190). -/
def issueMay (s : State) (n : Nat) (e : Engine) (p : Part) : Prop :=
  s.noted p ∨ p = .core n (.eng e) ∨ p = .core n .queues ∨ p = .core n .run ∨ p = .core n .notes
    ∨ p = .reg (Fd.coreGrainSlackMinSlack.key n) ∨ p = .reg (Fd.coreGrainMissMissed.key n) ∨ p = .reg (Fd.coreGrainMissLastTag.key n) ∨ p = .reg (Fd.grainMissCntMissed.key 0)

/-- A packet comes from where semaphore operations come from: a core, or a module of the N-port (R271). -/
def sendsOps (m : Msg) : Prop := m.src < 32 ∨ 48 ≤ m.src ∧ m.src < 52

/-- A word of the synchronisation counters of some context (Table 11-7). -/
def syncCounter (p : Part) : Prop :=
  ∃ c f, p = .reg (Fld.key f c) ∧ f ∈ [Fd.syncCtxFaultCountFaults, Fd.syncCtxFaultOverruns, Fd.syncCtxLastTag, Fd.syncCtxLastId]

/-- The writes of a VRUN with descriptor v to its sinks in the partition: O and X elements encoded, and a COMPRESS count. -/
def vrunWrites (s : State) (n c : Nat) (v : VDesc) : List Wr :=
  let out := v.outs (s.vxElems n c v)
  (if v.o.kind = 1 then (encSink v.o v.sym out.1).1 else []) ++ (encSink v.x v.sym out.2.1).1
    ++ (match out.2.2 with
      | some m => [⟨8 * v.cntAddr, 32, m % 2 ^ 32, v.rows * v.perRow⟩]
      | none => [])

/-- The numeric counters of a core (Table 5-7). -/
def numCounters : List Fld :=
  [Fd.numAccSatPos, Fd.numAccSatNeg, Fd.numAccInvInvalid, Fd.numUnderUnder, Fd.numRqSatSat, Fd.numRqInvInvalid,
   Fd.numBlkClipElems, Fd.numBlkClipBlocks, Fd.numLastLastTag]

/-- The registers of a core that a VRUN may count in (Tables 3-7, 5-7, 6-7, 9-8). -/
def vxCounters : List Fld :=
  [Fd.vxCmdsCmds, Fd.vxBeatsBeats, Fd.vxStallShLoss, Fd.vxStallBank, Fd.vxOverOvers, Fd.vxOverLastTag, Fd.spConflictLocal,
   Fd.spEccUncorr, Fd.tileEccUncorr] ++ numCounters

/-- The registers of a core that a PASS may count in (Tables 3-7, 4-8, 5-7, 9-8). -/
def passCounters : List Fld :=
  [Fd.tileReadsReads, Fd.tileReuseHitHits, Fd.tileEccUncorr, Fd.spEccUncorr, Fd.mxGatedGated] ++ numCounters

/-- What sending reads and writes through the M-port stations may change: stations, NCU groups and their counters. -/
def stnMay (p : Part) : Prop :=
  p = .groups ∨ ∃ k, p = .stn k ∨ ∃ f ∈ [Fd.mpChkOutPoison, Fd.mpChkOutMismatch, Fd.mpWrGranGran], p = .reg (f.key k)

/-- The bytes, check and first write of granule g. -/
def granMay (g : Nat) (p : Part) : Prop := (∃ b, p = .gmByte b ∧ b / 64 = g) ∨ p = .gmChk g ∨ p = .written g

/-- What an access that no core makes may change, of n bytes at a: the granules that they touch, which also take the writes
that reached their station before (R253), the stations with what they count, and the corrected errors of the window. -/
def accessMay (a n : Nat) (p : Part) : Prop :=
  p = .health ∨ (∃ i, i < granSpan a n ∧ granMay (a % gmSize / 64 + i) p)
    ∨ ∃ k, p = .stn k ∨ ∃ f ∈ [Fd.mpChkInMismatch, Fd.mpChkInErrors, Fd.mpChkGenGen, Fd.mpRdGranGran, Fd.mpChkOutPoison,
        Fd.mpChkOutMismatch, Fd.mpWrGranGran], p = .reg (f.key k)

/-- s when its stations have carried a read of n bytes at a for a user: what reached them before for these granules has been
accepted (R253, R259). -/
def fetched (s : State) (who : MemUser) (a n : Nat) : State := ((viaStations who false a n : M s Unit) ⟨s, .refl⟩).2.val

/-- s when a write of SNAP_RESTORE has set its fields. -/
def restoreAsked (s : State) (v : Nat) : State :=
  (Eff.reg Fd.snapRestoreCtx 0 (bits v 2 0)).apply <| (Eff.reg Fd.snapRestoreBuf 0 (bits v 27 27)).apply <|
    (Eff.reg Fd.snapRestorePages 0 (bits v 28 28)).apply s

/-- The weighted cycles of some runs, in units of 1/1680 grain (R47). -/
def weighed (runs : List CycleRun) : Nat := (runs.map fun r => r.cycles * cycleWeight r.step).sum

/-- Bytes or checks of context c's partition on core n within len bytes from offset o, and the checks of the granules that
they lie in. -/
def partMay (s : State) (n c o len : Nat) (p : Part) : Prop :=
  ∃ i, i < len ∧ (p = .spByte n (spAddr (s.part n c).1 (max 1 (s.part n c).2) (o + i))
    ∨ p = .spChk n (spAddr (s.part n c).1 (max 1 (s.part n c).2) (o + i) / 64))

/-- The commands that may end in a fault: replies and credits that no request of the block explains, and frames of a module
that the package does not have. -/
def mayStop : Instr → Prop
  | .rdata .. | .wack .. | .crd .. | .stationLinkUp .. | .nportWrFrame .. | .nportAckFrame .. | .nportRefuseFrame ..
  | .nportSyncFrame .. | .nportNakFrame .. | .nportCrdFrame .. | .nportRetrainTimeout .. | .nportTrained ..
  | .nportRetrain .. => True
  | _ => False

/-- The mailbox commands that name a context, with their opcode (Table 15-4). -/
def ctxRow : Instr → Option (Nat × Fin 8)
  | .killCtx c => some (0x18, c)
  | .ctxResume c => some (0x19, c)
  | .modelLoad c _ _ _ _ => some (0x20, c)
  | .modelEvict c _ => some (0x21, c)
  | .modelPin c _ _ => some (0x22, c)
  | .modelUnload c _ => some (0x23, c)
  | .seqOpen c _ _ => some (0x28, c)
  | .seqSet c _ _ => some (0x29, c)
  | .seqHold c _ => some (0x2A, c)
  | .seqResume c _ => some (0x2B, c)
  | .seqClose c _ => some (0x2C, c)
  | .seqRead c _ => some (0x2D, c)
  | .poolAdd c _ _ => some (0x30, c)
  | .sliceRelease c _ => some (0x40, c)
  | _ => none

/-- The row of the command with an opcode that stands at the head of engine e of core n (Table 8-1). -/
def rowAt (n : Fin 32) (e : Engine) (ph : Phys) (op : Nat) : Option Instr :=
  match op, e with
  | 0x00, _ => some (.nop n e ph)
  | 0x10, .mx => some (.ldw n ph)
  | 0x11, .mx => some (.pass n ph)
  | 0x12, .mx => some (.pscl n ph)
  | 0x13, .mx => some (.drain n ph)
  | 0x20, .vx => some (.vrun n ph)
  | 0x30, .tx => some (.tld n ph)
  | 0x31, .tx => some (.tst n ph)
  | 0x32, .tx => some (.tldw n ph)
  | 0x40, .dx => some (.dma n ph)
  | 0x41, .dx => some (.wpost n ph)
  | 0x42, .dx => some (.wwait n ph)
  | 0x43, .dx => some (.wmov n ph)
  | 0x44, .dx => some (.mrd n ph)
  | 0x45, .dx => some (.acq n ph)
  | 0x46, .dx => some (.arrw n ph)
  | 0x47, .dx => some (.lsend n ph)
  | 0x50, .sx => some (.swait n ph)
  | 0x51, .sx => some (.sadd n ph)
  | 0x52, .sx => some (.ssub n ph)
  | 0x53, .sx => some (.bar n ph)
  | _, _ => none

/-- The head h of engine e of core n has been skipped with a reason: its tokens are pushed poisoned, its parcel is poisoned,
and the skip is counted and shown (R180). -/
def Skipped (s t : State) (n : Nat) (e : Engine) (h : Head) (reason : Nat) : Prop :=
  Pushed s t n e h true ∧ (∃ r, (t.core n).run = some r ∧ r.poisoned = true)
    ∧ t.reg Fd.coreSkipCount n = min Fd.coreSkipCount.max (s.reg Fd.coreSkipCount n + 1)
    ∧ t.reg Fd.coreSkipLastTag n = tagOf h.cmd ∧ t.reg Fd.skipInfoOpcode n = opcodeOf h.cmd
    ∧ t.reg Fd.skipInfoReason n = reason ∧ t.reg Fd.skipInfoEngine n = engCode e

/-- What a skip may change: what an issue may, the planes of a skipped LDW, and the registers of skips (R108, R180). -/
def skipMay (s : State) (n : Nat) (e : Engine) (p : Part) : Prop :=
  issueMay s n e p ∨ p = .core n .arrays ∨ ∃ f ∈ [Fd.coreSkipCount, Fd.coreSkipLastTag, Fd.skipInfoOpcode, Fd.skipInfoReason,
    Fd.skipInfoEngine], p = .reg (Fld.key f n)

/-- Context x after an event of R299 at grain g: an idle one waits for its next step. -/
def wakened (x : Ctx) (g : Nat) : Ctx :=
  if x.run = .idle ∧ x.prot = .admitted then { x with quiet := false, run := .waiting, waitFrom := g }
  else { x with quiet := false }

/-- The page lists of context c's sequences, and its page pool (R289, R290). -/
def pagesMay (s : State) (c : Nat) (p : Part) : Prop :=
  (∃ i k, (s.entry i).ctx = c ∧ (k < 4096 ∨ k < (s.entry i).npages) ∧ accessMay ((s.entry i).pages + 8 * k) 8 p)
    ∨ ∃ k, k < (s.ctx c).adm.poolSize ∧ accessMay ((s.ctx c).adm.poolBase + 8 * k) 8 p

/-- The sequences that the caravan built now takes (R292). -/
def seqsOf (s : State) (c : Nat) (k : Option Nat) : List CarSeq := ((chooseSeqs c k : M s _) ⟨s, .refl⟩).1

/-- The pages that a close of entry i of context c reads in its list (R289). -/
def pagesRead (s : State) (c i : Nat) : List Nat :=
  ((readPages (.step c) (s.entry i) (List.range (s.entry i).npages) : M s _) ⟨s, .refl⟩).1

/-- The segment with which core n starts parcel p of a caravan that serves model slot k: the one that its buffer holds, else the
one that is fetched now (R169, R296). -/
def segmentOf (s : State) (n k : Nat) (p : Parcel) : SegBuf :=
  match (s.core n).segBuf.filter fun b => b.parcel = p with
  | some b => b
  | none => ((fetchSeg k p : M s SegBuf) ⟨s, .refl⟩).1

/-- The object check of context c's step end finds an object that the program did not leave as it must (R283). -/
def hasResidue (s : State) (c : Nat) : Bool :=
  ((s.ownSems c).any fun k => (s.sem k).count ≠ (s.sem k).init) || (s.ownBars c).any fun i => (s.bar i).residue

/-- The pending change that a well-formed PROPOSE r of this record makes (R374). -/
def proposed (s : State) (r : Req) (parties : List Nat) : Change :=
  let b := (fetched s .firmware (leAt r.payload 8 8) (leAt r.payload 16 2)).gread (leAt r.payload 8 8) (leAt r.payload 16 2)
  { id := freeChange (s.fw.changes.map (·.id)) 16 s.fw.nextId, kind := leAt r.payload 0 1, token := leAt r.payload 2 2,
    digest := digestOf (leAt r.payload 0 1) b,
    deadline := grainAdd r.rung (if leAt r.payload 4 4 = 0 then 65536 else leAt r.payload 4 4), record := b,
    proposer := r.pair, parties := parties, committed := if parties = [r.pair] then [] else [r.pair] }

/-- s with a message queued on a link, where there is one and it carries ring messages (Table 14-7). -/
def relayed (s : State) (l : Option Nat) (m : LCtl) : State :=
  match l with
  | some o => if s.linkHas o 6 then { s with ctl := tabSet s.ctl o (tabGet [] s.ctl o ++ [m]) } else s
  | none => s

/-- s with a message queued on a link. -/
def queuedOn (s : State) (l : Nat) (m : LCtl) : State := { s with ctl := tabSet s.ctl l (tabGet [] s.ctl l ++ [m]) }

/-- Core n of t has been fenced since s (R401, R402). -/
def FencedNow (s t : State) (n : Nat) : Prop :=
  t.fenced n = true ∧ t.coreInc n = (s.coreInc n + 1) % 256 ∧ (t.core n).run = none ∧ (t.core n).home = []
    ∧ (t.core n).stolen = none ∧ (t.core n).mcache = [] ∧ (t.core n).outW = [] ∧ t.halted n = false
    ∧ (∀ k, inCore n k = true → (s.sem k).alloc = true → (t.sem k).gone = true)
    ∧ ∀ i, (s.bar i).alloc = true → (s.bar i).member = true → bit (s.bar i).mask n = true → (t.bar i).gone = true

end Sys2Proof.Said

open Sys2Proof.Said

/-! ### The machine -/

/-- A step takes the command at the front of the queue and carries it out with the queue's rest; on an empty queue the block
idles, which is the model's choice (assumption log 4). -/
def Obligations.StepRunsFrontCommand : Prop :=
  (∀ (c : Instr) (rest : List Instr) (s : State), step { s with pending := c :: rest } = exec c { s with pending := rest })
    ∧ ∀ s : State, s.pending = [] → step s = .next s

/-- No command changes the queue, and none is refused; a command ends in a next state, but for replies and credits that no
request of the block explains and frames of a module that the package does not have, which stop with a fault. The model's
own choices that it rests on: assumption log entry 6. -/
def Obligations.CommandsEndAndKeepQueue : Prop :=
  ∀ (i : Instr) (s : State), (∃ t, exec i s = .next t ∧ t.pending = s.pending)
    ∨ (mayStop i ∧ (exec i s = .fault .absentModule ∨ ∃ row, exec i s = .fault (.portContract row)))

/-- The invariant holds after reset: every register field is at its reset value, no byte of memory is written, no context is
admitted, no core is assigned and nothing waits. That unwritten memory reads zero is the model's choice (assumption log 2). -/
def Obligations.ResetMeetsInvariant : Prop :=
  State.reset.Inv ∧ (∀ (f : Fld) (ch : Nat), State.reset.reg f ch = f.reset) ∧ (∀ a, State.reset.gbyte a = 0)
    ∧ (∀ c, (State.reset.ctx c).prot = .free) ∧ (∀ n, (State.reset.core n).ctx = none) ∧ State.reset.pending = []

/-- Every step keeps the invariant, from every state that meets it: memories and tables stay in canonical form, and every
register field holds a value of its width. -/
def Obligations.StepKeepsInvariant : Prop := ∀ s t : State, s.Inv → step s = .next t → t.Inv

/-- A tenant reaches no context but its own: a command of its on a context that is not admitted or that another tenant owns is
answered NO_CTX and changes the reply alone (R373). -/
def Obligations.TenantReachesOwnContextsOnly : Prop :=
  ∀ (i : Instr) (op : Nat) (c : Fin 8) (r : Req) (s : State), ctxRow i = some (op, c) → s.alive = true →
    s.serving op = some r → (s.pair r.pair).epoch = r.epoch → r.pair ≠ 0 →
    ((s.ctx c).prot ≠ .admitted ∨ (s.ctx c).adm.tenant ≠ r.pair) →
    ∃ t, exec i s = .next t ∧ Answered s t r .noCtx 0 [] ∧ SameBut (replied r) s t

/-! ### Registers -/

/-- COMMIT of each block (R391): the requester's staged values of the block, and of its selected core where the block is one
of the core window's, become one set that waits for its point; with nothing staged there is no effect. A committed set whose
point has come is applied whole: every field that it names holds its value (R391), or the one as which the map says that the
value takes effect (R12): LOSS_LIMIT, XMISS_EXP and TRACE_CFG.LOG within their ranges, SNAP_CFG.IV_MIN not above IV_MAX. A set
that breaks a consistency rule is not applied at all, and HP_ERR_LAST records kind 8, STAGE, for a host's set. The model's own
choices that it rests on: assumption log entries 15 and 36. -/
def Obligations.CommitsTakeAndApply : Prop :=
  (∀ (b : Block) (r : Requester) (s : State), s.takes r = true → s.accessKind r (commitAddr b) 4 true = none →
    exec (commitOf r b) s = .next
      (if (s.staged.filter (s.commits r b)).isEmpty then { s with hostResp := answer 0 false }
      else { s with
        staged := s.staged.filter fun x => !s.commits r b x,
        sets := s.sets ++ [{
          block := b,
          chan := (match b with
            | .tile | .mx | .num | .vx | .prog | .sp => s.reg Fd.coreSelCore (reqChan r)
            | _ => 0),
          hsrc := reqCode r, vals := s.staged.filter (s.commits r b), dueAt := s.commitDue b, ready := !stepBlock b }],
        hostResp := answer 0 false }))
  ∧ (∀ (b : Block) (chan : Nat) (c : CommitSet) (s : State), s.alive = true →
    (s.sets.find? fun c => c.block = b && c.chan = chan) = some c → c.due s = true →
    (c.breach s = false → (∀ v ∈ c.vals, v.fld ∈ Fd.all ∧ v.fld.acc = .rws) →
      (c.vals.map fun v => v.fld.key v.chan).Nodup →
      ∃ t, exec (.stagedSetApply b chan) s = .next t ∧ t.sets = s.sets.erase c
        ∧ ∀ v ∈ c.vals, t.reg v.fld v.chan = (let x := inForce v.fld v.val % 2 ^ v.fld.width
            if v.fld = Fd.snapCfgIvMin ∧ v.chan % 65536 = 0 then min x (t.reg Fd.snapCfgIvMax) else x))
    ∧ (c.breach s = true →
      exec (.stagedSetApply b chan) s = .next
        (let t := { s with sets := s.sets.erase c }
        if c.hsrc = 0 then t
        else (Eff.reg Fd.hpErrLastAddr 0 (commitAddr c.block)).apply <|
          (Eff.reg Fd.hpErrLastHsrc 0 (c.hsrc - 1)).apply <| (Eff.reg Fd.hpErrLastKind 0 8).apply t)))

/-- A plain write that breaks no rule writes each field of its register under the field's access code (R12); while TAKEN is
1, a host's write of MB_REQ writes nothing and is counted with kind 5 (R368). A host access that breaks a rule of R365 reads
as zero, writes nothing, is counted once in HP_ERR with the first kind that applies, and completes with an error for a
refused access, a width or alignment error, or a write to a reserved address. The model's own choices that it rests on:
assumption log entries 29 and 37. -/
def Obligations.WritesFollowAccessCodes : Prop :=
  (∀ (r : Requester) (addr : Nat) (v : Word) (s : State), s.takes r = true → s.accessKind r addr 4 true = none →
    exec (accessOf r addr 4 true v) s = .next
      (match s.reqLocked addr, r with
      | true, .host h => { hostError 5 h.val addr s with hostResp := answer 0 false }
      | _, _ =>
        { (regFields addr).foldl (fieldWritten r addr v.toNat) s with hostResp := answer 0 false }))
  ∧ (∀ (a : Access) (h : Fin 16) (k : Nat) (s : State), a.req = .host h → s.takes a.req = true →
    s.accessKind a.req a.addr a.width a.write = some k →
    exec (.registerWrite a) s = .next { hostError k h.val a.addr s with
      hostResp := answer 0 (k = 3 || k = 1 || (k = 2 && a.write)) })

/-- A read answers the word that the register shows; a read of GRAIN_NOW_LO latches GRAIN_NOW_HI and a read of
STU_CTX_JOBS_LO latches JOBS_HI, each for its requester (R53, R311). -/
def Obligations.ReadsAnswerAndLatch : Prop :=
  ∀ (r : Requester) (s : State), s.takes r = true →
    (∀ a, s.accessKind r a 4 false = none → a ≠ 0x8800 → a ≠ 0x7030 →
      exec (accessOf r a 4 false 0) s = .next { s with hostResp := answer (s.regWord (reqChan r) a) false })
    ∧ exec (.grainNowLoRead r) s = .next
      (match s.accessKind r 0x8800 4 false, r with
      | none, _ => { (Eff.reg Fd.grainNowHiCountHi (reqChan r) (s.tb.now / 2 ^ 32)).apply s with
          hostResp := answer (s.regWord (reqChan r) 0x8800) false }
      | some k, .host h => { hostError k h.val 0x8800 s with hostResp := answer 0 (k = 3 || k = 1) }
      | some k, .firmware => { s with hostResp := answer 0 (k = 3 || k = 1) })
    ∧ exec (.stuCtxJobsLoRead r) s = .next
      (match s.accessKind r 0x7030 4 false, r with
      | none, _ =>
        { (Eff.reg Fd.stuCtxJobsHiJobsHi (reqChan r) ((s.ctx (s.reg Fd.stuCtxSelCtx (reqChan r))).jobs / 2 ^ 32)).apply s with
          hostResp := answer (s.regWord (reqChan r) 0x7030) false }
      | some k, .host h => { hostError k h.val 0x7030 s with hostResp := answer 0 (k = 3 || k = 1) }
      | some k, .firmware => { s with hostResp := answer 0 (k = 3 || k = 1) })

/-! ### Debug -/

/-- TILE_DBG_GO with GO: under a consent that covers the core's context, or by the firmware for an unassigned core, a
capture of the named row waits and DENIED is 0; else DENIED is set and nothing waits (R78). TILE_DBG_CAPTURE_DONE copies the
whole requested row into the debug buffer and sets DONE (R63, R78); where a half-row fails its check, TILE_ECC counts it and a
TILE_CHECK record is written, like at every read (R72). The model's own choices that it rests on: assumption log entries 29
and 105. -/
def Obligations.TileCaptureUnderConsent : Prop :=
  (∀ (r : Requester) (v : Word) (s : State), s.takes r = true → s.accessKind r 0x2220 4 true = none → bit v.toNat 31 = true →
    ∃ t, exec (.tileDbgGo r v) s = .next t
      ∧ (let n := s.reg Fd.coreSelCore (reqChan r)
        t.reg Fd.tileDbgCtrlDone n = 0
        ∧ (if s.mayDebug r n || ((s.core n).ctx.isNone && r = .firmware) then
            (t.core n).capture = some (bits v.toNat 15 11, bits v.toNat 10 5) ∧ t.reg Fd.tileDbgCtrlDenied n = 0
          else (t.core n).capture = none ∧ t.reg Fd.tileDbgCtrlDenied n = 1)
        ∧ SameBut (fun p => p = .core n .tiles ∨ p = .resp ∨ ∃ k, p = .reg k ∧ (Fd.tileDbgCtrlTreg.has k
            ∨ Fd.tileDbgCtrlRow.has k ∨ Fd.tileDbgCtrlWord.has k ∨ Fd.tileDbgCtrlDone.has k ∨ Fd.tileDbgCtrlDenied.has k)) s t))
  ∧ (∀ (core : Fin 32) (ph : Phys) (x : Nat × Nat) (s : State), s.alive = true → (s.core core).capture = some x →
    (ph.upsets.filter fun u => u.unit = x.1 && u.row = x.2) = [] →
    let row := (s.core core).tile x.1 x.2
    let bad := (if row.syn0 = 0 then 0 else 1) + (if row.syn1 = 0 then 0 else 1)
    let done (u : State) : State := (Eff.reg Fd.tileDbgCtrlDone core 1).apply <|
      (Eff.core core { u.core core with capture := none, capBuf := slice row.data 0 128 }).apply u
    (bad = 0 → exec (.tileDbgCaptureDone ⟨core, ph⟩) s = .next (done s))
    ∧ (bad ≠ 0 → ∃ t, exec (.tileDbgCaptureDone ⟨core, ph⟩) s = .next t
      ∧ t.core core = { s.core core with capture := none, capBuf := slice row.data 0 128 }
      ∧ t.reg Fd.tileDbgCtrlDone core = 1
      ∧ t.reg Fd.tileEccUncorr core = min Fd.tileEccUncorr.max (s.reg Fd.tileEccUncorr core + bad)
      ∧ SameBut (fun p => s.noted p ∨ p = .core core .tiles ∨ p = .reg (Fd.tileDbgCtrlDone.key core)
          ∨ p = .reg (Fd.tileEccUncorr.key core)) s t))

/-- DBG_HALT: a bit set requests a halt of a core under consent, or sets its DBG_DENIED bit; a bit cleared releases the core
(R419). DEBUG_HALT_TAKEN halts a core whose halt is wanted, under consent, at an instruction boundary (R76). DBG_STEP gives
a halted core under consent one issue on each engine. DEBUG_CONSENT_EXPIRY ends a consent whose last grain has come and
releases every core that the context holds (R388). The model's own choices that it rests on: assumption log entry 29. -/
def Obligations.HaltsLastWithConsent : Prop :=
  (∀ (r : Requester) (w : Word) (n : Fin 32) (s : State), s.alive = true →
    (s.takes r = true → s.accessKind r 0xA014 4 true = none → ∃ t, exec (.dbgHalt r w) s = .next t
      ∧ (bit w.toNat n = true → s.mayDebug r n = true → bit t.dbg.wanted n = true)
      ∧ (bit w.toNat n = true → s.mayDebug r n = false → bit (t.reg Fd.dbgDeniedCores) n = true)
      ∧ (bit w.toNat n = false → t.halted n = false ∧ bit t.dbg.wanted n = false))
    ∧ (bit s.dbg.wanted n = true → s.halted n = false → (∃ k, (s.core n).ctx = some k ∧ s.consented k = true) →
      (s.core n).atBoundary = true → ∃ t, exec (.debugHaltTaken n) s = .next t ∧ t.halted n = true)
    ∧ (s.takes r = true → s.accessKind r 0xA018 4 true = none → bit w.toNat n = true →
      s.mayDebug r n = true → s.halted n = true → ∃ t, exec (.dbgStep r w) s = .next t
        ∧ t.halted n = false ∧ bit t.dbg.stepping n = true ∧ ∀ e, t.dbg.steps.contains (n * 8 + engCode e) = true))
  ∧ (∀ (c : Fin 8) (d : Nat × Nat) (s : State), s.alive = true → (s.ctx c).consent = some d → reached s.tb.now d.2 = true →
    ∃ t, exec (.debugConsentExpiry c) s = .next t ∧ (t.ctx c).consent = none
      ∧ ∀ n, n < 32 → (s.core n).ctx = some c.val → t.halted n = false)

/-- Manual actions on the selected object (R284): SET writes a semaphore's COUNT; RELEASE completes the current phase of a
CLUSTER barrier, whose phase bit flips and whose releases go out poisoned, and leaves a barrier alone whose top node is in
another cluster; CLEAR zeroes a barrier's counters and PENDs and clears POISON and GONE. Each sets DONE. The model's own
choices that it rests on: assumption log entries 29, 61 and 113. -/
def Obligations.ManualActionsTakeEffect : Prop :=
  ∀ (r : Requester) (s : State), s.takes r = true → s.accessKind r 0x6058 4 true = none →
    (∀ k, s.dbgObj (reqChan r) = .sem k → s.dbgMay r (.sem k) = true →
      ∃ t, exec (.syncSet r) s = .next t ∧ t.reg Fd.syncDbgCtrlDone = 1
        ∧ (t.sem k).count = s.reg Fd.syncDbgValueValue)
    ∧ (∀ i, s.dbgObj (reqChan r) = .bar i → s.dbgMay r (.bar i) = true →
      (∃ t, exec (.syncRelease r) s = .next t ∧ t.reg Fd.syncDbgCtrlDone = 1
        ∧ ((s.bar i).scope = 0 → (s.bar i).next ≠ (s.bar i).expected →
          (t.bar i).phase = (!(s.bar i).phase) ∧ (t.bar i).cur = (s.bar i).next ∧ (t.bar i).next = 0
          ∧ ∀ n, n < 32 → bit (s.ctx (s.bar i).owner).adm.mask n = true →
            (⟨nodeHub, n, s.coreInc n, .release i (s.bar i).phase true⟩ : Msg) ∈ t.msgs)
        ∧ ((s.bar i).topHere = false → t.bar i = s.bar i))
      ∧ (∃ t, exec (.syncClear r) s = .next t ∧ t.reg Fd.syncDbgCtrlDone = 1 ∧ (t.bar i).cur = 0 ∧ (t.bar i).next = 0
        ∧ (t.bar i).poison = false ∧ (t.bar i).gone = false ∧ (t.bar i).phase = (s.bar i).phase
        ∧ (t.bar i).pkgNode.cur = 0 ∧ (t.bar i).pkgNode.next = 0 ∧ (t.bar i).root.cur = 0 ∧ (t.bar i).root.next = 0
        ∧ ∀ kv ∈ (t.bar i).leaves, kv.2.pend = 0))

/-! ### Power, clocks, resets -/

/-- The clock-step sources (R427 to R430): PCAP_STEP takes the package's step; a droop sets the droop step to 4 and counts
an event where no episode runs; HOLD grains after VDDC recovered the droop step falls by one per grain; every 256 grains the
thermal step follows the hottest sensor; each grain the governor's bucket and step follow the estimated power. The clock
step in force is the largest of its five sources, PCAP and CLK_CTRL.LIMIT each at most 4, and CLK_STATUS.SRC shows each that
equals it (R427). -/
def Obligations.ClockStepsFollowTheirSources : Prop :=
  (∀ (s : State), s.alive = true →
    (∀ k : Fin 8, exec (.pcapStep k) s = .next { s with pw := { s.pw with pcap := k.val } })
    ∧ exec .droopEvent s = .next
      (let t := if s.pw.droop = 0 then
          { (Eff.reg Fd.droopCntEvents 0 (min Fd.droopCntEvents.max (s.reg Fd.droopCntEvents + 1))).apply s with
            health := { s.health with droop := s.health.droop + 1 } }
        else s
      { t with pw := { s.pw with droop := 4, vddcOk := none } })
    ∧ (∀ above : BitVec 48, s.pw.droop ≠ 0 → reached s.tb.now (grainAdd above.toNat s.droopHold) = true →
      4 - min 4 (grainSub s.tb.now (grainAdd above.toNat s.droopHold) + 1) < s.pw.droop →
      exec (.droopStepDown above) s = .next { s with pw := { s.pw with
        droop := 4 - min 4 (grainSub s.tb.now (grainAdd above.toNat s.droopHold) + 1), vddcOk := some above.toNat } })
    ∧ (∀ above : BitVec 48, reached s.tb.now (grainAdd above.toNat s.droopHold) = false →
      exec (.droopStepDown above) s = .next s)
    ∧ (∀ tj : Nat, elapsed s.tb.now s.pw.thermAt 256 = true → ∃ t, exec (.thermalStep tj) s = .next t
      ∧ t.pw = { s.pw with
          therm := (if s.thermLimit ≤ tj then min 4 (s.pw.therm + 1)
            else if tj + 5 ≤ s.thermLimit then s.pw.therm - 1 else s.pw.therm),
          thermAt := s.tb.now, thermTrip := 115 ≤ tj }
      ∧ t.reg Fd.thermTj = min 255 tj
      ∧ SameBut (fun p => p = .pw ∨ p = .reg (Fd.thermTj.key 0) ∨ p = .reg (Fd.thermTjMax.key 0)) s t)
    ∧ (∀ d l : Nat, exec (.governorUpdate d l) s = .next
      { (Eff.reg Fd.pwrEstPower 0 (d + l)).apply s with pw := { s.pw with
          bucket := s.bucketAfter (d + l), gov := s.govAfter d l,
          govAt := if s.govAfter d l = s.pw.gov then s.pw.govAt else s.tb.now } }))
  ∧ (∀ s : State, s.clkStep = max s.pw.therm (max s.pw.droop (max s.pw.gov (max (min 4 s.pw.pcap)
    (min 4 (s.reg Fd.clkCtrlLimit)))))
    ∧ ∀ q, s.shown q 0x8010 0 Fd.clkStatusSrc = b2n (s.pw.therm = s.clkStep) + 2 * b2n (s.pw.droop = s.clkStep)
      + 4 * b2n (s.pw.gov = s.clkStep) + 8 * b2n (min 4 s.pw.pcap = s.clkStep)
      + 16 * b2n (min 4 (s.reg Fd.clkCtrlLimit) = s.clkStep))

/-- The pins of power and control (R423, R425, R433, R436): each edge of PWR_OK, and CTRL_EN's while PWR_OK is high, is a
cold reset in which all state is lost but the memory stacks; CTRL_EN's edges while PWR_OK is low only change the pin. A
core's domain that is switched on becomes ready with its state zeroed (R424); one that is on, not fenced, in no core mask
for 2^16 grains is powered off and holds nothing (R425). The model's own choices that it rests on: assumption log entries 2
and 85. -/
def Obligations.PowerSwitchesZeroed : Prop :=
  (∀ s : State,
    let cold (p c : Bool) : State := { State.reset with
      pw := { pwrOk := p, ctrlEn := c, pcap := s.pw.pcap }, gmem := s.gmem, written := s.written, freeCtr := s.freeCtr,
      pending := s.pending }
    (s.pw.pwrOk = false → exec .pwrOkRise s = .next (cold true s.pw.ctrlEn))
    ∧ (s.pw.pwrOk = true → exec .pwrOkFall s = .next (cold false s.pw.ctrlEn))
    ∧ (s.pw.ctrlEn = false → s.pw.pwrOk = true →
      exec .ctrlEnRise s = .next ((Eff.reg Fd.rstCauseKind 0 1).apply (cold true true)))
    ∧ (s.pw.ctrlEn = true → s.pw.pwrOk = true → exec .ctrlEnFall s = .next (cold true false))
    ∧ (s.pw.ctrlEn = false → s.pw.pwrOk = false → exec .ctrlEnRise s = .next { s with pw := { s.pw with ctrlEn := true } })
    ∧ (s.pw.ctrlEn = true → s.pw.pwrOk = false → exec .ctrlEnFall s = .next { s with pw := { s.pw with ctrlEn := false } }))
  ∧ (∀ (n : Fin 32) (s : State), s.alive = true → bit (s.reg Fd.corePwrOn) n = true →
    (bit (s.reg Fd.corePwrStReady) n = false →
      ∃ t, exec (.coreDomainReady n) s = .next t ∧ t.core n = {} ∧ bit (t.reg Fd.corePwrStReady) n = true
        ∧ SameBut (fun p => (∃ c, p = .core n c) ∨ p = .reg (Fd.corePwrStReady.key 0)) s t)
    ∧ (s.fenced n = false → s.masked n = false → elapsed s.tb.now (tabGet 0 s.pw.idleFrom n) 65536 = true →
      ∃ t, exec (.corePowerOff n) s = .next t ∧ t.spad n = {} ∧ (t.core n).tiles = [] ∧ (t.core n).run = none
        ∧ bit (t.reg Fd.corePwrOn) n = false ∧ bit (t.reg Fd.corePwrStReady) n = false
        ∧ ∀ m, m ≠ n.val → t.core m = s.core m ∧ t.spad m = s.spad m))

/-- Start-up (R436, R437): when internal reset is released the PLL is locked, the stage is 1 and the firmware state is as
reset left it; when self-test ends, DONE, PASS and CORES_FAILED hold its result, the stage is 3, and each core that failed
is fenced. The model's own choices that it rests on: assumption log entries 3 and 82. -/
def Obligations.StartUpStages : Prop :=
  ∀ (failed : Word) (ok : Bool) (s : State),
    (s.pw.pwrOk = true → s.pw.ctrlEn = true → s.pw.released = false →
      ∃ t, exec .internalResetRelease s = .next t ∧ t.alive = true ∧ t.reg Fd.clkStatusPllLock = 1
        ∧ t.reg Fd.pwrStatusStage = 1 ∧ t.fwState = s.fwState
        ∧ SameBut (fun p => p = .pw ∨ p = .reg (Fd.clkStatusPllLock.key 0) ∨ p = .reg (Fd.pwrStatusStage.key 0)) s t)
    ∧ (s.alive = true → s.pw.selfTest = true →
      ∃ t, exec (.selftestDone failed ok) s = .next t ∧ t.reg Fd.selftestDone = 1 ∧ t.reg Fd.selftestPass = b2n ok
        ∧ t.reg Fd.selftestCoresFailed = failed.toNat ∧ t.reg Fd.pwrStatusStage = 3 ∧ t.pw.selfTest = false
        ∧ ∀ n : Fin 32, bit failed.toNat n = true → t.fenced n = true)

/-- A warm reset, by its pin or by RST_CTRL.WARM, where none is held and no INC advanced within 4096 grains (R433, R434):
every context, entry, model, object, core and scratchpad is as after reset, the grain count stays, every port unit's INC and
every unfenced core's has advanced, WARMS counts it and KIND names its cause. The model's own choices that it rests on:
assumption log entry 84. -/
def Obligations.WarmResetLosesAllButTheKept : Prop :=
  ∀ (r : Requester) (s : State), s.alive = true → (s.resets.held.any fun h => h.1 == .warm) = false →
    s.mustHold .warm = false →
    (∃ t, exec .warmRstN s = .next t ∧ t.reg Fd.rstCauseKind = 2 ∧ Warmed s t)
    ∧ (s.takes r = true → s.accessKind r 0x8040 4 true = none →
      ∃ t, exec (.warmReset r) s = .next t ∧ t.reg Fd.rstCauseKind = 3 ∧ Warmed s t)

/-- CORE_RST (R435, R405): a core named that is not fenced is fenced, so that its INC advances and its reset is held; one
that is fenced already is reset where its INC has not advanced within 4096 grains, else its reset is held. A reset zeroes the
core but for its protection tables, takes its objects away, and starts its self-test. CORE_SELFTEST_DONE with a pass clears
its fence and places the constant images of the resident models again; with a failure the core stays as it was, fenced where
it was fenced, and is marked failed. The model's own choices that it rests on: assumption log entries 82 and 83. -/
def Obligations.CoreResetFencesAndTests : Prop :=
  ∀ (r : Requester) (w : Word) (n : Fin 32) (s : State), s.alive = true →
    (s.takes r = true → s.accessKind r 0x8044 4 true = none → bit w.toNat n = true → bit s.resets.testing n = false →
      ∃ t, exec (.coreRst r w) s = .next t
        ∧ (s.fenced n = false → FencedNow s t n ∧ (t.resets.held.any fun h => h.1 == .core n) = true)
        ∧ (s.fenced n = true → (s.resets.held.any fun h => h.1 == .core n) = false →
          (s.mustHold (.core n) = false → WasReset 0 s t (.core n)
            ∧ (t.resets.held.any fun h => h.1 == .core n) = false)
          ∧ (s.mustHold (.core n) = true → (.core n, 0) ∈ t.resets.held ∧ bit t.resets.testing n = false)))
    ∧ (bit s.resets.testing n = true →
      (∃ t, exec (.coreSelftestDone n true) s = .next t ∧ t.fenced n = false ∧ bit t.resets.testing n = false
        ∧ bit (t.reg Fd.selftestCoresFailed) n = false
        ∧ ((∀ k, k < 16 → (s.model k).st = .resident → bit (s.ctx (s.model k).ctx).adm.mask n = false) →
          SameBut (fun p => p = .resets ∨ p = .reg (Fd.selftestCoresFailed.key 0) ∨ p = .reg (Fd.fencedCores.key 0)) s t)
        ∧ (∀ m, m ≠ n.val → t.core m = s.core m ∧ t.spad m = s.spad m) ∧ t.core n = s.core n)
      ∧ (∃ t, exec (.coreSelftestDone n false) s = .next t ∧ t.fenced n = s.fenced n ∧ bit t.resets.testing n = false
        ∧ bit (t.reg Fd.selftestCoresFailed) n = true
        ∧ SameBut (fun p => s.noted p ∨ p = .resets ∨ p = .reg (Fd.selftestCoresFailed.key 0)) s t))

/-- PORT_RST resets each unit named that is there and whose INC has not advanced within 4096 grains (R404, R405, R407, R435):
an M-port station has no credits and nothing outstanding, an N-port module and every L-port link train again, the H-port
drops its requests and replies, and the unit's INC advances; one whose INC has is held. A held reset of any unit starts once
its 4096 grains have passed, does the same, and leaves the held list. The model's own choices that it rests on: assumption
log entry 83. -/
def Obligations.PortResetsAdvanceInc : Prop :=
  ∀ (r : Requester) (w : Word) (s : State), s.alive = true →
    (s.takes r = true → s.accessKind r 0x8048 4 true = none → ∃ t, exec (.portRst r w) s = .next t
      ∧ ∀ (u : ResetUnit) (i : Nat), portBit u = some i → bit w.toNat i = true →
        (s.resets.held.any fun h => h.1 == u) = false →
        (s.mustHold u = false → WasReset 0 s t u ∧ (t.resets.held.any fun h => h.1 == u) = false)
        ∧ (s.mustHold u = true → (u, 0) ∈ t.resets.held))
    ∧ (∀ (u : ResetUnit) (k : Nat), (s.resets.held.find? fun h => h.1 == u) = some (u, k) → s.mustHold u = false →
      ∃ t, exec (.heldResetStart u) s = .next t ∧ WasReset k s t u ∧ (t.resets.held.any fun h => h.1 == u) = false)

/-! ### The mailbox exchange and the aperture -/

/-- A write of RING by the pair's host submits its request: TAKEN is set and the pair is rung; while TAKEN is 1 it is only
counted (R368). A write of ACK clears VALID and TAKEN. A reply not acknowledged for 2^20 grains is discarded and counted
with kind 6 (R370). -/
def Obligations.RingAckAndDiscard : Prop :=
  ∀ (h : Fin 16) (p : Fin 8) (s : State), s.takes (.host h) = true →
    (s.accessKind (.host h) (0x1078 + 256 * p) 4 true = none → s.answers p h = true →
      exec (.mailboxRing h p) s = .next
        (if s.reg Fd.mbStatusTaken p = 1 then { hostError 5 h.val (0x1078 + 256 * p) s with hostResp := answer 0 false }
        else { (Eff.pair p { s.pair p with rung := some s.tb.now }).apply ((Eff.reg Fd.mbStatusTaken p 1).apply s) with
          hostResp := answer 0 false }))
    ∧ (s.accessKind (.host h) (0x10FC + 256 * p) 4 true = none → s.answers p h = true → s.reg Fd.mbRepStatusValid p = 1 →
      exec (.replyAck h p) s = .next
        { (Eff.reg Fd.mbStatusTaken p 0).apply ((Eff.reg Fd.mbRepStatusValid p 0).apply s) with hostResp := answer 0 false })
    ∧ (s.reg Fd.mbRepStatusValid p = 1 → elapsed s.tb.now (s.pair p).validAt (2 ^ 20) = true →
      ∃ h' a, exec (.replyDiscard p) s = .next (hostError 6 h' a
        ((Eff.reg Fd.mbStatusTaken p 0).apply ((Eff.reg Fd.mbRepStatusValid p 0).apply s))))

/-- The firmware takes the next rung pair in round-robin order when it serves none: a request whose header is in order
stands in service, any other is answered at once with the first status that its header breaks (R369, R371 to R373). The
model's own choices that it rests on: assumption log entries 12 and 13. -/
def Obligations.TakeServesOrAnswers : Prop :=
  ∀ (p : Nat) (s : State), s.alive = true → s.nextPair = some p → s.fwFree = true →
    ∃ t, exec .mailboxTake s = .next t ∧ t.fw = { s.fw with lastPair := p } ∧ (t.pair p).rung = none
      ∧ (if s.headerStatus p (s.request p) = .ok then
          (t.pair p).service = some (reqOf p (s.pair p).epoch ((s.pair p).rung.getD 0) (s.request p))
        else Answered s t (reqOf p (s.pair p).epoch ((s.pair p).rung.getD 0) (s.request p)) (s.headerStatus p (s.request p)) 0 [])
      ∧ SameBut (fun x => x = .fw ∨ x = .pair p ∨ ∃ k, x = .reg k ∧ k % 65536 = p) s t

/-- The firmware's own commands, with their request in service (R373, R364, R438): HELLO answers the version, the ABIs,
CLUSTER_ID and the pair; BIND_PAIR binds a free pair to a host source and an aligned staging region, or unbinds one;
OPEN_TENANTS opens the cluster when nothing is lacking, or answers what is. SYNC_DUMP, from the debugger that the context's
consent names, writes the state of the context's objects at the address given and answers OK (R284, R388). The model's own
choices that it rests on: assumption log entries 11, 58 and 60. -/
def Obligations.FirmwareCommandsAct : Prop :=
  (∀ (r : Req) (s : State), s.alive = true → (s.pair r.pair).epoch = r.epoch →
    (s.serving 0x01 = some r → ∃ t, exec .hello s = .next t
      ∧ Answered s t r .ok 0 (toLe (s.reg Fd.fwVersionVersion) 4 ++ toLe 0x0C 1 ++ toLe (s.regWord 0 0) 4 ++ toLe r.pair 1)
      ∧ SameBut (replied r) s t)
    ∧ (∀ (p : Fin 8) (h : Fin 16) (a : BitVec 64), s.serving 0x02 = some r → p.val ≠ 0 → p.val ≠ r.pair →
      s.ownsCtx p = false → s.hsrcTaken p h = false → a.toNat % 2 ^ 20 = 0 →
      overlap a.toNat (2 ^ 20) Config.spaBase (2 ^ 31) = false → ∃ t, exec (.bindPair p h true a) s = .next t
        ∧ Answered s t r .ok 0 [] ∧ (t.pair p).bound = true ∧ (t.pair p).hsrc = h.val ∧ (t.pair p).staging = a.toNat)
    ∧ (∀ (p : Fin 8) (h : Fin 16) (a : BitVec 64), s.serving 0x02 = some r → p.val ≠ 0 → p.val ≠ r.pair →
      s.ownsCtx p = false → ∃ t, exec (.bindPair p h false a) s = .next t ∧ Answered s t r .ok 0 []
        ∧ (t.pair p).bound = false)
    ∧ (s.serving 0x03 = some r → ∃ t, exec .openTenants s = .next t
      ∧ (if s.openLacks = 0 then Answered s t r .ok 0 [] ∧ t.fwState = 2 ∧ t.reg Fd.pwrStatusStage = 5
        else Answered s t r .refused s.openLacks [] ∧ SameBut (replied r) s t)))
  ∧ (∀ (c : Fin 8) (a : BitVec 64) (r : Req) (s : State), s.Inv → s.alive = true → (s.pair r.pair).epoch = r.epoch →
    s.serving 0x38 = some r → (s.ctx c).prot = .admitted → ((s.ctx c).consent.map (·.1)) = some (s.pair r.pair).hsrc →
    s.mayWriteTo r a.toNat (((s.syncDump c).length + 63) / 64 * 64) = true →
    ∃ t, exec (.syncDump c a) s = .next t ∧ Answered s t r .ok 0 []
      ∧ (∀ i, i < (s.syncDump c).length → t.gbyte (a.toNat + i) = (s.syncDump c).getD i 0)
      ∧ ∀ b, b < a.toNat ∨ a.toNat + ((s.syncDump c).length + 63) / 64 * 64 ≤ b → t.gbyte b = s.gbyte b)

/-- FW_LOAD with every taken request answered, no update pending, an image in range and a good signature begins an update: it
is set aside, and the state is UPDATING unless it is ROM; any other is answered BUSY, ADDRESS or REFUSED. FW_UPDATE_DONE runs
the new firmware: FW_VERSION is the image's, the state is what it was, or PLATFORM where the image is the first, and FW_LOAD
is answered OK (R361, R389). The CCP watchdog restarts the firmware (R395): the state is UPDATING until FW_UPDATE_DONE, which
returns it to the state before; in state ROM no firmware runs. The model's own choices that it rests on: assumption log entry
19. -/
def Obligations.FirmwareUpdatesAndRestarts : Prop :=
  (∀ (s : State), s.alive = true →
    (∀ (a : BitVec 64) (n v : Word) (r : Req), s.serving 0x48 = some r → s.allAnswered = true → s.fw.update = none →
      overlap a.toNat n.toNat Config.spaBase (2 ^ 31) = false → a.toNat + n.toNat ≤ gmSize → n.toNat ≠ 0 →
      n.toNat ≤ 2 ^ 21 → ∃ t, exec (.fwLoad a n true v) s = .next t
        ∧ t.fw.update = some { req := r, prev := s.fwState, version := v.toNat, start := s.tb.now }
        ∧ t.fw.imageOk = false ∧ t.fwState = (if s.fwState = 0 then 0 else 3) ∧ (t.pair r.pair).service = none)
    ∧ (∀ (a : BitVec 64) (n v : Word) (good : Bool) (r : Req), s.serving 0x48 = some r → (s.pair r.pair).epoch = r.epoch →
      s.allAnswered = true →
      let outside := overlap a.toNat n.toNat Config.spaBase (2 ^ 31) || decide (gmSize < a.toNat + n.toNat)
      let status : Option Status := if s.fw.update.isSome then some .busy else if outside then some .address
        else if good = false ∨ n.toNat = 0 ∨ 2 ^ 21 < n.toNat then some .refused else none
      ∀ st, status = some st → ∃ t, exec (.fwLoad a n good v) s = .next t ∧ Answered s t r st 0 [] ∧ SameBut (replied r) s t)
    ∧ (∀ p, s.fw.update = none → s.fw.restarting = some p → p < 4 → ∃ t, exec .fwUpdateDone s = .next t ∧ t.fwState = p
      ∧ t.fw.restarting = none ∧ t.reg Fd.fwVersionVersion = s.reg Fd.fwVersionVersion)
    ∧ (∀ u, s.fw.update = some u → u.version < 2 ^ 32 → u.prev < 4 → ∃ t, exec .fwUpdateDone s = .next t
      ∧ t.reg Fd.fwVersionVersion = u.version ∧ t.fw.image = some u.version ∧ t.fw.imageOk = true ∧ t.fw.update = none
      ∧ t.fwState = (if u.prev = 0 then 1 else u.prev)
      ∧ ((s.pair u.req.pair).epoch = u.req.epoch → t.reg Fd.mbRepStatusValid u.req.pair = 1)))
  ∧ (∀ s : State, s.alive = true → s.fwState ≠ 0 → s.fw.restarting = none →
    ∃ t, exec .ccpWatchdog s = .next t ∧ t.fwState = 3 ∧ t.fw = { s.fw with restarting := some s.fwState }
      ∧ ∀ p r, p < 8 → (s.pair p).service = some r → r.pair = p → (s.pair p).epoch = r.epoch →
        t.reg Fd.mbRepStatusValid p = 1 ∧ (t.pair p).service = none)

/-- A host write through the aperture outside the scratchpad aperture, of whole granules that memory answers with OK, writes
its bytes and no other, with good checks, and completes without error (R264, R390). A host read comes behind what reached the
stations of its granules before (R253, R259): where their checks hold it answers their bytes, else an error, which
INT_EGRESS counts; a read of the scratchpad aperture is answered with an error (R244, R394). The model's own choices that it
rests on: assumption log entries 91 and 114. -/
def Obligations.ApertureReadsAndWrites : Prop :=
  ∀ (h : Fin 16) (off : BitVec 24) (s : State), s.Inv → s.hportOpen = true →
    (∀ data, inAperture (s.aperture off.toNat) = false → s.aperture off.toNat % 64 = 0 → data.length % 64 = 0 →
      s.aperture off.toNat + data.length ≤ gmSize → ∃ t, exec (.apertureWrite h off data .ok) s = .next t
        ∧ t.hostResp = some ⟨[], false⟩
        ∧ (∀ i, i < data.length → t.gbyte (s.aperture off.toNat + i) = data.getD i 0)
        ∧ (∀ g, s.aperture off.toNat ≤ 64 * g → 64 * g < s.aperture off.toNat + data.length → t.gsyn g = 0)
        ∧ SameBut (fun p => p = .resp ∨ accessMay (s.aperture off.toNat) data.length p) s t)
    ∧ (∀ n, inAperture (s.aperture off.toNat) = false →
      let u := fetched s .host (s.aperture off.toNat) n
      exec (.apertureRead h off n .ok) s = .next
        (if u.ggood (s.aperture off.toNat) n then
          { u with hostResp := some ⟨u.gread (s.aperture off.toNat) n, false⟩ }
        else { (Eff.reg Fd.intEgressHost 0 (min Fd.intEgressHost.max (u.reg Fd.intEgressHost + 1))).apply u with
          hostResp := some ⟨u.gread (s.aperture off.toNat) n, true⟩ })
      ∧ SameBut (accessMay (s.aperture off.toNat) n) s u)
    ∧ (∀ n st, inAperture (s.aperture off.toNat) = true →
      exec (.apertureRead h off n st) s = .next { s with hostResp := some ⟨zeros n, true⟩ })

/-! ### The timebase -/

/-- A strobe (R35, R36, R39): before LOCKED was first set the count takes what it carries; from then on the count never
decreases: it takes a count that lies ahead and holds otherwise, and any but the next one is a discontinuity. Four strobes
that each carry the last one's count plus one set LOCKED. A strobe ends holdover. Holdover (R47, R48): LOSS_LIMIT cycles
without a strobe clear LOCKED and set LOSS, and the count goes on by the cycles since the last strobe, each weighed at the
clock step in force in it, never back; CYC shows the cycles of the last grain so completed; beyond the holdover limit HOLD_EXP
is set and start grains hold. The model's own choices that it rests on: assumption log entries 38 and 102. -/
def Obligations.GrainCountNeverDecreases : Prop :=
  (∀ (c : BitVec 48) (cyc : Nat) (s : State), s.alive = true →
    ∃ t, exec (.grainStrobe c cyc) s = .next t
      ∧ t.tb.now = (if s.tb.everLocked then (if ahead c.toNat s.tb.now then c.toNat else s.tb.now) else c.toNat)
      ∧ t.tb.last = some c.toNat ∧ t.tb.holdover = false
      ∧ (s.tb.everLocked = true → c.toNat ≠ grainAdd s.tb.now 1 → t.reg Fd.grainStatusDisc = 1)
      ∧ (goodStrobes s.tb c.toNat = 4 → t.reg Fd.grainStatusLocked = 1 ∧ t.tb.everLocked = true))
  ∧ (∀ (runs : List CycleRun) (last : Nat) (s : State), s.alive = true → s.tb.last = some last →
    (s.tb.holdover = false → s.lossLimit ≤ cyclesOf runs → ∃ t, exec (.holdoverEntry runs) s = .next t ∧ t.tb.holdover = true
      ∧ t.reg Fd.grainStatusLocked = 0 ∧ t.reg Fd.grainStatusLoss = 1
      ∧ t.tb.now = strobeCount (grainAdd last (weighed runs / 1680)) s.tb.now)
    ∧ (s.tb.holdover = true → ∃ t, exec (.holdoverAdvance runs) s = .next t ∧ t.tb = { s.tb with
        holdSum := s.tb.holdSum + weighed runs, holdAdv := (s.tb.holdSum + weighed runs) / 1680, holdCyc := t.tb.holdCyc,
        now := strobeCount (grainAdd last ((s.tb.holdSum + weighed runs) / 1680)) s.tb.now }
      ∧ (∀ c, (s.tb.weigh runs).last = some c → t.reg Fd.grainStatusCyc = c % 32)
      ∧ SameBut (fun p => p = .tb ∨ p = .reg (Fd.grainStatusCyc.key 0)) s t)
    ∧ (s.tb.holdover = true → s.tb.limited = false → s.holdLimit < s.tb.holdAdv →
      exec .holdoverLimit s = .next { (Eff.reg Fd.grainStatusHoldExp 0 1).apply s with tb := { s.tb with limited := true } }
      ∧ ∀ g, ({ s with tb := { s.tb with limited := true } } : State).started g = false))

/-- The timing exchange (R50): every 4096 grains a timing frame is queued on the uplink, or SYNC_ERR set where the link
cannot carry it; a neighbour's timing frame, which a link in IDENT carries too (R341), is answered with its two stamps; a
reply gives OFFSET, half of the difference of the two ways, or where that is not whole one of the two numbers beside it. The
model's own choices that it rests on: assumption log entries 38 and 103. -/
def Obligations.TimingExchangeMeasuresOffset : Prop :=
  ∀ s : State, s.alive = true →
    (s.reg Fd.grainSyncSyncEn = 1 → s.tb.timingDue = true →
      exec .timingFrameDue s = .next
        (let l := s.reg Fd.grainSyncUplink
        if s.linkHas l 0 then
          { s with tb := { s.tb with lastTiming := some s.tb.now, timingOut := true },
                   ctl := tabSet s.ctl l (tabGet [] s.ctl l ++ [.timing]) }
        else (Eff.reg Fd.grainStatusSyncErr 0 1).apply { s with tb := { s.tb with lastTiming := some s.tb.now } }))
    ∧ (∀ (l : Fin 8) (t1 t2 t3 : Nat), s.linkHas l 0 = true ∨ s.linkSt l = 3 → exec (.timing l t1 t2 t3) s = .next
        { s with ctl := tabSet s.ctl l (tabGet [] s.ctl l ++ [.timingReply t1 t2]) })
    ∧ (∀ (l : Fin 8) (t1 t2 t3 t4 : Nat), s.tb.timingOut = true → s.reg Fd.grainSyncUplink = l.val →
      ∃ t, exec (.timingReply l t1 t2 t3 t4) s = .next t
        ∧ t.tb = { s.tb with timingOut := false }
        ∧ ∃ up : Nat, up ≤ (((t2 : Int) - t1 - ((t4 : Int) - t3)) % 2).toNat
          ∧ t.reg Fd.grainOffsetOffset = ((((t2 : Int) - t1 - ((t4 : Int) - t3)) / 2 + up)
            % (2 ^ Fd.grainOffsetOffset.width : Nat)).toNat)

/-! ### Health and snapshots -/

/-- At a window's end RAW sums the weighted inputs, RISK is RAW or the old RISK less DECAY, whichever is larger, and the
counts start anew (R408); the corrected FEC symbols of each lane join LANE_STATUS.CORR in units of 2^8 (R356). The model's
own choices that it rests on: assumption log entries 94 and 118. -/
def Obligations.HealthWindowRisk : Prop :=
  ∀ (h : HealthIn) (s : State), s.alive = true → elapsed s.tb.now s.health.start 4096 = true →
    let fec := s.health.fec + h.fec.sum
    let raw := s.rawRisk (s.health.ce + h.ce) s.health.droop h.temp (s.health.link + fec / 256)
    ∃ t, exec (.healthWindow h) s = .next t
      ∧ t.reg Fd.hmRiskRaw = raw % 2 ^ Fd.hmRiskRaw.width
      ∧ t.reg Fd.hmRiskRisk = max raw (s.reg Fd.hmRiskRisk - s.reg Fd.hmCfgDecay) % 2 ^ Fd.hmRiskRisk.width
      ∧ t.health = { start := grainAdd s.health.start 4096, fec := fec % 256, lanes := t.health.lanes }
      ∧ ∀ i, i < 40 → (let n := tabGet 0 s.health.lanes i + h.fec.getD i 0
          tabGet 0 t.health.lanes i = n % 256
            ∧ t.reg Fd.laneStatusCorr i = min Fd.laneStatusCorr.max (s.reg Fd.laneStatusCorr i + n / 256))

/-- A snapshot goes through cut, drain and completion (R411 to R414): a due cut captures the entries of the included
contexts; the drain ends the capture; completion makes the snapshot the new base; a drain that met an error or ran too long
is given up and the next cut is due at once; a cut that falls due during a drain waits and is recorded once. SNAP_RESTORE
with GO reads the image through the stations (R415): one that fails a check, or meets an entry in use, sets ERR and changes
nothing else; a good one gives its context the entries that it holds, each with its draw and its SNAP_POS at its position,
counts the restore and sets DONE; without GO only the fields are written. The model's own choices that it rests on:
assumption log entries 92, 93 and 114. -/
def Obligations.SnapshotsSaveAndRestore : Prop :=
  (∀ s : State, s.alive = true →
    (s.reg Fd.snapCfgEn = 1 → reached s.tb.now s.snap.due = true → s.snap.st = 0 → ∃ t, exec .snapshotCut s = .next t
      ∧ t.snap.st = 1 ∧ t.snap.seq = s.snap.done + 1 ∧ t.snap.lastCut = s.tb.now ∧ t.entries = s.entries
      ∧ (∀ kv, kv ∈ t.snap.image ↔ kv ∈ s.entries ∧ kv.2.st ≠ .free ∧ bit (s.reg Fd.snapCfgCtxEn) kv.2.ctx = true
          ∧ (s.ctx kv.2.ctx).prot = .admitted))
    ∧ (s.reg Fd.snapCfgEn = 1 → reached s.tb.now s.snap.due = true → s.snap.st = 2 → s.snap.lateCut = false →
      ∃ t, exec .snapshotCut s = .next t ∧ t.snap = { s.snap with lateCut := true })
    ∧ (s.snap.st = 1 → ∃ t, exec .snapshotDrain s = .next t ∧ t.snap.st = 2 ∧ t.snap.drainAt = s.tb.now
      ∧ t.entries = s.entries)
    ∧ (s.snap.st = 2 → ∃ t, exec .snapshotComplete s = .next t ∧ t.snap.st = 0 ∧ t.snap.done = s.snap.seq
      ∧ t.snap.heldBack = [])
    ∧ (s.snap.st = 2 → ∃ t, exec (.drainTimeout true) s = .next t ∧ t.snap.st = 0 ∧ t.snap.done = s.snap.done
      ∧ t.snap.due = s.tb.now))
  ∧ (∀ (r : Requester) (v : Word) (s : State), s.takes r = true → s.accessKind r 0x9040 4 true = none →
    let base := s.reg64 Fd.snapImageLoAddr Fd.snapImageHiAddr + 2 ^ 20 * bits v.toNat 27 27
    let c := bits v.toNat 2 0
    let u := fetched ((Eff.reg Fd.snapRestoreDone 0 0).apply (restoreAsked s v.toNat)) .firmware base 524864
    (bit v.toNat 31 = false → exec (.snapRestore r v) s = .next { restoreAsked s v.toNat with hostResp := answer 0 false })
    ∧ (bit v.toNat 31 = true → u.restoreBad base c = true → ∃ t, exec (.snapRestore r v) s = .next t
      ∧ t.reg Fd.snapRestoreErr = 1 ∧ t.reg Fd.snapRestoreDone = 0
      ∧ SameBut (fun p => p = .resp ∨ accessMay base 524864 p ∨ ∃ k, p = .reg k ∧ (Fd.snapRestorePages.has k
          ∨ Fd.snapRestoreBuf.has k ∨ Fd.snapRestoreCtx.has k ∨ Fd.snapRestoreDone.has k ∨ Fd.snapRestoreErr.has k)) s t)
    ∧ (bit v.toNat 31 = true → u.restoreBad base c = false → ∃ t, exec (.snapRestore r v) s = .next t
      ∧ t.reg Fd.snapRestoreErr = 0 ∧ t.reg Fd.snapRestoreDone = 1
      ∧ t.reg Fd.snapFailRestores = min Fd.snapFailRestores.max (s.reg Fd.snapFailRestores + 1)
      ∧ ∀ p ∈ u.imageEntries base c, t.entry p.1 = { p.2 with draw := p.2.pos }
          ∧ tabGet 0 t.snap.snapPos p.1 = p.2.pos))

/-! ### Synchronisation -/

/-- SWAIT pushes its tokens at once where COUNT is at least N, and else waits, at the hub by a registration that it sends
(R215, R272). SADD and SSUB on a semaphore of the own core act at once: they write COUNT, or, where the result would leave
32 bits, leave it, set POISON and poison their tokens (R216, R270); on one elsewhere they leave as a packet on the ordered
lanes when no write of the core is unacknowledged, and are else held (R256). On a GONE semaphore each completes at once with
poisoned tokens and changes nothing but its counters (R282). The model's own choices that it rests on: assumption log
entries 74 and 98. -/
def Obligations.SemaphoreCommandsAct : Prop :=
  (∀ (n : Fin 32) (ph : Phys) (r : Running) (h : Head) (k : Nat) (s : State), s.Inv → s.Ready n .sx r h →
    ((s.lookup r.parcel.ctx (cf h.cmd 95 80)).bind (semKeyOf n)) = some k → cf h.cmd 79 64 = 0 → (s.sem k).gone = false →
    (opcodeOf h.cmd = 0x50 →
      (inCore n k = true → ∃ t, exec (.swait n ph) s = .next t
        ∧ (if cf h.cmd 63 32 ≤ (s.sem k).count then Pushed s t n .sx h (popPoison s n h || (s.sem k).poison)
          else Waits s t n .sx h (.sem k (cf h.cmd 63 32) (cf h.cmd 95 80)))
        ∧ SameBut (issueMay s n .sx) s t)
      ∧ (32768 ≤ k → cf h.cmd 63 32 ≠ 0 → ∃ t, exec (.swait n ph) s = .next t
        ∧ Waits s t n .sx h (.sem k (cf h.cmd 63 32) (cf h.cmd 95 80))
        ∧ t.msgs = s.msgs ++ [⟨n, nodeHub, s.coreInc n, .waitReg k (cf h.cmd 63 32) (tagOf h.cmd)
            (s.core n).ticket⟩]
        ∧ SameBut (fun p => issueMay s n .sx p ∨ p = .msgs) s t)
      ∧ (32768 ≤ k → cf h.cmd 63 32 = 0 → ∃ t, exec (.swait n ph) s = .next t
        ∧ Pushed s t n .sx h (popPoison s n h || (s.sem k).poison) ∧ SameBut (issueMay s n .sx) s t))
    ∧ ∀ sub : Bool, opcodeOf h.cmd = (if sub then 0x52 else 0x51) →
      (inCore n k = true → ∃ t, exec (if sub then .ssub n ph else .sadd n ph) s = .next t
        ∧ (let x := s.sem k
          let m := cf h.cmd 63 32
          let refused : Bool := if sub then x.count < m else x.count + m > 0xFFFFFFFF
          t.sem k = { x with
            count := if refused then x.count else if sub then x.count - m else x.count + m,
            poison := x.poison || popPoison s n h || refused }
          ∧ Pushed s t n .sx h (popPoison s n h || refused))
        ∧ SameBut (fun p => issueMay s n .sx p ∨ p = .sem k ∨ syncCounter p) s t)
      ∧ (inCore n k = false → ∃ t, exec (if sub then .ssub n ph else .sadd n ph) s = .next t ∧ Entered s t n .sx h
        ∧ (if (s.core n).outW = [] ∧ (s.core n).injectQ = [] then
            t.msgs = s.msgs ++ [⟨n, semNode k, s.coreInc n, .semOp k sub (cf h.cmd 63 32) (cf h.cmd 95 80) (tagOf h.cmd)
              (s.core n).nextId (popPoison s n h)⟩]
          else t.msgs = s.msgs ∧ ∃ f ∈ (t.core n).sxOps, f.id = (s.core n).nextId ∧ f.left = false
            ∧ f.waits = (s.core n).outIds ++ (s.core n).injectQ.map (·.id))
        ∧ SameBut (fun p => issueMay s n .sx p ∨ p = .msgs ∨ p = .core n .sync ∨ p = .core n .far
          ∨ p = .reg (Fd.ordHoldsHolds.key n)) s t))
  ∧ (∀ (n : Fin 32) (ph : Phys) (r : Running) (h : Head) (k op : Nat) (s : State), s.Inv → s.Ready n .sx r h →
    ((s.lookup r.parcel.ctx (cf h.cmd 95 80)).bind (semKeyOf n)) = some k → cf h.cmd 79 64 = 0 → (s.sem k).gone = true →
    opcodeOf h.cmd = op → op = 0x50 ∨ op = 0x51 ∨ op = 0x52 → (op = 0x50 → 32768 ≤ k ∨ inCore n k = true) →
    ∃ t, exec (if op = 0x50 then .swait n ph else if op = 0x51 then .sadd n ph else .ssub n ph) s = .next t
      ∧ Pushed s t n .sx h true
      ∧ SameBut (fun p => issueMay s n .sx p ∨ syncCounter p ∨ p = .reg (Fd.syncCtxWaitOwnerGone.key r.parcel.ctx)) s t)

/-- BAR in mode 1 or 3 arrives: the arrival is noted at its core and leaves for the cluster node when no write of the core
is unacknowledged; in MEMBER mode an arrival with two unreleased poisons the barrier instead. Mode 1 then pushes its tokens;
mode 3 waits for its release. Mode 2 arrives nowhere and waits where an arrival of the core is unreleased (R217, R277, R278,
R256). The model's own choices that it rests on: assumption log entry 63. -/
def Obligations.BarrierCommandsAct : Prop :=
  ∀ (n : Fin 32) (ph : Phys) (r : Running) (h : Head) (i : Nat) (s : State), s.Inv → s.Ready n .sx r h →
    opcodeOf h.cmd = 0x53 → s.lookup r.parcel.ctx (cf h.cmd 95 80) = some (.barrier i) → cf h.cmd 79 66 = 0 →
    cf h.cmd 63 32 = 0 → (s.bar i).gone = false →
    ((s.bar i).member = true → bit (s.bar i).mask n = true ∧ r.parcel.pinned = true) →
    let l := (s.bar i).leaf n
    let tooMany := (s.bar i).member && decide (2 ≤ l.pend)
    let may := fun p => issueMay s n .sx p ∨ p = .bar i ∨ p = .msgs ∨ p = .core n .sync ∨ p = .core n .far
      ∨ p = .reg (Fd.ordHoldsHolds.key n) ∨ syncCounter p
    (cf h.cmd 65 64 = 1 ∨ cf h.cmd 65 64 = 3 → ∃ t, exec (.bar n ph) s = .next t
      ∧ (if cf h.cmd 65 64 = 1 then Pushed s t n .sx h (popPoison s n h || tooMany)
        else Waits s t n .sx h (.barrier i (cf h.cmd 95 80)))
      ∧ SameBut may s t
      ∧ (if tooMany then (t.bar i).poison = true ∧ (t.bar i).leaf n = l ∧ t.msgs = s.msgs
        else (t.bar i).leaf n = (if (s.bar i).member then { l with pend := l.pend + 1 }
            else { l with unassigned := l.unassigned + 1 })
          ∧ ((s.core n).outW = [] → (s.core n).injectQ = [] → t.msgs = s.msgs ++ [⟨n, nodeHub, s.coreInc n,
              .arrive i (if (s.bar i).member then some (if l.pend = 0 then l.bit else !l.bit) else none) (tagOf h.cmd)
                (popPoison s n h)⟩])))
    ∧ (cf h.cmd 65 64 = 2 → ∃ t, exec (.bar n ph) s = .next t
      ∧ (if (s.bar i).idle n = true ∨ (s.core n).arrived.contains i = false then
          Pushed s t n .sx h (popPoison s n h || (s.bar i).poison)
        else Waits s t n .sx h (.barrier i (cf h.cmd 95 80)))
      ∧ SameBut (issueMay s n .sx) s t)

/-- An add or subtract that arrives at its semaphore alone is applied or refused, and its core's operation ends (R270, R271);
at a core out of service it changes nothing, and its operation ends (R24, R401). Where an add and a subtract from two sources
reach a semaphore in one cycle the add is applied first, whichever is named first (R271). A registration at the hub is
answered with a wake where COUNT is at least N, and else stands (R272). A wake ends the SWAIT of its core that it is for
(R273). A wait, a hold for tokens or a release hold that has lasted its context's timeout ends the parcel with status
TIMEOUT (R281, R442): the core runs nothing, its engines and token queues are empty, and its other state is as it was
discarded. The model's own choices that it rests on: assumption log entry 69. -/
def Obligations.SemaphoresApplyWakeTimeOut : Prop :=
  (∀ (s : State), s.alive = true →
    (∀ (j : Nat) (m : Msg) (k : Nat) (sub : Bool) (v vid tag id : Nat) (p : Bool),
      (anyArrivals isSemOp s.msgs [])[j]? = some m → m.body = .semOp k sub v vid tag id p → sendsOps m →
      (s.sem k).alloc = true → (s.sem k).gone = false → ∃ t, exec (.semOpApply ⟨j, []⟩) s = .next t
        ∧ (let x := s.sem k
          let refused : Bool := if sub then x.count < v else x.count + v > 0xFFFFFFFF
          t.sem k = if k < 32768 ∧ s.coreGone (k / 1024) = true then x else { x with
            count := if refused then x.count else if sub then x.count - v else x.count + v,
            poison := x.poison || p || refused })
        ∧ (m.src < 32 → m.inc = s.coreInc m.src → ∀ f ∈ (t.core m.src).sxOps, f.id ≠ id))
    ∧ (∀ (j j' : Nat) (m m' : Msg) (k v v' vid vid' tag tag' id id' : Nat) (p p' : Bool),
      (anyArrivals isSemOp s.msgs [])[j]? = some m → (anyArrivals isSemOp s.msgs [])[j']? = some m' → m.src ≠ m'.src →
      m.body = .semOp k false v vid tag id p → m'.body = .semOp k true v' vid' tag' id' p' → sendsOps m → sendsOps m' →
      (s.sem k).alloc = true → (s.sem k).gone = false → (k < 32768 → s.coreGone (k / 1024) = false) →
      (s.sem k).count + v ≤ 0xFFFFFFFF → v' ≤ (s.sem k).count + v → ∀ a b, (a, b) = (j, j') ∨ (a, b) = (j', j) →
      ∃ t, exec (.semOpApply ⟨a, [b]⟩) s = .next t
        ∧ t.sem k = { s.sem k with count := (s.sem k).count + v - v', poison := (s.sem k).poison || p || p' })
    ∧ (∀ (n : Fin 32) (m : Msg) (k v tag ticket : Nat), (arrivals nodeHub isWaitReg (s.msgs.filter (·.src = n.val)) []).head? = some m →
      m.body = .waitReg k v tag ticket → m.inc = s.coreInc n → 32768 ≤ k → (s.sem k).gone = false →
      ∃ t, exec (.hubWaitRegister n) s = .next t
        ∧ (if v ≤ (s.sem k).count then
            ⟨nodeHub, n, s.coreInc n, .wake ticket (s.sem k).poison false⟩ ∈ t.msgs ∧ tabGet none t.hubRegs n = none
          else tabGet none t.hubRegs n = some ⟨k, v, tag, ticket⟩)
        ∧ SameBut (fun p => p = .msgs ∨ ∃ c, p = .hubReg c) s t)
    ∧ ∀ (n : Fin 32) (m : Msg) (p : Bool) (w : Wait) (k v vid : Nat), s.arrival n isWake = some m →
      m.body = .wake w.ticket p false → m.inc = s.coreInc n → (s.core n).sx.wait = some w → w.what = .sem k v vid →
      ∃ t, exec (.waitWake n) s = .next t ∧ Woken s t n .sx w p ∧ t.msgs = s.msgs.erase m)
  ∧ (∀ (n : Fin 32) (e : Engine) (r : Running) (s : State), s.alive = true → (s.core n).run = some r →
    ((∃ w, ((s.core n).eng e).wait = some w ∧ elapsed s.tb.now w.since (s.tmo r.parcel.ctx) = true)
      ∨ (∃ g, ((s.core n).eng e).hold = some g ∧ elapsed s.tb.now g (s.tmo r.parcel.ctx) = true)
      ∨ (e = .sx ∧ ∃ f, (s.core n).heldOp = some f ∧ elapsed s.tb.now f.since (s.tmo r.parcel.ctx) = true)) →
    ∃ t, exec (.waitTimerExpiry n e) s = .next t ∧ (t.core n).run = none ∧ t.reg Fd.parcelStatusLastStatus n = 2
      ∧ (∀ x, (t.core n).eng x = {}) ∧ (t.core n).queues = [] ∧ (t.core n).wadis = [] ∧ (t.core n).dmas = []
      ∧ (t.core n).home = (s.core n).home ∧ (t.core n).tiles = (s.core n).tiles
      ∧ ∀ m, m ≠ n.val → t.core m = s.core m)

/-- An arrival at the node of a CLUSTER barrier is counted; the last one of a phase flips the phase bit, takes NEXT into CUR
and releases every core of the owner's mask (R276). A release of the phase that a leaf is in lowers PEND at its core, flips
the leaf's bit, and ends the wait that it satisfies (R277); in COUNT mode it clears that phase's assignments (R278). The phase
of CUR, or where that is marked already or has no arrival the phase of NEXT, not complete at its deadline is marked late at
the top node and counted (R280). The model's own choices that it rests on: assumption log entry 63. -/
def Obligations.BarrierEventsAct : Prop :=
  ∀ (s : State), s.alive = true →
    (∀ (j : Nat) (m : Msg) (i tag : Nat) (p : Bool), (anyArrivals isArrive s.msgs [])[j]? = some m →
      m.body = .arrive i (some (s.bar i).phase) tag p → (s.bar i).gone = false → (s.bar i).scope = 0 →
      (s.bar i).sent = false → (s.bar i).next ≠ (s.bar i).expected → ∃ t, exec (.barrierArrival j) s = .next t
        ∧ (if (s.bar i).cur + 1 = (s.bar i).expected then
            (t.bar i).phase = (!(s.bar i).phase) ∧ (t.bar i).cur = (s.bar i).next ∧ (t.bar i).next = 0
            ∧ ∀ n ∈ bitsSet (s.ctx (s.bar i).owner).adm.mask 32,
              ⟨nodeHub, n, s.coreInc n, .release i (s.bar i).phase ((s.bar i).poison || p)⟩ ∈ t.msgs
          else (t.bar i).phase = (s.bar i).phase ∧ (t.bar i).cur = (s.bar i).cur + 1 ∧ (t.bar i).next = (s.bar i).next
            ∧ t.msgs = s.msgs.erase m)
        ∧ SameBut (fun x => x = .bar i ∨ x = .msgs) s t)
    ∧ (∀ (j : Nat) (m : Msg) (i : Nat) (q p : Bool), (anyArrivals isRelease s.msgs [])[j]? = some m →
      m.body = .release i q p → ((s.bar i).member = true → bit (s.bar i).mask m.dst = true ∧ ((s.bar i).leaf m.dst).bit = q) →
      ∃ t, exec (.barrierRelease j) s = .next t ∧ t.msgs = s.msgs.erase m
        ∧ (let l := (s.bar i).leaf m.dst
          let l' : Leaf := if (s.bar i).member then { l with pend := l.pend - 1, bit := !l.bit }
            else { l with assigned := l.assigned.filter (· ≠ q) }
          (t.bar i).leaf m.dst = l'
          ∧ ((t.bar i).idle m.dst = true → ∀ w, s.barWait m.dst i = true → (s.core m.dst).sx.wait = some w →
            Woken s t m.dst .sx w (p || (s.bar i).poison))
          ∧ ((t.bar i).idle m.dst = false → t.core m.dst = s.core m.dst)))
    ∧ ∀ (b : Fin 256) (cur : Bool) (g : Nat), (s.bar b).alloc = true → (s.bar b).dl ≠ 0 → (s.bar b).topHere = true →
      (let u := (s.bar b).topNode
       (cur = true ∧ u.late = false ∧ u.first = some g)
       ∨ (cur = false ∧ (u.late = true ∨ u.first = none) ∧ u.lateNext = false ∧ u.firstNext = some g)) →
      elapsed s.tb.now g (s.bar b).dl = true →
      ∃ t, exec (.barrierDeadline b) s = .next t ∧ t.bar b = (s.bar b).markLate cur
        ∧ t.reg Fd.syncCtxResidLate (s.bar b).owner = min Fd.syncCtxResidLate.max (s.reg Fd.syncCtxResidLate (s.bar b).owner + 1)

/-! ### The streams -/

/-- NOP pops its inputs and pushes its outputs, poisoned where an input was (R168). GRAIN leaves the stream and waits for
the command that follows it (R167). A NOP held for tokens or room issues when they have come, and one held for its start
grain when that has come (R41, R172). A command whose deadline has passed issues late with HARD clear, and the miss is
counted (R43); a reserved LSEND is deferred to its context's next slot on the same link, and its miss is kept until it issues
(R43, R44). The model's own choices that it rests on: assumption log entries 40, 42 and 106. -/
def Obligations.HeldHeadsIssueAndMisses : Prop :=
  (∀ (n : Fin 32) (e : Engine) (s : State), s.Inv →
    (∀ (r : Running) (h : Head), s.Ready n e r h → opcodeOf h.cmd = 0x00 → cf h.cmd 95 48 = 0 →
      (∀ ph, ∃ t, exec (.nop n e ph) s = .next t ∧ Pushed s t n e h (popPoison s n h) ∧ SameBut (issueMay s n e) s t)
      ∧ (((s.core n).eng e).hold.isSome = true → ∃ t, exec (.tokenArrival n e) s = .next t
        ∧ Pushed s t n e h (popPoison s n h) ∧ SameBut (issueMay s n e) s t)
      ∧ (∀ g, ((s.core n).eng e).startHold.isSome = true → startGrain r ((s.core n).eng e) h.grain = some g →
        s.started g = true → ∃ t, exec (.startGrainReached n e) s = .next t
          ∧ Pushed s t n e h (popPoison s n h) ∧ SameBut (issueMay s n e) s t))
    ∧ ∀ w l, s.mayIssue n e = true → ((s.core n).eng e).stream = w :: l → opcodeOf w = 0x01 →
      ((s.core n).eng e).wait = none → ((s.core n).eng e).grain = none → ((s.core n).eng e).pscl = none →
      exec (.grain n e) s = .next ((Eff.core n
        ((s.core n).setEng e { (s.core n).eng e with grain := some w, stream := l })).apply s))
  ∧ (∀ (n : Fin 32) (e : Engine) (r : Running) (h : Head) (d : Nat) (s : State), s.Inv →
    deadlineGrain r ((s.core n).eng e) h.grain = some d → s.late d = true →
    (s.Ready n e r h → opcodeOf h.cmd = 0x00 → cf h.cmd 95 48 = 0 → ∃ t, exec (.deadlineMissed n e) s = .next t
      ∧ Pushed s t n e h (popPoison s n h)
      ∧ t.reg Fd.coreGrainMissMissed n = min Fd.coreGrainMissMissed.max (s.reg Fd.coreGrainMissMissed n + 1)
      ∧ t.reg Fd.coreGrainMissLastTag n = tagOf h.cmd ∧ t.reg Fd.coreGrainSlackMinSlack n = 0
      ∧ SameBut (issueMay s n e) s t)
    ∧ (∀ g, e = .dx → s.mayIssue n e = true → (s.core n).run = some r → ((s.core n).eng e).head = some h →
      opcodeOf h.cmd = 0x47 → lsendRsv h.cmd = true → (hardOf h.cmd && r.t4) = false →
      s.nextSlot n r.parcel.ctx h.cmd = some g → ∃ t, exec (.deadlineMissed n e) s = .next t
        ∧ (t.core n).dx = { (s.core n).dx with
            moved := some g, missed := some ((s.core n).dx.missed.getD d), startHold := none, fellDue := none }
        ∧ t.reg Fd.coreGrainSlackMinSlack n = 0
        ∧ SameBut (fun p => p = .core n (.eng .dx) ∨ p = .reg (Fd.coreGrainSlackMinSlack.key n)) s t))

/-- An illegal command is skipped: one that breaks what is common to all commands with the reason of that rule, and a PSCL
that follows no PASS with reason 0x03 (R180, R188, R197). A HARD command whose deadline has passed is skipped with reason
0x09, whatever else it breaks, and its miss is counted (R43, R179). A PSCL behind its PASS is consumed with it (R189); this
skip is all that PSCL does as a command of its own. The model's own choices that it rests on: assumption log entry 40. -/
def Obligations.IllegalCommandIsSkipped : Prop :=
  ∀ (n : Fin 32) (e : Engine) (ph : Phys) (r : Running) (h : Head) (s : State), s.Inv →
    s.mayIssue n e = true → (s.core n).run = some r → ((s.core n).eng e).head = some h → ((s.core n).eng e).wait = none →
    s.dueAfter n e = false → (s.core n).canPop (popsOf h.cmd h.pscl) = true → (s.core n).hasRoom (outsOf h.cmd) = true →
    let hardLate := s.headLate r ((s.core n).eng e) h && hardOf h.cmd && r.t4
    (∀ i, rowAt n e ph (opcodeOf h.cmd) = some i → hardLate = true →
      ∃ t, exec i s = .next t ∧ Skipped s t n e h 0x09 ∧ SameBut (skipMay s n e) s t
        ∧ t.reg Fd.coreGrainMissMissed n = min Fd.coreGrainMissMissed.max (s.reg Fd.coreGrainMissMissed n + 1))
    ∧ (∀ i k, rowAt n e ph (opcodeOf h.cmd) = some i → hardLate = false → commonReason r.t4 h = some k →
      ∃ t, exec i s = .next t ∧ Skipped s t n e h k ∧ SameBut (skipMay s n e) s t)
    ∧ (e = .mx → opcodeOf h.cmd = 0x12 → hardLate = false → commonReason r.t4 h = none →
      ∃ t, exec (.pscl n ph) s = .next t ∧ Skipped s t n e h 0x03 ∧ SameBut (skipMay s n e) s t)

/-! ### Matrix, tile and vector engines -/

/-- TLD loads each row of its tiles from the partition and TST stores each there, in order, with good checks where the data
are good and the command popped no poisoned token (R201 to R203, R72); TLDW fills its register from the entries at its
wadi's head where they are present, and else stands as the load in flight (R204). A load parks on a translation miss or for
a halt, with TILE_RESUME showing where, and goes on when that is over (R73, R74). The model's own choices that it rests on:
assumption log entry 27. -/
def Obligations.TileCommandsMoveRows : Prop :=
  ∀ (n : Fin 32) (s : State),
    (∀ (ph : Phys) (r : Running) (h : Head), s.Inv → s.Ready n .tx r h → txReason n s r h = none → (s.core n).load = none →
      ph.upsets = [] → ph.meets = [] →
      let c := r.parcel.ctx
      let d := txTile h.cmd
      let bad := popPoison s n h
      (opcodeOf h.cmd = 0x30 → (∀ q ∈ txRows h.cmd, s.spGood n c (txAddr h.cmd q.1 q.2) d.width = true) →
        ∃ t, exec (.tld n ph) s = .next t ∧ Pushed s t n .tx h bad
          ∧ (∀ q ∈ txRows h.cmd, (t.core n).tile (d.treg + q.1) q.2 =
              { data := s.spRead n c (txAddr h.cmd q.1 q.2) d.width, syn0 := mark bad 0, syn1 := mark bad 0 })
          ∧ (∀ a b, b < 64 → (∀ q ∈ txRows h.cmd, ¬ (a = d.treg + q.1 ∧ b = q.2)) → (t.core n).tile a b = (s.core n).tile a b)
          ∧ SameBut (fun p => issueMay s n .tx p ∨ p = .core n .tiles ∨ p = .reg (Fd.spConflictLocal.key n)) s t)
      ∧ (opcodeOf h.cmd = 0x31 → (s.part n c).1 + (s.part n c).2 ≤ 48 →
        (∀ q ∈ txRows h.cmd, ((s.core n).tile (d.treg + q.1) q.2).good d.width = true
          ∧ s.spGood n c (txAddr h.cmd q.1 q.2) d.width = true) →
        ∃ t, exec (.tst n ph) s = .next t ∧ Pushed s t n .tx h bad
          ∧ (∀ q ∈ txRows h.cmd,
              t.spRead n c (txAddr h.cmd q.1 q.2) d.width = ((s.core n).tile (d.treg + q.1) q.2).bytes d.width
              ∧ (bad = false → t.spGood n c (txAddr h.cmd q.1 q.2) d.width = true))
          ∧ SameBut (fun p => issueMay s n .tx p ∨ p = .reg (Fd.spConflictLocal.key n) ∨ p = .reg (Fd.spEccUncorr.key n)
              ∨ (∃ g, p = .spChk n g) ∨ ∃ q ∈ txRows h.cmd, ∃ i, i < d.width
                ∧ p = .spByte n (spAddr (s.part n c).1 (max 1 (s.part n c).2) (txAddr h.cmd q.1 q.2 + i))) s t)
      ∧ (opcodeOf h.cmd = 0x32 → (s.core n).dx.wait = none →
        let es := (s.core n).wadi (cf h.cmd 79 77)
        (d.rows ≤ es.length → (∀ e ∈ es.take d.rows, e.present = true ∧ e.bad = false) →
          ∃ t, exec (.tldw n ph) s = .next t ∧ Pushed s t n .tx h bad ∧ (t.core n).load = none
            ∧ (t.core n).wadi (cf h.cmd 79 77) = es.drop d.rows
            ∧ (∀ j e, j < d.rows → es[j]? = some e → (t.core n).tile d.treg j = entryRow e d.width bad)
            ∧ SameBut (fun p => issueMay s n .tx p ∨ p = .core n .tiles ∨ p = .core n .load ∨ p = .core n .wadis
                ∨ p = .reg (Fd.tileResumePending.key n)) s t)
        ∧ ((∀ e, es.head? = some e → e.present = false) → ∃ t, exec (.tldw n ph) s = .next t ∧ Entered s t n .tx h
            ∧ (t.core n).load = some { cmd := h.cmd, ticket := (s.core n).ticket, outs := outsOf h.cmd, poison := bad, row := 0 }
            ∧ SameBut (fun p => issueMay s n .tx p ∨ p = .core n .load) s t)))
    ∧ ∀ (l : Load), s.alive = true → (s.core n).load = some l →
      (∀ cause : ParkCause, l.parked = none →
        (match cause with
          | .xmiss => (s.core n).loadMissed l
          | .interrupt => (s.core n).loadWaits l && s.haltPending n) = true →
        ∃ t, exec (.tileLoadPark n cause) s = .next t ∧ (t.core n).load = some { l with parked := some cause }
          ∧ t.reg Fd.tileResumePending n = 1 ∧ t.reg Fd.tileResumeTag n = tagOf l.cmd
          ∧ t.reg Fd.tileResumeStartRow n = l.row % 64)
      ∧ ∀ ph : Phys, (l.parked = some .xmiss ∧ (s.core n).loadMissed l = false ∧ s.halted n = false ∧ s.haltPending n = false
          ∨ l.parked = some .interrupt ∧ bit s.dbg.wanted n = false ∧ s.halted n = false) →
        ∃ t, exec (.tileLoadResume n ph) s = .next t
          ∧ (∀ l', (t.core n).load = some l' → l'.parked = none ∧ l.row ≤ l'.row)
          ∧ ((s.core n).loadWaits l = true → (t.core n).load = some { l with parked := none })

/-- LDW fills a plane of each array of its mask: the k-th from register WT.TREG + k, with the checksum words of the checksum
tile, marked where a check that the array read failed (R193, R194, R107). DRAIN writes 32 accumulators to each row of its
tile, marked where their slot is (R99, R199). A legal PASS whose planes are loaded leaves its stream and stands in flight
until it completes (R94, R198); PASS_COMPLETE pushes the oldest pass's token, counts it and its beats, and counts each failed
check (R106). The model's own choices that it rests on: assumption log entry 28. -/
def Obligations.ArrayCommandsLoadDrainComplete : Prop :=
  ∀ (n : Fin 32) (ph : Phys) (s : State),
    (∀ (r : Running) (h : Head), s.Inv → s.Ready n .mx r h → ph.upsets = [] →
      let bad := popPoison s n h
      (opcodeOf h.cmd = 0x10 → ldwReason s r h = none → (∀ l, (s.core n).latch0 = some l → l.desc ≠ cf h.cmd 79 64) →
        ∃ t, exec (.ldw n ph) s = .next t ∧ Pushed s t n .mx h bad
          ∧ (∀ k a, (arraysOf (cf h.cmd 63 60))[k]? = some a →
              let wt := (s.core n).tileRows (tdesc (cf h.cmd 95 80 + k * 2 ^ 11))
              let ck := (s.core n).tileRows (tdesc (cf h.cmd 79 64))
              (t.core n).plane a (cf h.cmd 59 58) =
                { loaded := true, rows := planeRows wt, sums := planeSums ck a,
                  poison := bad || !(wt.all (·.good 128)) || !((List.range 8).all fun j => (ck.getD (4 * j + a) {}).good 128) })
          ∧ (∀ a p, p < 4 → (a ∉ arraysOf (cf h.cmd 63 60) ∨ p ≠ cf h.cmd 59 58) → (t.core n).plane a p = (s.core n).plane a p)
          ∧ SameBut (fun p => issueMay s n .mx p ∨ p = .core n .tiles ∨ p = .core n .arrays
              ∨ p = .reg (Fd.tileReadsReads.key n) ∨ p = .reg (Fd.tileReuseHitHits.key n)
              ∨ p = .reg (Fd.tileEccUncorr.key n)) s t)
      ∧ (opcodeOf h.cmd = 0x13 → drainReason n s r h = none → drainBusy n s r h = false →
        let b := (s.core n).bank (cf h.cmd 79 78) (cf h.cmd 77 77)
        let d := tdesc (cf h.cmd 95 80)
        let at_ := fun q => cf h.cmd 76 70 * b.nout + 32 * q
        ∃ t, exec (.drain n ph) s = .next t
          ∧ Pushed s t n .mx h (((List.range d.rows).any fun q => b.slotMarked (at_ q / b.nout)) || bad)
          ∧ (∀ q, q < d.rows → (t.core n).tile d.treg q =
              { data := ((tabGetRun 0 b.acc (at_ q) 32).map fun v => toLe (mod32 v) 4).flatten,
                syn0 := mark (b.slotMarked (at_ q / b.nout) || bad) 0, syn1 := mark (b.slotMarked (at_ q / b.nout) || bad) 0 })
          ∧ SameBut (fun p => issueMay s n .mx p ∨ p = .core n .tiles) s t)
      ∧ (opcodeOf h.cmd = 0x11 → passReason n s r h = none → passBusy n s r h = false →
        ∃ t, exec (.pass n ph) s = .next t ∧ Entered s t n .mx h
          ∧ (∃ f, (t.core n).passes = (s.core n).passes ++ [f] ∧ f.cmd = h.cmd ∧ f.ticket = (s.core n).ticket
              ∧ f.outs = outsOf h.cmd ∧ (bad = true → f.poison = true) ∧ (f.fails ≠ [] → f.poison = true))
          ∧ (t.core n).planes = (s.core n).planes
          ∧ SameBut (fun p => issueMay s n .mx p ∨ p = .core n .tiles ∨ p = .core n .arrays ∨ p = .core n .rest
              ∨ ∃ f ∈ passCounters, p = .reg (f.key n)) s t))
    ∧ ∀ (f : PassFlight) (rest : List PassFlight), s.Inv → s.alive = true → (s.core n).run.isSome = true →
      (s.core n).passes = f :: rest →
      ∃ t, exec (.passComplete n) s = .next t
        ∧ t.reg Fd.mxPassesPasses n = min Fd.mxPassesPasses.max (s.reg Fd.mxPassesPasses n + 1)
        ∧ t.reg Fd.mxBeatsBeats n = min Fd.mxBeatsBeats.max
            (s.reg Fd.mxBeatsBeats n + (passF f.cmd).beats * (arraysOf (passF f.cmd).mask).length)
        ∧ t.reg Fd.mxCheckFails n = min Fd.mxCheckFails.max (s.reg Fd.mxCheckFails n + f.fails.length)
        ∧ (f.fails = [] → (t.core n).passes = rest ∧ (t.core n).queues =
            (f.outs.foldl (Core.fill f.ticket ⟨f.poison, 0, tagOf f.cmd⟩) (s.core n)).queues)

/-- What a plain pass whose planes are loaded computes (R92, R94): over activation tiles, unscaled, unfolded, without camel
pairs and with 128 columns, each accumulator of each beat's slot becomes its old value, or 0 under ZERO, plus or minus the sum
over the 128 rows of activation times cell, shifted, modulo 2^32 and read as signed. -/
def Obligations.PassAccumulatesProducts : Prop :=
  ∀ (n : Fin 32) (ph : Phys) (r : Running) (h : Head) (s : State), s.Ready n .mx r h → opcodeOf h.cmd = 0x11 →
    passReason n s r h = none → passBusy n s r h = false → ph.upsets = [] → ph.faults = [] → (s.core n).latch1 = none →
    let p := passF h.cmd
    p.src = false → p.scaled = false → p.fold = 0 → p.camel = 0 → p.two = false →
    ∃ t, exec (.pass n ph) s = .next t ∧ ∀ a ∈ arraysOf p.mask, ∀ b l, b < p.beats → l < 128 →
      let beat := (p.tileBeats (p.acts.map fun d => (tdesc d, (s.core n).tileRows (tdesc d)))).getD b []
      let sum := ((List.range 128).map fun k =>
        p.actCell beat k * (p.cells (((s.core n).plane a p.plane).rows.getD k [])).getD l 0).foldl (· + ·) 0
      let old := (tabGetRun 0 ((s.core n).bank a p.bank).acc ((p.base + b) * 128) 128).getD l 0
      (tabGetRun 0 ((t.core n).bank a p.bank).acc ((p.base + b) * 128) 128).getD l 0 =
        wrap32 ((if p.zero then 0 else old) + (if p.neg then -1 else 1) * sum * 2 ^ p.shift)

/-- A VRUN whose reads all pass their checks (R143, R149, R153, R155, R200): its sinks in the partition hold the values that
OUT produces, granule by granule, merged with what they covered in part, its tokens are good, and it changes nothing but
them, its tile sink and its counters; with no element it only counts and pushes its tokens. The model's own choices that it
rests on: assumption log entries 20 and 25. -/
def Obligations.VrunWritesItsSinks : Prop :=
  ∀ (n : Fin 32) (ph : Phys) (r : Running) (h : Head) (s : State), s.Inv → s.Ready n .vx r h → opcodeOf h.cmd = 0x20 →
    vrunReason n s r h = none → ph.upsets = [] → ph.meets = [] → popPoison s n h = false →
    let c := r.parcel.ctx
    let v := s.vdesc n c h.cmd
    s.spGood n c (cf h.cmd 87 64) 128 = true →
    (v.total = 0 → ∃ t, exec (.vrun n ph) s = .next t ∧ Pushed s t n .vx h false
      ∧ t.reg Fd.vxZeroZero n = min Fd.vxZeroZero.max (s.reg Fd.vxZeroZero n + 1)
      ∧ SameBut (fun p => issueMay s n .vx p ∨ p = .reg (Fd.vxCmdsCmds.key n) ∨ p = .reg (Fd.vxZeroZero.key n)) s t)
    ∧ (v.total ≠ 0 → s.firstFail n c v (s.vxElems n c v) 0 = none → (s.part n c).1 + (s.part n c).2 ≤ 48 →
      (∀ g ∈ granulesOf (vrunWrites s n c v), 64 * g < s.partSize n c ∧ (s.spGran n c (64 * g)).syn = 0) →
      ∃ t, exec (.vrun n ph) s = .next t ∧ Pushed s t n .vx h false
        ∧ (∀ g ∈ granulesOf (vrunWrites s n c v), t.spGran n c (64 * g) =
            ⟨toLe (((vrunWrites s n c v).filter fun w => w.bit < 512 * g + 512 && 512 * g < w.bit + w.n).foldl
              (fun x w => putBits g w x) (leNat (s.spGran n c (64 * g)).data, 0)).1 64, 0⟩)
        ∧ SameBut (fun p => issueMay s n .vx p ∨ p = .free ∨ p = .core n .rest ∨ (v.o.kind = 2 ∧ p = .core n .tiles)
            ∨ (∃ f ∈ vxCounters, p = .reg (f.key n)) ∨ ∃ g ∈ granulesOf (vrunWrites s n c v),
              let a := spAddr (s.part n c).1 (max 1 (s.part n c).2) (64 * g)
              p = .spChk n (a / 64) ∨ ∃ i, i < 64 ∧ p = .spByte n (a + i)) s t)

/-! ### Far reads and writes -/

/-- WWAIT and ARRW push their tokens where the heads of the wadi are present, or the oasis's counts reach their targets, and
else wait (R208, R212, R248). WMOV moves present entries to consecutive 128-byte places and frees them (R209). WPOST posts its
entries at the wadi's end where it has room, each at its address, and else waits (R207, R232). -/
def Obligations.WadiCommandsPostWaitMove : Prop :=
  ∀ (n : Fin 32) (ph : Phys) (r : Running) (h : Head) (s : State), s.Inv → s.Ready n .dx r h → dxReason n s r h = none →
    ph.upsets = [] →
    let c := r.parcel.ctx
    let bad := popPoison s n h
    let es := (s.core n).wadi (cf h.cmd 95 93)
    let may := fun p => issueMay s n .dx p ∨ p = .reg (Fd.spConflictLocal.key n)
    (opcodeOf h.cmd = 0x42 → ∃ t, exec (.wwait n ph) s = .next t
      ∧ (if cf h.cmd 72 64 ≤ presentHead es then Pushed s t n .dx h bad
        else Waits s t n .dx h (.wwait (cf h.cmd 95 93) (cf h.cmd 72 64)))
      ∧ SameBut may s t)
    ∧ (opcodeOf h.cmd = 0x46 → ∃ t, exec (.arrw n ph) s = .next t
      ∧ (if (cf h.cmd 63 32 = 0 ∧ cf h.cmd 79 64 = 0)
            ∨ countsReach (s.oasisCounts n c (cf h.cmd 95 92)) (cf h.cmd 63 32) (cf h.cmd 79 64) = true then
          Pushed s t n .dx h bad
        else Waits s t n .dx h (.arrw (cf h.cmd 95 92) (cf h.cmd 63 32) (cf h.cmd 79 64)))
      ∧ SameBut may s t)
    ∧ (opcodeOf h.cmd = 0x43 →
      (presentHead es < cf h.cmd 63 55 → ∃ t, exec (.wmov n ph) s = .next t
        ∧ Waits s t n .dx h (.wmov (cf h.cmd 95 93) (cf h.cmd 63 55) (cf h.cmd 87 64)) ∧ SameBut may s t)
      ∧ (cf h.cmd 63 55 ≤ presentHead es → (s.part n c).1 + (s.part n c).2 ≤ 48 →
        let bytes := fun e : WadiEnt => (e.grans.map (·.data)).flatten.take e.len
        (∀ e ∈ es.take (cf h.cmd 63 55), e.bad = false ∧ (bytes e).length ≤ 128 ∧ (bytes e).length % 64 = 0) →
        ∃ t, exec (.wmov n ph) s = .next t ∧ Pushed s t n .dx h bad
          ∧ (t.core n).wadi (cf h.cmd 95 93) = es.drop (cf h.cmd 63 55)
          ∧ (∀ i e, i < cf h.cmd 63 55 → es[i]? = some e →
              t.spRead n c (cf h.cmd 87 64 + 128 * i) (bytes e).length = bytes e)
          ∧ SameBut (fun p => may p ∨ p = .core n .wadis
              ∨ partMay s n c (cf h.cmd 87 64) (128 * cf h.cmd 63 55) p) s t))
    ∧ (opcodeOf h.cmd = 0x41 → s.spGood n c (cf h.cmd 87 64) 64 = true → (s.core n).load = none →
      let b := s.spRead n c (cf h.cmd 87 64) 64
      ((postDesc b).n = 0 → ∃ t, exec (.wpost n ph) s = .next t ∧ Pushed s t n .dx h bad ∧ SameBut may s t)
      ∧ ((postDesc b).n ≠ 0 → 256 < es.length + (postDesc b).n → ∃ t, exec (.wpost n ph) s = .next t
        ∧ Waits s t n .dx h (.wpost (cf h.cmd 95 93) (postDesc b).n b) ∧ SameBut may s t)
      ∧ ((postDesc b).n ≠ 0 → es.length + (postDesc b).n ≤ 256 → ∃ t, exec (.wpost n ph) s = .next t
        ∧ Pushed s t n .dx h bad
        ∧ (∃ new, (t.core n).wadi (cf h.cmd 95 93) = es ++ new ∧ new.length = (postDesc b).n
            ∧ ∀ k e, new[k]? = some e → e.len = (postDesc b).len ∧ e.tag = tagOf h.cmd ∧ e.idx = k
              ∧ e.present = decide (e.len = 0) ∧ ((postDesc b).ncu = 0 → e.addr = (postDesc b).addr k))
        ∧ SameBut (fun p => may p ∨ p = .core n .wadis ∨ p = .core n .far ∨ stnMay p) s t))

/-- DMA starts its chain on its channel, whose registers show it (R206, R238, R250); a chain of one local descriptor whose
extents do not overlap copies each of its rows and nothing else, and its channel then has nothing left to do (R240);
DMA_COMPLETE frees such a channel and pushes the tokens (R241). The model's own choices that it rests on: assumption log
entries 44 and 78. -/
def Obligations.DmaCopiesAndCompletes : Prop :=
  ∀ (n : Fin 32) (s : State),
    (∀ (ph : Phys) (r : Running) (h : Head), s.Inv → s.Ready n .dx r h → opcodeOf h.cmd = 0x40 → dxReason n s r h = none →
      (s.core n).dma (cf h.cmd 95 92) = none → ph.upsets = [] →
      s.spGood n r.parcel.ctx (cf h.cmd 87 64) (64 * ((s.chainAt n r.parcel.ctx 8 (cf h.cmd 87 64)).getD []).length) = true →
      let c := r.parcel.ctx
      (∃ t, exec (.dma n ph) s = .next t ∧ Entered s t n .dx h
        ∧ ∃ x, (t.core n).dma (cf h.cmd 95 92) = some x ∧ x.cmd = h.cmd ∧ x.ticket = (s.core n).ticket
          ∧ x.outs = outsOf h.cmd ∧ x.poison = popPoison s n h
          ∧ t.reg Fd.dmaChStatusTag (n * 16 + cf h.cmd 95 92) = tagOf h.cmd
          ∧ t.reg Fd.dmaChHeadDesc (n * 16 + cf h.cmd 95 92) = cf h.cmd 87 64)
      ∧ ∀ d : DmaDesc, s.chainAt n c 8 (cf h.cmd 87 64) = some [d] → d.sglobal = false → d.dglobal = false → d.skew = false →
        d.overlaps = false → (s.part n c).1 + (s.part n c).2 ≤ 48 → popPoison s n h = false →
        (∀ i j, i < d.nrows → j < d.nrows → i ≠ j →
          (d.dstAt i).toNat + d.len ≤ (d.dstAt j).toNat ∨ (d.dstAt j).toNat + d.len ≤ (d.dstAt i).toNat) →
        (∀ i, i < d.nrows → s.spGood n c (d.srcAt i).toNat d.len = true ∧ s.spGood n c (d.dstAt i).toNat d.len = true) →
        ∃ t, exec (.dma n ph) s = .next t
          ∧ (∀ i, i < d.nrows → t.spRead n c (d.dstAt i).toNat d.len = s.spRead n c (d.srcAt i).toNat d.len)
          ∧ (∃ x, (t.core n).dma (cf h.cmd 95 92) = some x ∧ x.settled = true ∧ x.descs = [] ∧ x.bad = false)
          ∧ t.reg Fd.dmaChBytesBytes (n * 16 + cf h.cmd 95 92) = min Fd.dmaChBytesBytes.max (d.len * d.nrows)
          ∧ SameBut (fun p => issueMay s n .dx p ∨ p = .core n .far ∨ p = .reg (Fd.spConflictLocal.key n)
              ∨ (∃ f ∈ [Fd.dmaChStatusPoisoned, Fd.dmaChStatusDidx, Fd.dmaChStatusTag, Fd.dmaChHeadDesc, Fd.dmaChBytesBytes],
                  p = .reg (f.key (n * 16 + cf h.cmd 95 92)))
              ∨ ∃ i, i < d.nrows ∧ partMay s n c (d.dstAt i).toNat d.len p) s t)
    ∧ ∀ (ch : Fin 16) (x : Dma), s.Inv → s.alive = true → (s.core n).dma ch = some x → x.settled = true → x.descs = [] →
      ∃ t, exec (.dmaComplete n ch) s = .next t ∧ (t.core n).dma ch = none
        ∧ (t.core n).queues = (x.outs.foldl (Core.fill x.ticket ⟨x.poison || x.bad, 3, tagOf x.cmd⟩) (s.core n)).queues
        ∧ t.reg Fd.dmaChainsChains n = min Fd.dmaChainsChains.max (s.reg Fd.dmaChainsChains n + 1)
        ∧ SameBut (fun p => s.noted p ∨ p = .core n .far ∨ p = .core n .queues ∨ p = .core n .run ∨ p = .core n .notes
            ∨ p = .reg (Fd.dmaChainsChains.key n)) s t

/-- MRD with its line in the M-cache copies it to its destination and pushes its tokens; on a miss the line is asked for,
and MRD_FILL copies and, where no ACQ came between, installs it (R210, R242, R243). ACQ drops the lines of its context that
it covers (R211). LSEND with nothing to send pushes its tokens; over a link that is DOWN or quarantined they are poisoned
(R355); else its data are on their way to the slots of its link (R213, R348). The model's own choices that it rests on:
assumption log entries 48 and 77. -/
def Obligations.LineCommandsAndLsend : Prop :=
  ∀ (n : Fin 32) (ph : Phys) (s : State), s.Inv → ph.upsets = [] →
    (∀ (r : Running) (h : Head), s.Ready n .dx r h →
      let c := r.parcel.ctx
      let bad := popPoison s n h
      let may := fun p => issueMay s n .dx p ∨ p = .reg (Fd.spConflictLocal.key n)
      (opcodeOf h.cmd = 0x44 → dxReason n s r h = none → (s.core n).mrds.length < 8 →
        s.spGood n c (cf h.cmd 63 40) 8 = true →
        (∀ l, (s.core n).line c (s.mrdLine n c h.cmd) = some l → l.gran.syn = 0 → (s.part n c).1 + (s.part n c).2 ≤ 48 →
          ∃ t, exec (.mrd n ph) s = .next t ∧ Pushed s t n .dx h bad
            ∧ t.spGran n c (cf h.cmd 87 64) = ⟨slice l.gran.data 0 64, mark bad 0⟩
            ∧ t.reg Fd.mcHitsHits n = min Fd.mcHitsHits.max (s.reg Fd.mcHitsHits n + 1)
            ∧ SameBut (fun p => may p ∨ p = .core n .far ∨ p = .reg (Fd.mcHitsHits.key n)
                ∨ partMay s n c (cf h.cmd 87 64) 64 p) s t)
        ∧ ((s.core n).line c (s.mrdLine n c h.cmd) = none → ∃ t, exec (.mrd n ph) s = .next t ∧ Entered s t n .dx h
          ∧ (∃ m, (t.core n).mrds = (s.core n).mrds ++ [m] ∧ m.line = s.mrdLine n c h.cmd ∧ m.dst = cf h.cmd 87 64
              ∧ m.rid = (s.core n).nextId ∧ m.noFill = false ∧ m.poison = bad)
          ∧ t.reg Fd.mcMissesMisses n = min Fd.mcMissesMisses.max (s.reg Fd.mcMissesMisses n + 1)
          ∧ SameBut (fun p => may p ∨ p = .core n .far ∨ p = .reg (Fd.mcMissesMisses.key n) ∨ stnMay p) s t))
      ∧ (opcodeOf h.cmd = 0x45 → dxReason n s r h = none → (cf h.cmd 96 96 = 1 ∨ s.spGood n c (cf h.cmd 87 64) 8 = true) →
        ∃ t, exec (.acq n ph) s = .next t ∧ Pushed s t n .dx h bad
          ∧ (t.core n).mcache = (s.core n).mcache.filter (fun l => !(l.ctx = c && (cf h.cmd 96 96 = 1
              || (l.addr + gmSize - s.pointer n c (cf h.cmd 87 64)) % gmSize < 64 * cf h.cmd 63 48)))
          ∧ SameBut (fun p => may p ∨ p = .core n .far ∨ p = .reg (Fd.mcStatsAcqs.key n)) s t)
      ∧ (opcodeOf h.cmd = 0x47 → lsendReason n s r h = none → lsendBusy s r h ((s.core n).eng .dx) = false →
        s.spGood n c (cf h.cmd 87 64) 64 = true →
        let d := (s.lsendDesc n c h.cmd).1
        let l := (s.routeOn (lsendBundle h.cmd) (dstPkg d.dst)).getD 0
        let key := stageKey (lsendRsv h.cmd) c
        (d.total = 0 → ∃ t, exec (.lsend n ph) s = .next t ∧ Pushed s t n .dx h bad ∧ SameBut may s t)
        ∧ (d.total ≠ 0 → s.linkSt l = 0 ∨ s.linkSt l = 7 →
          ∃ t, exec (.lsend n ph) s = .next t ∧ Pushed s t n .dx h true ∧ SameBut may s t)
        ∧ (d.total ≠ 0 → s.linkSt l ≠ 0 → s.linkSt l ≠ 7 → s.linkSt l ≠ 6 → ∃ t, exec (.lsend n ph) s = .next t
          ∧ Entered s t n .dx h
          ∧ (∃ f, (t.core n).lsends = (s.core n).lsends ++ [f] ∧ f.cmd = h.cmd ∧ f.link = l ∧ f.dst = d.dst ∧ f.src = d.src
              ∧ f.len = d.len ∧ f.nrows = d.nrows ∧ f.taken = 0 ∧ f.poison = bad)
          ∧ SameBut (fun p => may p ∨ p = .core n .lsends ∨ p = .core n .far) s t)
        ∧ (d.total ≠ 0 → s.linkSt l = 6 → s.txGrans l ≠ 0 → (tabGet [] (s.link l).staged key).length < 2 →
          (∀ q ∈ s.flights l, ¬ (q.2.rsv = lsendRsv h.cmd ∧ q.2.ctx = c)) → ∃ t, exec (.lsend n ph) s = .next t
          ∧ (t.core n).eng .dx = { stream := h.rest }
          ∧ ∃ o ∈ tabGet [] (t.link l).staged key, o.frame.tag.toNat = tagOf h.cmd ∧ o.frame.dpkg.val = dstPkg d.dst
            ∧ o.frame.dinst.val = dstInst d.dst ∧ o.frame.dcore.val = dstCore d.dst ∧ o.frame.offset.toNat = dstOff d.dst)))
    ∧ ∀ (m : Msg) (q : Mrd) (rid : Nat) (g : GranS), s.alive = true → s.nextReply n 1 = some m → m.body = .reply rid .ok [g] →
      (s.core n).mrdOf rid = some q →
      let c := (s.core n).runCtx
      (s.part n c).1 + (s.part n c).2 ≤ 48 → q.dst % 64 = 0 → q.dst + 64 ≤ s.partSize n c →
      ∃ t, exec (.mrdFill n ph) s = .next t ∧ (t.core n).mrds = (s.core n).mrds.filter (·.rid ≠ q.rid)
        ∧ t.spGran n c q.dst = ⟨slice g.data 0 64, mark q.poison g.syn % 2 ^ 32⟩
        ∧ (q.noFill = false → ∃ l, (t.core n).line c q.line = some l ∧ l.gran = g)
        ∧ (t.core n).queues =
            (q.outs.foldl (Core.fill q.ticket ⟨q.poison || decide (g.syn ≠ 0), 3, tagOf q.cmd⟩) (s.core n)).queues
        ∧ t.msgs = s.msgs.erase m

/-- A reply with OK fills the granules of its wadi entry that wait for it (R234, R236); one that answers an earlier
incarnation is dropped as stale (R403). A translation miss stands at its entry, with WADI_XMISS naming it (R235); resolved,
no entry of the wadi waits for a translation; past its limit the entry carries ERROR. The model's own choices that it rests
on: assumption log entries 75 and 76. -/
def Obligations.RepliesFillAndMiss : Prop :=
  ∀ (n : Fin 32) (s : State), s.alive = true → (s.core n).dx.wait = none → (s.core n).load = none →
    (∀ (ph : Phys) (m : Msg) (rid : Nat) (gs : List GranS), s.nextReply n 0 = some m → m.body = .reply rid .ok gs →
      (m.inc ≠ s.coreInc n → exec (.wadiReply n ph) s = .next
        ((Eff.reg Fd.staleReplies 0 (min Fd.staleReplies.max (s.reg Fd.staleReplies + 1))).apply
          { s with msgs := s.msgs.erase m }))
      ∧ (∀ w, m.inc = s.coreInc n → (s.core n).wadiOf rid = some w → ∃ t, exec (.wadiReply n ph) s = .next t
        ∧ (t.core n).wadi w = ((s.core n).wadi w).map (fun e => if e.present then e else (e.take rid .ok gs).settle)
        ∧ (t.core n).wadiOut = (s.core n).wadiOut.erase rid ∧ t.msgs = s.msgs.erase m
        ∧ ∀ v, v ≠ w → (t.core n).wadi v = (s.core n).wadi v))
    ∧ (∀ (m : Msg) (rid w : Nat) (st : FarStatus) (gs : List GranS), s.nextReply n 2 = some m → m.body = .reply rid st gs →
      (s.core n).wadiOf rid = some w → (s.core n).missAt w = none → ∃ t, exec (.wadiXmissReply n) s = .next t
        ∧ (∃ e, ((t.core n).wadi w)[((s.core n).wadi w).findIdx (WadiEnt.waitsFor rid)]? = some e ∧ e.status = .xmiss
            ∧ e.present = false ∧ e.missAt = s.tb.now
            ∧ t.reg Fd.wadiXmissTag n = e.tag % 65536 ∧ t.reg Fd.wadiXmissWadi n = w % 8)
        ∧ t.msgs = s.msgs.erase m)
    ∧ (∀ (ph : Phys) (w : Fin 8) (i : Nat) (e : WadiEnt), (s.core n).missAt w = some i → ((s.core n).wadi w)[i]? = some e →
      elapsed s.tb.now e.missAt (s.xmissLimit n) = true → ∃ t, exec (.xmissLimit n (.wadi w) ph) s = .next t
        ∧ ∃ e', ((t.core n).wadi w)[i]? = some e' ∧ e'.status = .error ∧ e'.addr = e.addr)
    ∧ (∀ (ph : Phys) (m : Mrd), (s.core n).mrds.find? (fun m => match m.missAt with
        | some g => elapsed s.tb.now g (s.xmissLimit n)
        | none => false) = some m →
      ∃ t, exec (.xmissLimit n .mrd ph) s = .next t ∧ (t.core n).mrds = (s.core n).mrds.filter (·.rid ≠ m.rid)
        ∧ (t.core n).queues = (m.outs.foldl (Core.fill m.ticket ⟨true, 3, tagOf m.cmd⟩) (s.core n)).queues)
    ∧ ∀ (c : Fin 8) (page : BitVec 52) (w i : Nat) (e : WadiEnt), w < 8 → (s.core n).run.isSome = true →
      (s.core n).runCtx = c.val → (s.core n).missAt w = some i → ((s.core n).wadi w)[i]? = some e →
      touchesPage page.toNat e.missed (readBytes e.ncu e.len) = true → e.len ≠ 0 →
      ∃ t, exec (.resolve c page false) s = .next t ∧ (t.core n).missAt w = none
        ∧ t.reg Fd.mpXmissResolves (stationOf (page.toNat * 4096)) =
            min Fd.mpXmissResolves.max (s.reg Fd.mpXmissResolves (stationOf (page.toNat * 4096)) + 1)

/-- An acknowledgement removes its packet from the core's unacknowledged writes, and an operation that waited for it last
leaves (R255, R256); a refusal notice does likewise and counts an error with the write's tag (R247, R257). A write packet
that an open oasis permits is stored granule by granule, each when its bank is granted, and with the last one counted in its
oasis and acknowledged; any other is refused whole and counted, and a core that is gone answers TARGET_RESET (R226, R247,
R248, R404). The model's own choices that it rests on: assumption log entries 80, 81 and 115. -/
def Obligations.WritesAreAnswered : Prop :=
  ∀ (n : Fin 32) (s : State), s.alive = true →
    (∀ (m : Msg) (id : Nat) (w : OutW) (holds : List Nat) (inj : Nat), s.arrival n isAck = some m → m.body = .ack id 0 →
      m.inc = s.coreInc n → (s.core n).outW.find? (·.id = id) = some w → (s.core n).injectQ = [] →
      ∃ t, exec (.writeAck n holds inj) s = .next t ∧ (t.core n).outW = (s.core n).outW.filter (·.id ≠ id)
        ∧ ∀ f ∈ (s.core n).sxOps, ∀ k v, f.left = false → f.waits = [id] → f.errTag = none → f.op = .add k v →
          ⟨n, semNode k, s.coreInc n, .semOp k false v f.vid (tagOf f.cmd) f.id f.poison⟩ ∈ t.msgs)
    ∧ (∀ (m : Msg) (id : Nat) (w : OutW) (holds : List Nat) (inj : Nat), s.arrival n isRefusal = some m → m.body = .refusal id → m.inc = s.coreInc n →
      (s.core n).outW.find? (·.id = id) = some w → (s.core n).injectQ = [] → w.tag < 65536 →
      ∃ t, exec (.refusalNotice ⟨n, holds, inj⟩) s = .next t ∧ (t.core n).outW = (s.core n).outW.filter (·.id ≠ id)
        ∧ t.reg Fd.ordAckErrErrs n = min Fd.ordAckErrErrs.max (s.reg Fd.ordAckErrErrs n + 1)
        ∧ t.reg Fd.ordAckErrLastTag n = w.tag)
    ∧ (∀ (nth aged : Nat) (later : List Nat) (m : Msg) (w : Writer) (off : Nat) (p : Pkt), s.Inv → s.arrival n isWrite nth = some m →
      m.body = .write w off p → m.src < 32 →
      (s.coreGone n = true → exec (.inboundWritePacket n nth ⟨aged, later⟩) s = .next
        { s with msgs := s.msgs.erase m ++ [⟨n, m.src, m.inc, .ack p.id 2⟩] })
      ∧ (s.coreGone n = false → s.oasisFor n off (64 * p.grans.length) w false 0 = none →
        exec (.inboundWritePacket n nth ⟨aged, later⟩) s = .next
          { (Eff.reg Fd.spRefusedRefused n (min Fd.spRefusedRefused.max (s.reg Fd.spRefusedRefused n + 1))).apply s with
            msgs := s.msgs.erase m ++ [⟨n, m.src, m.inc, .refusal p.id⟩] })
      ∧ (∀ k, s.coreGone n = false → s.oasisFor n off (64 * p.grans.length) w false 0 = some k → k < 32 →
        (s.core n).dx.wait = none → (s.core n).landing = [] → later = [] →
        let o := tabGet {} (s.core n).oases k
        (s.part n o.ctx).1 + (s.part n o.ctx).2 ≤ 48 → (o.pbase + off - o.gbase) % 64 = 0 →
        o.pbase + off - o.gbase + 64 * p.grans.length ≤ s.partSize n o.ctx →
        ∃ t, exec (.inboundWritePacket n nth ⟨aged, later⟩) s = .next t
          ∧ (∀ i g, p.grans[i]? = some g →
              t.spGran n o.ctx (o.pbase + off - o.gbase + 64 * i) = ⟨slice g.data 0 64, g.syn % 2 ^ 32⟩)
          ∧ t.reg Fd.oasisBytesBytes (n * 32 + k) = (s.reg Fd.oasisBytesBytes (n * 32 + k) + 64 * p.grans.length) % 2 ^ 32
          ∧ t.reg Fd.oasisPktsPkts (n * 32 + k) = (s.reg Fd.oasisPktsPkts (n * 32 + k) + 1) % 2 ^ 16
          ∧ t.msgs = s.msgs.erase m ++ [⟨n, m.src, m.inc, .ack p.id 0⟩]
          ∧ SameBut (fun x => x = .msgs ∨ x = .reg (Fd.oasisBytesBytes.key (n * 32 + k)) ∨ x = .reg (Fd.spConflictAged.key n)
              ∨ x = .reg (Fd.oasisPktsPkts.key (n * 32 + k))
              ∨ partMay s n o.ctx (o.pbase + off - o.gbase) (64 * p.grans.length) x) s t)
      ∧ ∀ k, s.coreGone n = false → s.oasisFor n off (64 * p.grans.length) w false 0 = some k → (s.core n).landing = [] →
        (∃ i, i < p.grans.length ∧ i ∈ later) →
        ∃ t, exec (.inboundWritePacket n nth ⟨aged, later⟩) s = .next t
          ∧ (t.core n).landing = [{ src := m.src, inc := m.inc, by_ := w, off := off, pkt := p, slot := k,
                                    left := (List.range p.grans.length).filter fun i => later.contains i }]
          ∧ t.reg Fd.oasisBytesBytes (n * 32 + k) = s.reg Fd.oasisBytesBytes (n * 32 + k)
          ∧ t.reg Fd.oasisPktsPkts (n * 32 + k) = s.reg Fd.oasisPktsPkts (n * 32 + k) ∧ t.msgs = s.msgs.erase m)
    ∧ ∀ (aged : Nat) (x : Landing), (s.core n).landing = [x] → x.src < 32 →
      s.oasisFor n x.off (64 * x.pkt.grans.length) x.by_ false 0 = some x.slot → (s.core n).dx.wait = none →
      ∃ t, exec (.inboundWritePacket n (arrivals n isWrite s.msgs []).length ⟨aged, []⟩) s = .next t ∧ (t.core n).landing = []
        ∧ t.reg Fd.oasisBytesBytes (n * 32 + x.slot) =
            (s.reg Fd.oasisBytesBytes (n * 32 + x.slot) + 64 * x.pkt.grans.length) % 2 ^ 32
        ∧ t.reg Fd.oasisPktsPkts (n * 32 + x.slot) = (s.reg Fd.oasisPktsPkts (n * 32 + x.slot) + 1) % 2 ^ 16
        ∧ t.msgs = s.msgs ++ [⟨n, x.src, x.inc, .ack x.pkt.id 0⟩]

/-! ### Ports -/

/-- A station becomes ready with the credits that its controller advertises (R315); CRD returns credits. RDATA answers the
oldest read of its tag with what memory holds, a write that reached the station before it included, checks generated where
none is carried, or with marked granules on an error or a miss (R253, R316, R317); WACK puts a write in place, granule by
granule with its checks, and acknowledges it, each granule old or new after an error (R253). A reply to an earlier incarnation
only counts as stale (R403). The model's own choices that it rests on: assumption log entries 45,
75 and 80. -/
def Obligations.StationsAnswer : Prop :=
  ∀ (k : Fin 6) (s : State), s.alive = true → (s.stn k).waiting = [] →
    (∀ rd wr, s.reg Fd.mpStnStatusReady k = 0 → 64 ≤ rd → rd ≤ 1023 → 64 ≤ wr → wr ≤ 1023 →
      exec (.stationLinkUp k rd wr) s = .next ((Eff.stn k { s.stn k with rdCred := rd, wrCred := wr }).apply <|
        (Eff.reg Fd.mpStnCreditWr k wr).apply <| (Eff.reg Fd.mpStnCreditRd k rd).apply <|
          (Eff.reg Fd.mpStnStatusReady k 1).apply s))
    ∧ (∀ rd wr, s.reg Fd.mpStnStatusReady k = 1 → (s.stn k).rdCred + rd ≤ s.reg Fd.mpStnCreditRd k →
      (s.stn k).wrCred + wr ≤ s.reg Fd.mpStnCreditWr k → exec (.crd k rd wr) s = .next
        ((Eff.stn k { s.stn k with rdCred := (s.stn k).rdCred + rd, wrCred := (s.stn k).wrCred + wr }).apply s))
    ∧ (∀ (i : Instr) (tag : Fin 1024) (inc : BitVec 8) (st : RdStatus) (ch : List (Nat × Gran)) (ok : Bool),
      inc.toNat ≠ s.portIncOf (incStn k) → i = .rdata k tag inc st ch ∨ i = .wack k tag inc ok →
      exec i s = .next ((Eff.reg Fd.staleReplies 0 (min Fd.staleReplies.max (s.reg Fd.staleReplies + 1))).apply s))
    ∧ (∀ (tag : Fin 1024) (inc : BitVec 8) (r : StnRead) (core j rid : Nat), inc.toNat = s.portIncOf (incStn k) →
      (s.stn k).reads.find? (fun r => r.rtag = tag.val) = some r → r.dest = .core core j rid →
      ((∀ i, i < r.ngr → (s.stn k).wanting r.ord (r.addr / 64 + i) = []) →
        ∃ t, exec (.rdata k tag inc .ok []) s = .next t
          ∧ t.msgs = s.msgs ++ [⟨nodeStn k, core, j, .reply rid (okStatus r.ckvReq (r.found s))
              ((r.found s).map fun g => if g.2 then g.1 else { g.1 with syn := mark r.ckvReq 0 })⟩]
          ∧ (∀ q ∈ (t.stn k).reads, q.rtag ≠ tag.val) ∧ t.gmem = s.gmem)
      ∧ (∀ (w : StnWrite) (g : GranS), s.Inv → r.got = [] → r.ngr = 1 → r.addr < gmSize →
        (s.stn k).wanting r.ord (r.addr / 64) = [.write w] → w.grans[r.addr / 64 - w.addr / 64]? = some g →
        ∃ t, exec (.rdata k tag inc .ok []) s = .next t
          ∧ t.msgs = s.msgs ++ [⟨nodeStn k, core, j, .reply rid .ok [⟨slice g.data 0 64, g.syn % 2 ^ 32⟩]⟩])
      ∧ ∀ (st : RdStatus) (ch : List (Nat × Gran)), st ≠ .ok → ∃ t, exec (.rdata k tag inc st ch) s = .next t
          ∧ ∃ gs, t.msgs = s.msgs ++ [⟨nodeStn k, core, j, .reply rid (if st = .error then .error else .xmiss) gs⟩]
            ∧ ∀ g ∈ gs, g.syn = markSyn)
    ∧ ∀ (tag : Fin 1024) (inc : BitVec 8) (w : StnWrite) (core j id : Nat), s.Inv → inc.toNat = s.portIncOf (incStn k) →
      (s.stn k).writes.find? (fun w => w.rtag = tag.val) = some w → w.dest = .packet core j id → w.done = [] →
      w.addr % 64 = 0 → w.addr + 64 * w.grans.length ≤ gmSize →
      (∃ t, exec (.wack k tag inc true) s = .next t
        ∧ (∀ i g, w.grans[i]? = some g → t.ggran (w.addr / 64 + i) = ⟨slice g.data 0 64, g.syn % 2 ^ 32⟩)
        ∧ t.msgs = s.msgs ++ [⟨nodeStn k, core, j, .ack id 0⟩]
        ∧ ∀ b, b < w.addr ∨ w.addr + 64 * w.grans.length ≤ b → t.gbyte b = s.gbyte b)
      ∧ ∃ t, exec (.wack k tag inc false) s = .next t ∧ t.msgs = s.msgs ++ [⟨nodeStn k, core, j, .ack id 1⟩]
        ∧ ((∀ i, i < w.grans.length → (s.stn k).wanting w.ord (w.addr / 64 + i) = []) → ∀ i g, w.grans[i]? = some g →
            t.ggran (w.addr / 64 + i) = ⟨slice g.data 0 64, g.syn % 2 ^ 32⟩
              ∨ t.ggran (w.addr / 64 + i) = s.ggran (w.addr / 64 + i))

/-- A wired module in its link state takes every frame that holds its CRC and comes in order, returning its credit, and NAKs any
other (R327); a frame for another cluster goes on along its route (R328). A write frame becomes a write packet, an
acknowledgement or refusal reaches its core, a SYNC frame becomes an operation, a NAK puts the frames from its SEQ on its lanes
again, a CRD frame returns credits. A module trains with fresh numbers, at a speed that its revision has, and retrains; not
back within 4096 grains it is down, and a write that it still held is answered with an error (R331). A module
that is not wired does not exist (R326): the row stops. The model's own choices that it rests on: assumption log entries 6,
32, 34 and 35. -/
def Obligations.ModulesTakeFrames : Prop :=
  ∀ (m : Fin 4) (s : State),
    let rows := fun f : NFrame => [(1, Instr.nportWrFrame m f), (2, .nportAckFrame m f), (3, .nportRefuseFrame m f),
      (4, .nportSyncFrame m f), (5, .nportNakFrame m f), (6, .nportCrdFrame m f)]
    (absent m = true → ∀ f rev speed x pi pm, ∀ i ∈ (rows f).map (·.2) ++ [.nportTrained m rev speed x pi pm, .nportRetrain m,
      .nportRetrainTimeout m], exec i s = .fault .absentModule)
    ∧ (absent m = false → s.alive = true → s.modUp m = true → ∀ f : NFrame,
      ((f.crcOk = false ∨ f.seq.toNat ≠ (s.mod m).rxSeq) → ∀ q ∈ rows f, ∃ t, exec q.2 s = .next t
        ∧ (t.mod m).rxSeq = (s.mod m).rxSeq ∧ t.msgs = s.msgs
        ∧ ((s.mod m).waiting = [] → ∃ o, (t.mod m).lanes = last128 ((s.mod m).lanes ++ [o]) ∧ o.type = 5
            ∧ leAt o.frame.body 0 1 = (s.mod m).rxSeq % 256)
        ∧ t.reg Fd.npChkNaks m = min Fd.npChkNaks.max (s.reg Fd.npChkNaks m + 1))
      ∧ (f.crcOk = true → f.seq.toNat = (s.mod m).rxSeq →
        (∀ q ∈ rows f, ∃ t, exec q.2 s = .next t ∧ (t.mod m).rxSeq = ((s.mod m).rxSeq + 1) % 256
          ∧ t.reg Fd.npRxFrames m = min Fd.npRxFrames.max (s.reg Fd.npRxFrames m + 1)
          ∧ (q.1 < 5 → (s.mod m).owed < 63 → (t.mod m).owed = 0)
          ∧ (q.1 < 5 → f.dinst ≠ Config.inst → ∀ b, s.route f.dinst = some b →
              t.reg Fd.npFwdFrames b = min Fd.npFwdFrames.max (s.reg Fd.npFwdFrames b + 1) ∧ t.msgs = s.msgs))
        ∧ (f.dinst = Config.inst → ∃ t, exec (.nportWrFrame m f) s = .next t
          ∧ t.msgs = s.msgs ++ [⟨nodeMod m, f.dcore, 0,
              .write { pkg := (f.lsrc.map (·.pkg)).getD Config.pkg, inst := (f.lsrc.map (·.inst)).getD f.sinst, ctx := f.sctx,
                       score := f.score, via := f.sinst, link := m, linc := f.inc.toNat, lsrc := f.lsrc }
                (64 * f.offset.toNat)
                { id := 0, tag := f.tag.toNat, ctx := f.sctx, ch := 16, addr := 0, ncu := 0,
                  grans := (List.range f.grans.length).map fun i =>
                    ⟨slice (f.grans.getD i []) 0 64, mark (bit f.mark.toNat i) 0⟩ }⟩])
        ∧ (f.dinst = Config.inst → f.inc.toNat = s.portIncOf (incMod m) → f.lsrc = none → ∀ w,
          s.remotePkt f.dcore f.tag.toNat f.sinst f.score = some w →
          (∃ t, exec (.nportAckFrame m f) s = .next t
            ∧ t.msgs = s.msgs ++ [⟨nodeMod m, f.dcore, s.coreInc f.dcore, .ack w.id (leAt f.body 0 1 % 3)⟩])
          ∧ ∃ t, exec (.nportRefuseFrame m f) s = .next t
            ∧ t.msgs = s.msgs ++ [⟨nodeMod m, f.dcore, s.coreInc f.dcore, .refusal w.id⟩])
        ∧ (f.dinst = Config.inst → leAt f.body 2 1 = 1 → leAt f.body 3 1 < 2 → leAt f.body 0 2 < 4096 →
          ∃ t, exec (.nportSyncFrame m f) s = .next t ∧ t.msgs = s.msgs ++ [⟨nodeMod m, nodeHub, 0,
            .semOp (hubSemKey (leAt f.body 0 2)) (leAt f.body 3 1 = 1) (leAt f.body 4 4) 0 f.tag.toNat 0 false⟩])
        ∧ ((s.mod m).waiting = [] →
          ((s.mod m).owed = 0 → ∃ t, exec (.nportNakFrame m f) s = .next t ∧ (t.mod m).lanes = last128 ((s.mod m).lanes
            ++ (s.mod m).replay.dropWhile fun o => o.frame.seq.toNat ≠ leAt f.body 0 1))
          ∧ ∃ t, exec (.nportCrdFrame m f) s = .next t ∧ (t.mod m).credit = (s.mod m).credit + f.credit.toNat)))
    ∧ (absent m = false → s.alive = true →
      (s.modUp m = false → ∀ (rev : Fin 4) (speed : Fin 8) (x : Bool) (pi : Fin 16) (pm : Fin 4), rev.val ≠ 0 →
        speed.val < 6 ∨ rev.val = 3 →
        ∃ t, exec (.nportTrained m rev speed x pi pm) s = .next t ∧ t.modUp m = true ∧ t.reg Fd.npModStatusUp m = 1
          ∧ t.reg Fd.npModStatusRev m = rev.val ∧ t.reg Fd.npModStatusPeerInst m = pi.val
          ∧ t.reg Fd.npModStatusPeerMod m = pm.val)
      ∧ (s.modUp m = true → exec (.nportRetrain m) s = .next
        ((Eff.reg Fd.npModStatusRetrains m (min Fd.npModStatusRetrains.max (s.reg Fd.npModStatusRetrains m + 1))).apply
          ((Eff.mod m { s.mod m with retrain := some s.tb.now }).apply s)))
      ∧ ∀ g, (s.mod m).retrain = some g → elapsed s.tb.now g 4096 = true → ∃ t, exec (.nportRetrainTimeout m) s = .next t
        ∧ (t.mod m).down = true ∧ t.reg Fd.npModStatusUp m = 0
        ∧ (∀ o w, (s.mod m).buffered = [o] → o.type = 1 → o.frame.sinst = Config.inst → o.frame.lsrc = none →
            s.remotePkt o.frame.score o.frame.tag.toNat o.frame.dinst o.frame.dcore = some w →
            ⟨nodeMod m, o.frame.score.val, s.coreInc o.frame.score, .ack w.id 1⟩ ∈ t.msgs)
        ∧ t.reg Fd.npDownDowns m = min Fd.npDownDowns.max (s.reg Fd.npDownDowns m + 1))

/-- An ACTIVE link sends once per grain what its slot's owner calls for: in a control slot a control frame with the messages
that may go, in a context's slot its oldest staged frame, or beyond the holdover limit EMPTY (R48, R340, R347, R348). It takes
the frames that hold their CRCs: their credits, and in order their SEQ (R339, R350); data for a core of this cluster become
inbound packets of eight granules (R349), data for another package are forwarded best-effort or in a slot of their flow (R352,
R353); an old SEQ and data with no way on are discarded and counted. A frame that fails its CRCs is counted lost. The model's
own choices that it rests on: assumption log entries 33 and 49. -/
def Obligations.LinksCarryFrames : Prop :=
  ∀ (l : Fin 8) (s : State), s.alive = true → s.linkSt l = 6 →
    ((s.link l).lastSlot ≠ some s.tb.now → ∃ t, exec (.linkSlot l) s = .next t ∧ (t.link l).lastSlot = some s.tb.now
      ∧ (s.slotOwner 0 l (s.tb.now % 1024) = 0xFF → (s.link l).again = [] →
          let go := (tabGet [] s.ctl l).filter (s.ctlGoes l)
          tabGet [] t.ctl l = go.drop (2 * s.txGrans l) ∧ ∃ q ∈ (t.link l).kept, q.1 = s.tb.now ∧ q.2.owner = 0xFF
            ∧ q.2.ctrl = go.take (2 * s.txGrans l) ∧ (t.link l).sent = frameBytes q.2.frame 2)
      ∧ ∀ (c : Nat) (o : LOut), c < 8 → s.slotOwner 0 l (s.tb.now % 1024) = c + 1 → (s.link l).again = [] → o.owner = c + 1 →
        (tabGet [] (s.link l).staged c).head? = some o → s.tb.now < 2 ^ 48 →
        if s.tb.limited = true then
          (t.link l).kept = (s.link l).kept ∧ (t.link l).txSeq = (s.link l).txSeq
            ∧ (t.link l).sent = frameBytes (s.framed l s.tb.now (c + 1) 0 frame0) 0
        else ∃ q ∈ (t.link l).kept, q.1 = s.tb.now ∧ q.2.frame.grain.toNat = s.tb.now ∧ q.2.frame.grans = o.frame.grans
          ∧ q.2.frame.tag = o.frame.tag ∧ (t.link l).sent = frameBytes q.2.frame 1)
    ∧ ∀ f : LFrame,
      (f.crcOk = false → ∀ i ∈ [Instr.dataFrame l f, .emptyFrame l f, .controlFrame l f], ∃ t, exec i s = .next t
        ∧ t.reg Fd.linkErrLost l = min Fd.linkErrLost.max (s.reg Fd.linkErrLost l + 1) ∧ t.msgs = s.msgs)
      ∧ (f.crcOk = true →
        exec (.emptyFrame l f) s = .next
          ((Eff.link l { s.link l with
            credit := min 128 ((s.link l).credit + f.becrd.toNat),
            peerInc := if f.spkg.val = s.reg Fd.linkPeerPkg l ∧ f.sinst.val = s.reg Fd.linkPeerInst l then some f.inc.toNat
              else (s.link l).peerInc }).apply s)
        ∧ ((s.link l).synced = true → f.seq.toNat = (s.link l).rxSeq → f.seq.toNat ∉ (s.link l).gaps →
          (∃ t, exec (.controlFrame l f) s = .next t ∧ (t.link l).rxSeq = (f.seq.toNat + 1) % 65536
            ∧ (t.link l).credit = min 128 ((s.link l).credit + f.becrd.toNat)
            ∧ SameBut (fun p => p = .link l ∨ p = .reg (Fd.linkLostDiscard.key l)) s t)
          ∧ (f.dpkg = Config.pkg → f.dinst = Config.inst → ∃ t, exec (.dataFrame l f) s = .next t
            ∧ (t.link l).rxSeq = (f.seq.toNat + 1) % 65536
            ∧ t.msgs = s.msgs ++ (List.range ((f.grans.length + 7) / 8)).map (fun k => ⟨nodeLport, f.dcore, 0,
                .write { pkg := f.spkg, inst := f.sinst, ctx := f.sctx, score := f.score, link := l, linc := f.inc.toNat,
                         lsrc := some ⟨f.spkg, f.sinst, f.inc⟩ }
                  (64 * (f.offset.toNat + 8 * k))
                  { id := 0, tag := f.tag.toNat, ctx := f.sctx, ch := 16, addr := 0, ncu := 0,
                    grans := ((frameChecked f).drop (8 * k)).take 8 }⟩)
            ∧ SameBut (fun p => p = .link l ∨ p = .msgs) s t)
          ∧ (f.dpkg = Config.pkg → f.dinst ≠ Config.inst → s.route f.dinst = none → ∃ t, exec (.dataFrame l f) s = .next t
            ∧ t.reg Fd.linkLostDiscard l = min Fd.linkLostDiscard.max (s.reg Fd.linkLostDiscard l + 1)
            ∧ SameBut (fun p => p = .link l ∨ p = .reg (Fd.linkLostDiscard.key l)) s t)
          ∧ (∀ out, f.dpkg ≠ Config.pkg → s.slotOwner 1 l (f.grain.toNat % 1024) = 0 → s.linkTo f.dpkg = some out →
            s.linkHas l 4 = true → s.linkHas out 4 = true → ∃ t, exec (.dataFrame l f) s = .next t
            ∧ (t.link out).fwdBe = (s.link out).fwdBe ++ [(l.val, ⟨f, 0, []⟩)] ∧ t.msgs = s.msgs)
          ∧ ∀ w, w < 64 → f.dpkg ≠ Config.pkg → s.slotOwner 1 l (f.grain.toNat % 1024) = 0x40 + w →
            let out := s.reg Fd.flowCfgOutBundle w * 4 + s.reg Fd.flowCfgOutLink w
            let g := grainAdd f.grain.toNat (s.reg Fd.flowCfgLag w)
            s.reg Fd.flowCfgValid w = 1 → s.linkHas l 3 = true → s.linkHas out 3 = true → reached s.tb.now g = false →
            (s.slotOwner 0 out (g % 1024) = 0x40 + w →
              (∀ x ∈ (s.link out).fwdRsv, x.out.owner = 0x40 + w → reached x.grain g = false) →
              ∃ t, exec (.dataFrame l f) s = .next t
                ∧ (t.link out).fwdRsv = (s.link out).fwdRsv ++ [⟨g, l, ⟨f, 0x40 + w, []⟩⟩] ∧ t.msgs = s.msgs)
            ∧ (s.slotOwner 0 out (g % 1024) ≠ 0x40 + w → ∃ t, exec (.dataFrame l f) s = .next t
                ∧ (t.link out).fwdRsv = (s.link out).fwdRsv
                ∧ t.reg Fd.linkLostDiscard l = min Fd.linkLostDiscard.max (s.reg Fd.linkLostDiscard l + 1)))
        ∧ ((s.link l).synced = true → f.seq.toNat ∉ (s.link l).gaps →
          32768 ≤ (f.seq.toNat + 65536 - (s.link l).rxSeq) % 65536 → ∃ t, exec (.dataFrame l f) s = .next t
            ∧ t.reg Fd.linkLostDiscard l = min Fd.linkLostDiscard.max (s.reg Fd.linkLostDiscard l + 1)
            ∧ (t.link l).rxSeq = (s.link l).rxSeq ∧ t.msgs = s.msgs))

/-- LOSS has a frame that is still held sent again, and else counts it (R351). REFUSE of a packet of this cluster makes a
WRITE_REFUSED record, whose bytes stand in the platform's ring at its sequence number (R349, R398), and one for another package
goes on toward it. BAR_ARRIVE is counted at the group root that this cluster holds, with its POISON (R276); BAR_RELEASE passes
down to this cluster's node, which releases its phase to every core of the owner's partition (R279). The model's own choices
that it rests on: assumption log entries 7, 18, 32, 33 and 47. -/
def Obligations.LinkMessagesAct : Prop :=
  ∀ (l : Fin 8) (s : State), s.alive = true → s.linkSt l = 6 →
    (∀ (q : BitVec 16) (inc : BitVec 8), s.linkHas l 5 = true → inc.toNat = s.portIncOf incLport →
      exec (.loss l q inc) s = .next
        (match (s.link l).kept.find? fun p => p.2.frame.seq = q && !elapsed s.tb.now p.1 129 with
        | some p => (Eff.link l { s.link l with again := (s.link l).again ++ [p.2] }).apply s
        | none => (Eff.reg Fd.linkLostNotReplayed l
            (min Fd.linkLostNotReplayed.max (s.reg Fd.linkLostNotReplayed l + 1))).apply s))
    ∧ (∀ (tag : BitVec 16) (n : Fin 32) (c : Fin 8) (dst : LSrc), dst.pkg ≠ Config.pkg →
      exec (.refuse l tag n c dst) s = .next (match s.ctlLink dst.pkg with
        | some k => (Eff.ctl k (tabGet [] s.ctl k ++ [.refuse tag.toNat n c dst])).apply s
        | none => s))
    ∧ (∀ (tag : BitVec 16) (n : Fin 32) (c : Fin 8) (dst : LSrc), dst.pkg = Config.pkg → dst.inst = Config.inst →
      dst.inc.toNat = s.portIncOf incLport → ∃ t, exec (.refuse l tag n c dst) s = .next t
        ∧ (s.Inv → SameBut s.noted s t)
        ∧ (s.Inv → s.ringOpen 0 = true → s.ringBase 0 % 64 = 0 → s.ringBase 0 + 2 ^ 19 ≤ gmSize →
          t.reg Fd.recSeqSeq = nextSeq (s.reg Fd.recSeqSeq)
          ∧ t.gread (s.ringBase 0 + 32 * (s.reg Fd.recSeqSeq % 16384)) 32 =
              ({ code := 0x20, cls := 0, ctx := some c.val, unit := n, grain := s.tb.now, tag := tag.toNat, data := [],
                 dest := [] } : Rec).bytes (s.reg Fd.recSeqSeq) (tabGet 0 s.recs.lost 0)))
    ∧ (∀ (b : Fin 256) (p q : Bool) (k : Fin 4096), s.linkHas l 1 = true → s.groupBar b = true →
      (s.bar b).pkgInst = Config.inst.val →
      ((s.bar b).rootPkg = Config.pkg.val → (s.bar b).root.phase = p → (s.bar b).root.cur + 1 < (s.bar b).root.expect →
        ∃ t, exec (.barArrive l b ⟨p, q⟩ k) s = .next t ∧ (t.bar b).root = { (s.bar b).root with
            cur := (s.bar b).root.cur + 1, first := some ((s.bar b).root.first.getD s.tb.now) }
          ∧ (t.bar b).poison = ((s.bar b).poison || q) ∧ SameBut (fun x => x = .bar b) s t)
      ∧ ((s.bar b).rootPkg ≠ Config.pkg.val → (s.bar b).pkgNode.next ≠ (s.bar b).pkgNode.expect →
        Config.inst.val ∈ (s.bar b).memberInsts → (s.bar b).next ≠ (s.bar b).expected →
        ∃ t, exec (.barRelease l b ⟨p, q⟩ k) s = .next t
          ∧ (∀ n ∈ bitsSet (s.ctx (s.bar b).owner).adm.mask 32,
              ⟨nodeHub, n, s.coreInc n, .release b (s.bar b).phase q⟩ ∈ t.msgs)
          ∧ (t.bar b).phase = (!(s.bar b).phase) ∧ (t.bar b).cur = (s.bar b).next ∧ (t.bar b).next = 0
          ∧ (t.bar b).pkgNode.phase = (!(s.bar b).pkgNode.phase)))

/-- The training of a link (R341 to R346, R438): RETRAIN, and the retry of DOWN links, send it to DETECT; with signal on
every lane it goes on to BASE; with every lane's TRAIN frames in order to IDENT, or from FULL to ACTIVE, at full width; with
the identity that the installation map wires to it and a common revision to FULL, with the features of both ends, and with any
other identity to QUARANTINE; from IDENT on it has sent its own identity and features; a delay
beyond 512 or a state that outlasts its limit takes it DOWN with the fault noted. The model's own choices that it rests on:
assumption log entry 50. -/
def Obligations.LinksTrain : Prop :=
  ∀ (l : Fin 8) (s : State), s.alive = true →
    (∀ i, s.accessKind .firmware 0x3028 4 true = none → s.chan 0 0x3028 .link = some i →
      ∃ t, exec (.linkRetrain .firmware) s = .next t ∧ t.linkSt i = 1)
    ∧ (s.fwState < 2 → elapsed s.tb.now s.pw.retryAt 65536 = true → ∃ t, exec .linkRetry s = .next t
      ∧ t.pw.retryAt = s.tb.now ∧ ∀ k ∈ s.allLinks, s.linkSt k = 0 → t.linkSt k = 1)
    ∧ (∀ lanes : List LaneView, s.linkSt l = 1 → (∀ i, i < (s.lanesOf l).length → ∃ v, lanes[i]? = some v ∧ v.sig = true) →
      ∃ t, exec (.sigDet l lanes) s = .next t ∧ t.linkSt l = 2 ∧ (t.link l).since = s.tb.now)
    ∧ (∀ lanes : List LaneView, (s.linkSt l = 2 ∨ s.linkSt l = 5) → lanes.length = (s.lanesOf l).length →
      (∀ (i : Nat) (v : LaneView), lanes[i]? = some v → v.sig = true ∧ v.cdr = true ∧ v.valid = true ∧ v.lane = i
        ∧ ∀ e, s.mapEntry l = some e → v.link = e.2.2.2) →
      (∀ i ∈ s.lanesOf l, s.reg Fd.laneStatusFault i = 0) →
      ∃ t, exec (.trainFrame l lanes) s = .next t ∧ t.linkSt l = (if s.linkSt l = 2 then 3 else 6)
        ∧ t.reg Fd.linkStatusRxWidth l = lanes.length
        ∧ (s.linkSt l = 2 → ∃ feat, tabGet [] t.ctl l = tabGet [] s.ctl l ++ [.ident (t.ident l), feat, .timing]))
    ∧ (1 ≤ s.linkSt l → s.linkSt l ≤ 5 →
      (∀ n, (s.linkSt l, n) ∈ [(1, 4096), (2, 16384), (3, 4096), (4, 1024), (5, 16384)] →
        elapsed s.tb.now (s.link l).since (n + 1) = true → ∃ t, exec (.trainStateTimeout l) s = .next t
          ∧ t.linkSt l = 0 ∧ t.reg Fd.linkStatusFaults l = (s.reg Fd.linkStatusFaults l ||| 2) % 64))
    ∧ ∀ (m : IdentMsg) (delay : Nat) (revs : Byte) (word : Word), s.linkSt l = 3 →
      let ok : Bool := s.mapEntry l = some (m.pkg.val, m.inst.val, m.bundle.val, m.link.val)
      (512 < delay → ∃ t, exec (.ident l m delay) s = .next t ∧ t.linkSt l = 0)
      ∧ (delay ≤ 512 → m.rxFenced = 0 → (s.link l).featIn = none → ∃ t, exec (.ident l m delay) s = .next t
        ∧ t.linkSt l = 3 ∧ t.reg Fd.linkPeerPkg l = m.pkg.val ∧ t.reg Fd.linkPeerInst l = m.inst.val
        ∧ t.reg Fd.linkPeerMatch l = b2n ok ∧ (t.link l).identIn = some m
        ∧ t.reg Fd.linkStatusTxWidth l = (s.lanesOf l).length)
      ∧ (∀ rs fs, delay ≤ 512 → m.rxFenced = 0 → (s.link l).featIn = some (rs, fs) →
        let r := bestRev rs (s.reg Fd.lpCfgMaxrev)
        (ok = true → r ≠ 0 → (s.lanesOf l).length < 32 → s.reg Fd.linkStatusRxWidth l = (s.lanesOf l).length →
          ∃ t, exec (.ident l m delay) s = .next t ∧ t.linkSt l = 5 ∧ t.reg Fd.linkStatusRev l = r
            ∧ t.reg Fd.linkFeatActActive l = fs &&& s.reg Fd.lpFeatEnEn &&& revFeatures r)
        ∧ (ok = false → (s.link l).lastId ≠ some m → ∃ t, exec (.ident l m delay) s = .next t ∧ t.linkSt l = 7))
      ∧ ((s.link l).identIn = none → ∃ t, exec (.feat l revs word) s = .next t ∧ t.linkSt l = 3
        ∧ (t.link l).featIn = some (revs.toNat, word.toNat) ∧ t.reg Fd.linkFeatPeerPeer l = word.toNat)
      ∧ ((s.link l).identIn = some m → s.reg Fd.linkPeerMatch l = 1 →
        let rev := bestRev revs.toNat (s.reg Fd.lpCfgMaxrev)
        let act := word.toNat &&& s.reg Fd.lpFeatEnEn &&& revFeatures rev
        rev ≠ 0 → (bit act 2 = true ∨ (s.lanesOf l).length ≤ s.reg Fd.linkStatusRxWidth l
          ∧ (s.lanesOf l).length ≤ s.reg Fd.linkStatusTxWidth l) →
        ∃ t, exec (.feat l revs word) s = .next t ∧ t.linkSt l = 5 ∧ t.reg Fd.linkStatusRev l = rev
          ∧ t.reg Fd.linkFeatActActive l = act)

/-! ### Serving -/

/-- STEP_ASSIGN starts the step of a waiting context: it runs from now, its cores are the unfenced cores of its mask where the
caravan will hold a sequence and none elsewhere, and every other core keeps its assignment (R291, R299, R302). CARAVAN_BUILD
writes the caravan sequence list, for free cores where pages added since let a sequence join; an empty caravan ends the step,
which has served the model chosen and counts no job (R291, R292, R293, R299). The model's own choices that it rests on:
assumption log entries 66 and 67. -/
def Obligations.StepsStartAndBuildCaravans : Prop :=
  ∀ (c : Fin 8) (s : State), s.Inv → s.alive = true →
    (s.starts c = true →
      let cores := if s.joins c then s.maskCores c else []
      ∃ t, exec (.stepAssign c) s = .next t ∧ t.stu.builder = some c.val
        ∧ (t.ctx c).run = .running ∧ (t.ctx c).start = s.tb.now
        ∧ (t.ctx c).step = (if (s.ctx c).advance then ((s.ctx c).step + 1) % 2 ^ 32 else (s.ctx c).step)
        ∧ (t.ctx c).caravan = some { model := (s.chosen c).getD 0, served := (s.chosen c).isSome, seqs := [], cores := cores }
        ∧ (∀ n, n < 32 → (t.core n).ctx = if cores.contains n then some c.val else (s.core n).ctx)
        ∧ SameBut (fun p => s.noted p ∨ p = .stu ∨ p = .ctx c ∨ p = .sets ∨ (∃ n q, p = .core n q)
            ∨ p = .msgs ∨ (∃ n, p = .hubReg n)
            ∨ (∃ k, p = .sem k ∧ (s.sem k).owner = c) ∨ (∃ i, p = .bar i ∧ (s.bar i).owner = c)
            ∨ (∃ k, p = .model k ∧ (s.model k).ctx = c)
            ∨ ∃ f ch, p = .reg (Fld.key f ch) ∧ f ∈ [Fd.coreGrainSlackMinSlack, Fd.ordHoldMaxMax, Fd.ordHoldMaxTag,
              Fd.oasisBytesBytes, Fd.oasisPktsPkts, Fd.stuCtxWaitMaxWait, Fd.syncCtxLastId, Fd.syncCtxLastTag,
              Fd.syncCtxWaitOwnerGone]) s t)
    ∧ ∀ v, (s.ctx c).caravan = some v → s.stu.builder = some c.val → v.seqs = [] →
      let q := seqsOf s c (if v.served then some v.model else none)
      let cores := if v.cores = [] ∧ q ≠ [] then (s.maskCores c).filter fun n => (s.core n).ctx.isNone else v.cores
      (q = [] ∨ cores = [] → ∃ t, exec (.caravanBuild c) s = .next t ∧ (t.ctx c).caravan = none ∧ (t.ctx c).jobs = (s.ctx c).jobs
        ∧ (t.ctx c).lastModel = (if v.served then v.model else (s.ctx c).lastModel)
        ∧ t.stu.builder = none ∧ (∀ n ∈ v.cores, (t.core n).ctx = none)
        ∧ ((s.ctx c).queued = [] → (t.ctx c).run = if (s.ctx c).quiet then .idle else .waiting))
      ∧ (let b := cslBytes (s.ctx c).adm (s.ctx c).step q
        let base := (s.ctx c).adm.cslBase
        q ≠ [] → cores ≠ [] → base % 64 = 0 → base + b.length ≤ gmSize → ∃ t, exec (.caravanBuild c) s = .next t
          ∧ (t.ctx c).caravan = some { v with seqs := q, cores := cores }
          ∧ (∀ i, i < b.length → t.gbyte (base + i) = b.getD i 0) ∧ (v.cores = [] → ∀ n ∈ cores, (t.core n).ctx = some c.val)
          ∧ (v.cores ≠ [] → SameBut (fun p => s.noted p ∨ p = .ctx c ∨ (∃ i, p = .entry i ∧ (s.entry i).ctx = c)
            ∨ pagesMay s c p ∨ accessMay base b.length p ∨ p = .reg (Fd.stuCtxDeferDeferred.key c)) s t))

/-- CARAVAN_CUT puts the next parcel into its home queue, or stalls the builder while that queue holds 256 records, or ends
the cut; a parcel for a fenced core is dropped. BUILDER_RESUME ends the stall when the queue has room (R295, R296, R401). An
idle core's steal request takes the unpinned record nearest the tail of the fullest neighbour of its context, the lowest
number among equals, or is refused; of two that want one record in a cycle the lower-numbered core has it, and a home core
that takes it goes first (R31, R297). The first parcel queued for a core that runs one has its segment loaded (R296). The
model's own choices that it rests on: assumption log entry 65. -/
def Obligations.ParcelsReachCores : Prop :=
  (∀ (c : Nat) (v : Caravan) (s : State), s.alive = true → s.stu.builder = some c → (s.ctx c).caravan = some v →
    let plan := (s.model v.model).plan
    (v.seqs ≠ [] → s.stu.stalled = false →
      (v.next plan = none → exec .caravanCut s = .next
        ((Eff.stu { s.stu with builder := none, stalled := false }).apply
          ((Eff.ctx c { s.ctx c with caravan := some { v with cutDone := true } }).apply s)))
      ∧ ∀ st r home, v.next plan = some (st, r, home) →
        (256 ≤ (s.core home).home.length → exec .caravanCut s = .next { s with stu := { s.stu with stalled := true } })
        ∧ ((s.core home).home.length < 256 →
          let last := ((v.advance st r).next plan).isNone
          let x := r.cut v.cores.length v.seqs.length v.rank
          ∃ t, exec .caravanCut s = .next t ∧ t.stu.builder = (if last then none else some c)
            ∧ (t.ctx c).shownCut = v.cut + 1
            ∧ (if s.fenced home then (t.core home).home = (s.core home).home ∧ (t.ctx c).shownEnded = v.ended + 1
              else (t.ctx c).caravan = some { v.advance st r with cutDone := last }
                ∧ ∃ p : Parcel, (t.core home).home = (s.core home).home ++ [p] ∧ p.index = v.cut ∧ p.ctx = c ∧ p.seg = r.seg
                  ∧ p.slice = r.sliceBase + v.sl ∧ p.first = x.1 ∧ p.nseq = x.2.1 ∧ p.rank = v.rank ∧ p.parg = r.parg)
            ∧ ((s.core home).run.isSome = true → s.fenced home = false → (s.core home).home = [] →
                ∃ b p, (t.core home).segBuf = some b ∧ (t.core home).home = [p] ∧ b.parcel = p)
            ∧ ((s.core home).run = none → SameBut (fun p => p = .stu ∨ p = .ctx c ∨ p = .core home .assign) s t)))
    ∧ ∀ st r home, v.next plan = some (st, r, home) → s.stu.stalled = true → (s.core home).home.length < 256 →
      exec .builderResume s = .next { s with stu := { s.stu with stalled := false } })
  ∧ (∀ (n : Fin 32) (c : Nat) (s : State), s.alive = true → s.fenced n = false → (s.core n).ctx = some c →
    (s.core n).idle = true →
    let v := s.victim ((neighbours n).filter fun m => (s.core m).ctx = some c)
    (∀ m p, (s.ctx c).steal = true → v = some m → tailUnpinned (s.core m).home = some p →
      ∃ t, exec (.stealRequest ⟨n, [], []⟩) s = .next t ∧ (t.core m).home = (s.core m).home.filter (· ≠ p)
        ∧ (t.core n).stolen = some p
        ∧ t.reg Fd.stealStatsGranted = min Fd.stealStatsGranted.max (s.reg Fd.stealStatsGranted + 1)
        ∧ SameBut (fun x => x = .core m .assign ∨ x = .core n .assign ∨ x = .reg (Fd.stealStatsGranted.key 0)) s t)
    ∧ ((s.ctx c).steal = false ∨ v = none → exec (.stealRequest ⟨n, [], []⟩) s = .next
      ((Eff.reg Fd.stealStatsRefused 0 (min Fd.stealStatsRefused.max (s.reg Fd.stealStatsRefused + 1))).apply s)))
  ∧ ∀ (n k m : Fin 32) (p q : Parcel) (s : State), s.alive = true → s.mayAsk n = true → s.target n = some (m.val, p) →
    (s.mayAsk k = true → s.target k = some (m.val, q) → n < k → ∀ i ∈ [Instr.stealRequest ⟨n, [k], []⟩, .stealRequest ⟨k, [n], []⟩],
      ∃ t, exec i s = .next t ∧ (t.core n).stolen = some p ∧ (t.core k).stolen = none
        ∧ t.reg Fd.stealStatsGranted = min Fd.stealStatsGranted.max (s.reg Fd.stealStatsGranted + 1)
        ∧ t.reg Fd.stealStatsRefused = min Fd.stealStatsRefused.max (s.reg Fd.stealStatsRefused + 1))
    ∧ ((s.core m).run = none → (s.core m).home.head? = some p → exec (.stealRequest ⟨n, [], [m]⟩) s = .next
      ((Eff.reg Fd.stealStatsRefused 0 (min Fd.stealStatsRefused.max (s.reg Fd.stealStatsRefused + 1))).apply s))

/-- A core takes the head of its home queue or its stolen parcel: its parameter block is placed, its five engines hold the
streams of the segment that a buffer holds or that is fetched, and the next queued parcel's segment goes into the other buffer
(R169, R174, R185); a segment that fails its check twice ends the parcel POISONED (R395). A parcel whose streams and commands
are complete ends, POISONED where it or a token left in a queue is poisoned, else OK (R175, R176), and the step's end waits for
the writes that it has sent (R258). The model's own choices that it rests on: assumption log entry 112. -/
def Obligations.ParcelsStartAndEnd : Prop :=
  ∀ (n : Fin 32) (s : State), s.Inv → s.alive = true →
    (∀ p v, (s.core n).nextParcel = some p → (s.ctx p.ctx).caravan = some v → (s.core n).run = none →
      (s.core n).ctx = some p.ctx → s.fenced n = false → s.setsPending n = false →
      let m := s.model v.model
      let b := segmentOf s n v.model p
      let l := b.streams
      let home := if (s.core n).stolen.isSome then (s.core n).home else (s.core n).home.drop 1
      (b.good = true → l.any (!·.isEmpty) = true → m.param % 64 = 0 → m.param + 64 ≤ s.partSize n p.ctx →
        (s.part n p.ctx).1 + (s.part n p.ctx).2 ≤ 48 → ∃ t, exec (.parcelStart n false) s = .next t
          ∧ (∃ r, (t.core n).run = some r ∧ r.parcel = p ∧ r.model = v.model ∧ r.start = s.tb.now ∧ r.t4 = m.t4
            ∧ r.poisoned = false)
          ∧ (∀ g, (t.core n).eng g = { stream := l.getD (engCode g) [] })
          ∧ t.spGran n p.ctx m.param = goodGran (paramBlock (s.ctx p.ctx) v p s.tb.now)
          ∧ (t.core n).home = home ∧ (t.core n).stolen = none
          ∧ (∀ x, home.head? = some x → (s.ctx x.ctx).caravan.isSome = true → ∃ d, (t.core n).segBuf = some d ∧ d.parcel = x)
          ∧ ((s.core n).segBuf = some b → home = [] → SameBut (fun x => (∃ q, x = .core n q) ∨ partMay s n p.ctx m.param 64 x
            ∨ ∃ f ∈ [Fd.parcelStatusSegment, Fd.parcelStatusFormat, Fd.parcelIdParcel, Fd.parcelStartGrainLo],
              x = .reg (Fld.key f n)) s t))
      ∧ ∀ upset, (upset || !b.good) = true → ∃ t, exec (.parcelStart n upset) s = .next t ∧ (t.core n).run = none
        ∧ t.reg Fd.parcelStatusLastStatus n = 1 ∧ (t.ctx p.ctx).shownEnded = v.ended + 1
        ∧ ((s.core n).segBuf = some b → SameBut (fun x => s.noted x ∨ x = .core n .assign ∨ x = .core n .rest
          ∨ x = .ctx p.ctx ∨ x = .reg (Fd.parcelStatusLastStatus.key n)) s t))
    ∧ ∀ r v, (s.core n).run = some r → (s.core n).complete = true → (s.ctx r.parcel.ctx).caravan = some v →
      ∃ t, exec (.parcelEnd n) s = .next t ∧ (t.core n).run = none ∧ (t.core n).queues = []
        ∧ t.reg Fd.parcelStatusLastStatus n = (if r.poisoned || (s.core n).tokens.any (·.poison) then 1 else 0)
        ∧ t.reg Fd.tokenLeftCount n = min Fd.tokenLeftCount.max (s.reg Fd.tokenLeftCount n + (s.core n).tokens.length)
        ∧ (t.ctx r.parcel.ctx).shownEnded = v.ended + 1
        ∧ (∀ w ∈ (t.core n).outW, w.exempt = false → w.owed = true)
        ∧ SameBut (fun x => x = .core n .run ∨ x = .core n .queues ∨ x = .core n .wadis ∨ x = .core n .arrays
          ∨ x = .core n .notes ∨ x = .core n .writes
          ∨ x = .ctx r.parcel.ctx ∨ ∃ f ∈ [Fd.parcelStatusLastStatus, Fd.tokenLeftCount, Fd.tokenLeftPoisoned,
            Fd.wadiDroppedEntries], x = .reg (Fld.key f n)) s t

/-- STEP_END (R283, R298, R303, R306): the caravan is gone, the context waits, its job is counted where a parcel was cut, and
its cores are free. With the step's objects as they must be left and no command waiting, a sequence with outcome OK that does
not draw has advanced by NTOK; one with a worse outcome keeps its position; a caravan's only sequence that draws takes the
token drawn. With an object left otherwise under RESIDUE_POISON every sequence is POISONED where it was. The model's own
choices that it rests on: assumption log entries 64 and 67. -/
def Obligations.StepEndAdvancesSequences : Prop :=
  ∀ (c : Fin 8) (v : Caravan) (s : State), s.Inv → s.alive = true → (s.ctx c).caravan = some v →
    (s.ctx c).run = .running → v.cutDone = true → v.ended = v.cut → (v.cores.all (s.acked c)) = true →
    ∃ t, exec (.stepEnd c) s = .next t ∧ (t.ctx c).caravan = none ∧ (t.ctx c).run = .waiting
      ∧ (t.ctx c).jobs = (if v.cut = 0 then (s.ctx c).jobs else min (2 ^ 48 - 1) ((s.ctx c).jobs + 1))
      ∧ (t.ctx c).lastModel = v.model ∧ (∀ n ∈ v.cores, (t.core n).ctx = none)
      ∧ (hasResidue s c = true → (s.ctx c).adm.residuePoison = true → (s.ctx c).queued = [] → (v.seqs.map (·.entry)).Nodup →
        ∀ q ∈ v.seqs, (t.entry q.entry).pos = (s.entry q.entry).pos ∧ (t.entry q.entry).outcome = 3)
      ∧ (hasResidue s c = false → (s.ctx c).queued = [] → (v.seqs.map (·.entry)).Nodup →
        (∀ q ∈ v.seqs, q.outcome ≤ 1 → q.draws = false →
          (t.entry q.entry).pos = q.pos + q.ntok ∧ (t.entry q.entry).outcome = 1)
        ∧ (∀ q ∈ v.seqs, 1 < q.outcome →
          (t.entry q.entry).pos = (s.entry q.entry).pos ∧ (t.entry q.entry).outcome = q.outcome)
        ∧ (∀ i, (∀ q ∈ v.seqs, q.entry ≠ i) → t.entry i = s.entry i)
        ∧ ∀ q tok, v.seqs = [q] → q.outcome ≤ 1 → q.draws = true →
          (let s1 := fetched s (.step c) (s.ctx c).adm.candBase 4
          let n := leNat (s1.gread (s.ctx c).adm.candBase 4)
          let s2 := fetched s1 (.step c) ((s.ctx c).adm.candBase + 64) (8 * min n 1024)
          drawToken n (s2.gread ((s.ctx c).adm.candBase + 64) (8 * min n 1024)) (s.entry q.entry).invT
            (s.entry q.entry).topk (philoxWord (s.ctx c).adm.seed (s.entry q.entry).seqId (q.pos + q.ntok))) = some tok →
          (t.entry q.entry).last = tok ∧ (t.entry q.entry).draw = q.pos + q.ntok
            ∧ (t.entry q.entry).pos = q.pos + q.ntok)

/-- A best-effort step that lasts 2^16 grains is aborted: its parcels and caravan are gone, its sequences are ABORTED at the
positions they had, the abort is counted and counts no job, and at ABORT_LIMIT aborts in a row the context is HELD (R304). A
latency-critical step beyond its BUDGET is counted once and goes on (R305). The model's own choices that it rests on:
assumption log entry 69. -/
def Obligations.StepsAreBounded : Prop :=
  ∀ (c : Fin 8) (v : Caravan) (s : State), s.Inv → s.alive = true → (s.ctx c).run = .running →
    (s.ctx c).caravan = some v →
    ((s.ctx c).adm.be = true → elapsed s.tb.now (s.ctx c).start 65536 = true →
      ∃ t, exec (.beStepCap c) s = .next t ∧ (t.ctx c).caravan = none ∧ (t.ctx c).jobs = (s.ctx c).jobs
        ∧ (t.ctx c).run = (if (s.ctx c).adm.abortLimit ≤ min 15 ((s.ctx c).abortRun + 1) then .held else .waiting)
        ∧ (t.ctx c).abortRun = min 15 ((s.ctx c).abortRun + 1)
        ∧ t.reg Fd.stuCtxAbortAborts c = min Fd.stuCtxAbortAborts.max (s.reg Fd.stuCtxAbortAborts c + 1)
        ∧ (∀ n ∈ v.cores, (t.core n).run = none ∧ (t.core n).ctx = none ∧ (t.core n).home = [])
        ∧ ((s.ctx c).queued = [] → (∀ i, (t.entry i).pos = (s.entry i).pos)
          ∧ ∀ q ∈ v.seqs, (t.entry q.entry).outcome = if (s.ctx c).adm.residuePoison && hasResidue s c then 3 else 4))
    ∧ ((s.ctx c).adm.be = false → (s.ctx c).adm.budget ≠ 0 → (s.ctx c).lateDone = false →
      elapsed s.tb.now (s.ctx c).start ((s.ctx c).adm.budget + 1) = true →
      ∃ t, exec (.stepBudget c) s = .next t ∧ t.ctx c = { s.ctx c with lateDone := true }
        ∧ t.reg Fd.stuCtxLateLate c = min Fd.stuCtxLateLate.max (s.reg Fd.stuCtxLateLate c + 1)
        ∧ SameBut (fun p => s.noted p ∨ p = .ctx c ∨ p = .reg (Fd.stuCtxLateLate.key c)) s t)

/-! ### Commands on contexts -/

/-- While no step of the context runs, SEQ_OPEN makes a FREE entry READY at position 0 from its image in the staging region,
SEQ_SET changes the fields given, SEQ_HOLD holds a READY entry and SEQ_RESUME makes a HELD one READY; each wakes an idle
context and is answered OK (R287, R292, R299). SEQ_READ answers the entry's 64 bytes. While a step runs, a command that is
not SEQ_READ waits for its end unanswered (R287). The model's own choices that it rests on: assumption log entries 59 and
96. -/
def Obligations.SequenceCommandsAct : Prop :=
  ∀ (c : Fin 8) (i : Fin 8192) (r : Req) (s : State), s.alive = true → (s.pair r.pair).epoch = r.epoch →
    s.mayName r c = true →
    let e := s.entry i
    let a := (s.ctx c).adm
    let acts := fun (op : Nat) (cmd : Instr) (e' : Entry) => s.serving op = some r → ∃ t, exec cmd s = .next t
      ∧ Answered s t r .ok 0 [] ∧ t.entry i = e' ∧ t.ctx c = wakened (s.ctx c) s.tb.now
      ∧ SameBut (fun p => replied r p ∨ p = .entry i ∨ p = .ctx c) s t
    let waits := fun (op : Nat) (cmd : Instr) (q : SeqOp) (may : Part → Prop) => s.serving op = some r →
      ∃ t, exec cmd s = .next t
        ∧ (t.pair r.pair).service = none ∧ t.ctx c = { s.ctx c with queued := (s.ctx c).queued ++ [⟨r, i, q⟩] }
        ∧ SameBut (fun p => p = .pair r.pair ∨ p = .ctx c ∨ may p) s t
    let no := fun _ : Part => False
    ((s.ctx c).run ≠ .running →
      (∀ addr : BitVec 64, s.inStaging r addr.toNat 64 = true → e.st = .free →
        let n : Entry := { entryOf ((fetched s .firmware addr.toNat 64).gread addr.toNat 64) with
          pos := 0, draw := 0, npages := 0, rcount := 0, outcome := 0, st := .ready }
        openBad a c n = none → s.serving 0x28 = some r → ∃ t, exec (.seqOpen c i addr) s = .next t
          ∧ Answered s t r .ok 0 [] ∧ t.entry i = n ∧ t.ctx c = wakened (s.ctx c) s.tb.now
          ∧ tabGet 0 t.snap.snapPos i = 0
          ∧ SameBut (fun p => replied r p ∨ p = .entry i ∨ p = .ctx c ∨ p = .snap ∨ accessMay addr.toNat 64 p) s t)
      ∧ (e.ctx = c → e.st ≠ .free → ∀ ch, (ch.limit.isSome && limitBad a (e.change ch)) = false →
        acts 0x29 (.seqSet c i ch) (e.change ch))
      ∧ (e.ctx = c → e.st = .ready → acts 0x2A (.seqHold c i) { e with st := .held })
      ∧ (e.ctx = c → e.st = .held → acts 0x2B (.seqResume c i) { e with st := .ready, rcount := 0 }))
    ∧ ((s.ctx c).run = .running →
      (∀ addr : BitVec 64, s.inStaging r addr.toNat 64 = true →
        waits 0x28 (.seqOpen c i addr) (.opn ((fetched s .firmware addr.toNat 64).gread addr.toNat 64)) (accessMay addr.toNat 64))
      ∧ (∀ ch, waits 0x29 (.seqSet c i ch) (.set ch) no) ∧ waits 0x2A (.seqHold c i) .hold no
      ∧ waits 0x2B (.seqResume c i) .resume no ∧ waits 0x2C (.seqClose c i) .close no)
    ∧ (e.ctx = c → e.st ≠ .free → s.serving 0x2D = some r → ∃ t, exec (.seqRead c i) s = .next t
      ∧ Answered s t r .ok 0 e.bytes ∧ SameBut (replied r) s t)

/-- SEQ_CLOSE frees its entry and returns the pages of its list, in list order, to the tail of the context's pool; POOL_ADD
puts pages from the staging region there, where no more than POOL_SIZE pages would then be in use (R289). The model's own
choices that it rests on: assumption log entry 59. -/
def Obligations.PagesReturnToThePool : Prop :=
  ∀ (c : Fin 8) (r : Req) (s : State), s.Inv → s.alive = true → (s.pair r.pair).epoch = r.epoch →
    s.mayName r c = true → (s.ctx c).adm.poolBase % 64 = 0 →
    (s.ctx c).adm.poolBase + 8 * (s.ctx c).adm.poolSize ≤ gmSize → 8 ≤ (s.ctx c).adm.poolSize →
    let x := s.ctx c
    let put := fun (t : State) (pages : List Nat) =>
      (t.ctx c).poolCount = x.poolCount + pages.length ∧ (t.ctx c).poolHead = x.poolHead
        ∧ (x.poolCount + pages.length ≤ x.adm.poolSize → ∀ k, k < pages.length →
          leNat (t.gread (x.adm.poolBase + 8 * ((x.poolHead + x.poolCount + k) % x.adm.poolSize)) 8)
            = pages.getD k 0 % 2 ^ 64)
    (∀ i : Fin 8192, s.serving 0x2C = some r → (s.entry i).ctx = c → (s.entry i).st ≠ .free → x.run ≠ .running →
      s.snap.st = 0 → ∃ t, exec (.seqClose c i) s = .next t ∧ Answered s t r .ok 0 [] ∧ t.entry i = {}
        ∧ put t (pagesRead s c i)
        ∧ SameBut (fun p => replied r p ∨ p = .entry i ∨ p = .ctx c ∨ pagesMay s c p) s t)
    ∧ ∀ (n : Nat) (addr : BitVec 64), s.serving 0x30 = some r → 0 < n → n ≤ 256 → s.inStaging r addr.toNat (8 * n) = true →
      x.poolCount + s.pagesOut c + n ≤ x.adm.poolSize →
      let pages := (List.range n).map fun k =>
        leAt ((fetched s .firmware addr.toNat (8 * n)).gread addr.toNat (8 * n)) (8 * k) 8
      (∀ p ∈ pages, p % 2 ^ x.adm.pgShift = 0) → ∃ t, exec (.poolAdd c n addr) s = .next t
        ∧ Answered s t r .ok 0 [] ∧ put t pages
        ∧ SameBut (fun p => replied r p ∨ p = .ctx c ∨ pagesMay s c p ∨ accessMay addr.toNat (8 * n) p) s t

/-- MODEL_LOAD of a binary that passes every check makes its slot resident and its objects reachable by their identifiers,
and RESIDENCY_LOAD does so for an evicted slot that a step waits for (R300, R381, R383). MODEL_EVICT of a model whose step
does not run frees its objects and keeps the slot; MODEL_PIN sets PIN; MODEL_UNLOAD empties a slot that no READY entry
names. The model's own choices that it rests on: assumption log entries 59, 87 and 88. -/
def Obligations.ModelCommandsAct : Prop :=
  ∀ (c : Fin 8) (k : Fin 16) (r : Req) (s : State), s.Inv → s.alive = true →
    ((s.pair r.pair).epoch = r.epoch → s.mayName r c = true →
      (∀ (addr : BitVec 64) (len : Word) (pin : Bool) (l : List (Nat × Res)), s.serving 0x20 = some r →
        (s.model k).st = .empty → s.inWindows c addr.toNat len.toNat = true →
        s.checkBinary c ((fetched s .firmware addr.toNat len.toNat).gread addr.toNat len.toNat) = .ok l → ∃ t, exec (.modelLoad c k addr len pin) s = .next t
          ∧ Answered s t r .ok 0 [] ∧ (t.model k).st = .resident ∧ (t.model k).ctx = c ∧ (t.model k).addr = addr.toNat
          ∧ (t.model k).len = len.toNat ∧ (t.model k).pin = pin ∧ (t.model k).vids = (vidsOf l).map (·.2)
          ∧ ∀ v ∈ vidsOf l, (t.lookup c v.2).isSome = true)
      ∧ ((s.model k).ctx = c →
        (s.serving 0x21 = some r → (s.model k).st = .resident → s.modelRuns k = false →
          ∃ t, exec (.modelEvict c k) s = .next t ∧ Answered s t r .ok 0 [] ∧ (t.model k).st = .evicted
            ∧ (t.model k).addr = (s.model k).addr ∧ (t.model k).modelId = (s.model k).modelId
            ∧ ∀ v ∈ (s.model k).vids, t.lookup c v = none)
        ∧ (∀ pin, s.serving 0x22 = some r → (s.model k).st ≠ .empty → ∃ t, exec (.modelPin c k pin) s = .next t
          ∧ Answered s t r .ok 0 [] ∧ t.model k = { s.model k with pin := pin }
          ∧ SameBut (fun p => replied r p ∨ p = .model k) s t)
        ∧ (s.serving 0x23 = some r → (s.model k).st ≠ .empty → s.readyOf c k = [] → s.modelRuns k = false →
          ∃ t, exec (.modelUnload c k) s = .next t ∧ Answered s t r .ok 0 [] ∧ t.model k = {})))
    ∧ ∀ l, (s.model k).st = .evicted → (s.model k).wanted = true → s.fwBusy = false →
      (s.ctx (s.model k).ctx).prot = .admitted →
      s.checkBinary (s.model k).ctx
        ((fetched s .firmware (s.model k).addr (s.model k).len).gread (s.model k).addr (s.model k).len) = .ok l →
      ∃ t, exec (.residencyLoad k) s = .next t ∧ (t.model k).st = .resident ∧ (t.model k).wanted = false
        ∧ (t.model k).addr = (s.model k).addr ∧ ∀ v ∈ vidsOf l, (t.lookup (s.model k).ctx v.2).isSome = true

/-- PROPOSE of a record in order makes a pending change with the proposer's commit, and answers PENDING with its identifier,
digest and deadline (R374). A COMMIT that is not the last adds its party; the last one applies the change, which is gone, and
is answered OK; one whose token or digest differs cancels it and is counted (R376, R377). WITHDRAW and a reached deadline
cancel, and the platform's WITHDRAW of a quarantined link's acceptance rejects the link (R345); a COMMIT of a change that its
deadline cancelled is answered EXPIRED. The model's own choices that it rests on: assumption log entries 11, 50, 55, 56 and
71. -/
def Obligations.ChangesTakeEveryParty : Prop :=
  ∀ (r : Req) (s : State), s.alive = true → (s.pair r.pair).epoch = r.epoch →
    (∀ parties, s.serving 0x10 = some r → s.proposeBad r = none →
      s.checkChange (leAt r.payload 0 1) (proposed s r parties).record = .ok parties → parties.contains r.pair = true →
      let h := proposed s r parties
      ∃ t, exec .propose s = .next t ∧ Answered s t r .pending 0 (toLe h.id 2 ++ toLe h.digest 4 ++ toLe h.deadline 6)
        ∧ t.fw = { s.fw with changes := s.fw.changes ++ [h], nextId := nextChange h.id,
                             expired := s.fw.expired.filter (·.1 ≠ h.id) }
        ∧ SameBut (fun p => replied r p ∨ p = .fw ∨ accessMay (leAt r.payload 8 8) (leAt r.payload 16 2) p) s t)
    ∧ (∀ h, s.serving 0x11 = some r → leAt r.payload 2 2 ≠ 0 →
      (s.fw.changes.find? fun h => h.id = leAt r.payload 0 2) = some h → h.parties.contains r.pair = true →
      reached s.tb.now h.deadline = false →
      let same := decide (leAt r.payload 2 2 = h.token ∧ leAt r.payload 4 4 = h.digest)
      let now := if h.committed.contains r.pair then h.committed else h.committed ++ [r.pair]
      let last := h.parties.all now.contains && !h.committed.contains r.pair
      (same = true → last = false → ∃ t, exec .commit s = .next t ∧ Answered s t r .pending 0 []
        ∧ t.fw = { s.fw with
            changes := s.fw.changes.map fun x => if x.id = h.id then { x with committed := now } else x }
        ∧ SameBut (fun p => replied r p ∨ p = .fw) s t)
      ∧ (same = true → last = true → ∀ ps, s.checkChange h.kind h.record = .ok ps → 3 ≤ h.kind → h.kind ≤ 7 →
        ∃ t, exec .commit s = .next t ∧ Answered s t r .ok 0 []
          ∧ t.fw.changes = s.fw.changes.filter (·.id ≠ h.id)
          ∧ (h.kind = 4 → t.lookup (leAt h.record 1 1) (leAt h.record 4 2) = s.lookup (leAt h.record 0 1) (leAt h.record 2 2))
          ∧ (h.kind = 6 → (t.ctx (leAt h.record 0 1)).consent
              = some (leAt h.record 1 1, grainAdd s.tb.now (leAt h.record 4 4)))
          ∧ (h.kind = 7 → (t.ctx (leAt h.record 0 1)).hold = some ⟨leAt h.record 8 8, leAt h.record 16 8, false⟩))
      ∧ (same = false → ∃ t, exec .commit s = .next t ∧ Answered s t r .mismatch 0 []
        ∧ t.fw.changes = s.fw.changes.filter (·.id ≠ h.id)
        ∧ t.reg Fd.hpChgMismatch = min Fd.hpChgMismatch.max (s.reg Fd.hpChgMismatch + 1)
        ∧ SameBut (fun p => replied r p ∨ s.noted p ∨ p = .fw ∨ p = .reg (Fd.hpChgMismatch.key 0)) s t))
    ∧ (∀ e, s.serving 0x11 = some r → leAt r.payload 2 2 ≠ 0 →
      (s.fw.changes.find? fun h => h.id = leAt r.payload 0 2) = none →
      (s.fw.expired.find? fun e => e.1 = leAt r.payload 0 2) = some e → e.2.contains r.pair = true →
      ∃ t, exec .commit s = .next t ∧ Answered s t r .expired 0 [] ∧ SameBut (fun p => replied r p) s t)
    ∧ ∀ (id : BitVec 16) h, (s.fw.changes.find? fun h => h.id = id.toNat) = some h →
      (s.serving 0x12 = some r → h.proposer = r.pair → ∃ t, exec (.withdraw id) s = .next t ∧ Answered s t r .ok 0 []
        ∧ t.fw.changes = s.fw.changes.filter (·.id ≠ h.id)
        ∧ (let l := leAt h.record 0 1 * 4 + leAt h.record 1 1
          if h.kind = 5 ∧ h.proposer = 0 ∧ s.linkSt l = 7 then t.linkSt l = 0
          else SameBut (fun p => replied r p ∨ s.noted p ∨ p = .fw) s t))
      ∧ (reached s.tb.now h.deadline = true → ∃ t, exec (.changeDeadline id) s = .next t
        ∧ t.fw.changes = s.fw.changes.filter (·.id ≠ h.id)
        ∧ t.fw.expired.find? (·.1 = h.id) = some (h.id, h.parties)
        ∧ t.reg Fd.hpChgExpired = min Fd.hpChgExpired.max (s.reg Fd.hpChgExpired + 1)
        ∧ SameBut (fun p => s.noted p ∨ p = .fw ∨ p = .reg (Fd.hpChgExpired.key 0)) s t)

/-- REVOKE by a party ends a debug consent, a hold that does not act yet, a shared map entry, or an oasis (R377). CTX_RESUME
by the owner lets a context that R304 held wait for its next step. The model's own choices that it rests on: assumption log
entry 57. -/
def Obligations.RevokeAndResumeAct : Prop :=
  ∀ (c : Fin 8) (r : Req) (s : State), s.alive = true → (s.pair r.pair).epoch = r.epoch →
    (s.serving 0x13 = some r →
      (s.mayName r c = true → (s.ctx c).consent.isSome = true → ∃ t, exec (.revoke (.debug c)) s = .next t
        ∧ Answered s t r .ok 0 [] ∧ (t.ctx c).consent = none
        ∧ ∀ n, n < 32 → (s.core n).ctx = some c.val → t.halted n = false)
      ∧ (∀ h, s.mayName r c = true → (s.ctx c).hold = some h → h.acting = false →
        ∃ t, exec (.revoke (.hold c)) s = .next t ∧ Answered s t r .ok 0 []
          ∧ t.ctx c = { s.ctx c with hold := none } ∧ SameBut (fun p => replied r p ∨ p = .ctx c) s t)
      ∧ (∀ (vid : BitVec 16) e, (s.ctx c).prot = .admitted → tabGet none (s.ctx c).map (vid.toNat % 1024) = some e →
        e.tag = vid.toNat / 1024 → e.shared = true →
        r.pair ∈ [(s.ctx c).adm.tenant, (s.ctx (s.objOwner e.obj)).adm.tenant] →
        ∃ t, exec (.revoke (.map c vid)) s = .next t ∧ Answered s t r .ok 0 [] ∧ t.lookup c vid.toNat = none
          ∧ SameBut (fun p => replied r p ∨ p = .ctx c) s t)
      ∧ (∀ (id : Fin 16) o l, (s.ctx c).prot = .admitted → s.openOf c id = o :: l →
        r.pair ∈ s.oasisParties c o.writers → ∃ t, exec (.revoke (.oasis c id)) s = .next t
          ∧ Answered s t r .ok 0 [] ∧ t.openOf c id = []
          ∧ SameBut (fun p => replied r p ∨ ∃ n, p = .core n .oases) s t))
    ∧ (s.serving 0x19 = some r → s.mayName r c = true → (s.ctx c).run = .held → ∃ t, exec (.ctxResume c) s = .next t
      ∧ Answered s t r .ok 0 [] ∧ t.ctx c = { s.ctx c with run := .waiting, waitFrom := s.tb.now, abortRun := 0 }
      ∧ SameBut (fun p => replied r p ∨ p = .ctx c) s t)

/-- KILL_CTX tears its context down: its entries are FREE, its model slots EMPTY, its objects freed, its cores released
without a parcel, its slices gone, JOBS kept, and its banks go under scrub, or under a hold that was asked for (R384, R386).
The model's own choices that it rests on: assumption log entry 90. -/
def Obligations.TeardownFreesEverything : Prop :=
  ∀ (c : Fin 8) (r : Req) (s : State), s.Inv → s.alive = true → s.serving 0x18 = some r → s.mayName r c = true →
    ∃ t, exec (.killCtx c) s = .next t ∧ (t.pair r.pair).service = none
      ∧ (t.ctx c).prot = (if (s.ctx c).hold.isSome then .held else .tearing) ∧ (t.ctx c).tearReq = some r
      ∧ (t.ctx c).jobs = (s.ctx c).jobs ∧ (t.ctx c).caravan = none
      ∧ (∀ i, (s.entry i).ctx = c → (t.entry i).st = .free) ∧ (∀ k, k < 16 → (s.model k).ctx = c → (t.model k).st = .empty)
      ∧ (∀ k, (s.sem k).owner = c → (t.sem k).alloc = false) ∧ (∀ i, (s.bar i).owner = c → (t.bar i).alloc = false)
      ∧ (∀ n, n < 32 → (s.core n).ctx = some c.val → (t.core n).ctx = none ∧ (t.core n).run = none)
      ∧ (∀ x ∈ t.slices, x.ctx ≠ some c.val)
      ∧ ∀ n, n < 32 → bit (s.ctx c).adm.mask n = true →
        let a := (s.ctx c).adm
        if (s.ctx c).hold.isSome then (a.pb, a.nb, c.val) ∈ (t.core n).held ∧ t.reg (Fd.spPartValid c) n = 0
        else (a.pb, a.nb, c.val) ∈ (t.core n).scrub

/-- HOLD_DUMP_DONE writes the dump of each core of the mask, one after another, and the banks go under scrub (R386). Where the
scrub of a teardown is done, the banks read zero, the number is free with JOBS kept, and KILL_CTX is answered with JOBS (R230,
R384); the scrub of banks that a partition gave up touches nothing else. ADMISSION_COMPLETE puts an admission whose banks are
free in force (R380). The model's own choices that it rests on: assumption log entries 89 and 90. -/
def Obligations.BanksChangeHands : Prop :=
  ∀ (c : Fin 8) (s : State), s.Inv → s.alive = true → s.fwBusy = false →
    let a := (s.ctx c).adm
    (∀ h, (s.ctx c).hold = some h → (s.ctx c).prot = .held → h.acting = true → h.addr % 64 = 0 →
      h.addr + popcount a.mask 32 * dumpBytes a.nb ≤ gmSize →
      ∃ t, exec (.holdDumpDone c) s = .next t ∧ (t.ctx c).prot = .tearing ∧ (t.ctx c).hold = none
        ∧ (t.ctx c).scrubbing = true
        ∧ (∀ i j b, i < (bitsSet a.mask 32).length → j < dumpBytes a.nb / 64 → b < 64 →
          t.gbyte (h.addr + i * dumpBytes a.nb + 64 * j + b)
            = ((s.dumpOf c ((bitsSet a.mask 32).getD i 0)).getD j ⟨[], 0⟩).data.getD b 0)
        ∧ (∀ b, b < h.addr ∨ h.addr + popcount a.mask 32 * dumpBytes a.nb ≤ b → t.gbyte b = s.gbyte b)
        ∧ ∀ n ∈ bitsSet a.mask 32, (a.pb, a.nb, c.val) ∈ (t.core n).scrub ∧ ∀ h ∈ (t.core n).held, h.2.2 ≠ c.val)
    ∧ ((s.ctx c).scrubbing = true → ∃ t, exec (.bankScrubDone c) s = .next t ∧ t.ctx c = { jobs := (s.ctx c).jobs }
      ∧ (∀ n ∈ bitsSet a.mask 32, t.reg (Fd.spPartValid c) n = 0 ∧ (∀ b ∈ (t.core n).scrub, b.2.2 ≠ c.val)
        ∧ ((a.pb, a.nb, c.val) ∈ (s.core n).scrub → ∀ x, a.pb * 65536 ≤ x → x < (a.pb + a.nb) * 65536 → t.spbyte n x = 0))
      ∧ ∀ r, (s.ctx c).tearReq = some r → (s.pair r.pair).epoch = r.epoch →
        Answered s t r .ok 0 (toLe (s.ctx c).jobs 6))
    ∧ ((s.ctx c).scrubbing = false → (∃ n, n < 32 ∧ (s.core n).scrub.any (·.2.2 = c.val) = true) →
      ∃ t, exec (.bankScrubDone c) s = .next t ∧ t.ctx c = s.ctx c
        ∧ ∀ n, n < 32 → (∀ b ∈ (t.core n).scrub, b.2.2 ≠ c.val) ∧ (t.core n).tiles = (s.core n).tiles
          ∧ (t.core n).mcache = (s.core n).mcache
          ∧ ∀ b ∈ (s.core n).scrub, b.2.2 = c.val →
              ∀ x, b.1 * 65536 ≤ x → x < (b.1 + b.2.1) * 65536 → t.spbyte n x = 0)
    ∧ ∀ w, (s.ctx c).bankWait = some w → s.banksFree c w.adm = true → w.admits = true →
      ∃ t, exec (.admissionComplete c) s = .next t
        ∧ t.ctx c = { prot := .admitted, adm := w.adm, run := .waiting, waitFrom := s.tb.now }
        ∧ (∀ n ∈ bitsSet w.adm.mask 32, t.reg (Fd.spPartValid c) n = 1 ∧ t.reg (Fd.spPartPb c) n = w.adm.pb % 64
          ∧ t.reg (Fd.spPartNb c) n = w.adm.nb % 64)
        ∧ ((s.pair w.req.pair).epoch = w.req.epoch → Answered s t w.req .ok 0 [])
        ∧ SameBut (fun p => replied w.req p ∨ s.noted p ∨ p = .ctx c
          ∨ ∃ f n, p = .reg (Fld.key f n) ∧ f ∈ [Fd.spPartValid c, Fd.spPartPb c, Fd.spPartNb c]) s t

/-! ### Slices over the sled ring -/

/-- A RESV_REQ for a hop of this cluster holds the hop's entries, or is refused with RESV_NAK and its reason; the last hop
owns them at once and answers RESV_ACK; a request behind a known slice is noted and forwarded, but one that names this hop
and has passed here before is refused with reason 2 or 5; any other is dropped (R354, R359).
RESV_ACK makes HELD entries owned, RESV_NAK and RESV_HOLD_END free them and RESV_REL frees the slice; each goes on along the
path, and at the origin the first answers the final COMMIT OK, the next two CONFLICT (R360). Entries HELD for 2^16 grains
are freed; the origin is told, or answers its COMMIT CONFLICT (R354, R360). SLICE_RELEASE frees an owned slice of its
context and sends RESV_REL along its path (R354). The model's own choices that it rests on: assumption log entries 51, 52,
53 and 54. -/
def Obligations.SlicesReserveAndRelease : Prop :=
  (∀ (l : Fin 8) (m : ResvMsg) (s : State), s.linkOn l = true → s.fwBusy = false →
    let h := m.hopRec.toNat
    let mine := hopPkg h = Config.pkg.val ∧ hopInst h = Config.inst.val ∧ hopIn h = l.val
    let at_ := fun (r : Req) (x : Slice) => ∃ hc, (s.fw.slices.find? fun p => p.1 = x.id) = some (x.id, r, hc)
    (∀ x, s.sliceAt m false l = some x →
      (¬ (mine ∧ m.hop ∈ x.passed) → exec (.resvReq l m) s = .next (relayed
        { s with slices := s.slices.map fun y => if y = x then { x with passed := x.passed ++ [m.hop] } else y }
        x.outLink (.resvReq m)))
      ∧ (mine → m.hop ∈ x.passed → ∃ k, (k = 2 ∨ k = 5)
        ∧ exec (.resvReq l m) s = .next (queuedOn s l (.resvNak (backMsg m m.hop k)))))
    ∧ (s.sliceAt m false l = none →
      (¬ mine → exec (.resvReq l m) s = .next
        ((Eff.reg Fd.linkLostDiscard l (min Fd.linkLostDiscard.max (s.reg Fd.linkLostDiscard l + 1))).apply s))
      ∧ (∀ k, mine → s.resvReason m = some k →
        exec (.resvReq l m) s = .next (queuedOn s l (.resvNak (backMsg m m.hop k))))
      ∧ (mine → s.resvReason m = none → hopLast h = false → exec (.resvReq l m) s = .next { s with slices := s.slices ++ [{
          opkg := m.opkg, oinst := m.oinst, id := m.slice.toNat, ctx := none, hop := m.hop,
          slots := hopSlots m (0x40 + s.freeFlow.getD 0), since := s.tb.now, flow := s.freeFlow, inLink := some l.val,
          outLink := some (hopOut h), lag := hopLag h }] })
      ∧ (mine → s.resvReason m = none → hopLast h = true → ∃ t, exec (.resvReq l m) s = .next t
        ∧ (∃ x ∈ t.slices, x.named m = true ∧ x.owned = true ∧ x.inLink = some l.val ∧ x.ctx = none)
        ∧ t.ctl = (queuedOn s l (.resvAck (backMsg m m.hop 0))).ctl
        ∧ SameBut (fun p => p = .slices ∨ p = .sets ∨ p = .free ∨ p = .ctl l) s t))
    ∧ (∀ x, s.sliceAt m true l = some x → x.owned = false →
      (x.ctx = none →
        (∃ t, exec (.resvAck l m) s = .next t
          ∧ t.slices = s.slices.map (fun y => if y = x then { x with owned := true } else y)
          ∧ t.ctl = (relayed s x.inLink (.resvAck m)).ctl
          ∧ SameBut (fun p => p = .slices ∨ p = .sets ∨ ∃ k, p = .ctl k) s t)
        ∧ exec (.resvNak l m) s = .next (relayed { s with slices := s.slices.filter (· ≠ x) } x.inLink (.resvNak m))
        ∧ exec (.resvHoldEnd l m) s
          = .next (relayed { s with slices := s.slices.filter (· ≠ x) } x.inLink (.resvHoldEnd m)))
      ∧ (∀ c r, x.ctx = some c → at_ r x → (s.pair r.pair).epoch = r.epoch →
        (∃ t, exec (.resvAck l m) s = .next t ∧ Answered s t r .ok 0 []
          ∧ t.slices = s.slices.map (fun y => if y = x then { x with owned := true } else y))
        ∧ (∃ t, exec (.resvNak l m) s = .next t ∧ Answered s t r .conflict (m.hop % 256 * 256 + m.reason.toNat) []
          ∧ t.slices = s.slices.filter (· ≠ x))
        ∧ (∃ t, exec (.resvHoldEnd l m) s = .next t ∧ Answered s t r .conflict 0xFF []
          ∧ t.slices = s.slices.filter (· ≠ x))))
    ∧ ∀ x, s.sliceAt m false l = some x → ∃ t, exec (.resvRel l m) s = .next t ∧ t.slices = s.slices.filter (· ≠ x)
      ∧ t.ctl = (relayed s x.outLink (.resvRel m)).ctl ∧ SameBut (fun p => p = .slices ∨ p = .sets ∨ ∃ k, p = .ctl k) s t)
  ∧ (∀ s : State, s.alive = true →
    (∀ (pk : Fin 4096) (inst : Fin 16) (id : BitVec 16) (x : Slice), s.fwBusy = false →
      (s.slices.find? fun x => x.opkg = pk.val && x.oinst = inst.val && x.id = id.toNat && !x.owned
        && elapsed s.tb.now x.since 65536) = some x →
      (∀ i, x.ctx = none → x.inLink = some i → exec (.resvHoldExpiry pk inst id) s = .next
        (queuedOn { s with slices := s.slices.filter (· ≠ x) } i (.resvHoldEnd {
          hop := x.hop, opkg := pk, oinst := inst, slice := id, reason := 0, hopRec := 0, first := 0, count := 0,
          stride := 0, offset := 0, nhop := 0 })))
      ∧ ∀ c r hc, x.ctx = some c → (s.fw.slices.find? fun p => p.1 = x.id) = some (x.id, r, hc) →
        (s.pair r.pair).epoch = r.epoch → ∃ t, exec (.resvHoldExpiry pk inst id) s = .next t
          ∧ Answered s t r .conflict 0xFF [] ∧ t.slices = s.slices.filter (· ≠ x))
    ∧ ∀ (c : Fin 8) (id : BitVec 16) (r : Req) (x : Slice) (o : Nat), s.serving 0x40 = some r →
      (s.pair r.pair).epoch = r.epoch → s.mayName r c = true → x.outLink = some o →
      (s.slices.find? fun x => x.ctx = some c.val && x.id = id.toNat && x.owned) = some x →
      ∃ t, exec (.sliceRelease c id) s = .next t ∧ Answered s t r .ok 0 [] ∧ t.slices = s.slices.filter (· ≠ x)
        ∧ (∃ m : ResvMsg, tabGet [] t.ctl o = tabGet [] s.ctl o ++ [.resvRel m] ∧ m.opkg = Config.pkg
          ∧ m.oinst = Config.inst ∧ m.slice = BitVec.ofNat 16 x.id)
        ∧ SameBut (fun p => replied r p ∨ p = .slices ∨ p = .sets ∨ p = .ctl o) s t)

/-! ### Fences and errors in protected state -/

/-- FENCE fences each core named that is not fenced: its INC advances, its parcels are dropped, its M-cache is invalid and
its semaphores and MEMBER barriers are GONE; a core not named, or fenced already, keeps its INC (R400 to R402). An
uncorrectable error in protected state has the effect of Table 16-2 (R395, R406): core state fences the core; an object is
GONE until it is reallocated; a context's table entry or a sequence entry tears its context down; the STU's shared state
aborts every running step; the firmware's restarts it. The model's own choices that it rests on: assumption log entries 64
and 95. -/
def Obligations.FencesContainErrors : Prop :=
  (∀ (r : Requester) (w : Word) (s : State), s.Inv → s.takes r = true → s.accessKind r 0x9044 4 true = none →
    ∃ t, exec (.fence r w) s = .next t ∧ t.hostResp = answer 0 false
      ∧ ∀ n, n < 32 →
        (bit w.toNat n = true → s.fenced n = false → FencedNow s t n)
        ∧ (bit w.toNat n = false ∨ s.fenced n = true → t.fenced n = s.fenced n ∧ t.coreInc n = s.coreInc n))
  ∧ (∀ s : State, s.Inv → s.alive = true →
    (∀ n : Fin 32, s.fenced n = false → ∃ t, exec (.stateEccError (.coreState n)) s = .next t ∧ FencedNow s t n)
    ∧ (∀ i : Fin 4096, ∃ t, exec (.stateEccError (.object (.hubSem i))) s = .next t
      ∧ (t.sem (hubSemKey i)).gone = true ∧ (t.sem (hubSemKey i)).lasting = true)
    ∧ (∀ i : Fin 256, ∃ t, exec (.stateEccError (.object (.barrier i))) s = .next t
      ∧ (t.bar i).gone = true ∧ (t.bar i).lasting = true)
    ∧ (∀ c : Fin 8, (s.ctx c).prot = .admitted → ∃ t, exec (.stateEccError (.ctxTable c)) s = .next t
      ∧ (t.ctx c).prot = (if (s.ctx c).hold.isSome then .held else .tearing) ∧ (t.ctx c).tearReq = none)
    ∧ (∀ (i : Fin 8192), (s.entry i).st ≠ .free → (s.ctx (s.entry i).ctx).prot = .admitted →
      ∃ t, exec (.stateEccError (.stuEntry i)) s = .next t ∧ (t.entry i).st = .free
        ∧ (t.ctx (s.entry i).ctx).prot ≠ .admitted)
    ∧ (∃ t, exec (.stateEccError .stuShared) s = .next t
      ∧ ∀ c, c < 8 → (s.ctx c).run = .running → (s.ctx c).caravan.isSome = true →
        (t.ctx c).caravan = none ∧ (t.ctx c).run ≠ .running ∧ (t.ctx c).jobs = (s.ctx c).jobs)
    ∧ (s.fwState ≠ 0 → ∃ t, exec (.stateEccError .firmware) s = .next t ∧ t.fwState = 3))
end

