-- ==== Sys2Proof/Laws/State.lean ====
section
/-! SUPPORT. What each elementary update does to each field of State and to each table that State's accessors read: one
lemma per update and field, so that no proof unfolds a record update. -/

namespace Sys2Proof.Machine

/-! ### Tables -/

@[simp] theorem tabGet_tabSet_same {α : Type} (d : α) (t : Tab α) (k : Nat) (v : α) : tabGet d (tabSet t k v) k = v := by
  induction t with
  | nil => simp [tabSet, tabGet]
  | cons x t ih =>
    obtain ⟨i, w⟩ := x
    unfold tabSet
    split
    · simp [tabGet]
    · split
      · simp [tabGet]
      · rename_i h1 h2
        simp [tabGet, h1, h2, ih]

theorem tabGet_tabSet_ne {α : Type} (d : α) (t : Tab α) {k m : Nat} (v : α) (h : m ≠ k) :
    tabGet d (tabSet t k v) m = tabGet d t m := by
  induction t with
  | nil => simp [tabSet, tabGet, h]
  | cons x t ih =>
    obtain ⟨i, w⟩ := x
    unfold tabSet
    split
    · subst_vars; simp [tabGet, h]
    · split
      · by_cases h1 : m < k
        · have h2 : m < i := by omega
          have h3 : m ≠ i := by omega
          simp [tabGet, h1, h2, h3, h]
        · simp [tabGet, h, h1]
      · simp [tabGet, ih]

/-! ### Fields -/

variable (s : State)

@[simp] theorem Eff.reg_tb (f : Fld) (c v : Nat) : ((Eff.reg f c v).apply s).tb = s.tb := rfl
@[simp] theorem Eff.reg_pw (f : Fld) (c v : Nat) : ((Eff.reg f c v).apply s).pw = s.pw := rfl
@[simp] theorem Eff.reg_recs (f : Fld) (c v : Nat) : ((Eff.reg f c v).apply s).recs = s.recs := rfl
@[simp] theorem Eff.reg_fw (f : Fld) (c v : Nat) : ((Eff.reg f c v).apply s).fw = s.fw := rfl
@[simp] theorem Eff.reg_pairs (f : Fld) (c v : Nat) : ((Eff.reg f c v).apply s).pairs = s.pairs := rfl
@[simp] theorem Eff.reg_ctxs (f : Fld) (c v : Nat) : ((Eff.reg f c v).apply s).ctxs = s.ctxs := rfl
@[simp] theorem Eff.reg_models (f : Fld) (c v : Nat) : ((Eff.reg f c v).apply s).models = s.models := rfl
@[simp] theorem Eff.reg_entries (f : Fld) (c v : Nat) : ((Eff.reg f c v).apply s).entries = s.entries := rfl
@[simp] theorem Eff.reg_sems (f : Fld) (c v : Nat) : ((Eff.reg f c v).apply s).sems = s.sems := rfl
@[simp] theorem Eff.reg_bars (f : Fld) (c v : Nat) : ((Eff.reg f c v).apply s).bars = s.bars := rfl
@[simp] theorem Eff.reg_hubRegs (f : Fld) (c v : Nat) : ((Eff.reg f c v).apply s).hubRegs = s.hubRegs := rfl
@[simp] theorem Eff.reg_stu (f : Fld) (c v : Nat) : ((Eff.reg f c v).apply s).stu = s.stu := rfl
@[simp] theorem Eff.reg_cores (f : Fld) (c v : Nat) : ((Eff.reg f c v).apply s).cores = s.cores := rfl
@[simp] theorem Eff.reg_spads (f : Fld) (c v : Nat) : ((Eff.reg f c v).apply s).spads = s.spads := rfl
@[simp] theorem Eff.reg_gmem (f : Fld) (c v : Nat) : ((Eff.reg f c v).apply s).gmem = s.gmem := rfl
@[simp] theorem Eff.reg_written (f : Fld) (c v : Nat) : ((Eff.reg f c v).apply s).written = s.written := rfl
@[simp] theorem Eff.reg_msgs (f : Fld) (c v : Nat) : ((Eff.reg f c v).apply s).msgs = s.msgs := rfl
@[simp] theorem Eff.reg_stns (f : Fld) (c v : Nat) : ((Eff.reg f c v).apply s).stns = s.stns := rfl
@[simp] theorem Eff.reg_groups (f : Fld) (c v : Nat) : ((Eff.reg f c v).apply s).groups = s.groups := rfl
@[simp] theorem Eff.reg_ctl (f : Fld) (c v : Nat) : ((Eff.reg f c v).apply s).ctl = s.ctl := rfl
@[simp] theorem Eff.reg_links (f : Fld) (c v : Nat) : ((Eff.reg f c v).apply s).links = s.links := rfl
@[simp] theorem Eff.reg_slices (f : Fld) (c v : Nat) : ((Eff.reg f c v).apply s).slices = s.slices := rfl
@[simp] theorem Eff.reg_imap (f : Fld) (c v : Nat) : ((Eff.reg f c v).apply s).imap = s.imap := rfl
@[simp] theorem Eff.reg_splitA (f : Fld) (c v : Nat) : ((Eff.reg f c v).apply s).splitA = s.splitA := rfl
@[simp] theorem Eff.reg_splitB (f : Fld) (c v : Nat) : ((Eff.reg f c v).apply s).splitB = s.splitB := rfl
@[simp] theorem Eff.reg_nextGroup (f : Fld) (c v : Nat) : ((Eff.reg f c v).apply s).nextGroup = s.nextGroup := rfl
@[simp] theorem Eff.reg_mods (f : Fld) (c v : Nat) : ((Eff.reg f c v).apply s).mods = s.mods := rfl
@[simp] theorem Eff.reg_health (f : Fld) (c v : Nat) : ((Eff.reg f c v).apply s).health = s.health := rfl
@[simp] theorem Eff.reg_snap (f : Fld) (c v : Nat) : ((Eff.reg f c v).apply s).snap = s.snap := rfl
@[simp] theorem Eff.reg_dbg (f : Fld) (c v : Nat) : ((Eff.reg f c v).apply s).dbg = s.dbg := rfl
@[simp] theorem Eff.reg_resets (f : Fld) (c v : Nat) : ((Eff.reg f c v).apply s).resets = s.resets := rfl
@[simp] theorem Eff.reg_staged (f : Fld) (c v : Nat) : ((Eff.reg f c v).apply s).staged = s.staged := rfl
@[simp] theorem Eff.reg_sets (f : Fld) (c v : Nat) : ((Eff.reg f c v).apply s).sets = s.sets := rfl
@[simp] theorem Eff.reg_hostResp (f : Fld) (c v : Nat) : ((Eff.reg f c v).apply s).hostResp = s.hostResp := rfl
@[simp] theorem Eff.reg_freeCtr (f : Fld) (c v : Nat) : ((Eff.reg f c v).apply s).freeCtr = s.freeCtr := rfl
@[simp] theorem Eff.reg_pending (f : Fld) (c v : Nat) : ((Eff.reg f c v).apply s).pending = s.pending := rfl

@[simp] theorem Eff.regsDrop_tb (d : Nat → Nat → Bool) : ((Eff.regsDrop d).apply s).tb = s.tb := rfl
@[simp] theorem Eff.regsDrop_pw (d : Nat → Nat → Bool) : ((Eff.regsDrop d).apply s).pw = s.pw := rfl
@[simp] theorem Eff.regsDrop_recs (d : Nat → Nat → Bool) : ((Eff.regsDrop d).apply s).recs = s.recs := rfl
@[simp] theorem Eff.regsDrop_fw (d : Nat → Nat → Bool) : ((Eff.regsDrop d).apply s).fw = s.fw := rfl
@[simp] theorem Eff.regsDrop_pairs (d : Nat → Nat → Bool) : ((Eff.regsDrop d).apply s).pairs = s.pairs := rfl
@[simp] theorem Eff.regsDrop_ctxs (d : Nat → Nat → Bool) : ((Eff.regsDrop d).apply s).ctxs = s.ctxs := rfl
@[simp] theorem Eff.regsDrop_models (d : Nat → Nat → Bool) : ((Eff.regsDrop d).apply s).models = s.models := rfl
@[simp] theorem Eff.regsDrop_entries (d : Nat → Nat → Bool) : ((Eff.regsDrop d).apply s).entries = s.entries := rfl
@[simp] theorem Eff.regsDrop_sems (d : Nat → Nat → Bool) : ((Eff.regsDrop d).apply s).sems = s.sems := rfl
@[simp] theorem Eff.regsDrop_bars (d : Nat → Nat → Bool) : ((Eff.regsDrop d).apply s).bars = s.bars := rfl
@[simp] theorem Eff.regsDrop_hubRegs (d : Nat → Nat → Bool) : ((Eff.regsDrop d).apply s).hubRegs = s.hubRegs := rfl
@[simp] theorem Eff.regsDrop_stu (d : Nat → Nat → Bool) : ((Eff.regsDrop d).apply s).stu = s.stu := rfl
@[simp] theorem Eff.regsDrop_cores (d : Nat → Nat → Bool) : ((Eff.regsDrop d).apply s).cores = s.cores := rfl
@[simp] theorem Eff.regsDrop_spads (d : Nat → Nat → Bool) : ((Eff.regsDrop d).apply s).spads = s.spads := rfl
@[simp] theorem Eff.regsDrop_gmem (d : Nat → Nat → Bool) : ((Eff.regsDrop d).apply s).gmem = s.gmem := rfl
@[simp] theorem Eff.regsDrop_written (d : Nat → Nat → Bool) : ((Eff.regsDrop d).apply s).written = s.written := rfl
@[simp] theorem Eff.regsDrop_msgs (d : Nat → Nat → Bool) : ((Eff.regsDrop d).apply s).msgs = s.msgs := rfl
@[simp] theorem Eff.regsDrop_stns (d : Nat → Nat → Bool) : ((Eff.regsDrop d).apply s).stns = s.stns := rfl
@[simp] theorem Eff.regsDrop_groups (d : Nat → Nat → Bool) : ((Eff.regsDrop d).apply s).groups = s.groups := rfl
@[simp] theorem Eff.regsDrop_ctl (d : Nat → Nat → Bool) : ((Eff.regsDrop d).apply s).ctl = s.ctl := rfl
@[simp] theorem Eff.regsDrop_links (d : Nat → Nat → Bool) : ((Eff.regsDrop d).apply s).links = s.links := rfl
@[simp] theorem Eff.regsDrop_slices (d : Nat → Nat → Bool) : ((Eff.regsDrop d).apply s).slices = s.slices := rfl
@[simp] theorem Eff.regsDrop_imap (d : Nat → Nat → Bool) : ((Eff.regsDrop d).apply s).imap = s.imap := rfl
@[simp] theorem Eff.regsDrop_splitA (d : Nat → Nat → Bool) : ((Eff.regsDrop d).apply s).splitA = s.splitA := rfl
@[simp] theorem Eff.regsDrop_splitB (d : Nat → Nat → Bool) : ((Eff.regsDrop d).apply s).splitB = s.splitB := rfl
@[simp] theorem Eff.regsDrop_nextGroup (d : Nat → Nat → Bool) : ((Eff.regsDrop d).apply s).nextGroup = s.nextGroup := rfl
@[simp] theorem Eff.regsDrop_mods (d : Nat → Nat → Bool) : ((Eff.regsDrop d).apply s).mods = s.mods := rfl
@[simp] theorem Eff.regsDrop_health (d : Nat → Nat → Bool) : ((Eff.regsDrop d).apply s).health = s.health := rfl
@[simp] theorem Eff.regsDrop_snap (d : Nat → Nat → Bool) : ((Eff.regsDrop d).apply s).snap = s.snap := rfl
@[simp] theorem Eff.regsDrop_dbg (d : Nat → Nat → Bool) : ((Eff.regsDrop d).apply s).dbg = s.dbg := rfl
@[simp] theorem Eff.regsDrop_resets (d : Nat → Nat → Bool) : ((Eff.regsDrop d).apply s).resets = s.resets := rfl
@[simp] theorem Eff.regsDrop_staged (d : Nat → Nat → Bool) : ((Eff.regsDrop d).apply s).staged = s.staged := rfl
@[simp] theorem Eff.regsDrop_sets (d : Nat → Nat → Bool) : ((Eff.regsDrop d).apply s).sets = s.sets := rfl
@[simp] theorem Eff.regsDrop_hostResp (d : Nat → Nat → Bool) : ((Eff.regsDrop d).apply s).hostResp = s.hostResp := rfl
@[simp] theorem Eff.regsDrop_freeCtr (d : Nat → Nat → Bool) : ((Eff.regsDrop d).apply s).freeCtr = s.freeCtr := rfl
@[simp] theorem Eff.regsDrop_pending (d : Nat → Nat → Bool) : ((Eff.regsDrop d).apply s).pending = s.pending := rfl

@[simp] theorem Eff.tb_regs (v : Timebase) : ((Eff.tb v).apply s).regs = s.regs := rfl
@[simp] theorem Eff.tb_pw (v : Timebase) : ((Eff.tb v).apply s).pw = s.pw := rfl
@[simp] theorem Eff.tb_recs (v : Timebase) : ((Eff.tb v).apply s).recs = s.recs := rfl
@[simp] theorem Eff.tb_fw (v : Timebase) : ((Eff.tb v).apply s).fw = s.fw := rfl
@[simp] theorem Eff.tb_pairs (v : Timebase) : ((Eff.tb v).apply s).pairs = s.pairs := rfl
@[simp] theorem Eff.tb_ctxs (v : Timebase) : ((Eff.tb v).apply s).ctxs = s.ctxs := rfl
@[simp] theorem Eff.tb_models (v : Timebase) : ((Eff.tb v).apply s).models = s.models := rfl
@[simp] theorem Eff.tb_entries (v : Timebase) : ((Eff.tb v).apply s).entries = s.entries := rfl
@[simp] theorem Eff.tb_sems (v : Timebase) : ((Eff.tb v).apply s).sems = s.sems := rfl
@[simp] theorem Eff.tb_bars (v : Timebase) : ((Eff.tb v).apply s).bars = s.bars := rfl
@[simp] theorem Eff.tb_hubRegs (v : Timebase) : ((Eff.tb v).apply s).hubRegs = s.hubRegs := rfl
@[simp] theorem Eff.tb_stu (v : Timebase) : ((Eff.tb v).apply s).stu = s.stu := rfl
@[simp] theorem Eff.tb_cores (v : Timebase) : ((Eff.tb v).apply s).cores = s.cores := rfl
@[simp] theorem Eff.tb_spads (v : Timebase) : ((Eff.tb v).apply s).spads = s.spads := rfl
@[simp] theorem Eff.tb_gmem (v : Timebase) : ((Eff.tb v).apply s).gmem = s.gmem := rfl
@[simp] theorem Eff.tb_written (v : Timebase) : ((Eff.tb v).apply s).written = s.written := rfl
@[simp] theorem Eff.tb_msgs (v : Timebase) : ((Eff.tb v).apply s).msgs = s.msgs := rfl
@[simp] theorem Eff.tb_stns (v : Timebase) : ((Eff.tb v).apply s).stns = s.stns := rfl
@[simp] theorem Eff.tb_groups (v : Timebase) : ((Eff.tb v).apply s).groups = s.groups := rfl
@[simp] theorem Eff.tb_ctl (v : Timebase) : ((Eff.tb v).apply s).ctl = s.ctl := rfl
@[simp] theorem Eff.tb_links (v : Timebase) : ((Eff.tb v).apply s).links = s.links := rfl
@[simp] theorem Eff.tb_slices (v : Timebase) : ((Eff.tb v).apply s).slices = s.slices := rfl
@[simp] theorem Eff.tb_imap (v : Timebase) : ((Eff.tb v).apply s).imap = s.imap := rfl
@[simp] theorem Eff.tb_splitA (v : Timebase) : ((Eff.tb v).apply s).splitA = s.splitA := rfl
@[simp] theorem Eff.tb_splitB (v : Timebase) : ((Eff.tb v).apply s).splitB = s.splitB := rfl
@[simp] theorem Eff.tb_nextGroup (v : Timebase) : ((Eff.tb v).apply s).nextGroup = s.nextGroup := rfl
@[simp] theorem Eff.tb_mods (v : Timebase) : ((Eff.tb v).apply s).mods = s.mods := rfl
@[simp] theorem Eff.tb_health (v : Timebase) : ((Eff.tb v).apply s).health = s.health := rfl
@[simp] theorem Eff.tb_snap (v : Timebase) : ((Eff.tb v).apply s).snap = s.snap := rfl
@[simp] theorem Eff.tb_dbg (v : Timebase) : ((Eff.tb v).apply s).dbg = s.dbg := rfl
@[simp] theorem Eff.tb_resets (v : Timebase) : ((Eff.tb v).apply s).resets = s.resets := rfl
@[simp] theorem Eff.tb_staged (v : Timebase) : ((Eff.tb v).apply s).staged = s.staged := rfl
@[simp] theorem Eff.tb_sets (v : Timebase) : ((Eff.tb v).apply s).sets = s.sets := rfl
@[simp] theorem Eff.tb_hostResp (v : Timebase) : ((Eff.tb v).apply s).hostResp = s.hostResp := rfl
@[simp] theorem Eff.tb_freeCtr (v : Timebase) : ((Eff.tb v).apply s).freeCtr = s.freeCtr := rfl
@[simp] theorem Eff.tb_pending (v : Timebase) : ((Eff.tb v).apply s).pending = s.pending := rfl
@[simp] theorem Eff.tb_tb (v : Timebase) : ((Eff.tb v).apply s).tb = v := rfl

@[simp] theorem Eff.pw_regs (v : Power) : ((Eff.pw v).apply s).regs = s.regs := rfl
@[simp] theorem Eff.pw_tb (v : Power) : ((Eff.pw v).apply s).tb = s.tb := rfl
@[simp] theorem Eff.pw_recs (v : Power) : ((Eff.pw v).apply s).recs = s.recs := rfl
@[simp] theorem Eff.pw_fw (v : Power) : ((Eff.pw v).apply s).fw = s.fw := rfl
@[simp] theorem Eff.pw_pairs (v : Power) : ((Eff.pw v).apply s).pairs = s.pairs := rfl
@[simp] theorem Eff.pw_ctxs (v : Power) : ((Eff.pw v).apply s).ctxs = s.ctxs := rfl
@[simp] theorem Eff.pw_models (v : Power) : ((Eff.pw v).apply s).models = s.models := rfl
@[simp] theorem Eff.pw_entries (v : Power) : ((Eff.pw v).apply s).entries = s.entries := rfl
@[simp] theorem Eff.pw_sems (v : Power) : ((Eff.pw v).apply s).sems = s.sems := rfl
@[simp] theorem Eff.pw_bars (v : Power) : ((Eff.pw v).apply s).bars = s.bars := rfl
@[simp] theorem Eff.pw_hubRegs (v : Power) : ((Eff.pw v).apply s).hubRegs = s.hubRegs := rfl
@[simp] theorem Eff.pw_stu (v : Power) : ((Eff.pw v).apply s).stu = s.stu := rfl
@[simp] theorem Eff.pw_cores (v : Power) : ((Eff.pw v).apply s).cores = s.cores := rfl
@[simp] theorem Eff.pw_spads (v : Power) : ((Eff.pw v).apply s).spads = s.spads := rfl
@[simp] theorem Eff.pw_gmem (v : Power) : ((Eff.pw v).apply s).gmem = s.gmem := rfl
@[simp] theorem Eff.pw_written (v : Power) : ((Eff.pw v).apply s).written = s.written := rfl
@[simp] theorem Eff.pw_msgs (v : Power) : ((Eff.pw v).apply s).msgs = s.msgs := rfl
@[simp] theorem Eff.pw_stns (v : Power) : ((Eff.pw v).apply s).stns = s.stns := rfl
@[simp] theorem Eff.pw_groups (v : Power) : ((Eff.pw v).apply s).groups = s.groups := rfl
@[simp] theorem Eff.pw_ctl (v : Power) : ((Eff.pw v).apply s).ctl = s.ctl := rfl
@[simp] theorem Eff.pw_links (v : Power) : ((Eff.pw v).apply s).links = s.links := rfl
@[simp] theorem Eff.pw_slices (v : Power) : ((Eff.pw v).apply s).slices = s.slices := rfl
@[simp] theorem Eff.pw_imap (v : Power) : ((Eff.pw v).apply s).imap = s.imap := rfl
@[simp] theorem Eff.pw_splitA (v : Power) : ((Eff.pw v).apply s).splitA = s.splitA := rfl
@[simp] theorem Eff.pw_splitB (v : Power) : ((Eff.pw v).apply s).splitB = s.splitB := rfl
@[simp] theorem Eff.pw_nextGroup (v : Power) : ((Eff.pw v).apply s).nextGroup = s.nextGroup := rfl
@[simp] theorem Eff.pw_mods (v : Power) : ((Eff.pw v).apply s).mods = s.mods := rfl
@[simp] theorem Eff.pw_health (v : Power) : ((Eff.pw v).apply s).health = s.health := rfl
@[simp] theorem Eff.pw_snap (v : Power) : ((Eff.pw v).apply s).snap = s.snap := rfl
@[simp] theorem Eff.pw_dbg (v : Power) : ((Eff.pw v).apply s).dbg = s.dbg := rfl
@[simp] theorem Eff.pw_resets (v : Power) : ((Eff.pw v).apply s).resets = s.resets := rfl
@[simp] theorem Eff.pw_staged (v : Power) : ((Eff.pw v).apply s).staged = s.staged := rfl
@[simp] theorem Eff.pw_sets (v : Power) : ((Eff.pw v).apply s).sets = s.sets := rfl
@[simp] theorem Eff.pw_hostResp (v : Power) : ((Eff.pw v).apply s).hostResp = s.hostResp := rfl
@[simp] theorem Eff.pw_freeCtr (v : Power) : ((Eff.pw v).apply s).freeCtr = s.freeCtr := rfl
@[simp] theorem Eff.pw_pending (v : Power) : ((Eff.pw v).apply s).pending = s.pending := rfl
@[simp] theorem Eff.pw_pw (v : Power) : ((Eff.pw v).apply s).pw = v := rfl

@[simp] theorem Eff.recs_regs (v : Records) : ((Eff.recs v).apply s).regs = s.regs := rfl
@[simp] theorem Eff.recs_tb (v : Records) : ((Eff.recs v).apply s).tb = s.tb := rfl
@[simp] theorem Eff.recs_pw (v : Records) : ((Eff.recs v).apply s).pw = s.pw := rfl
@[simp] theorem Eff.recs_fw (v : Records) : ((Eff.recs v).apply s).fw = s.fw := rfl
@[simp] theorem Eff.recs_pairs (v : Records) : ((Eff.recs v).apply s).pairs = s.pairs := rfl
@[simp] theorem Eff.recs_ctxs (v : Records) : ((Eff.recs v).apply s).ctxs = s.ctxs := rfl
@[simp] theorem Eff.recs_models (v : Records) : ((Eff.recs v).apply s).models = s.models := rfl
@[simp] theorem Eff.recs_entries (v : Records) : ((Eff.recs v).apply s).entries = s.entries := rfl
@[simp] theorem Eff.recs_sems (v : Records) : ((Eff.recs v).apply s).sems = s.sems := rfl
@[simp] theorem Eff.recs_bars (v : Records) : ((Eff.recs v).apply s).bars = s.bars := rfl
@[simp] theorem Eff.recs_hubRegs (v : Records) : ((Eff.recs v).apply s).hubRegs = s.hubRegs := rfl
@[simp] theorem Eff.recs_stu (v : Records) : ((Eff.recs v).apply s).stu = s.stu := rfl
@[simp] theorem Eff.recs_cores (v : Records) : ((Eff.recs v).apply s).cores = s.cores := rfl
@[simp] theorem Eff.recs_spads (v : Records) : ((Eff.recs v).apply s).spads = s.spads := rfl
@[simp] theorem Eff.recs_gmem (v : Records) : ((Eff.recs v).apply s).gmem = s.gmem := rfl
@[simp] theorem Eff.recs_written (v : Records) : ((Eff.recs v).apply s).written = s.written := rfl
@[simp] theorem Eff.recs_msgs (v : Records) : ((Eff.recs v).apply s).msgs = s.msgs := rfl
@[simp] theorem Eff.recs_stns (v : Records) : ((Eff.recs v).apply s).stns = s.stns := rfl
@[simp] theorem Eff.recs_groups (v : Records) : ((Eff.recs v).apply s).groups = s.groups := rfl
@[simp] theorem Eff.recs_ctl (v : Records) : ((Eff.recs v).apply s).ctl = s.ctl := rfl
@[simp] theorem Eff.recs_links (v : Records) : ((Eff.recs v).apply s).links = s.links := rfl
@[simp] theorem Eff.recs_slices (v : Records) : ((Eff.recs v).apply s).slices = s.slices := rfl
@[simp] theorem Eff.recs_imap (v : Records) : ((Eff.recs v).apply s).imap = s.imap := rfl
@[simp] theorem Eff.recs_splitA (v : Records) : ((Eff.recs v).apply s).splitA = s.splitA := rfl
@[simp] theorem Eff.recs_splitB (v : Records) : ((Eff.recs v).apply s).splitB = s.splitB := rfl
@[simp] theorem Eff.recs_nextGroup (v : Records) : ((Eff.recs v).apply s).nextGroup = s.nextGroup := rfl
@[simp] theorem Eff.recs_mods (v : Records) : ((Eff.recs v).apply s).mods = s.mods := rfl
@[simp] theorem Eff.recs_health (v : Records) : ((Eff.recs v).apply s).health = s.health := rfl
@[simp] theorem Eff.recs_snap (v : Records) : ((Eff.recs v).apply s).snap = s.snap := rfl
@[simp] theorem Eff.recs_dbg (v : Records) : ((Eff.recs v).apply s).dbg = s.dbg := rfl
@[simp] theorem Eff.recs_resets (v : Records) : ((Eff.recs v).apply s).resets = s.resets := rfl
@[simp] theorem Eff.recs_staged (v : Records) : ((Eff.recs v).apply s).staged = s.staged := rfl
@[simp] theorem Eff.recs_sets (v : Records) : ((Eff.recs v).apply s).sets = s.sets := rfl
@[simp] theorem Eff.recs_hostResp (v : Records) : ((Eff.recs v).apply s).hostResp = s.hostResp := rfl
@[simp] theorem Eff.recs_freeCtr (v : Records) : ((Eff.recs v).apply s).freeCtr = s.freeCtr := rfl
@[simp] theorem Eff.recs_pending (v : Records) : ((Eff.recs v).apply s).pending = s.pending := rfl
@[simp] theorem Eff.recs_recs (v : Records) : ((Eff.recs v).apply s).recs = v := rfl

@[simp] theorem Eff.fw_regs (v : Firmware) : ((Eff.fw v).apply s).regs = s.regs := rfl
@[simp] theorem Eff.fw_tb (v : Firmware) : ((Eff.fw v).apply s).tb = s.tb := rfl
@[simp] theorem Eff.fw_pw (v : Firmware) : ((Eff.fw v).apply s).pw = s.pw := rfl
@[simp] theorem Eff.fw_recs (v : Firmware) : ((Eff.fw v).apply s).recs = s.recs := rfl
@[simp] theorem Eff.fw_pairs (v : Firmware) : ((Eff.fw v).apply s).pairs = s.pairs := rfl
@[simp] theorem Eff.fw_ctxs (v : Firmware) : ((Eff.fw v).apply s).ctxs = s.ctxs := rfl
@[simp] theorem Eff.fw_models (v : Firmware) : ((Eff.fw v).apply s).models = s.models := rfl
@[simp] theorem Eff.fw_entries (v : Firmware) : ((Eff.fw v).apply s).entries = s.entries := rfl
@[simp] theorem Eff.fw_sems (v : Firmware) : ((Eff.fw v).apply s).sems = s.sems := rfl
@[simp] theorem Eff.fw_bars (v : Firmware) : ((Eff.fw v).apply s).bars = s.bars := rfl
@[simp] theorem Eff.fw_hubRegs (v : Firmware) : ((Eff.fw v).apply s).hubRegs = s.hubRegs := rfl
@[simp] theorem Eff.fw_stu (v : Firmware) : ((Eff.fw v).apply s).stu = s.stu := rfl
@[simp] theorem Eff.fw_cores (v : Firmware) : ((Eff.fw v).apply s).cores = s.cores := rfl
@[simp] theorem Eff.fw_spads (v : Firmware) : ((Eff.fw v).apply s).spads = s.spads := rfl
@[simp] theorem Eff.fw_gmem (v : Firmware) : ((Eff.fw v).apply s).gmem = s.gmem := rfl
@[simp] theorem Eff.fw_written (v : Firmware) : ((Eff.fw v).apply s).written = s.written := rfl
@[simp] theorem Eff.fw_msgs (v : Firmware) : ((Eff.fw v).apply s).msgs = s.msgs := rfl
@[simp] theorem Eff.fw_stns (v : Firmware) : ((Eff.fw v).apply s).stns = s.stns := rfl
@[simp] theorem Eff.fw_groups (v : Firmware) : ((Eff.fw v).apply s).groups = s.groups := rfl
@[simp] theorem Eff.fw_ctl (v : Firmware) : ((Eff.fw v).apply s).ctl = s.ctl := rfl
@[simp] theorem Eff.fw_links (v : Firmware) : ((Eff.fw v).apply s).links = s.links := rfl
@[simp] theorem Eff.fw_slices (v : Firmware) : ((Eff.fw v).apply s).slices = s.slices := rfl
@[simp] theorem Eff.fw_imap (v : Firmware) : ((Eff.fw v).apply s).imap = s.imap := rfl
@[simp] theorem Eff.fw_splitA (v : Firmware) : ((Eff.fw v).apply s).splitA = s.splitA := rfl
@[simp] theorem Eff.fw_splitB (v : Firmware) : ((Eff.fw v).apply s).splitB = s.splitB := rfl
@[simp] theorem Eff.fw_nextGroup (v : Firmware) : ((Eff.fw v).apply s).nextGroup = s.nextGroup := rfl
@[simp] theorem Eff.fw_mods (v : Firmware) : ((Eff.fw v).apply s).mods = s.mods := rfl
@[simp] theorem Eff.fw_health (v : Firmware) : ((Eff.fw v).apply s).health = s.health := rfl
@[simp] theorem Eff.fw_snap (v : Firmware) : ((Eff.fw v).apply s).snap = s.snap := rfl
@[simp] theorem Eff.fw_dbg (v : Firmware) : ((Eff.fw v).apply s).dbg = s.dbg := rfl
@[simp] theorem Eff.fw_resets (v : Firmware) : ((Eff.fw v).apply s).resets = s.resets := rfl
@[simp] theorem Eff.fw_staged (v : Firmware) : ((Eff.fw v).apply s).staged = s.staged := rfl
@[simp] theorem Eff.fw_sets (v : Firmware) : ((Eff.fw v).apply s).sets = s.sets := rfl
@[simp] theorem Eff.fw_hostResp (v : Firmware) : ((Eff.fw v).apply s).hostResp = s.hostResp := rfl
@[simp] theorem Eff.fw_freeCtr (v : Firmware) : ((Eff.fw v).apply s).freeCtr = s.freeCtr := rfl
@[simp] theorem Eff.fw_pending (v : Firmware) : ((Eff.fw v).apply s).pending = s.pending := rfl
@[simp] theorem Eff.fw_fw (v : Firmware) : ((Eff.fw v).apply s).fw = v := rfl

@[simp] theorem Eff.pair_regs (n : Nat) (v : Pair) : ((Eff.pair n v).apply s).regs = s.regs := rfl
@[simp] theorem Eff.pair_tb (n : Nat) (v : Pair) : ((Eff.pair n v).apply s).tb = s.tb := rfl
@[simp] theorem Eff.pair_pw (n : Nat) (v : Pair) : ((Eff.pair n v).apply s).pw = s.pw := rfl
@[simp] theorem Eff.pair_recs (n : Nat) (v : Pair) : ((Eff.pair n v).apply s).recs = s.recs := rfl
@[simp] theorem Eff.pair_fw (n : Nat) (v : Pair) : ((Eff.pair n v).apply s).fw = s.fw := rfl
@[simp] theorem Eff.pair_ctxs (n : Nat) (v : Pair) : ((Eff.pair n v).apply s).ctxs = s.ctxs := rfl
@[simp] theorem Eff.pair_models (n : Nat) (v : Pair) : ((Eff.pair n v).apply s).models = s.models := rfl
@[simp] theorem Eff.pair_entries (n : Nat) (v : Pair) : ((Eff.pair n v).apply s).entries = s.entries := rfl
@[simp] theorem Eff.pair_sems (n : Nat) (v : Pair) : ((Eff.pair n v).apply s).sems = s.sems := rfl
@[simp] theorem Eff.pair_bars (n : Nat) (v : Pair) : ((Eff.pair n v).apply s).bars = s.bars := rfl
@[simp] theorem Eff.pair_hubRegs (n : Nat) (v : Pair) : ((Eff.pair n v).apply s).hubRegs = s.hubRegs := rfl
@[simp] theorem Eff.pair_stu (n : Nat) (v : Pair) : ((Eff.pair n v).apply s).stu = s.stu := rfl
@[simp] theorem Eff.pair_cores (n : Nat) (v : Pair) : ((Eff.pair n v).apply s).cores = s.cores := rfl
@[simp] theorem Eff.pair_spads (n : Nat) (v : Pair) : ((Eff.pair n v).apply s).spads = s.spads := rfl
@[simp] theorem Eff.pair_gmem (n : Nat) (v : Pair) : ((Eff.pair n v).apply s).gmem = s.gmem := rfl
@[simp] theorem Eff.pair_written (n : Nat) (v : Pair) : ((Eff.pair n v).apply s).written = s.written := rfl
@[simp] theorem Eff.pair_msgs (n : Nat) (v : Pair) : ((Eff.pair n v).apply s).msgs = s.msgs := rfl
@[simp] theorem Eff.pair_stns (n : Nat) (v : Pair) : ((Eff.pair n v).apply s).stns = s.stns := rfl
@[simp] theorem Eff.pair_groups (n : Nat) (v : Pair) : ((Eff.pair n v).apply s).groups = s.groups := rfl
@[simp] theorem Eff.pair_ctl (n : Nat) (v : Pair) : ((Eff.pair n v).apply s).ctl = s.ctl := rfl
@[simp] theorem Eff.pair_links (n : Nat) (v : Pair) : ((Eff.pair n v).apply s).links = s.links := rfl
@[simp] theorem Eff.pair_slices (n : Nat) (v : Pair) : ((Eff.pair n v).apply s).slices = s.slices := rfl
@[simp] theorem Eff.pair_imap (n : Nat) (v : Pair) : ((Eff.pair n v).apply s).imap = s.imap := rfl
@[simp] theorem Eff.pair_splitA (n : Nat) (v : Pair) : ((Eff.pair n v).apply s).splitA = s.splitA := rfl
@[simp] theorem Eff.pair_splitB (n : Nat) (v : Pair) : ((Eff.pair n v).apply s).splitB = s.splitB := rfl
@[simp] theorem Eff.pair_nextGroup (n : Nat) (v : Pair) : ((Eff.pair n v).apply s).nextGroup = s.nextGroup := rfl
@[simp] theorem Eff.pair_mods (n : Nat) (v : Pair) : ((Eff.pair n v).apply s).mods = s.mods := rfl
@[simp] theorem Eff.pair_health (n : Nat) (v : Pair) : ((Eff.pair n v).apply s).health = s.health := rfl
@[simp] theorem Eff.pair_snap (n : Nat) (v : Pair) : ((Eff.pair n v).apply s).snap = s.snap := rfl
@[simp] theorem Eff.pair_dbg (n : Nat) (v : Pair) : ((Eff.pair n v).apply s).dbg = s.dbg := rfl
@[simp] theorem Eff.pair_resets (n : Nat) (v : Pair) : ((Eff.pair n v).apply s).resets = s.resets := rfl
@[simp] theorem Eff.pair_staged (n : Nat) (v : Pair) : ((Eff.pair n v).apply s).staged = s.staged := rfl
@[simp] theorem Eff.pair_sets (n : Nat) (v : Pair) : ((Eff.pair n v).apply s).sets = s.sets := rfl
@[simp] theorem Eff.pair_hostResp (n : Nat) (v : Pair) : ((Eff.pair n v).apply s).hostResp = s.hostResp := rfl
@[simp] theorem Eff.pair_freeCtr (n : Nat) (v : Pair) : ((Eff.pair n v).apply s).freeCtr = s.freeCtr := rfl
@[simp] theorem Eff.pair_pending (n : Nat) (v : Pair) : ((Eff.pair n v).apply s).pending = s.pending := rfl

@[simp] theorem Eff.ctx_regs (n : Nat) (v : Ctx) : ((Eff.ctx n v).apply s).regs = s.regs := rfl
@[simp] theorem Eff.ctx_tb (n : Nat) (v : Ctx) : ((Eff.ctx n v).apply s).tb = s.tb := rfl
@[simp] theorem Eff.ctx_pw (n : Nat) (v : Ctx) : ((Eff.ctx n v).apply s).pw = s.pw := rfl
@[simp] theorem Eff.ctx_recs (n : Nat) (v : Ctx) : ((Eff.ctx n v).apply s).recs = s.recs := rfl
@[simp] theorem Eff.ctx_fw (n : Nat) (v : Ctx) : ((Eff.ctx n v).apply s).fw = s.fw := rfl
@[simp] theorem Eff.ctx_pairs (n : Nat) (v : Ctx) : ((Eff.ctx n v).apply s).pairs = s.pairs := rfl
@[simp] theorem Eff.ctx_models (n : Nat) (v : Ctx) : ((Eff.ctx n v).apply s).models = s.models := rfl
@[simp] theorem Eff.ctx_entries (n : Nat) (v : Ctx) : ((Eff.ctx n v).apply s).entries = s.entries := rfl
@[simp] theorem Eff.ctx_sems (n : Nat) (v : Ctx) : ((Eff.ctx n v).apply s).sems = s.sems := rfl
@[simp] theorem Eff.ctx_bars (n : Nat) (v : Ctx) : ((Eff.ctx n v).apply s).bars = s.bars := rfl
@[simp] theorem Eff.ctx_hubRegs (n : Nat) (v : Ctx) : ((Eff.ctx n v).apply s).hubRegs = s.hubRegs := rfl
@[simp] theorem Eff.ctx_stu (n : Nat) (v : Ctx) : ((Eff.ctx n v).apply s).stu = s.stu := rfl
@[simp] theorem Eff.ctx_cores (n : Nat) (v : Ctx) : ((Eff.ctx n v).apply s).cores = s.cores := rfl
@[simp] theorem Eff.ctx_spads (n : Nat) (v : Ctx) : ((Eff.ctx n v).apply s).spads = s.spads := rfl
@[simp] theorem Eff.ctx_gmem (n : Nat) (v : Ctx) : ((Eff.ctx n v).apply s).gmem = s.gmem := rfl
@[simp] theorem Eff.ctx_written (n : Nat) (v : Ctx) : ((Eff.ctx n v).apply s).written = s.written := rfl
@[simp] theorem Eff.ctx_msgs (n : Nat) (v : Ctx) : ((Eff.ctx n v).apply s).msgs = s.msgs := rfl
@[simp] theorem Eff.ctx_stns (n : Nat) (v : Ctx) : ((Eff.ctx n v).apply s).stns = s.stns := rfl
@[simp] theorem Eff.ctx_groups (n : Nat) (v : Ctx) : ((Eff.ctx n v).apply s).groups = s.groups := rfl
@[simp] theorem Eff.ctx_ctl (n : Nat) (v : Ctx) : ((Eff.ctx n v).apply s).ctl = s.ctl := rfl
@[simp] theorem Eff.ctx_links (n : Nat) (v : Ctx) : ((Eff.ctx n v).apply s).links = s.links := rfl
@[simp] theorem Eff.ctx_slices (n : Nat) (v : Ctx) : ((Eff.ctx n v).apply s).slices = s.slices := rfl
@[simp] theorem Eff.ctx_imap (n : Nat) (v : Ctx) : ((Eff.ctx n v).apply s).imap = s.imap := rfl
@[simp] theorem Eff.ctx_splitA (n : Nat) (v : Ctx) : ((Eff.ctx n v).apply s).splitA = s.splitA := rfl
@[simp] theorem Eff.ctx_splitB (n : Nat) (v : Ctx) : ((Eff.ctx n v).apply s).splitB = s.splitB := rfl
@[simp] theorem Eff.ctx_nextGroup (n : Nat) (v : Ctx) : ((Eff.ctx n v).apply s).nextGroup = s.nextGroup := rfl
@[simp] theorem Eff.ctx_mods (n : Nat) (v : Ctx) : ((Eff.ctx n v).apply s).mods = s.mods := rfl
@[simp] theorem Eff.ctx_health (n : Nat) (v : Ctx) : ((Eff.ctx n v).apply s).health = s.health := rfl
@[simp] theorem Eff.ctx_snap (n : Nat) (v : Ctx) : ((Eff.ctx n v).apply s).snap = s.snap := rfl
@[simp] theorem Eff.ctx_dbg (n : Nat) (v : Ctx) : ((Eff.ctx n v).apply s).dbg = s.dbg := rfl
@[simp] theorem Eff.ctx_resets (n : Nat) (v : Ctx) : ((Eff.ctx n v).apply s).resets = s.resets := rfl
@[simp] theorem Eff.ctx_staged (n : Nat) (v : Ctx) : ((Eff.ctx n v).apply s).staged = s.staged := rfl
@[simp] theorem Eff.ctx_sets (n : Nat) (v : Ctx) : ((Eff.ctx n v).apply s).sets = s.sets := rfl
@[simp] theorem Eff.ctx_hostResp (n : Nat) (v : Ctx) : ((Eff.ctx n v).apply s).hostResp = s.hostResp := rfl
@[simp] theorem Eff.ctx_freeCtr (n : Nat) (v : Ctx) : ((Eff.ctx n v).apply s).freeCtr = s.freeCtr := rfl
@[simp] theorem Eff.ctx_pending (n : Nat) (v : Ctx) : ((Eff.ctx n v).apply s).pending = s.pending := rfl

@[simp] theorem Eff.model_regs (n : Nat) (v : Model) : ((Eff.model n v).apply s).regs = s.regs := rfl
@[simp] theorem Eff.model_tb (n : Nat) (v : Model) : ((Eff.model n v).apply s).tb = s.tb := rfl
@[simp] theorem Eff.model_pw (n : Nat) (v : Model) : ((Eff.model n v).apply s).pw = s.pw := rfl
@[simp] theorem Eff.model_recs (n : Nat) (v : Model) : ((Eff.model n v).apply s).recs = s.recs := rfl
@[simp] theorem Eff.model_fw (n : Nat) (v : Model) : ((Eff.model n v).apply s).fw = s.fw := rfl
@[simp] theorem Eff.model_pairs (n : Nat) (v : Model) : ((Eff.model n v).apply s).pairs = s.pairs := rfl
@[simp] theorem Eff.model_ctxs (n : Nat) (v : Model) : ((Eff.model n v).apply s).ctxs = s.ctxs := rfl
@[simp] theorem Eff.model_entries (n : Nat) (v : Model) : ((Eff.model n v).apply s).entries = s.entries := rfl
@[simp] theorem Eff.model_sems (n : Nat) (v : Model) : ((Eff.model n v).apply s).sems = s.sems := rfl
@[simp] theorem Eff.model_bars (n : Nat) (v : Model) : ((Eff.model n v).apply s).bars = s.bars := rfl
@[simp] theorem Eff.model_hubRegs (n : Nat) (v : Model) : ((Eff.model n v).apply s).hubRegs = s.hubRegs := rfl
@[simp] theorem Eff.model_stu (n : Nat) (v : Model) : ((Eff.model n v).apply s).stu = s.stu := rfl
@[simp] theorem Eff.model_cores (n : Nat) (v : Model) : ((Eff.model n v).apply s).cores = s.cores := rfl
@[simp] theorem Eff.model_spads (n : Nat) (v : Model) : ((Eff.model n v).apply s).spads = s.spads := rfl
@[simp] theorem Eff.model_gmem (n : Nat) (v : Model) : ((Eff.model n v).apply s).gmem = s.gmem := rfl
@[simp] theorem Eff.model_written (n : Nat) (v : Model) : ((Eff.model n v).apply s).written = s.written := rfl
@[simp] theorem Eff.model_msgs (n : Nat) (v : Model) : ((Eff.model n v).apply s).msgs = s.msgs := rfl
@[simp] theorem Eff.model_stns (n : Nat) (v : Model) : ((Eff.model n v).apply s).stns = s.stns := rfl
@[simp] theorem Eff.model_groups (n : Nat) (v : Model) : ((Eff.model n v).apply s).groups = s.groups := rfl
@[simp] theorem Eff.model_ctl (n : Nat) (v : Model) : ((Eff.model n v).apply s).ctl = s.ctl := rfl
@[simp] theorem Eff.model_links (n : Nat) (v : Model) : ((Eff.model n v).apply s).links = s.links := rfl
@[simp] theorem Eff.model_slices (n : Nat) (v : Model) : ((Eff.model n v).apply s).slices = s.slices := rfl
@[simp] theorem Eff.model_imap (n : Nat) (v : Model) : ((Eff.model n v).apply s).imap = s.imap := rfl
@[simp] theorem Eff.model_splitA (n : Nat) (v : Model) : ((Eff.model n v).apply s).splitA = s.splitA := rfl
@[simp] theorem Eff.model_splitB (n : Nat) (v : Model) : ((Eff.model n v).apply s).splitB = s.splitB := rfl
@[simp] theorem Eff.model_nextGroup (n : Nat) (v : Model) : ((Eff.model n v).apply s).nextGroup = s.nextGroup := rfl
@[simp] theorem Eff.model_mods (n : Nat) (v : Model) : ((Eff.model n v).apply s).mods = s.mods := rfl
@[simp] theorem Eff.model_health (n : Nat) (v : Model) : ((Eff.model n v).apply s).health = s.health := rfl
@[simp] theorem Eff.model_snap (n : Nat) (v : Model) : ((Eff.model n v).apply s).snap = s.snap := rfl
@[simp] theorem Eff.model_dbg (n : Nat) (v : Model) : ((Eff.model n v).apply s).dbg = s.dbg := rfl
@[simp] theorem Eff.model_resets (n : Nat) (v : Model) : ((Eff.model n v).apply s).resets = s.resets := rfl
@[simp] theorem Eff.model_staged (n : Nat) (v : Model) : ((Eff.model n v).apply s).staged = s.staged := rfl
@[simp] theorem Eff.model_sets (n : Nat) (v : Model) : ((Eff.model n v).apply s).sets = s.sets := rfl
@[simp] theorem Eff.model_hostResp (n : Nat) (v : Model) : ((Eff.model n v).apply s).hostResp = s.hostResp := rfl
@[simp] theorem Eff.model_freeCtr (n : Nat) (v : Model) : ((Eff.model n v).apply s).freeCtr = s.freeCtr := rfl
@[simp] theorem Eff.model_pending (n : Nat) (v : Model) : ((Eff.model n v).apply s).pending = s.pending := rfl

@[simp] theorem Eff.entry_regs (n : Nat) (v : Entry) : ((Eff.entry n v).apply s).regs = s.regs := rfl
@[simp] theorem Eff.entry_tb (n : Nat) (v : Entry) : ((Eff.entry n v).apply s).tb = s.tb := rfl
@[simp] theorem Eff.entry_pw (n : Nat) (v : Entry) : ((Eff.entry n v).apply s).pw = s.pw := rfl
@[simp] theorem Eff.entry_recs (n : Nat) (v : Entry) : ((Eff.entry n v).apply s).recs = s.recs := rfl
@[simp] theorem Eff.entry_fw (n : Nat) (v : Entry) : ((Eff.entry n v).apply s).fw = s.fw := rfl
@[simp] theorem Eff.entry_pairs (n : Nat) (v : Entry) : ((Eff.entry n v).apply s).pairs = s.pairs := rfl
@[simp] theorem Eff.entry_ctxs (n : Nat) (v : Entry) : ((Eff.entry n v).apply s).ctxs = s.ctxs := rfl
@[simp] theorem Eff.entry_models (n : Nat) (v : Entry) : ((Eff.entry n v).apply s).models = s.models := rfl
@[simp] theorem Eff.entry_sems (n : Nat) (v : Entry) : ((Eff.entry n v).apply s).sems = s.sems := rfl
@[simp] theorem Eff.entry_bars (n : Nat) (v : Entry) : ((Eff.entry n v).apply s).bars = s.bars := rfl
@[simp] theorem Eff.entry_hubRegs (n : Nat) (v : Entry) : ((Eff.entry n v).apply s).hubRegs = s.hubRegs := rfl
@[simp] theorem Eff.entry_stu (n : Nat) (v : Entry) : ((Eff.entry n v).apply s).stu = s.stu := rfl
@[simp] theorem Eff.entry_cores (n : Nat) (v : Entry) : ((Eff.entry n v).apply s).cores = s.cores := rfl
@[simp] theorem Eff.entry_spads (n : Nat) (v : Entry) : ((Eff.entry n v).apply s).spads = s.spads := rfl
@[simp] theorem Eff.entry_gmem (n : Nat) (v : Entry) : ((Eff.entry n v).apply s).gmem = s.gmem := rfl
@[simp] theorem Eff.entry_written (n : Nat) (v : Entry) : ((Eff.entry n v).apply s).written = s.written := rfl
@[simp] theorem Eff.entry_msgs (n : Nat) (v : Entry) : ((Eff.entry n v).apply s).msgs = s.msgs := rfl
@[simp] theorem Eff.entry_stns (n : Nat) (v : Entry) : ((Eff.entry n v).apply s).stns = s.stns := rfl
@[simp] theorem Eff.entry_groups (n : Nat) (v : Entry) : ((Eff.entry n v).apply s).groups = s.groups := rfl
@[simp] theorem Eff.entry_ctl (n : Nat) (v : Entry) : ((Eff.entry n v).apply s).ctl = s.ctl := rfl
@[simp] theorem Eff.entry_links (n : Nat) (v : Entry) : ((Eff.entry n v).apply s).links = s.links := rfl
@[simp] theorem Eff.entry_slices (n : Nat) (v : Entry) : ((Eff.entry n v).apply s).slices = s.slices := rfl
@[simp] theorem Eff.entry_imap (n : Nat) (v : Entry) : ((Eff.entry n v).apply s).imap = s.imap := rfl
@[simp] theorem Eff.entry_splitA (n : Nat) (v : Entry) : ((Eff.entry n v).apply s).splitA = s.splitA := rfl
@[simp] theorem Eff.entry_splitB (n : Nat) (v : Entry) : ((Eff.entry n v).apply s).splitB = s.splitB := rfl
@[simp] theorem Eff.entry_nextGroup (n : Nat) (v : Entry) : ((Eff.entry n v).apply s).nextGroup = s.nextGroup := rfl
@[simp] theorem Eff.entry_mods (n : Nat) (v : Entry) : ((Eff.entry n v).apply s).mods = s.mods := rfl
@[simp] theorem Eff.entry_health (n : Nat) (v : Entry) : ((Eff.entry n v).apply s).health = s.health := rfl
@[simp] theorem Eff.entry_snap (n : Nat) (v : Entry) : ((Eff.entry n v).apply s).snap = s.snap := rfl
@[simp] theorem Eff.entry_dbg (n : Nat) (v : Entry) : ((Eff.entry n v).apply s).dbg = s.dbg := rfl
@[simp] theorem Eff.entry_resets (n : Nat) (v : Entry) : ((Eff.entry n v).apply s).resets = s.resets := rfl
@[simp] theorem Eff.entry_staged (n : Nat) (v : Entry) : ((Eff.entry n v).apply s).staged = s.staged := rfl
@[simp] theorem Eff.entry_sets (n : Nat) (v : Entry) : ((Eff.entry n v).apply s).sets = s.sets := rfl
@[simp] theorem Eff.entry_hostResp (n : Nat) (v : Entry) : ((Eff.entry n v).apply s).hostResp = s.hostResp := rfl
@[simp] theorem Eff.entry_freeCtr (n : Nat) (v : Entry) : ((Eff.entry n v).apply s).freeCtr = s.freeCtr := rfl
@[simp] theorem Eff.entry_pending (n : Nat) (v : Entry) : ((Eff.entry n v).apply s).pending = s.pending := rfl

@[simp] theorem Eff.sem_regs (n : Nat) (v : Sem) : ((Eff.sem n v).apply s).regs = s.regs := rfl
@[simp] theorem Eff.sem_tb (n : Nat) (v : Sem) : ((Eff.sem n v).apply s).tb = s.tb := rfl
@[simp] theorem Eff.sem_pw (n : Nat) (v : Sem) : ((Eff.sem n v).apply s).pw = s.pw := rfl
@[simp] theorem Eff.sem_recs (n : Nat) (v : Sem) : ((Eff.sem n v).apply s).recs = s.recs := rfl
@[simp] theorem Eff.sem_fw (n : Nat) (v : Sem) : ((Eff.sem n v).apply s).fw = s.fw := rfl
@[simp] theorem Eff.sem_pairs (n : Nat) (v : Sem) : ((Eff.sem n v).apply s).pairs = s.pairs := rfl
@[simp] theorem Eff.sem_ctxs (n : Nat) (v : Sem) : ((Eff.sem n v).apply s).ctxs = s.ctxs := rfl
@[simp] theorem Eff.sem_models (n : Nat) (v : Sem) : ((Eff.sem n v).apply s).models = s.models := rfl
@[simp] theorem Eff.sem_entries (n : Nat) (v : Sem) : ((Eff.sem n v).apply s).entries = s.entries := rfl
@[simp] theorem Eff.sem_bars (n : Nat) (v : Sem) : ((Eff.sem n v).apply s).bars = s.bars := rfl
@[simp] theorem Eff.sem_hubRegs (n : Nat) (v : Sem) : ((Eff.sem n v).apply s).hubRegs = s.hubRegs := rfl
@[simp] theorem Eff.sem_stu (n : Nat) (v : Sem) : ((Eff.sem n v).apply s).stu = s.stu := rfl
@[simp] theorem Eff.sem_cores (n : Nat) (v : Sem) : ((Eff.sem n v).apply s).cores = s.cores := rfl
@[simp] theorem Eff.sem_spads (n : Nat) (v : Sem) : ((Eff.sem n v).apply s).spads = s.spads := rfl
@[simp] theorem Eff.sem_gmem (n : Nat) (v : Sem) : ((Eff.sem n v).apply s).gmem = s.gmem := rfl
@[simp] theorem Eff.sem_written (n : Nat) (v : Sem) : ((Eff.sem n v).apply s).written = s.written := rfl
@[simp] theorem Eff.sem_msgs (n : Nat) (v : Sem) : ((Eff.sem n v).apply s).msgs = s.msgs := rfl
@[simp] theorem Eff.sem_stns (n : Nat) (v : Sem) : ((Eff.sem n v).apply s).stns = s.stns := rfl
@[simp] theorem Eff.sem_groups (n : Nat) (v : Sem) : ((Eff.sem n v).apply s).groups = s.groups := rfl
@[simp] theorem Eff.sem_ctl (n : Nat) (v : Sem) : ((Eff.sem n v).apply s).ctl = s.ctl := rfl
@[simp] theorem Eff.sem_links (n : Nat) (v : Sem) : ((Eff.sem n v).apply s).links = s.links := rfl
@[simp] theorem Eff.sem_slices (n : Nat) (v : Sem) : ((Eff.sem n v).apply s).slices = s.slices := rfl
@[simp] theorem Eff.sem_imap (n : Nat) (v : Sem) : ((Eff.sem n v).apply s).imap = s.imap := rfl
@[simp] theorem Eff.sem_splitA (n : Nat) (v : Sem) : ((Eff.sem n v).apply s).splitA = s.splitA := rfl
@[simp] theorem Eff.sem_splitB (n : Nat) (v : Sem) : ((Eff.sem n v).apply s).splitB = s.splitB := rfl
@[simp] theorem Eff.sem_nextGroup (n : Nat) (v : Sem) : ((Eff.sem n v).apply s).nextGroup = s.nextGroup := rfl
@[simp] theorem Eff.sem_mods (n : Nat) (v : Sem) : ((Eff.sem n v).apply s).mods = s.mods := rfl
@[simp] theorem Eff.sem_health (n : Nat) (v : Sem) : ((Eff.sem n v).apply s).health = s.health := rfl
@[simp] theorem Eff.sem_snap (n : Nat) (v : Sem) : ((Eff.sem n v).apply s).snap = s.snap := rfl
@[simp] theorem Eff.sem_dbg (n : Nat) (v : Sem) : ((Eff.sem n v).apply s).dbg = s.dbg := rfl
@[simp] theorem Eff.sem_resets (n : Nat) (v : Sem) : ((Eff.sem n v).apply s).resets = s.resets := rfl
@[simp] theorem Eff.sem_staged (n : Nat) (v : Sem) : ((Eff.sem n v).apply s).staged = s.staged := rfl
@[simp] theorem Eff.sem_sets (n : Nat) (v : Sem) : ((Eff.sem n v).apply s).sets = s.sets := rfl
@[simp] theorem Eff.sem_hostResp (n : Nat) (v : Sem) : ((Eff.sem n v).apply s).hostResp = s.hostResp := rfl
@[simp] theorem Eff.sem_freeCtr (n : Nat) (v : Sem) : ((Eff.sem n v).apply s).freeCtr = s.freeCtr := rfl
@[simp] theorem Eff.sem_pending (n : Nat) (v : Sem) : ((Eff.sem n v).apply s).pending = s.pending := rfl

@[simp] theorem Eff.bar_regs (n : Nat) (v : Barrier) : ((Eff.bar n v).apply s).regs = s.regs := rfl
@[simp] theorem Eff.bar_tb (n : Nat) (v : Barrier) : ((Eff.bar n v).apply s).tb = s.tb := rfl
@[simp] theorem Eff.bar_pw (n : Nat) (v : Barrier) : ((Eff.bar n v).apply s).pw = s.pw := rfl
@[simp] theorem Eff.bar_recs (n : Nat) (v : Barrier) : ((Eff.bar n v).apply s).recs = s.recs := rfl
@[simp] theorem Eff.bar_fw (n : Nat) (v : Barrier) : ((Eff.bar n v).apply s).fw = s.fw := rfl
@[simp] theorem Eff.bar_pairs (n : Nat) (v : Barrier) : ((Eff.bar n v).apply s).pairs = s.pairs := rfl
@[simp] theorem Eff.bar_ctxs (n : Nat) (v : Barrier) : ((Eff.bar n v).apply s).ctxs = s.ctxs := rfl
@[simp] theorem Eff.bar_models (n : Nat) (v : Barrier) : ((Eff.bar n v).apply s).models = s.models := rfl
@[simp] theorem Eff.bar_entries (n : Nat) (v : Barrier) : ((Eff.bar n v).apply s).entries = s.entries := rfl
@[simp] theorem Eff.bar_sems (n : Nat) (v : Barrier) : ((Eff.bar n v).apply s).sems = s.sems := rfl
@[simp] theorem Eff.bar_hubRegs (n : Nat) (v : Barrier) : ((Eff.bar n v).apply s).hubRegs = s.hubRegs := rfl
@[simp] theorem Eff.bar_stu (n : Nat) (v : Barrier) : ((Eff.bar n v).apply s).stu = s.stu := rfl
@[simp] theorem Eff.bar_cores (n : Nat) (v : Barrier) : ((Eff.bar n v).apply s).cores = s.cores := rfl
@[simp] theorem Eff.bar_spads (n : Nat) (v : Barrier) : ((Eff.bar n v).apply s).spads = s.spads := rfl
@[simp] theorem Eff.bar_gmem (n : Nat) (v : Barrier) : ((Eff.bar n v).apply s).gmem = s.gmem := rfl
@[simp] theorem Eff.bar_written (n : Nat) (v : Barrier) : ((Eff.bar n v).apply s).written = s.written := rfl
@[simp] theorem Eff.bar_msgs (n : Nat) (v : Barrier) : ((Eff.bar n v).apply s).msgs = s.msgs := rfl
@[simp] theorem Eff.bar_stns (n : Nat) (v : Barrier) : ((Eff.bar n v).apply s).stns = s.stns := rfl
@[simp] theorem Eff.bar_groups (n : Nat) (v : Barrier) : ((Eff.bar n v).apply s).groups = s.groups := rfl
@[simp] theorem Eff.bar_ctl (n : Nat) (v : Barrier) : ((Eff.bar n v).apply s).ctl = s.ctl := rfl
@[simp] theorem Eff.bar_links (n : Nat) (v : Barrier) : ((Eff.bar n v).apply s).links = s.links := rfl
@[simp] theorem Eff.bar_slices (n : Nat) (v : Barrier) : ((Eff.bar n v).apply s).slices = s.slices := rfl
@[simp] theorem Eff.bar_imap (n : Nat) (v : Barrier) : ((Eff.bar n v).apply s).imap = s.imap := rfl
@[simp] theorem Eff.bar_splitA (n : Nat) (v : Barrier) : ((Eff.bar n v).apply s).splitA = s.splitA := rfl
@[simp] theorem Eff.bar_splitB (n : Nat) (v : Barrier) : ((Eff.bar n v).apply s).splitB = s.splitB := rfl
@[simp] theorem Eff.bar_nextGroup (n : Nat) (v : Barrier) : ((Eff.bar n v).apply s).nextGroup = s.nextGroup := rfl
@[simp] theorem Eff.bar_mods (n : Nat) (v : Barrier) : ((Eff.bar n v).apply s).mods = s.mods := rfl
@[simp] theorem Eff.bar_health (n : Nat) (v : Barrier) : ((Eff.bar n v).apply s).health = s.health := rfl
@[simp] theorem Eff.bar_snap (n : Nat) (v : Barrier) : ((Eff.bar n v).apply s).snap = s.snap := rfl
@[simp] theorem Eff.bar_dbg (n : Nat) (v : Barrier) : ((Eff.bar n v).apply s).dbg = s.dbg := rfl
@[simp] theorem Eff.bar_resets (n : Nat) (v : Barrier) : ((Eff.bar n v).apply s).resets = s.resets := rfl
@[simp] theorem Eff.bar_staged (n : Nat) (v : Barrier) : ((Eff.bar n v).apply s).staged = s.staged := rfl
@[simp] theorem Eff.bar_sets (n : Nat) (v : Barrier) : ((Eff.bar n v).apply s).sets = s.sets := rfl
@[simp] theorem Eff.bar_hostResp (n : Nat) (v : Barrier) : ((Eff.bar n v).apply s).hostResp = s.hostResp := rfl
@[simp] theorem Eff.bar_freeCtr (n : Nat) (v : Barrier) : ((Eff.bar n v).apply s).freeCtr = s.freeCtr := rfl
@[simp] theorem Eff.bar_pending (n : Nat) (v : Barrier) : ((Eff.bar n v).apply s).pending = s.pending := rfl

@[simp] theorem Eff.hubReg_regs (n : Nat) (v : Option HubReg) : ((Eff.hubReg n v).apply s).regs = s.regs := rfl
@[simp] theorem Eff.hubReg_tb (n : Nat) (v : Option HubReg) : ((Eff.hubReg n v).apply s).tb = s.tb := rfl
@[simp] theorem Eff.hubReg_pw (n : Nat) (v : Option HubReg) : ((Eff.hubReg n v).apply s).pw = s.pw := rfl
@[simp] theorem Eff.hubReg_recs (n : Nat) (v : Option HubReg) : ((Eff.hubReg n v).apply s).recs = s.recs := rfl
@[simp] theorem Eff.hubReg_fw (n : Nat) (v : Option HubReg) : ((Eff.hubReg n v).apply s).fw = s.fw := rfl
@[simp] theorem Eff.hubReg_pairs (n : Nat) (v : Option HubReg) : ((Eff.hubReg n v).apply s).pairs = s.pairs := rfl
@[simp] theorem Eff.hubReg_ctxs (n : Nat) (v : Option HubReg) : ((Eff.hubReg n v).apply s).ctxs = s.ctxs := rfl
@[simp] theorem Eff.hubReg_models (n : Nat) (v : Option HubReg) : ((Eff.hubReg n v).apply s).models = s.models := rfl
@[simp] theorem Eff.hubReg_entries (n : Nat) (v : Option HubReg) : ((Eff.hubReg n v).apply s).entries = s.entries := rfl
@[simp] theorem Eff.hubReg_sems (n : Nat) (v : Option HubReg) : ((Eff.hubReg n v).apply s).sems = s.sems := rfl
@[simp] theorem Eff.hubReg_bars (n : Nat) (v : Option HubReg) : ((Eff.hubReg n v).apply s).bars = s.bars := rfl
@[simp] theorem Eff.hubReg_stu (n : Nat) (v : Option HubReg) : ((Eff.hubReg n v).apply s).stu = s.stu := rfl
@[simp] theorem Eff.hubReg_cores (n : Nat) (v : Option HubReg) : ((Eff.hubReg n v).apply s).cores = s.cores := rfl
@[simp] theorem Eff.hubReg_spads (n : Nat) (v : Option HubReg) : ((Eff.hubReg n v).apply s).spads = s.spads := rfl
@[simp] theorem Eff.hubReg_gmem (n : Nat) (v : Option HubReg) : ((Eff.hubReg n v).apply s).gmem = s.gmem := rfl
@[simp] theorem Eff.hubReg_written (n : Nat) (v : Option HubReg) : ((Eff.hubReg n v).apply s).written = s.written := rfl
@[simp] theorem Eff.hubReg_msgs (n : Nat) (v : Option HubReg) : ((Eff.hubReg n v).apply s).msgs = s.msgs := rfl
@[simp] theorem Eff.hubReg_stns (n : Nat) (v : Option HubReg) : ((Eff.hubReg n v).apply s).stns = s.stns := rfl
@[simp] theorem Eff.hubReg_groups (n : Nat) (v : Option HubReg) : ((Eff.hubReg n v).apply s).groups = s.groups := rfl
@[simp] theorem Eff.hubReg_ctl (n : Nat) (v : Option HubReg) : ((Eff.hubReg n v).apply s).ctl = s.ctl := rfl
@[simp] theorem Eff.hubReg_links (n : Nat) (v : Option HubReg) : ((Eff.hubReg n v).apply s).links = s.links := rfl
@[simp] theorem Eff.hubReg_slices (n : Nat) (v : Option HubReg) : ((Eff.hubReg n v).apply s).slices = s.slices := rfl
@[simp] theorem Eff.hubReg_imap (n : Nat) (v : Option HubReg) : ((Eff.hubReg n v).apply s).imap = s.imap := rfl
@[simp] theorem Eff.hubReg_splitA (n : Nat) (v : Option HubReg) : ((Eff.hubReg n v).apply s).splitA = s.splitA := rfl
@[simp] theorem Eff.hubReg_splitB (n : Nat) (v : Option HubReg) : ((Eff.hubReg n v).apply s).splitB = s.splitB := rfl
@[simp] theorem Eff.hubReg_nextGroup (n : Nat) (v : Option HubReg) : ((Eff.hubReg n v).apply s).nextGroup = s.nextGroup := rfl
@[simp] theorem Eff.hubReg_mods (n : Nat) (v : Option HubReg) : ((Eff.hubReg n v).apply s).mods = s.mods := rfl
@[simp] theorem Eff.hubReg_health (n : Nat) (v : Option HubReg) : ((Eff.hubReg n v).apply s).health = s.health := rfl
@[simp] theorem Eff.hubReg_snap (n : Nat) (v : Option HubReg) : ((Eff.hubReg n v).apply s).snap = s.snap := rfl
@[simp] theorem Eff.hubReg_dbg (n : Nat) (v : Option HubReg) : ((Eff.hubReg n v).apply s).dbg = s.dbg := rfl
@[simp] theorem Eff.hubReg_resets (n : Nat) (v : Option HubReg) : ((Eff.hubReg n v).apply s).resets = s.resets := rfl
@[simp] theorem Eff.hubReg_staged (n : Nat) (v : Option HubReg) : ((Eff.hubReg n v).apply s).staged = s.staged := rfl
@[simp] theorem Eff.hubReg_sets (n : Nat) (v : Option HubReg) : ((Eff.hubReg n v).apply s).sets = s.sets := rfl
@[simp] theorem Eff.hubReg_hostResp (n : Nat) (v : Option HubReg) : ((Eff.hubReg n v).apply s).hostResp = s.hostResp := rfl
@[simp] theorem Eff.hubReg_freeCtr (n : Nat) (v : Option HubReg) : ((Eff.hubReg n v).apply s).freeCtr = s.freeCtr := rfl
@[simp] theorem Eff.hubReg_pending (n : Nat) (v : Option HubReg) : ((Eff.hubReg n v).apply s).pending = s.pending := rfl

@[simp] theorem Eff.stu_regs (v : Stu) : ((Eff.stu v).apply s).regs = s.regs := rfl
@[simp] theorem Eff.stu_tb (v : Stu) : ((Eff.stu v).apply s).tb = s.tb := rfl
@[simp] theorem Eff.stu_pw (v : Stu) : ((Eff.stu v).apply s).pw = s.pw := rfl
@[simp] theorem Eff.stu_recs (v : Stu) : ((Eff.stu v).apply s).recs = s.recs := rfl
@[simp] theorem Eff.stu_fw (v : Stu) : ((Eff.stu v).apply s).fw = s.fw := rfl
@[simp] theorem Eff.stu_pairs (v : Stu) : ((Eff.stu v).apply s).pairs = s.pairs := rfl
@[simp] theorem Eff.stu_ctxs (v : Stu) : ((Eff.stu v).apply s).ctxs = s.ctxs := rfl
@[simp] theorem Eff.stu_models (v : Stu) : ((Eff.stu v).apply s).models = s.models := rfl
@[simp] theorem Eff.stu_entries (v : Stu) : ((Eff.stu v).apply s).entries = s.entries := rfl
@[simp] theorem Eff.stu_sems (v : Stu) : ((Eff.stu v).apply s).sems = s.sems := rfl
@[simp] theorem Eff.stu_bars (v : Stu) : ((Eff.stu v).apply s).bars = s.bars := rfl
@[simp] theorem Eff.stu_hubRegs (v : Stu) : ((Eff.stu v).apply s).hubRegs = s.hubRegs := rfl
@[simp] theorem Eff.stu_cores (v : Stu) : ((Eff.stu v).apply s).cores = s.cores := rfl
@[simp] theorem Eff.stu_spads (v : Stu) : ((Eff.stu v).apply s).spads = s.spads := rfl
@[simp] theorem Eff.stu_gmem (v : Stu) : ((Eff.stu v).apply s).gmem = s.gmem := rfl
@[simp] theorem Eff.stu_written (v : Stu) : ((Eff.stu v).apply s).written = s.written := rfl
@[simp] theorem Eff.stu_msgs (v : Stu) : ((Eff.stu v).apply s).msgs = s.msgs := rfl
@[simp] theorem Eff.stu_stns (v : Stu) : ((Eff.stu v).apply s).stns = s.stns := rfl
@[simp] theorem Eff.stu_groups (v : Stu) : ((Eff.stu v).apply s).groups = s.groups := rfl
@[simp] theorem Eff.stu_ctl (v : Stu) : ((Eff.stu v).apply s).ctl = s.ctl := rfl
@[simp] theorem Eff.stu_links (v : Stu) : ((Eff.stu v).apply s).links = s.links := rfl
@[simp] theorem Eff.stu_slices (v : Stu) : ((Eff.stu v).apply s).slices = s.slices := rfl
@[simp] theorem Eff.stu_imap (v : Stu) : ((Eff.stu v).apply s).imap = s.imap := rfl
@[simp] theorem Eff.stu_splitA (v : Stu) : ((Eff.stu v).apply s).splitA = s.splitA := rfl
@[simp] theorem Eff.stu_splitB (v : Stu) : ((Eff.stu v).apply s).splitB = s.splitB := rfl
@[simp] theorem Eff.stu_nextGroup (v : Stu) : ((Eff.stu v).apply s).nextGroup = s.nextGroup := rfl
@[simp] theorem Eff.stu_mods (v : Stu) : ((Eff.stu v).apply s).mods = s.mods := rfl
@[simp] theorem Eff.stu_health (v : Stu) : ((Eff.stu v).apply s).health = s.health := rfl
@[simp] theorem Eff.stu_snap (v : Stu) : ((Eff.stu v).apply s).snap = s.snap := rfl
@[simp] theorem Eff.stu_dbg (v : Stu) : ((Eff.stu v).apply s).dbg = s.dbg := rfl
@[simp] theorem Eff.stu_resets (v : Stu) : ((Eff.stu v).apply s).resets = s.resets := rfl
@[simp] theorem Eff.stu_staged (v : Stu) : ((Eff.stu v).apply s).staged = s.staged := rfl
@[simp] theorem Eff.stu_sets (v : Stu) : ((Eff.stu v).apply s).sets = s.sets := rfl
@[simp] theorem Eff.stu_hostResp (v : Stu) : ((Eff.stu v).apply s).hostResp = s.hostResp := rfl
@[simp] theorem Eff.stu_freeCtr (v : Stu) : ((Eff.stu v).apply s).freeCtr = s.freeCtr := rfl
@[simp] theorem Eff.stu_pending (v : Stu) : ((Eff.stu v).apply s).pending = s.pending := rfl
@[simp] theorem Eff.stu_stu (v : Stu) : ((Eff.stu v).apply s).stu = v := rfl

@[simp] theorem Eff.core_regs (n : Nat) (v : Core) : ((Eff.core n v).apply s).regs = s.regs := rfl
@[simp] theorem Eff.core_tb (n : Nat) (v : Core) : ((Eff.core n v).apply s).tb = s.tb := rfl
@[simp] theorem Eff.core_pw (n : Nat) (v : Core) : ((Eff.core n v).apply s).pw = s.pw := rfl
@[simp] theorem Eff.core_recs (n : Nat) (v : Core) : ((Eff.core n v).apply s).recs = s.recs := rfl
@[simp] theorem Eff.core_fw (n : Nat) (v : Core) : ((Eff.core n v).apply s).fw = s.fw := rfl
@[simp] theorem Eff.core_pairs (n : Nat) (v : Core) : ((Eff.core n v).apply s).pairs = s.pairs := rfl
@[simp] theorem Eff.core_ctxs (n : Nat) (v : Core) : ((Eff.core n v).apply s).ctxs = s.ctxs := rfl
@[simp] theorem Eff.core_models (n : Nat) (v : Core) : ((Eff.core n v).apply s).models = s.models := rfl
@[simp] theorem Eff.core_entries (n : Nat) (v : Core) : ((Eff.core n v).apply s).entries = s.entries := rfl
@[simp] theorem Eff.core_sems (n : Nat) (v : Core) : ((Eff.core n v).apply s).sems = s.sems := rfl
@[simp] theorem Eff.core_bars (n : Nat) (v : Core) : ((Eff.core n v).apply s).bars = s.bars := rfl
@[simp] theorem Eff.core_hubRegs (n : Nat) (v : Core) : ((Eff.core n v).apply s).hubRegs = s.hubRegs := rfl
@[simp] theorem Eff.core_stu (n : Nat) (v : Core) : ((Eff.core n v).apply s).stu = s.stu := rfl
@[simp] theorem Eff.core_spads (n : Nat) (v : Core) : ((Eff.core n v).apply s).spads = s.spads := rfl
@[simp] theorem Eff.core_gmem (n : Nat) (v : Core) : ((Eff.core n v).apply s).gmem = s.gmem := rfl
@[simp] theorem Eff.core_written (n : Nat) (v : Core) : ((Eff.core n v).apply s).written = s.written := rfl
@[simp] theorem Eff.core_msgs (n : Nat) (v : Core) : ((Eff.core n v).apply s).msgs = s.msgs := rfl
@[simp] theorem Eff.core_stns (n : Nat) (v : Core) : ((Eff.core n v).apply s).stns = s.stns := rfl
@[simp] theorem Eff.core_groups (n : Nat) (v : Core) : ((Eff.core n v).apply s).groups = s.groups := rfl
@[simp] theorem Eff.core_ctl (n : Nat) (v : Core) : ((Eff.core n v).apply s).ctl = s.ctl := rfl
@[simp] theorem Eff.core_links (n : Nat) (v : Core) : ((Eff.core n v).apply s).links = s.links := rfl
@[simp] theorem Eff.core_slices (n : Nat) (v : Core) : ((Eff.core n v).apply s).slices = s.slices := rfl
@[simp] theorem Eff.core_imap (n : Nat) (v : Core) : ((Eff.core n v).apply s).imap = s.imap := rfl
@[simp] theorem Eff.core_splitA (n : Nat) (v : Core) : ((Eff.core n v).apply s).splitA = s.splitA := rfl
@[simp] theorem Eff.core_splitB (n : Nat) (v : Core) : ((Eff.core n v).apply s).splitB = s.splitB := rfl
@[simp] theorem Eff.core_nextGroup (n : Nat) (v : Core) : ((Eff.core n v).apply s).nextGroup = s.nextGroup := rfl
@[simp] theorem Eff.core_mods (n : Nat) (v : Core) : ((Eff.core n v).apply s).mods = s.mods := rfl
@[simp] theorem Eff.core_health (n : Nat) (v : Core) : ((Eff.core n v).apply s).health = s.health := rfl
@[simp] theorem Eff.core_snap (n : Nat) (v : Core) : ((Eff.core n v).apply s).snap = s.snap := rfl
@[simp] theorem Eff.core_dbg (n : Nat) (v : Core) : ((Eff.core n v).apply s).dbg = s.dbg := rfl
@[simp] theorem Eff.core_resets (n : Nat) (v : Core) : ((Eff.core n v).apply s).resets = s.resets := rfl
@[simp] theorem Eff.core_staged (n : Nat) (v : Core) : ((Eff.core n v).apply s).staged = s.staged := rfl
@[simp] theorem Eff.core_sets (n : Nat) (v : Core) : ((Eff.core n v).apply s).sets = s.sets := rfl
@[simp] theorem Eff.core_hostResp (n : Nat) (v : Core) : ((Eff.core n v).apply s).hostResp = s.hostResp := rfl
@[simp] theorem Eff.core_freeCtr (n : Nat) (v : Core) : ((Eff.core n v).apply s).freeCtr = s.freeCtr := rfl
@[simp] theorem Eff.core_pending (n : Nat) (v : Core) : ((Eff.core n v).apply s).pending = s.pending := rfl

@[simp] theorem Eff.spData_regs (n a : Nat) (v : List Byte) : ((Eff.spData n a v).apply s).regs = s.regs := rfl
@[simp] theorem Eff.spData_tb (n a : Nat) (v : List Byte) : ((Eff.spData n a v).apply s).tb = s.tb := rfl
@[simp] theorem Eff.spData_pw (n a : Nat) (v : List Byte) : ((Eff.spData n a v).apply s).pw = s.pw := rfl
@[simp] theorem Eff.spData_recs (n a : Nat) (v : List Byte) : ((Eff.spData n a v).apply s).recs = s.recs := rfl
@[simp] theorem Eff.spData_fw (n a : Nat) (v : List Byte) : ((Eff.spData n a v).apply s).fw = s.fw := rfl
@[simp] theorem Eff.spData_pairs (n a : Nat) (v : List Byte) : ((Eff.spData n a v).apply s).pairs = s.pairs := rfl
@[simp] theorem Eff.spData_ctxs (n a : Nat) (v : List Byte) : ((Eff.spData n a v).apply s).ctxs = s.ctxs := rfl
@[simp] theorem Eff.spData_models (n a : Nat) (v : List Byte) : ((Eff.spData n a v).apply s).models = s.models := rfl
@[simp] theorem Eff.spData_entries (n a : Nat) (v : List Byte) : ((Eff.spData n a v).apply s).entries = s.entries := rfl
@[simp] theorem Eff.spData_sems (n a : Nat) (v : List Byte) : ((Eff.spData n a v).apply s).sems = s.sems := rfl
@[simp] theorem Eff.spData_bars (n a : Nat) (v : List Byte) : ((Eff.spData n a v).apply s).bars = s.bars := rfl
@[simp] theorem Eff.spData_hubRegs (n a : Nat) (v : List Byte) : ((Eff.spData n a v).apply s).hubRegs = s.hubRegs := rfl
@[simp] theorem Eff.spData_stu (n a : Nat) (v : List Byte) : ((Eff.spData n a v).apply s).stu = s.stu := rfl
@[simp] theorem Eff.spData_cores (n a : Nat) (v : List Byte) : ((Eff.spData n a v).apply s).cores = s.cores := rfl
@[simp] theorem Eff.spData_gmem (n a : Nat) (v : List Byte) : ((Eff.spData n a v).apply s).gmem = s.gmem := rfl
@[simp] theorem Eff.spData_written (n a : Nat) (v : List Byte) : ((Eff.spData n a v).apply s).written = s.written := rfl
@[simp] theorem Eff.spData_msgs (n a : Nat) (v : List Byte) : ((Eff.spData n a v).apply s).msgs = s.msgs := rfl
@[simp] theorem Eff.spData_stns (n a : Nat) (v : List Byte) : ((Eff.spData n a v).apply s).stns = s.stns := rfl
@[simp] theorem Eff.spData_groups (n a : Nat) (v : List Byte) : ((Eff.spData n a v).apply s).groups = s.groups := rfl
@[simp] theorem Eff.spData_ctl (n a : Nat) (v : List Byte) : ((Eff.spData n a v).apply s).ctl = s.ctl := rfl
@[simp] theorem Eff.spData_links (n a : Nat) (v : List Byte) : ((Eff.spData n a v).apply s).links = s.links := rfl
@[simp] theorem Eff.spData_slices (n a : Nat) (v : List Byte) : ((Eff.spData n a v).apply s).slices = s.slices := rfl
@[simp] theorem Eff.spData_imap (n a : Nat) (v : List Byte) : ((Eff.spData n a v).apply s).imap = s.imap := rfl
@[simp] theorem Eff.spData_splitA (n a : Nat) (v : List Byte) : ((Eff.spData n a v).apply s).splitA = s.splitA := rfl
@[simp] theorem Eff.spData_splitB (n a : Nat) (v : List Byte) : ((Eff.spData n a v).apply s).splitB = s.splitB := rfl
@[simp] theorem Eff.spData_nextGroup (n a : Nat) (v : List Byte) : ((Eff.spData n a v).apply s).nextGroup = s.nextGroup := rfl
@[simp] theorem Eff.spData_mods (n a : Nat) (v : List Byte) : ((Eff.spData n a v).apply s).mods = s.mods := rfl
@[simp] theorem Eff.spData_health (n a : Nat) (v : List Byte) : ((Eff.spData n a v).apply s).health = s.health := rfl
@[simp] theorem Eff.spData_snap (n a : Nat) (v : List Byte) : ((Eff.spData n a v).apply s).snap = s.snap := rfl
@[simp] theorem Eff.spData_dbg (n a : Nat) (v : List Byte) : ((Eff.spData n a v).apply s).dbg = s.dbg := rfl
@[simp] theorem Eff.spData_resets (n a : Nat) (v : List Byte) : ((Eff.spData n a v).apply s).resets = s.resets := rfl
@[simp] theorem Eff.spData_staged (n a : Nat) (v : List Byte) : ((Eff.spData n a v).apply s).staged = s.staged := rfl
@[simp] theorem Eff.spData_sets (n a : Nat) (v : List Byte) : ((Eff.spData n a v).apply s).sets = s.sets := rfl
@[simp] theorem Eff.spData_hostResp (n a : Nat) (v : List Byte) : ((Eff.spData n a v).apply s).hostResp = s.hostResp := rfl
@[simp] theorem Eff.spData_freeCtr (n a : Nat) (v : List Byte) : ((Eff.spData n a v).apply s).freeCtr = s.freeCtr := rfl
@[simp] theorem Eff.spData_pending (n a : Nat) (v : List Byte) : ((Eff.spData n a v).apply s).pending = s.pending := rfl

@[simp] theorem Eff.spSyn_regs (n g v : Nat) : ((Eff.spSyn n g v).apply s).regs = s.regs := rfl
@[simp] theorem Eff.spSyn_tb (n g v : Nat) : ((Eff.spSyn n g v).apply s).tb = s.tb := rfl
@[simp] theorem Eff.spSyn_pw (n g v : Nat) : ((Eff.spSyn n g v).apply s).pw = s.pw := rfl
@[simp] theorem Eff.spSyn_recs (n g v : Nat) : ((Eff.spSyn n g v).apply s).recs = s.recs := rfl
@[simp] theorem Eff.spSyn_fw (n g v : Nat) : ((Eff.spSyn n g v).apply s).fw = s.fw := rfl
@[simp] theorem Eff.spSyn_pairs (n g v : Nat) : ((Eff.spSyn n g v).apply s).pairs = s.pairs := rfl
@[simp] theorem Eff.spSyn_ctxs (n g v : Nat) : ((Eff.spSyn n g v).apply s).ctxs = s.ctxs := rfl
@[simp] theorem Eff.spSyn_models (n g v : Nat) : ((Eff.spSyn n g v).apply s).models = s.models := rfl
@[simp] theorem Eff.spSyn_entries (n g v : Nat) : ((Eff.spSyn n g v).apply s).entries = s.entries := rfl
@[simp] theorem Eff.spSyn_sems (n g v : Nat) : ((Eff.spSyn n g v).apply s).sems = s.sems := rfl
@[simp] theorem Eff.spSyn_bars (n g v : Nat) : ((Eff.spSyn n g v).apply s).bars = s.bars := rfl
@[simp] theorem Eff.spSyn_hubRegs (n g v : Nat) : ((Eff.spSyn n g v).apply s).hubRegs = s.hubRegs := rfl
@[simp] theorem Eff.spSyn_stu (n g v : Nat) : ((Eff.spSyn n g v).apply s).stu = s.stu := rfl
@[simp] theorem Eff.spSyn_cores (n g v : Nat) : ((Eff.spSyn n g v).apply s).cores = s.cores := rfl
@[simp] theorem Eff.spSyn_gmem (n g v : Nat) : ((Eff.spSyn n g v).apply s).gmem = s.gmem := rfl
@[simp] theorem Eff.spSyn_written (n g v : Nat) : ((Eff.spSyn n g v).apply s).written = s.written := rfl
@[simp] theorem Eff.spSyn_msgs (n g v : Nat) : ((Eff.spSyn n g v).apply s).msgs = s.msgs := rfl
@[simp] theorem Eff.spSyn_stns (n g v : Nat) : ((Eff.spSyn n g v).apply s).stns = s.stns := rfl
@[simp] theorem Eff.spSyn_groups (n g v : Nat) : ((Eff.spSyn n g v).apply s).groups = s.groups := rfl
@[simp] theorem Eff.spSyn_ctl (n g v : Nat) : ((Eff.spSyn n g v).apply s).ctl = s.ctl := rfl
@[simp] theorem Eff.spSyn_links (n g v : Nat) : ((Eff.spSyn n g v).apply s).links = s.links := rfl
@[simp] theorem Eff.spSyn_slices (n g v : Nat) : ((Eff.spSyn n g v).apply s).slices = s.slices := rfl
@[simp] theorem Eff.spSyn_imap (n g v : Nat) : ((Eff.spSyn n g v).apply s).imap = s.imap := rfl
@[simp] theorem Eff.spSyn_splitA (n g v : Nat) : ((Eff.spSyn n g v).apply s).splitA = s.splitA := rfl
@[simp] theorem Eff.spSyn_splitB (n g v : Nat) : ((Eff.spSyn n g v).apply s).splitB = s.splitB := rfl
@[simp] theorem Eff.spSyn_nextGroup (n g v : Nat) : ((Eff.spSyn n g v).apply s).nextGroup = s.nextGroup := rfl
@[simp] theorem Eff.spSyn_mods (n g v : Nat) : ((Eff.spSyn n g v).apply s).mods = s.mods := rfl
@[simp] theorem Eff.spSyn_health (n g v : Nat) : ((Eff.spSyn n g v).apply s).health = s.health := rfl
@[simp] theorem Eff.spSyn_snap (n g v : Nat) : ((Eff.spSyn n g v).apply s).snap = s.snap := rfl
@[simp] theorem Eff.spSyn_dbg (n g v : Nat) : ((Eff.spSyn n g v).apply s).dbg = s.dbg := rfl
@[simp] theorem Eff.spSyn_resets (n g v : Nat) : ((Eff.spSyn n g v).apply s).resets = s.resets := rfl
@[simp] theorem Eff.spSyn_staged (n g v : Nat) : ((Eff.spSyn n g v).apply s).staged = s.staged := rfl
@[simp] theorem Eff.spSyn_sets (n g v : Nat) : ((Eff.spSyn n g v).apply s).sets = s.sets := rfl
@[simp] theorem Eff.spSyn_hostResp (n g v : Nat) : ((Eff.spSyn n g v).apply s).hostResp = s.hostResp := rfl
@[simp] theorem Eff.spSyn_freeCtr (n g v : Nat) : ((Eff.spSyn n g v).apply s).freeCtr = s.freeCtr := rfl
@[simp] theorem Eff.spSyn_pending (n g v : Nat) : ((Eff.spSyn n g v).apply s).pending = s.pending := rfl

@[simp] theorem Eff.spClear_regs (n : Nat) : ((Eff.spClear n).apply s).regs = s.regs := rfl
@[simp] theorem Eff.spClear_tb (n : Nat) : ((Eff.spClear n).apply s).tb = s.tb := rfl
@[simp] theorem Eff.spClear_pw (n : Nat) : ((Eff.spClear n).apply s).pw = s.pw := rfl
@[simp] theorem Eff.spClear_recs (n : Nat) : ((Eff.spClear n).apply s).recs = s.recs := rfl
@[simp] theorem Eff.spClear_fw (n : Nat) : ((Eff.spClear n).apply s).fw = s.fw := rfl
@[simp] theorem Eff.spClear_pairs (n : Nat) : ((Eff.spClear n).apply s).pairs = s.pairs := rfl
@[simp] theorem Eff.spClear_ctxs (n : Nat) : ((Eff.spClear n).apply s).ctxs = s.ctxs := rfl
@[simp] theorem Eff.spClear_models (n : Nat) : ((Eff.spClear n).apply s).models = s.models := rfl
@[simp] theorem Eff.spClear_entries (n : Nat) : ((Eff.spClear n).apply s).entries = s.entries := rfl
@[simp] theorem Eff.spClear_sems (n : Nat) : ((Eff.spClear n).apply s).sems = s.sems := rfl
@[simp] theorem Eff.spClear_bars (n : Nat) : ((Eff.spClear n).apply s).bars = s.bars := rfl
@[simp] theorem Eff.spClear_hubRegs (n : Nat) : ((Eff.spClear n).apply s).hubRegs = s.hubRegs := rfl
@[simp] theorem Eff.spClear_stu (n : Nat) : ((Eff.spClear n).apply s).stu = s.stu := rfl
@[simp] theorem Eff.spClear_cores (n : Nat) : ((Eff.spClear n).apply s).cores = s.cores := rfl
@[simp] theorem Eff.spClear_gmem (n : Nat) : ((Eff.spClear n).apply s).gmem = s.gmem := rfl
@[simp] theorem Eff.spClear_written (n : Nat) : ((Eff.spClear n).apply s).written = s.written := rfl
@[simp] theorem Eff.spClear_msgs (n : Nat) : ((Eff.spClear n).apply s).msgs = s.msgs := rfl
@[simp] theorem Eff.spClear_stns (n : Nat) : ((Eff.spClear n).apply s).stns = s.stns := rfl
@[simp] theorem Eff.spClear_groups (n : Nat) : ((Eff.spClear n).apply s).groups = s.groups := rfl
@[simp] theorem Eff.spClear_ctl (n : Nat) : ((Eff.spClear n).apply s).ctl = s.ctl := rfl
@[simp] theorem Eff.spClear_links (n : Nat) : ((Eff.spClear n).apply s).links = s.links := rfl
@[simp] theorem Eff.spClear_slices (n : Nat) : ((Eff.spClear n).apply s).slices = s.slices := rfl
@[simp] theorem Eff.spClear_imap (n : Nat) : ((Eff.spClear n).apply s).imap = s.imap := rfl
@[simp] theorem Eff.spClear_splitA (n : Nat) : ((Eff.spClear n).apply s).splitA = s.splitA := rfl
@[simp] theorem Eff.spClear_splitB (n : Nat) : ((Eff.spClear n).apply s).splitB = s.splitB := rfl
@[simp] theorem Eff.spClear_nextGroup (n : Nat) : ((Eff.spClear n).apply s).nextGroup = s.nextGroup := rfl
@[simp] theorem Eff.spClear_mods (n : Nat) : ((Eff.spClear n).apply s).mods = s.mods := rfl
@[simp] theorem Eff.spClear_health (n : Nat) : ((Eff.spClear n).apply s).health = s.health := rfl
@[simp] theorem Eff.spClear_snap (n : Nat) : ((Eff.spClear n).apply s).snap = s.snap := rfl
@[simp] theorem Eff.spClear_dbg (n : Nat) : ((Eff.spClear n).apply s).dbg = s.dbg := rfl
@[simp] theorem Eff.spClear_resets (n : Nat) : ((Eff.spClear n).apply s).resets = s.resets := rfl
@[simp] theorem Eff.spClear_staged (n : Nat) : ((Eff.spClear n).apply s).staged = s.staged := rfl
@[simp] theorem Eff.spClear_sets (n : Nat) : ((Eff.spClear n).apply s).sets = s.sets := rfl
@[simp] theorem Eff.spClear_hostResp (n : Nat) : ((Eff.spClear n).apply s).hostResp = s.hostResp := rfl
@[simp] theorem Eff.spClear_freeCtr (n : Nat) : ((Eff.spClear n).apply s).freeCtr = s.freeCtr := rfl
@[simp] theorem Eff.spClear_pending (n : Nat) : ((Eff.spClear n).apply s).pending = s.pending := rfl

@[simp] theorem Eff.spZero_regs (n a k : Nat) : ((Eff.spZero n a k).apply s).regs = s.regs := rfl
@[simp] theorem Eff.spZero_tb (n a k : Nat) : ((Eff.spZero n a k).apply s).tb = s.tb := rfl
@[simp] theorem Eff.spZero_pw (n a k : Nat) : ((Eff.spZero n a k).apply s).pw = s.pw := rfl
@[simp] theorem Eff.spZero_recs (n a k : Nat) : ((Eff.spZero n a k).apply s).recs = s.recs := rfl
@[simp] theorem Eff.spZero_fw (n a k : Nat) : ((Eff.spZero n a k).apply s).fw = s.fw := rfl
@[simp] theorem Eff.spZero_pairs (n a k : Nat) : ((Eff.spZero n a k).apply s).pairs = s.pairs := rfl
@[simp] theorem Eff.spZero_ctxs (n a k : Nat) : ((Eff.spZero n a k).apply s).ctxs = s.ctxs := rfl
@[simp] theorem Eff.spZero_models (n a k : Nat) : ((Eff.spZero n a k).apply s).models = s.models := rfl
@[simp] theorem Eff.spZero_entries (n a k : Nat) : ((Eff.spZero n a k).apply s).entries = s.entries := rfl
@[simp] theorem Eff.spZero_sems (n a k : Nat) : ((Eff.spZero n a k).apply s).sems = s.sems := rfl
@[simp] theorem Eff.spZero_bars (n a k : Nat) : ((Eff.spZero n a k).apply s).bars = s.bars := rfl
@[simp] theorem Eff.spZero_hubRegs (n a k : Nat) : ((Eff.spZero n a k).apply s).hubRegs = s.hubRegs := rfl
@[simp] theorem Eff.spZero_stu (n a k : Nat) : ((Eff.spZero n a k).apply s).stu = s.stu := rfl
@[simp] theorem Eff.spZero_cores (n a k : Nat) : ((Eff.spZero n a k).apply s).cores = s.cores := rfl
@[simp] theorem Eff.spZero_gmem (n a k : Nat) : ((Eff.spZero n a k).apply s).gmem = s.gmem := rfl
@[simp] theorem Eff.spZero_written (n a k : Nat) : ((Eff.spZero n a k).apply s).written = s.written := rfl
@[simp] theorem Eff.spZero_msgs (n a k : Nat) : ((Eff.spZero n a k).apply s).msgs = s.msgs := rfl
@[simp] theorem Eff.spZero_stns (n a k : Nat) : ((Eff.spZero n a k).apply s).stns = s.stns := rfl
@[simp] theorem Eff.spZero_groups (n a k : Nat) : ((Eff.spZero n a k).apply s).groups = s.groups := rfl
@[simp] theorem Eff.spZero_ctl (n a k : Nat) : ((Eff.spZero n a k).apply s).ctl = s.ctl := rfl
@[simp] theorem Eff.spZero_links (n a k : Nat) : ((Eff.spZero n a k).apply s).links = s.links := rfl
@[simp] theorem Eff.spZero_slices (n a k : Nat) : ((Eff.spZero n a k).apply s).slices = s.slices := rfl
@[simp] theorem Eff.spZero_imap (n a k : Nat) : ((Eff.spZero n a k).apply s).imap = s.imap := rfl
@[simp] theorem Eff.spZero_splitA (n a k : Nat) : ((Eff.spZero n a k).apply s).splitA = s.splitA := rfl
@[simp] theorem Eff.spZero_splitB (n a k : Nat) : ((Eff.spZero n a k).apply s).splitB = s.splitB := rfl
@[simp] theorem Eff.spZero_nextGroup (n a k : Nat) : ((Eff.spZero n a k).apply s).nextGroup = s.nextGroup := rfl
@[simp] theorem Eff.spZero_mods (n a k : Nat) : ((Eff.spZero n a k).apply s).mods = s.mods := rfl
@[simp] theorem Eff.spZero_health (n a k : Nat) : ((Eff.spZero n a k).apply s).health = s.health := rfl
@[simp] theorem Eff.spZero_snap (n a k : Nat) : ((Eff.spZero n a k).apply s).snap = s.snap := rfl
@[simp] theorem Eff.spZero_dbg (n a k : Nat) : ((Eff.spZero n a k).apply s).dbg = s.dbg := rfl
@[simp] theorem Eff.spZero_resets (n a k : Nat) : ((Eff.spZero n a k).apply s).resets = s.resets := rfl
@[simp] theorem Eff.spZero_staged (n a k : Nat) : ((Eff.spZero n a k).apply s).staged = s.staged := rfl
@[simp] theorem Eff.spZero_sets (n a k : Nat) : ((Eff.spZero n a k).apply s).sets = s.sets := rfl
@[simp] theorem Eff.spZero_hostResp (n a k : Nat) : ((Eff.spZero n a k).apply s).hostResp = s.hostResp := rfl
@[simp] theorem Eff.spZero_freeCtr (n a k : Nat) : ((Eff.spZero n a k).apply s).freeCtr = s.freeCtr := rfl
@[simp] theorem Eff.spZero_pending (n a k : Nat) : ((Eff.spZero n a k).apply s).pending = s.pending := rfl

@[simp] theorem Eff.gmData_regs (a : Nat) (v : List Byte) : ((Eff.gmData a v).apply s).regs = s.regs := rfl
@[simp] theorem Eff.gmData_tb (a : Nat) (v : List Byte) : ((Eff.gmData a v).apply s).tb = s.tb := rfl
@[simp] theorem Eff.gmData_pw (a : Nat) (v : List Byte) : ((Eff.gmData a v).apply s).pw = s.pw := rfl
@[simp] theorem Eff.gmData_recs (a : Nat) (v : List Byte) : ((Eff.gmData a v).apply s).recs = s.recs := rfl
@[simp] theorem Eff.gmData_fw (a : Nat) (v : List Byte) : ((Eff.gmData a v).apply s).fw = s.fw := rfl
@[simp] theorem Eff.gmData_pairs (a : Nat) (v : List Byte) : ((Eff.gmData a v).apply s).pairs = s.pairs := rfl
@[simp] theorem Eff.gmData_ctxs (a : Nat) (v : List Byte) : ((Eff.gmData a v).apply s).ctxs = s.ctxs := rfl
@[simp] theorem Eff.gmData_models (a : Nat) (v : List Byte) : ((Eff.gmData a v).apply s).models = s.models := rfl
@[simp] theorem Eff.gmData_entries (a : Nat) (v : List Byte) : ((Eff.gmData a v).apply s).entries = s.entries := rfl
@[simp] theorem Eff.gmData_sems (a : Nat) (v : List Byte) : ((Eff.gmData a v).apply s).sems = s.sems := rfl
@[simp] theorem Eff.gmData_bars (a : Nat) (v : List Byte) : ((Eff.gmData a v).apply s).bars = s.bars := rfl
@[simp] theorem Eff.gmData_hubRegs (a : Nat) (v : List Byte) : ((Eff.gmData a v).apply s).hubRegs = s.hubRegs := rfl
@[simp] theorem Eff.gmData_stu (a : Nat) (v : List Byte) : ((Eff.gmData a v).apply s).stu = s.stu := rfl
@[simp] theorem Eff.gmData_cores (a : Nat) (v : List Byte) : ((Eff.gmData a v).apply s).cores = s.cores := rfl
@[simp] theorem Eff.gmData_spads (a : Nat) (v : List Byte) : ((Eff.gmData a v).apply s).spads = s.spads := rfl
@[simp] theorem Eff.gmData_msgs (a : Nat) (v : List Byte) : ((Eff.gmData a v).apply s).msgs = s.msgs := rfl
@[simp] theorem Eff.gmData_stns (a : Nat) (v : List Byte) : ((Eff.gmData a v).apply s).stns = s.stns := rfl
@[simp] theorem Eff.gmData_groups (a : Nat) (v : List Byte) : ((Eff.gmData a v).apply s).groups = s.groups := rfl
@[simp] theorem Eff.gmData_ctl (a : Nat) (v : List Byte) : ((Eff.gmData a v).apply s).ctl = s.ctl := rfl
@[simp] theorem Eff.gmData_links (a : Nat) (v : List Byte) : ((Eff.gmData a v).apply s).links = s.links := rfl
@[simp] theorem Eff.gmData_slices (a : Nat) (v : List Byte) : ((Eff.gmData a v).apply s).slices = s.slices := rfl
@[simp] theorem Eff.gmData_imap (a : Nat) (v : List Byte) : ((Eff.gmData a v).apply s).imap = s.imap := rfl
@[simp] theorem Eff.gmData_splitA (a : Nat) (v : List Byte) : ((Eff.gmData a v).apply s).splitA = s.splitA := rfl
@[simp] theorem Eff.gmData_splitB (a : Nat) (v : List Byte) : ((Eff.gmData a v).apply s).splitB = s.splitB := rfl
@[simp] theorem Eff.gmData_nextGroup (a : Nat) (v : List Byte) : ((Eff.gmData a v).apply s).nextGroup = s.nextGroup := rfl
@[simp] theorem Eff.gmData_mods (a : Nat) (v : List Byte) : ((Eff.gmData a v).apply s).mods = s.mods := rfl
@[simp] theorem Eff.gmData_health (a : Nat) (v : List Byte) : ((Eff.gmData a v).apply s).health = s.health := rfl
@[simp] theorem Eff.gmData_snap (a : Nat) (v : List Byte) : ((Eff.gmData a v).apply s).snap = s.snap := rfl
@[simp] theorem Eff.gmData_dbg (a : Nat) (v : List Byte) : ((Eff.gmData a v).apply s).dbg = s.dbg := rfl
@[simp] theorem Eff.gmData_resets (a : Nat) (v : List Byte) : ((Eff.gmData a v).apply s).resets = s.resets := rfl
@[simp] theorem Eff.gmData_staged (a : Nat) (v : List Byte) : ((Eff.gmData a v).apply s).staged = s.staged := rfl
@[simp] theorem Eff.gmData_sets (a : Nat) (v : List Byte) : ((Eff.gmData a v).apply s).sets = s.sets := rfl
@[simp] theorem Eff.gmData_hostResp (a : Nat) (v : List Byte) : ((Eff.gmData a v).apply s).hostResp = s.hostResp := rfl
@[simp] theorem Eff.gmData_freeCtr (a : Nat) (v : List Byte) : ((Eff.gmData a v).apply s).freeCtr = s.freeCtr := rfl
@[simp] theorem Eff.gmData_pending (a : Nat) (v : List Byte) : ((Eff.gmData a v).apply s).pending = s.pending := rfl

@[simp] theorem Eff.gmSyn_regs (g v : Nat) : ((Eff.gmSyn g v).apply s).regs = s.regs := rfl
@[simp] theorem Eff.gmSyn_tb (g v : Nat) : ((Eff.gmSyn g v).apply s).tb = s.tb := rfl
@[simp] theorem Eff.gmSyn_pw (g v : Nat) : ((Eff.gmSyn g v).apply s).pw = s.pw := rfl
@[simp] theorem Eff.gmSyn_recs (g v : Nat) : ((Eff.gmSyn g v).apply s).recs = s.recs := rfl
@[simp] theorem Eff.gmSyn_fw (g v : Nat) : ((Eff.gmSyn g v).apply s).fw = s.fw := rfl
@[simp] theorem Eff.gmSyn_pairs (g v : Nat) : ((Eff.gmSyn g v).apply s).pairs = s.pairs := rfl
@[simp] theorem Eff.gmSyn_ctxs (g v : Nat) : ((Eff.gmSyn g v).apply s).ctxs = s.ctxs := rfl
@[simp] theorem Eff.gmSyn_models (g v : Nat) : ((Eff.gmSyn g v).apply s).models = s.models := rfl
@[simp] theorem Eff.gmSyn_entries (g v : Nat) : ((Eff.gmSyn g v).apply s).entries = s.entries := rfl
@[simp] theorem Eff.gmSyn_sems (g v : Nat) : ((Eff.gmSyn g v).apply s).sems = s.sems := rfl
@[simp] theorem Eff.gmSyn_bars (g v : Nat) : ((Eff.gmSyn g v).apply s).bars = s.bars := rfl
@[simp] theorem Eff.gmSyn_hubRegs (g v : Nat) : ((Eff.gmSyn g v).apply s).hubRegs = s.hubRegs := rfl
@[simp] theorem Eff.gmSyn_stu (g v : Nat) : ((Eff.gmSyn g v).apply s).stu = s.stu := rfl
@[simp] theorem Eff.gmSyn_cores (g v : Nat) : ((Eff.gmSyn g v).apply s).cores = s.cores := rfl
@[simp] theorem Eff.gmSyn_spads (g v : Nat) : ((Eff.gmSyn g v).apply s).spads = s.spads := rfl
@[simp] theorem Eff.gmSyn_written (g v : Nat) : ((Eff.gmSyn g v).apply s).written = s.written := rfl
@[simp] theorem Eff.gmSyn_msgs (g v : Nat) : ((Eff.gmSyn g v).apply s).msgs = s.msgs := rfl
@[simp] theorem Eff.gmSyn_stns (g v : Nat) : ((Eff.gmSyn g v).apply s).stns = s.stns := rfl
@[simp] theorem Eff.gmSyn_groups (g v : Nat) : ((Eff.gmSyn g v).apply s).groups = s.groups := rfl
@[simp] theorem Eff.gmSyn_ctl (g v : Nat) : ((Eff.gmSyn g v).apply s).ctl = s.ctl := rfl
@[simp] theorem Eff.gmSyn_links (g v : Nat) : ((Eff.gmSyn g v).apply s).links = s.links := rfl
@[simp] theorem Eff.gmSyn_slices (g v : Nat) : ((Eff.gmSyn g v).apply s).slices = s.slices := rfl
@[simp] theorem Eff.gmSyn_imap (g v : Nat) : ((Eff.gmSyn g v).apply s).imap = s.imap := rfl
@[simp] theorem Eff.gmSyn_splitA (g v : Nat) : ((Eff.gmSyn g v).apply s).splitA = s.splitA := rfl
@[simp] theorem Eff.gmSyn_splitB (g v : Nat) : ((Eff.gmSyn g v).apply s).splitB = s.splitB := rfl
@[simp] theorem Eff.gmSyn_nextGroup (g v : Nat) : ((Eff.gmSyn g v).apply s).nextGroup = s.nextGroup := rfl
@[simp] theorem Eff.gmSyn_mods (g v : Nat) : ((Eff.gmSyn g v).apply s).mods = s.mods := rfl
@[simp] theorem Eff.gmSyn_health (g v : Nat) : ((Eff.gmSyn g v).apply s).health = s.health := rfl
@[simp] theorem Eff.gmSyn_snap (g v : Nat) : ((Eff.gmSyn g v).apply s).snap = s.snap := rfl
@[simp] theorem Eff.gmSyn_dbg (g v : Nat) : ((Eff.gmSyn g v).apply s).dbg = s.dbg := rfl
@[simp] theorem Eff.gmSyn_resets (g v : Nat) : ((Eff.gmSyn g v).apply s).resets = s.resets := rfl
@[simp] theorem Eff.gmSyn_staged (g v : Nat) : ((Eff.gmSyn g v).apply s).staged = s.staged := rfl
@[simp] theorem Eff.gmSyn_sets (g v : Nat) : ((Eff.gmSyn g v).apply s).sets = s.sets := rfl
@[simp] theorem Eff.gmSyn_hostResp (g v : Nat) : ((Eff.gmSyn g v).apply s).hostResp = s.hostResp := rfl
@[simp] theorem Eff.gmSyn_freeCtr (g v : Nat) : ((Eff.gmSyn g v).apply s).freeCtr = s.freeCtr := rfl
@[simp] theorem Eff.gmSyn_pending (g v : Nat) : ((Eff.gmSyn g v).apply s).pending = s.pending := rfl

@[simp] theorem Eff.msgs_regs (v : List Msg) : ((Eff.msgs v).apply s).regs = s.regs := rfl
@[simp] theorem Eff.msgs_tb (v : List Msg) : ((Eff.msgs v).apply s).tb = s.tb := rfl
@[simp] theorem Eff.msgs_pw (v : List Msg) : ((Eff.msgs v).apply s).pw = s.pw := rfl
@[simp] theorem Eff.msgs_recs (v : List Msg) : ((Eff.msgs v).apply s).recs = s.recs := rfl
@[simp] theorem Eff.msgs_fw (v : List Msg) : ((Eff.msgs v).apply s).fw = s.fw := rfl
@[simp] theorem Eff.msgs_pairs (v : List Msg) : ((Eff.msgs v).apply s).pairs = s.pairs := rfl
@[simp] theorem Eff.msgs_ctxs (v : List Msg) : ((Eff.msgs v).apply s).ctxs = s.ctxs := rfl
@[simp] theorem Eff.msgs_models (v : List Msg) : ((Eff.msgs v).apply s).models = s.models := rfl
@[simp] theorem Eff.msgs_entries (v : List Msg) : ((Eff.msgs v).apply s).entries = s.entries := rfl
@[simp] theorem Eff.msgs_sems (v : List Msg) : ((Eff.msgs v).apply s).sems = s.sems := rfl
@[simp] theorem Eff.msgs_bars (v : List Msg) : ((Eff.msgs v).apply s).bars = s.bars := rfl
@[simp] theorem Eff.msgs_hubRegs (v : List Msg) : ((Eff.msgs v).apply s).hubRegs = s.hubRegs := rfl
@[simp] theorem Eff.msgs_stu (v : List Msg) : ((Eff.msgs v).apply s).stu = s.stu := rfl
@[simp] theorem Eff.msgs_cores (v : List Msg) : ((Eff.msgs v).apply s).cores = s.cores := rfl
@[simp] theorem Eff.msgs_spads (v : List Msg) : ((Eff.msgs v).apply s).spads = s.spads := rfl
@[simp] theorem Eff.msgs_gmem (v : List Msg) : ((Eff.msgs v).apply s).gmem = s.gmem := rfl
@[simp] theorem Eff.msgs_written (v : List Msg) : ((Eff.msgs v).apply s).written = s.written := rfl
@[simp] theorem Eff.msgs_stns (v : List Msg) : ((Eff.msgs v).apply s).stns = s.stns := rfl
@[simp] theorem Eff.msgs_groups (v : List Msg) : ((Eff.msgs v).apply s).groups = s.groups := rfl
@[simp] theorem Eff.msgs_ctl (v : List Msg) : ((Eff.msgs v).apply s).ctl = s.ctl := rfl
@[simp] theorem Eff.msgs_links (v : List Msg) : ((Eff.msgs v).apply s).links = s.links := rfl
@[simp] theorem Eff.msgs_slices (v : List Msg) : ((Eff.msgs v).apply s).slices = s.slices := rfl
@[simp] theorem Eff.msgs_imap (v : List Msg) : ((Eff.msgs v).apply s).imap = s.imap := rfl
@[simp] theorem Eff.msgs_splitA (v : List Msg) : ((Eff.msgs v).apply s).splitA = s.splitA := rfl
@[simp] theorem Eff.msgs_splitB (v : List Msg) : ((Eff.msgs v).apply s).splitB = s.splitB := rfl
@[simp] theorem Eff.msgs_nextGroup (v : List Msg) : ((Eff.msgs v).apply s).nextGroup = s.nextGroup := rfl
@[simp] theorem Eff.msgs_mods (v : List Msg) : ((Eff.msgs v).apply s).mods = s.mods := rfl
@[simp] theorem Eff.msgs_health (v : List Msg) : ((Eff.msgs v).apply s).health = s.health := rfl
@[simp] theorem Eff.msgs_snap (v : List Msg) : ((Eff.msgs v).apply s).snap = s.snap := rfl
@[simp] theorem Eff.msgs_dbg (v : List Msg) : ((Eff.msgs v).apply s).dbg = s.dbg := rfl
@[simp] theorem Eff.msgs_resets (v : List Msg) : ((Eff.msgs v).apply s).resets = s.resets := rfl
@[simp] theorem Eff.msgs_staged (v : List Msg) : ((Eff.msgs v).apply s).staged = s.staged := rfl
@[simp] theorem Eff.msgs_sets (v : List Msg) : ((Eff.msgs v).apply s).sets = s.sets := rfl
@[simp] theorem Eff.msgs_hostResp (v : List Msg) : ((Eff.msgs v).apply s).hostResp = s.hostResp := rfl
@[simp] theorem Eff.msgs_freeCtr (v : List Msg) : ((Eff.msgs v).apply s).freeCtr = s.freeCtr := rfl
@[simp] theorem Eff.msgs_pending (v : List Msg) : ((Eff.msgs v).apply s).pending = s.pending := rfl
@[simp] theorem Eff.msgs_msgs (v : List Msg) : ((Eff.msgs v).apply s).msgs = v := rfl

@[simp] theorem Eff.stn_regs (n : Nat) (v : Station) : ((Eff.stn n v).apply s).regs = s.regs := rfl
@[simp] theorem Eff.stn_tb (n : Nat) (v : Station) : ((Eff.stn n v).apply s).tb = s.tb := rfl
@[simp] theorem Eff.stn_pw (n : Nat) (v : Station) : ((Eff.stn n v).apply s).pw = s.pw := rfl
@[simp] theorem Eff.stn_recs (n : Nat) (v : Station) : ((Eff.stn n v).apply s).recs = s.recs := rfl
@[simp] theorem Eff.stn_fw (n : Nat) (v : Station) : ((Eff.stn n v).apply s).fw = s.fw := rfl
@[simp] theorem Eff.stn_pairs (n : Nat) (v : Station) : ((Eff.stn n v).apply s).pairs = s.pairs := rfl
@[simp] theorem Eff.stn_ctxs (n : Nat) (v : Station) : ((Eff.stn n v).apply s).ctxs = s.ctxs := rfl
@[simp] theorem Eff.stn_models (n : Nat) (v : Station) : ((Eff.stn n v).apply s).models = s.models := rfl
@[simp] theorem Eff.stn_entries (n : Nat) (v : Station) : ((Eff.stn n v).apply s).entries = s.entries := rfl
@[simp] theorem Eff.stn_sems (n : Nat) (v : Station) : ((Eff.stn n v).apply s).sems = s.sems := rfl
@[simp] theorem Eff.stn_bars (n : Nat) (v : Station) : ((Eff.stn n v).apply s).bars = s.bars := rfl
@[simp] theorem Eff.stn_hubRegs (n : Nat) (v : Station) : ((Eff.stn n v).apply s).hubRegs = s.hubRegs := rfl
@[simp] theorem Eff.stn_stu (n : Nat) (v : Station) : ((Eff.stn n v).apply s).stu = s.stu := rfl
@[simp] theorem Eff.stn_cores (n : Nat) (v : Station) : ((Eff.stn n v).apply s).cores = s.cores := rfl
@[simp] theorem Eff.stn_spads (n : Nat) (v : Station) : ((Eff.stn n v).apply s).spads = s.spads := rfl
@[simp] theorem Eff.stn_gmem (n : Nat) (v : Station) : ((Eff.stn n v).apply s).gmem = s.gmem := rfl
@[simp] theorem Eff.stn_written (n : Nat) (v : Station) : ((Eff.stn n v).apply s).written = s.written := rfl
@[simp] theorem Eff.stn_msgs (n : Nat) (v : Station) : ((Eff.stn n v).apply s).msgs = s.msgs := rfl
@[simp] theorem Eff.stn_groups (n : Nat) (v : Station) : ((Eff.stn n v).apply s).groups = s.groups := rfl
@[simp] theorem Eff.stn_ctl (n : Nat) (v : Station) : ((Eff.stn n v).apply s).ctl = s.ctl := rfl
@[simp] theorem Eff.stn_links (n : Nat) (v : Station) : ((Eff.stn n v).apply s).links = s.links := rfl
@[simp] theorem Eff.stn_slices (n : Nat) (v : Station) : ((Eff.stn n v).apply s).slices = s.slices := rfl
@[simp] theorem Eff.stn_imap (n : Nat) (v : Station) : ((Eff.stn n v).apply s).imap = s.imap := rfl
@[simp] theorem Eff.stn_splitA (n : Nat) (v : Station) : ((Eff.stn n v).apply s).splitA = s.splitA := rfl
@[simp] theorem Eff.stn_splitB (n : Nat) (v : Station) : ((Eff.stn n v).apply s).splitB = s.splitB := rfl
@[simp] theorem Eff.stn_nextGroup (n : Nat) (v : Station) : ((Eff.stn n v).apply s).nextGroup = s.nextGroup := rfl
@[simp] theorem Eff.stn_mods (n : Nat) (v : Station) : ((Eff.stn n v).apply s).mods = s.mods := rfl
@[simp] theorem Eff.stn_health (n : Nat) (v : Station) : ((Eff.stn n v).apply s).health = s.health := rfl
@[simp] theorem Eff.stn_snap (n : Nat) (v : Station) : ((Eff.stn n v).apply s).snap = s.snap := rfl
@[simp] theorem Eff.stn_dbg (n : Nat) (v : Station) : ((Eff.stn n v).apply s).dbg = s.dbg := rfl
@[simp] theorem Eff.stn_resets (n : Nat) (v : Station) : ((Eff.stn n v).apply s).resets = s.resets := rfl
@[simp] theorem Eff.stn_staged (n : Nat) (v : Station) : ((Eff.stn n v).apply s).staged = s.staged := rfl
@[simp] theorem Eff.stn_sets (n : Nat) (v : Station) : ((Eff.stn n v).apply s).sets = s.sets := rfl
@[simp] theorem Eff.stn_hostResp (n : Nat) (v : Station) : ((Eff.stn n v).apply s).hostResp = s.hostResp := rfl
@[simp] theorem Eff.stn_freeCtr (n : Nat) (v : Station) : ((Eff.stn n v).apply s).freeCtr = s.freeCtr := rfl
@[simp] theorem Eff.stn_pending (n : Nat) (v : Station) : ((Eff.stn n v).apply s).pending = s.pending := rfl

@[simp] theorem Eff.groups_regs (v : List NcuGroup) (k : Nat) : ((Eff.groups v k).apply s).regs = s.regs := rfl
@[simp] theorem Eff.groups_tb (v : List NcuGroup) (k : Nat) : ((Eff.groups v k).apply s).tb = s.tb := rfl
@[simp] theorem Eff.groups_pw (v : List NcuGroup) (k : Nat) : ((Eff.groups v k).apply s).pw = s.pw := rfl
@[simp] theorem Eff.groups_recs (v : List NcuGroup) (k : Nat) : ((Eff.groups v k).apply s).recs = s.recs := rfl
@[simp] theorem Eff.groups_fw (v : List NcuGroup) (k : Nat) : ((Eff.groups v k).apply s).fw = s.fw := rfl
@[simp] theorem Eff.groups_pairs (v : List NcuGroup) (k : Nat) : ((Eff.groups v k).apply s).pairs = s.pairs := rfl
@[simp] theorem Eff.groups_ctxs (v : List NcuGroup) (k : Nat) : ((Eff.groups v k).apply s).ctxs = s.ctxs := rfl
@[simp] theorem Eff.groups_models (v : List NcuGroup) (k : Nat) : ((Eff.groups v k).apply s).models = s.models := rfl
@[simp] theorem Eff.groups_entries (v : List NcuGroup) (k : Nat) : ((Eff.groups v k).apply s).entries = s.entries := rfl
@[simp] theorem Eff.groups_sems (v : List NcuGroup) (k : Nat) : ((Eff.groups v k).apply s).sems = s.sems := rfl
@[simp] theorem Eff.groups_bars (v : List NcuGroup) (k : Nat) : ((Eff.groups v k).apply s).bars = s.bars := rfl
@[simp] theorem Eff.groups_hubRegs (v : List NcuGroup) (k : Nat) : ((Eff.groups v k).apply s).hubRegs = s.hubRegs := rfl
@[simp] theorem Eff.groups_stu (v : List NcuGroup) (k : Nat) : ((Eff.groups v k).apply s).stu = s.stu := rfl
@[simp] theorem Eff.groups_cores (v : List NcuGroup) (k : Nat) : ((Eff.groups v k).apply s).cores = s.cores := rfl
@[simp] theorem Eff.groups_spads (v : List NcuGroup) (k : Nat) : ((Eff.groups v k).apply s).spads = s.spads := rfl
@[simp] theorem Eff.groups_gmem (v : List NcuGroup) (k : Nat) : ((Eff.groups v k).apply s).gmem = s.gmem := rfl
@[simp] theorem Eff.groups_written (v : List NcuGroup) (k : Nat) : ((Eff.groups v k).apply s).written = s.written := rfl
@[simp] theorem Eff.groups_msgs (v : List NcuGroup) (k : Nat) : ((Eff.groups v k).apply s).msgs = s.msgs := rfl
@[simp] theorem Eff.groups_stns (v : List NcuGroup) (k : Nat) : ((Eff.groups v k).apply s).stns = s.stns := rfl
@[simp] theorem Eff.groups_ctl (v : List NcuGroup) (k : Nat) : ((Eff.groups v k).apply s).ctl = s.ctl := rfl
@[simp] theorem Eff.groups_links (v : List NcuGroup) (k : Nat) : ((Eff.groups v k).apply s).links = s.links := rfl
@[simp] theorem Eff.groups_slices (v : List NcuGroup) (k : Nat) : ((Eff.groups v k).apply s).slices = s.slices := rfl
@[simp] theorem Eff.groups_imap (v : List NcuGroup) (k : Nat) : ((Eff.groups v k).apply s).imap = s.imap := rfl
@[simp] theorem Eff.groups_splitA (v : List NcuGroup) (k : Nat) : ((Eff.groups v k).apply s).splitA = s.splitA := rfl
@[simp] theorem Eff.groups_splitB (v : List NcuGroup) (k : Nat) : ((Eff.groups v k).apply s).splitB = s.splitB := rfl
@[simp] theorem Eff.groups_mods (v : List NcuGroup) (k : Nat) : ((Eff.groups v k).apply s).mods = s.mods := rfl
@[simp] theorem Eff.groups_health (v : List NcuGroup) (k : Nat) : ((Eff.groups v k).apply s).health = s.health := rfl
@[simp] theorem Eff.groups_snap (v : List NcuGroup) (k : Nat) : ((Eff.groups v k).apply s).snap = s.snap := rfl
@[simp] theorem Eff.groups_dbg (v : List NcuGroup) (k : Nat) : ((Eff.groups v k).apply s).dbg = s.dbg := rfl
@[simp] theorem Eff.groups_resets (v : List NcuGroup) (k : Nat) : ((Eff.groups v k).apply s).resets = s.resets := rfl
@[simp] theorem Eff.groups_staged (v : List NcuGroup) (k : Nat) : ((Eff.groups v k).apply s).staged = s.staged := rfl
@[simp] theorem Eff.groups_sets (v : List NcuGroup) (k : Nat) : ((Eff.groups v k).apply s).sets = s.sets := rfl
@[simp] theorem Eff.groups_hostResp (v : List NcuGroup) (k : Nat) : ((Eff.groups v k).apply s).hostResp = s.hostResp := rfl
@[simp] theorem Eff.groups_freeCtr (v : List NcuGroup) (k : Nat) : ((Eff.groups v k).apply s).freeCtr = s.freeCtr := rfl
@[simp] theorem Eff.groups_pending (v : List NcuGroup) (k : Nat) : ((Eff.groups v k).apply s).pending = s.pending := rfl
@[simp] theorem Eff.groups_groups (v : List NcuGroup) (k : Nat) : ((Eff.groups v k).apply s).groups = v := rfl

@[simp] theorem Eff.mod_regs (n : Nat) (v : Module) : ((Eff.mod n v).apply s).regs = s.regs := rfl
@[simp] theorem Eff.mod_tb (n : Nat) (v : Module) : ((Eff.mod n v).apply s).tb = s.tb := rfl
@[simp] theorem Eff.mod_pw (n : Nat) (v : Module) : ((Eff.mod n v).apply s).pw = s.pw := rfl
@[simp] theorem Eff.mod_recs (n : Nat) (v : Module) : ((Eff.mod n v).apply s).recs = s.recs := rfl
@[simp] theorem Eff.mod_fw (n : Nat) (v : Module) : ((Eff.mod n v).apply s).fw = s.fw := rfl
@[simp] theorem Eff.mod_pairs (n : Nat) (v : Module) : ((Eff.mod n v).apply s).pairs = s.pairs := rfl
@[simp] theorem Eff.mod_ctxs (n : Nat) (v : Module) : ((Eff.mod n v).apply s).ctxs = s.ctxs := rfl
@[simp] theorem Eff.mod_models (n : Nat) (v : Module) : ((Eff.mod n v).apply s).models = s.models := rfl
@[simp] theorem Eff.mod_entries (n : Nat) (v : Module) : ((Eff.mod n v).apply s).entries = s.entries := rfl
@[simp] theorem Eff.mod_sems (n : Nat) (v : Module) : ((Eff.mod n v).apply s).sems = s.sems := rfl
@[simp] theorem Eff.mod_bars (n : Nat) (v : Module) : ((Eff.mod n v).apply s).bars = s.bars := rfl
@[simp] theorem Eff.mod_hubRegs (n : Nat) (v : Module) : ((Eff.mod n v).apply s).hubRegs = s.hubRegs := rfl
@[simp] theorem Eff.mod_stu (n : Nat) (v : Module) : ((Eff.mod n v).apply s).stu = s.stu := rfl
@[simp] theorem Eff.mod_cores (n : Nat) (v : Module) : ((Eff.mod n v).apply s).cores = s.cores := rfl
@[simp] theorem Eff.mod_spads (n : Nat) (v : Module) : ((Eff.mod n v).apply s).spads = s.spads := rfl
@[simp] theorem Eff.mod_gmem (n : Nat) (v : Module) : ((Eff.mod n v).apply s).gmem = s.gmem := rfl
@[simp] theorem Eff.mod_written (n : Nat) (v : Module) : ((Eff.mod n v).apply s).written = s.written := rfl
@[simp] theorem Eff.mod_msgs (n : Nat) (v : Module) : ((Eff.mod n v).apply s).msgs = s.msgs := rfl
@[simp] theorem Eff.mod_stns (n : Nat) (v : Module) : ((Eff.mod n v).apply s).stns = s.stns := rfl
@[simp] theorem Eff.mod_groups (n : Nat) (v : Module) : ((Eff.mod n v).apply s).groups = s.groups := rfl
@[simp] theorem Eff.mod_ctl (n : Nat) (v : Module) : ((Eff.mod n v).apply s).ctl = s.ctl := rfl
@[simp] theorem Eff.mod_links (n : Nat) (v : Module) : ((Eff.mod n v).apply s).links = s.links := rfl
@[simp] theorem Eff.mod_slices (n : Nat) (v : Module) : ((Eff.mod n v).apply s).slices = s.slices := rfl
@[simp] theorem Eff.mod_imap (n : Nat) (v : Module) : ((Eff.mod n v).apply s).imap = s.imap := rfl
@[simp] theorem Eff.mod_splitA (n : Nat) (v : Module) : ((Eff.mod n v).apply s).splitA = s.splitA := rfl
@[simp] theorem Eff.mod_splitB (n : Nat) (v : Module) : ((Eff.mod n v).apply s).splitB = s.splitB := rfl
@[simp] theorem Eff.mod_nextGroup (n : Nat) (v : Module) : ((Eff.mod n v).apply s).nextGroup = s.nextGroup := rfl
@[simp] theorem Eff.mod_health (n : Nat) (v : Module) : ((Eff.mod n v).apply s).health = s.health := rfl
@[simp] theorem Eff.mod_snap (n : Nat) (v : Module) : ((Eff.mod n v).apply s).snap = s.snap := rfl
@[simp] theorem Eff.mod_dbg (n : Nat) (v : Module) : ((Eff.mod n v).apply s).dbg = s.dbg := rfl
@[simp] theorem Eff.mod_resets (n : Nat) (v : Module) : ((Eff.mod n v).apply s).resets = s.resets := rfl
@[simp] theorem Eff.mod_staged (n : Nat) (v : Module) : ((Eff.mod n v).apply s).staged = s.staged := rfl
@[simp] theorem Eff.mod_sets (n : Nat) (v : Module) : ((Eff.mod n v).apply s).sets = s.sets := rfl
@[simp] theorem Eff.mod_hostResp (n : Nat) (v : Module) : ((Eff.mod n v).apply s).hostResp = s.hostResp := rfl
@[simp] theorem Eff.mod_freeCtr (n : Nat) (v : Module) : ((Eff.mod n v).apply s).freeCtr = s.freeCtr := rfl
@[simp] theorem Eff.mod_pending (n : Nat) (v : Module) : ((Eff.mod n v).apply s).pending = s.pending := rfl

@[simp] theorem Eff.ctl_regs (n : Nat) (v : List LCtl) : ((Eff.ctl n v).apply s).regs = s.regs := rfl
@[simp] theorem Eff.ctl_tb (n : Nat) (v : List LCtl) : ((Eff.ctl n v).apply s).tb = s.tb := rfl
@[simp] theorem Eff.ctl_pw (n : Nat) (v : List LCtl) : ((Eff.ctl n v).apply s).pw = s.pw := rfl
@[simp] theorem Eff.ctl_recs (n : Nat) (v : List LCtl) : ((Eff.ctl n v).apply s).recs = s.recs := rfl
@[simp] theorem Eff.ctl_fw (n : Nat) (v : List LCtl) : ((Eff.ctl n v).apply s).fw = s.fw := rfl
@[simp] theorem Eff.ctl_pairs (n : Nat) (v : List LCtl) : ((Eff.ctl n v).apply s).pairs = s.pairs := rfl
@[simp] theorem Eff.ctl_ctxs (n : Nat) (v : List LCtl) : ((Eff.ctl n v).apply s).ctxs = s.ctxs := rfl
@[simp] theorem Eff.ctl_models (n : Nat) (v : List LCtl) : ((Eff.ctl n v).apply s).models = s.models := rfl
@[simp] theorem Eff.ctl_entries (n : Nat) (v : List LCtl) : ((Eff.ctl n v).apply s).entries = s.entries := rfl
@[simp] theorem Eff.ctl_sems (n : Nat) (v : List LCtl) : ((Eff.ctl n v).apply s).sems = s.sems := rfl
@[simp] theorem Eff.ctl_bars (n : Nat) (v : List LCtl) : ((Eff.ctl n v).apply s).bars = s.bars := rfl
@[simp] theorem Eff.ctl_hubRegs (n : Nat) (v : List LCtl) : ((Eff.ctl n v).apply s).hubRegs = s.hubRegs := rfl
@[simp] theorem Eff.ctl_stu (n : Nat) (v : List LCtl) : ((Eff.ctl n v).apply s).stu = s.stu := rfl
@[simp] theorem Eff.ctl_cores (n : Nat) (v : List LCtl) : ((Eff.ctl n v).apply s).cores = s.cores := rfl
@[simp] theorem Eff.ctl_spads (n : Nat) (v : List LCtl) : ((Eff.ctl n v).apply s).spads = s.spads := rfl
@[simp] theorem Eff.ctl_gmem (n : Nat) (v : List LCtl) : ((Eff.ctl n v).apply s).gmem = s.gmem := rfl
@[simp] theorem Eff.ctl_written (n : Nat) (v : List LCtl) : ((Eff.ctl n v).apply s).written = s.written := rfl
@[simp] theorem Eff.ctl_msgs (n : Nat) (v : List LCtl) : ((Eff.ctl n v).apply s).msgs = s.msgs := rfl
@[simp] theorem Eff.ctl_stns (n : Nat) (v : List LCtl) : ((Eff.ctl n v).apply s).stns = s.stns := rfl
@[simp] theorem Eff.ctl_groups (n : Nat) (v : List LCtl) : ((Eff.ctl n v).apply s).groups = s.groups := rfl
@[simp] theorem Eff.ctl_links (n : Nat) (v : List LCtl) : ((Eff.ctl n v).apply s).links = s.links := rfl
@[simp] theorem Eff.ctl_slices (n : Nat) (v : List LCtl) : ((Eff.ctl n v).apply s).slices = s.slices := rfl
@[simp] theorem Eff.ctl_imap (n : Nat) (v : List LCtl) : ((Eff.ctl n v).apply s).imap = s.imap := rfl
@[simp] theorem Eff.ctl_splitA (n : Nat) (v : List LCtl) : ((Eff.ctl n v).apply s).splitA = s.splitA := rfl
@[simp] theorem Eff.ctl_splitB (n : Nat) (v : List LCtl) : ((Eff.ctl n v).apply s).splitB = s.splitB := rfl
@[simp] theorem Eff.ctl_nextGroup (n : Nat) (v : List LCtl) : ((Eff.ctl n v).apply s).nextGroup = s.nextGroup := rfl
@[simp] theorem Eff.ctl_mods (n : Nat) (v : List LCtl) : ((Eff.ctl n v).apply s).mods = s.mods := rfl
@[simp] theorem Eff.ctl_health (n : Nat) (v : List LCtl) : ((Eff.ctl n v).apply s).health = s.health := rfl
@[simp] theorem Eff.ctl_snap (n : Nat) (v : List LCtl) : ((Eff.ctl n v).apply s).snap = s.snap := rfl
@[simp] theorem Eff.ctl_dbg (n : Nat) (v : List LCtl) : ((Eff.ctl n v).apply s).dbg = s.dbg := rfl
@[simp] theorem Eff.ctl_resets (n : Nat) (v : List LCtl) : ((Eff.ctl n v).apply s).resets = s.resets := rfl
@[simp] theorem Eff.ctl_staged (n : Nat) (v : List LCtl) : ((Eff.ctl n v).apply s).staged = s.staged := rfl
@[simp] theorem Eff.ctl_sets (n : Nat) (v : List LCtl) : ((Eff.ctl n v).apply s).sets = s.sets := rfl
@[simp] theorem Eff.ctl_hostResp (n : Nat) (v : List LCtl) : ((Eff.ctl n v).apply s).hostResp = s.hostResp := rfl
@[simp] theorem Eff.ctl_freeCtr (n : Nat) (v : List LCtl) : ((Eff.ctl n v).apply s).freeCtr = s.freeCtr := rfl
@[simp] theorem Eff.ctl_pending (n : Nat) (v : List LCtl) : ((Eff.ctl n v).apply s).pending = s.pending := rfl

@[simp] theorem Eff.link_regs (n : Nat) (v : Link) : ((Eff.link n v).apply s).regs = s.regs := rfl
@[simp] theorem Eff.link_tb (n : Nat) (v : Link) : ((Eff.link n v).apply s).tb = s.tb := rfl
@[simp] theorem Eff.link_pw (n : Nat) (v : Link) : ((Eff.link n v).apply s).pw = s.pw := rfl
@[simp] theorem Eff.link_recs (n : Nat) (v : Link) : ((Eff.link n v).apply s).recs = s.recs := rfl
@[simp] theorem Eff.link_fw (n : Nat) (v : Link) : ((Eff.link n v).apply s).fw = s.fw := rfl
@[simp] theorem Eff.link_pairs (n : Nat) (v : Link) : ((Eff.link n v).apply s).pairs = s.pairs := rfl
@[simp] theorem Eff.link_ctxs (n : Nat) (v : Link) : ((Eff.link n v).apply s).ctxs = s.ctxs := rfl
@[simp] theorem Eff.link_models (n : Nat) (v : Link) : ((Eff.link n v).apply s).models = s.models := rfl
@[simp] theorem Eff.link_entries (n : Nat) (v : Link) : ((Eff.link n v).apply s).entries = s.entries := rfl
@[simp] theorem Eff.link_sems (n : Nat) (v : Link) : ((Eff.link n v).apply s).sems = s.sems := rfl
@[simp] theorem Eff.link_bars (n : Nat) (v : Link) : ((Eff.link n v).apply s).bars = s.bars := rfl
@[simp] theorem Eff.link_hubRegs (n : Nat) (v : Link) : ((Eff.link n v).apply s).hubRegs = s.hubRegs := rfl
@[simp] theorem Eff.link_stu (n : Nat) (v : Link) : ((Eff.link n v).apply s).stu = s.stu := rfl
@[simp] theorem Eff.link_cores (n : Nat) (v : Link) : ((Eff.link n v).apply s).cores = s.cores := rfl
@[simp] theorem Eff.link_spads (n : Nat) (v : Link) : ((Eff.link n v).apply s).spads = s.spads := rfl
@[simp] theorem Eff.link_gmem (n : Nat) (v : Link) : ((Eff.link n v).apply s).gmem = s.gmem := rfl
@[simp] theorem Eff.link_written (n : Nat) (v : Link) : ((Eff.link n v).apply s).written = s.written := rfl
@[simp] theorem Eff.link_msgs (n : Nat) (v : Link) : ((Eff.link n v).apply s).msgs = s.msgs := rfl
@[simp] theorem Eff.link_stns (n : Nat) (v : Link) : ((Eff.link n v).apply s).stns = s.stns := rfl
@[simp] theorem Eff.link_groups (n : Nat) (v : Link) : ((Eff.link n v).apply s).groups = s.groups := rfl
@[simp] theorem Eff.link_ctl (n : Nat) (v : Link) : ((Eff.link n v).apply s).ctl = s.ctl := rfl
@[simp] theorem Eff.link_slices (n : Nat) (v : Link) : ((Eff.link n v).apply s).slices = s.slices := rfl
@[simp] theorem Eff.link_imap (n : Nat) (v : Link) : ((Eff.link n v).apply s).imap = s.imap := rfl
@[simp] theorem Eff.link_splitA (n : Nat) (v : Link) : ((Eff.link n v).apply s).splitA = s.splitA := rfl
@[simp] theorem Eff.link_splitB (n : Nat) (v : Link) : ((Eff.link n v).apply s).splitB = s.splitB := rfl
@[simp] theorem Eff.link_nextGroup (n : Nat) (v : Link) : ((Eff.link n v).apply s).nextGroup = s.nextGroup := rfl
@[simp] theorem Eff.link_mods (n : Nat) (v : Link) : ((Eff.link n v).apply s).mods = s.mods := rfl
@[simp] theorem Eff.link_health (n : Nat) (v : Link) : ((Eff.link n v).apply s).health = s.health := rfl
@[simp] theorem Eff.link_snap (n : Nat) (v : Link) : ((Eff.link n v).apply s).snap = s.snap := rfl
@[simp] theorem Eff.link_dbg (n : Nat) (v : Link) : ((Eff.link n v).apply s).dbg = s.dbg := rfl
@[simp] theorem Eff.link_resets (n : Nat) (v : Link) : ((Eff.link n v).apply s).resets = s.resets := rfl
@[simp] theorem Eff.link_staged (n : Nat) (v : Link) : ((Eff.link n v).apply s).staged = s.staged := rfl
@[simp] theorem Eff.link_sets (n : Nat) (v : Link) : ((Eff.link n v).apply s).sets = s.sets := rfl
@[simp] theorem Eff.link_hostResp (n : Nat) (v : Link) : ((Eff.link n v).apply s).hostResp = s.hostResp := rfl
@[simp] theorem Eff.link_freeCtr (n : Nat) (v : Link) : ((Eff.link n v).apply s).freeCtr = s.freeCtr := rfl
@[simp] theorem Eff.link_pending (n : Nat) (v : Link) : ((Eff.link n v).apply s).pending = s.pending := rfl

@[simp] theorem Eff.slices_regs (v : List Slice) : ((Eff.slices v).apply s).regs = s.regs := rfl
@[simp] theorem Eff.slices_tb (v : List Slice) : ((Eff.slices v).apply s).tb = s.tb := rfl
@[simp] theorem Eff.slices_pw (v : List Slice) : ((Eff.slices v).apply s).pw = s.pw := rfl
@[simp] theorem Eff.slices_recs (v : List Slice) : ((Eff.slices v).apply s).recs = s.recs := rfl
@[simp] theorem Eff.slices_fw (v : List Slice) : ((Eff.slices v).apply s).fw = s.fw := rfl
@[simp] theorem Eff.slices_pairs (v : List Slice) : ((Eff.slices v).apply s).pairs = s.pairs := rfl
@[simp] theorem Eff.slices_ctxs (v : List Slice) : ((Eff.slices v).apply s).ctxs = s.ctxs := rfl
@[simp] theorem Eff.slices_models (v : List Slice) : ((Eff.slices v).apply s).models = s.models := rfl
@[simp] theorem Eff.slices_entries (v : List Slice) : ((Eff.slices v).apply s).entries = s.entries := rfl
@[simp] theorem Eff.slices_sems (v : List Slice) : ((Eff.slices v).apply s).sems = s.sems := rfl
@[simp] theorem Eff.slices_bars (v : List Slice) : ((Eff.slices v).apply s).bars = s.bars := rfl
@[simp] theorem Eff.slices_hubRegs (v : List Slice) : ((Eff.slices v).apply s).hubRegs = s.hubRegs := rfl
@[simp] theorem Eff.slices_stu (v : List Slice) : ((Eff.slices v).apply s).stu = s.stu := rfl
@[simp] theorem Eff.slices_cores (v : List Slice) : ((Eff.slices v).apply s).cores = s.cores := rfl
@[simp] theorem Eff.slices_spads (v : List Slice) : ((Eff.slices v).apply s).spads = s.spads := rfl
@[simp] theorem Eff.slices_gmem (v : List Slice) : ((Eff.slices v).apply s).gmem = s.gmem := rfl
@[simp] theorem Eff.slices_written (v : List Slice) : ((Eff.slices v).apply s).written = s.written := rfl
@[simp] theorem Eff.slices_msgs (v : List Slice) : ((Eff.slices v).apply s).msgs = s.msgs := rfl
@[simp] theorem Eff.slices_stns (v : List Slice) : ((Eff.slices v).apply s).stns = s.stns := rfl
@[simp] theorem Eff.slices_groups (v : List Slice) : ((Eff.slices v).apply s).groups = s.groups := rfl
@[simp] theorem Eff.slices_ctl (v : List Slice) : ((Eff.slices v).apply s).ctl = s.ctl := rfl
@[simp] theorem Eff.slices_links (v : List Slice) : ((Eff.slices v).apply s).links = s.links := rfl
@[simp] theorem Eff.slices_imap (v : List Slice) : ((Eff.slices v).apply s).imap = s.imap := rfl
@[simp] theorem Eff.slices_splitA (v : List Slice) : ((Eff.slices v).apply s).splitA = s.splitA := rfl
@[simp] theorem Eff.slices_splitB (v : List Slice) : ((Eff.slices v).apply s).splitB = s.splitB := rfl
@[simp] theorem Eff.slices_nextGroup (v : List Slice) : ((Eff.slices v).apply s).nextGroup = s.nextGroup := rfl
@[simp] theorem Eff.slices_mods (v : List Slice) : ((Eff.slices v).apply s).mods = s.mods := rfl
@[simp] theorem Eff.slices_health (v : List Slice) : ((Eff.slices v).apply s).health = s.health := rfl
@[simp] theorem Eff.slices_snap (v : List Slice) : ((Eff.slices v).apply s).snap = s.snap := rfl
@[simp] theorem Eff.slices_dbg (v : List Slice) : ((Eff.slices v).apply s).dbg = s.dbg := rfl
@[simp] theorem Eff.slices_resets (v : List Slice) : ((Eff.slices v).apply s).resets = s.resets := rfl
@[simp] theorem Eff.slices_staged (v : List Slice) : ((Eff.slices v).apply s).staged = s.staged := rfl
@[simp] theorem Eff.slices_sets (v : List Slice) : ((Eff.slices v).apply s).sets = s.sets := rfl
@[simp] theorem Eff.slices_hostResp (v : List Slice) : ((Eff.slices v).apply s).hostResp = s.hostResp := rfl
@[simp] theorem Eff.slices_freeCtr (v : List Slice) : ((Eff.slices v).apply s).freeCtr = s.freeCtr := rfl
@[simp] theorem Eff.slices_pending (v : List Slice) : ((Eff.slices v).apply s).pending = s.pending := rfl
@[simp] theorem Eff.slices_slices (v : List Slice) : ((Eff.slices v).apply s).slices = v := rfl

@[simp] theorem Eff.imap_regs (n : Nat) (v : Option (Nat × Nat × Nat × Nat)) : ((Eff.imap n v).apply s).regs = s.regs := rfl
@[simp] theorem Eff.imap_tb (n : Nat) (v : Option (Nat × Nat × Nat × Nat)) : ((Eff.imap n v).apply s).tb = s.tb := rfl
@[simp] theorem Eff.imap_pw (n : Nat) (v : Option (Nat × Nat × Nat × Nat)) : ((Eff.imap n v).apply s).pw = s.pw := rfl
@[simp] theorem Eff.imap_recs (n : Nat) (v : Option (Nat × Nat × Nat × Nat)) : ((Eff.imap n v).apply s).recs = s.recs := rfl
@[simp] theorem Eff.imap_fw (n : Nat) (v : Option (Nat × Nat × Nat × Nat)) : ((Eff.imap n v).apply s).fw = s.fw := rfl
@[simp] theorem Eff.imap_pairs (n : Nat) (v : Option (Nat × Nat × Nat × Nat)) : ((Eff.imap n v).apply s).pairs = s.pairs := rfl
@[simp] theorem Eff.imap_ctxs (n : Nat) (v : Option (Nat × Nat × Nat × Nat)) : ((Eff.imap n v).apply s).ctxs = s.ctxs := rfl
@[simp] theorem Eff.imap_models (n : Nat) (v : Option (Nat × Nat × Nat × Nat)) : ((Eff.imap n v).apply s).models = s.models := rfl
@[simp] theorem Eff.imap_entries (n : Nat) (v : Option (Nat × Nat × Nat × Nat)) : ((Eff.imap n v).apply s).entries = s.entries := rfl
@[simp] theorem Eff.imap_sems (n : Nat) (v : Option (Nat × Nat × Nat × Nat)) : ((Eff.imap n v).apply s).sems = s.sems := rfl
@[simp] theorem Eff.imap_bars (n : Nat) (v : Option (Nat × Nat × Nat × Nat)) : ((Eff.imap n v).apply s).bars = s.bars := rfl
@[simp] theorem Eff.imap_hubRegs (n : Nat) (v : Option (Nat × Nat × Nat × Nat)) : ((Eff.imap n v).apply s).hubRegs = s.hubRegs := rfl
@[simp] theorem Eff.imap_stu (n : Nat) (v : Option (Nat × Nat × Nat × Nat)) : ((Eff.imap n v).apply s).stu = s.stu := rfl
@[simp] theorem Eff.imap_cores (n : Nat) (v : Option (Nat × Nat × Nat × Nat)) : ((Eff.imap n v).apply s).cores = s.cores := rfl
@[simp] theorem Eff.imap_spads (n : Nat) (v : Option (Nat × Nat × Nat × Nat)) : ((Eff.imap n v).apply s).spads = s.spads := rfl
@[simp] theorem Eff.imap_gmem (n : Nat) (v : Option (Nat × Nat × Nat × Nat)) : ((Eff.imap n v).apply s).gmem = s.gmem := rfl
@[simp] theorem Eff.imap_written (n : Nat) (v : Option (Nat × Nat × Nat × Nat)) : ((Eff.imap n v).apply s).written = s.written := rfl
@[simp] theorem Eff.imap_msgs (n : Nat) (v : Option (Nat × Nat × Nat × Nat)) : ((Eff.imap n v).apply s).msgs = s.msgs := rfl
@[simp] theorem Eff.imap_stns (n : Nat) (v : Option (Nat × Nat × Nat × Nat)) : ((Eff.imap n v).apply s).stns = s.stns := rfl
@[simp] theorem Eff.imap_groups (n : Nat) (v : Option (Nat × Nat × Nat × Nat)) : ((Eff.imap n v).apply s).groups = s.groups := rfl
@[simp] theorem Eff.imap_ctl (n : Nat) (v : Option (Nat × Nat × Nat × Nat)) : ((Eff.imap n v).apply s).ctl = s.ctl := rfl
@[simp] theorem Eff.imap_links (n : Nat) (v : Option (Nat × Nat × Nat × Nat)) : ((Eff.imap n v).apply s).links = s.links := rfl
@[simp] theorem Eff.imap_slices (n : Nat) (v : Option (Nat × Nat × Nat × Nat)) : ((Eff.imap n v).apply s).slices = s.slices := rfl
@[simp] theorem Eff.imap_splitA (n : Nat) (v : Option (Nat × Nat × Nat × Nat)) : ((Eff.imap n v).apply s).splitA = s.splitA := rfl
@[simp] theorem Eff.imap_splitB (n : Nat) (v : Option (Nat × Nat × Nat × Nat)) : ((Eff.imap n v).apply s).splitB = s.splitB := rfl
@[simp] theorem Eff.imap_nextGroup (n : Nat) (v : Option (Nat × Nat × Nat × Nat)) : ((Eff.imap n v).apply s).nextGroup = s.nextGroup := rfl
@[simp] theorem Eff.imap_mods (n : Nat) (v : Option (Nat × Nat × Nat × Nat)) : ((Eff.imap n v).apply s).mods = s.mods := rfl
@[simp] theorem Eff.imap_health (n : Nat) (v : Option (Nat × Nat × Nat × Nat)) : ((Eff.imap n v).apply s).health = s.health := rfl
@[simp] theorem Eff.imap_snap (n : Nat) (v : Option (Nat × Nat × Nat × Nat)) : ((Eff.imap n v).apply s).snap = s.snap := rfl
@[simp] theorem Eff.imap_dbg (n : Nat) (v : Option (Nat × Nat × Nat × Nat)) : ((Eff.imap n v).apply s).dbg = s.dbg := rfl
@[simp] theorem Eff.imap_resets (n : Nat) (v : Option (Nat × Nat × Nat × Nat)) : ((Eff.imap n v).apply s).resets = s.resets := rfl
@[simp] theorem Eff.imap_staged (n : Nat) (v : Option (Nat × Nat × Nat × Nat)) : ((Eff.imap n v).apply s).staged = s.staged := rfl
@[simp] theorem Eff.imap_sets (n : Nat) (v : Option (Nat × Nat × Nat × Nat)) : ((Eff.imap n v).apply s).sets = s.sets := rfl
@[simp] theorem Eff.imap_hostResp (n : Nat) (v : Option (Nat × Nat × Nat × Nat)) : ((Eff.imap n v).apply s).hostResp = s.hostResp := rfl
@[simp] theorem Eff.imap_freeCtr (n : Nat) (v : Option (Nat × Nat × Nat × Nat)) : ((Eff.imap n v).apply s).freeCtr = s.freeCtr := rfl
@[simp] theorem Eff.imap_pending (n : Nat) (v : Option (Nat × Nat × Nat × Nat)) : ((Eff.imap n v).apply s).pending = s.pending := rfl

@[simp] theorem Eff.split_regs (a b : Nat) : ((Eff.split a b).apply s).regs = s.regs := rfl
@[simp] theorem Eff.split_tb (a b : Nat) : ((Eff.split a b).apply s).tb = s.tb := rfl
@[simp] theorem Eff.split_pw (a b : Nat) : ((Eff.split a b).apply s).pw = s.pw := rfl
@[simp] theorem Eff.split_recs (a b : Nat) : ((Eff.split a b).apply s).recs = s.recs := rfl
@[simp] theorem Eff.split_fw (a b : Nat) : ((Eff.split a b).apply s).fw = s.fw := rfl
@[simp] theorem Eff.split_pairs (a b : Nat) : ((Eff.split a b).apply s).pairs = s.pairs := rfl
@[simp] theorem Eff.split_ctxs (a b : Nat) : ((Eff.split a b).apply s).ctxs = s.ctxs := rfl
@[simp] theorem Eff.split_models (a b : Nat) : ((Eff.split a b).apply s).models = s.models := rfl
@[simp] theorem Eff.split_entries (a b : Nat) : ((Eff.split a b).apply s).entries = s.entries := rfl
@[simp] theorem Eff.split_sems (a b : Nat) : ((Eff.split a b).apply s).sems = s.sems := rfl
@[simp] theorem Eff.split_bars (a b : Nat) : ((Eff.split a b).apply s).bars = s.bars := rfl
@[simp] theorem Eff.split_hubRegs (a b : Nat) : ((Eff.split a b).apply s).hubRegs = s.hubRegs := rfl
@[simp] theorem Eff.split_stu (a b : Nat) : ((Eff.split a b).apply s).stu = s.stu := rfl
@[simp] theorem Eff.split_cores (a b : Nat) : ((Eff.split a b).apply s).cores = s.cores := rfl
@[simp] theorem Eff.split_spads (a b : Nat) : ((Eff.split a b).apply s).spads = s.spads := rfl
@[simp] theorem Eff.split_gmem (a b : Nat) : ((Eff.split a b).apply s).gmem = s.gmem := rfl
@[simp] theorem Eff.split_written (a b : Nat) : ((Eff.split a b).apply s).written = s.written := rfl
@[simp] theorem Eff.split_msgs (a b : Nat) : ((Eff.split a b).apply s).msgs = s.msgs := rfl
@[simp] theorem Eff.split_stns (a b : Nat) : ((Eff.split a b).apply s).stns = s.stns := rfl
@[simp] theorem Eff.split_groups (a b : Nat) : ((Eff.split a b).apply s).groups = s.groups := rfl
@[simp] theorem Eff.split_ctl (a b : Nat) : ((Eff.split a b).apply s).ctl = s.ctl := rfl
@[simp] theorem Eff.split_links (a b : Nat) : ((Eff.split a b).apply s).links = s.links := rfl
@[simp] theorem Eff.split_slices (a b : Nat) : ((Eff.split a b).apply s).slices = s.slices := rfl
@[simp] theorem Eff.split_imap (a b : Nat) : ((Eff.split a b).apply s).imap = s.imap := rfl
@[simp] theorem Eff.split_nextGroup (a b : Nat) : ((Eff.split a b).apply s).nextGroup = s.nextGroup := rfl
@[simp] theorem Eff.split_mods (a b : Nat) : ((Eff.split a b).apply s).mods = s.mods := rfl
@[simp] theorem Eff.split_health (a b : Nat) : ((Eff.split a b).apply s).health = s.health := rfl
@[simp] theorem Eff.split_snap (a b : Nat) : ((Eff.split a b).apply s).snap = s.snap := rfl
@[simp] theorem Eff.split_dbg (a b : Nat) : ((Eff.split a b).apply s).dbg = s.dbg := rfl
@[simp] theorem Eff.split_resets (a b : Nat) : ((Eff.split a b).apply s).resets = s.resets := rfl
@[simp] theorem Eff.split_staged (a b : Nat) : ((Eff.split a b).apply s).staged = s.staged := rfl
@[simp] theorem Eff.split_sets (a b : Nat) : ((Eff.split a b).apply s).sets = s.sets := rfl
@[simp] theorem Eff.split_hostResp (a b : Nat) : ((Eff.split a b).apply s).hostResp = s.hostResp := rfl
@[simp] theorem Eff.split_freeCtr (a b : Nat) : ((Eff.split a b).apply s).freeCtr = s.freeCtr := rfl
@[simp] theorem Eff.split_pending (a b : Nat) : ((Eff.split a b).apply s).pending = s.pending := rfl

@[simp] theorem Eff.health_regs (v : Health) : ((Eff.health v).apply s).regs = s.regs := rfl
@[simp] theorem Eff.health_tb (v : Health) : ((Eff.health v).apply s).tb = s.tb := rfl
@[simp] theorem Eff.health_pw (v : Health) : ((Eff.health v).apply s).pw = s.pw := rfl
@[simp] theorem Eff.health_recs (v : Health) : ((Eff.health v).apply s).recs = s.recs := rfl
@[simp] theorem Eff.health_fw (v : Health) : ((Eff.health v).apply s).fw = s.fw := rfl
@[simp] theorem Eff.health_pairs (v : Health) : ((Eff.health v).apply s).pairs = s.pairs := rfl
@[simp] theorem Eff.health_ctxs (v : Health) : ((Eff.health v).apply s).ctxs = s.ctxs := rfl
@[simp] theorem Eff.health_models (v : Health) : ((Eff.health v).apply s).models = s.models := rfl
@[simp] theorem Eff.health_entries (v : Health) : ((Eff.health v).apply s).entries = s.entries := rfl
@[simp] theorem Eff.health_sems (v : Health) : ((Eff.health v).apply s).sems = s.sems := rfl
@[simp] theorem Eff.health_bars (v : Health) : ((Eff.health v).apply s).bars = s.bars := rfl
@[simp] theorem Eff.health_hubRegs (v : Health) : ((Eff.health v).apply s).hubRegs = s.hubRegs := rfl
@[simp] theorem Eff.health_stu (v : Health) : ((Eff.health v).apply s).stu = s.stu := rfl
@[simp] theorem Eff.health_cores (v : Health) : ((Eff.health v).apply s).cores = s.cores := rfl
@[simp] theorem Eff.health_spads (v : Health) : ((Eff.health v).apply s).spads = s.spads := rfl
@[simp] theorem Eff.health_gmem (v : Health) : ((Eff.health v).apply s).gmem = s.gmem := rfl
@[simp] theorem Eff.health_written (v : Health) : ((Eff.health v).apply s).written = s.written := rfl
@[simp] theorem Eff.health_msgs (v : Health) : ((Eff.health v).apply s).msgs = s.msgs := rfl
@[simp] theorem Eff.health_stns (v : Health) : ((Eff.health v).apply s).stns = s.stns := rfl
@[simp] theorem Eff.health_groups (v : Health) : ((Eff.health v).apply s).groups = s.groups := rfl
@[simp] theorem Eff.health_ctl (v : Health) : ((Eff.health v).apply s).ctl = s.ctl := rfl
@[simp] theorem Eff.health_links (v : Health) : ((Eff.health v).apply s).links = s.links := rfl
@[simp] theorem Eff.health_slices (v : Health) : ((Eff.health v).apply s).slices = s.slices := rfl
@[simp] theorem Eff.health_imap (v : Health) : ((Eff.health v).apply s).imap = s.imap := rfl
@[simp] theorem Eff.health_splitA (v : Health) : ((Eff.health v).apply s).splitA = s.splitA := rfl
@[simp] theorem Eff.health_splitB (v : Health) : ((Eff.health v).apply s).splitB = s.splitB := rfl
@[simp] theorem Eff.health_nextGroup (v : Health) : ((Eff.health v).apply s).nextGroup = s.nextGroup := rfl
@[simp] theorem Eff.health_mods (v : Health) : ((Eff.health v).apply s).mods = s.mods := rfl
@[simp] theorem Eff.health_snap (v : Health) : ((Eff.health v).apply s).snap = s.snap := rfl
@[simp] theorem Eff.health_dbg (v : Health) : ((Eff.health v).apply s).dbg = s.dbg := rfl
@[simp] theorem Eff.health_resets (v : Health) : ((Eff.health v).apply s).resets = s.resets := rfl
@[simp] theorem Eff.health_staged (v : Health) : ((Eff.health v).apply s).staged = s.staged := rfl
@[simp] theorem Eff.health_sets (v : Health) : ((Eff.health v).apply s).sets = s.sets := rfl
@[simp] theorem Eff.health_hostResp (v : Health) : ((Eff.health v).apply s).hostResp = s.hostResp := rfl
@[simp] theorem Eff.health_freeCtr (v : Health) : ((Eff.health v).apply s).freeCtr = s.freeCtr := rfl
@[simp] theorem Eff.health_pending (v : Health) : ((Eff.health v).apply s).pending = s.pending := rfl
@[simp] theorem Eff.health_health (v : Health) : ((Eff.health v).apply s).health = v := rfl

@[simp] theorem Eff.snap_regs (v : Snap) : ((Eff.snap v).apply s).regs = s.regs := rfl
@[simp] theorem Eff.snap_tb (v : Snap) : ((Eff.snap v).apply s).tb = s.tb := rfl
@[simp] theorem Eff.snap_pw (v : Snap) : ((Eff.snap v).apply s).pw = s.pw := rfl
@[simp] theorem Eff.snap_recs (v : Snap) : ((Eff.snap v).apply s).recs = s.recs := rfl
@[simp] theorem Eff.snap_fw (v : Snap) : ((Eff.snap v).apply s).fw = s.fw := rfl
@[simp] theorem Eff.snap_pairs (v : Snap) : ((Eff.snap v).apply s).pairs = s.pairs := rfl
@[simp] theorem Eff.snap_ctxs (v : Snap) : ((Eff.snap v).apply s).ctxs = s.ctxs := rfl
@[simp] theorem Eff.snap_models (v : Snap) : ((Eff.snap v).apply s).models = s.models := rfl
@[simp] theorem Eff.snap_entries (v : Snap) : ((Eff.snap v).apply s).entries = s.entries := rfl
@[simp] theorem Eff.snap_sems (v : Snap) : ((Eff.snap v).apply s).sems = s.sems := rfl
@[simp] theorem Eff.snap_bars (v : Snap) : ((Eff.snap v).apply s).bars = s.bars := rfl
@[simp] theorem Eff.snap_hubRegs (v : Snap) : ((Eff.snap v).apply s).hubRegs = s.hubRegs := rfl
@[simp] theorem Eff.snap_stu (v : Snap) : ((Eff.snap v).apply s).stu = s.stu := rfl
@[simp] theorem Eff.snap_cores (v : Snap) : ((Eff.snap v).apply s).cores = s.cores := rfl
@[simp] theorem Eff.snap_spads (v : Snap) : ((Eff.snap v).apply s).spads = s.spads := rfl
@[simp] theorem Eff.snap_gmem (v : Snap) : ((Eff.snap v).apply s).gmem = s.gmem := rfl
@[simp] theorem Eff.snap_written (v : Snap) : ((Eff.snap v).apply s).written = s.written := rfl
@[simp] theorem Eff.snap_msgs (v : Snap) : ((Eff.snap v).apply s).msgs = s.msgs := rfl
@[simp] theorem Eff.snap_stns (v : Snap) : ((Eff.snap v).apply s).stns = s.stns := rfl
@[simp] theorem Eff.snap_groups (v : Snap) : ((Eff.snap v).apply s).groups = s.groups := rfl
@[simp] theorem Eff.snap_ctl (v : Snap) : ((Eff.snap v).apply s).ctl = s.ctl := rfl
@[simp] theorem Eff.snap_links (v : Snap) : ((Eff.snap v).apply s).links = s.links := rfl
@[simp] theorem Eff.snap_slices (v : Snap) : ((Eff.snap v).apply s).slices = s.slices := rfl
@[simp] theorem Eff.snap_imap (v : Snap) : ((Eff.snap v).apply s).imap = s.imap := rfl
@[simp] theorem Eff.snap_splitA (v : Snap) : ((Eff.snap v).apply s).splitA = s.splitA := rfl
@[simp] theorem Eff.snap_splitB (v : Snap) : ((Eff.snap v).apply s).splitB = s.splitB := rfl
@[simp] theorem Eff.snap_nextGroup (v : Snap) : ((Eff.snap v).apply s).nextGroup = s.nextGroup := rfl
@[simp] theorem Eff.snap_mods (v : Snap) : ((Eff.snap v).apply s).mods = s.mods := rfl
@[simp] theorem Eff.snap_health (v : Snap) : ((Eff.snap v).apply s).health = s.health := rfl
@[simp] theorem Eff.snap_dbg (v : Snap) : ((Eff.snap v).apply s).dbg = s.dbg := rfl
@[simp] theorem Eff.snap_resets (v : Snap) : ((Eff.snap v).apply s).resets = s.resets := rfl
@[simp] theorem Eff.snap_staged (v : Snap) : ((Eff.snap v).apply s).staged = s.staged := rfl
@[simp] theorem Eff.snap_sets (v : Snap) : ((Eff.snap v).apply s).sets = s.sets := rfl
@[simp] theorem Eff.snap_hostResp (v : Snap) : ((Eff.snap v).apply s).hostResp = s.hostResp := rfl
@[simp] theorem Eff.snap_freeCtr (v : Snap) : ((Eff.snap v).apply s).freeCtr = s.freeCtr := rfl
@[simp] theorem Eff.snap_pending (v : Snap) : ((Eff.snap v).apply s).pending = s.pending := rfl
@[simp] theorem Eff.snap_snap (v : Snap) : ((Eff.snap v).apply s).snap = v := rfl

@[simp] theorem Eff.dbg_regs (v : Debug) : ((Eff.dbg v).apply s).regs = s.regs := rfl
@[simp] theorem Eff.dbg_tb (v : Debug) : ((Eff.dbg v).apply s).tb = s.tb := rfl
@[simp] theorem Eff.dbg_pw (v : Debug) : ((Eff.dbg v).apply s).pw = s.pw := rfl
@[simp] theorem Eff.dbg_recs (v : Debug) : ((Eff.dbg v).apply s).recs = s.recs := rfl
@[simp] theorem Eff.dbg_fw (v : Debug) : ((Eff.dbg v).apply s).fw = s.fw := rfl
@[simp] theorem Eff.dbg_pairs (v : Debug) : ((Eff.dbg v).apply s).pairs = s.pairs := rfl
@[simp] theorem Eff.dbg_ctxs (v : Debug) : ((Eff.dbg v).apply s).ctxs = s.ctxs := rfl
@[simp] theorem Eff.dbg_models (v : Debug) : ((Eff.dbg v).apply s).models = s.models := rfl
@[simp] theorem Eff.dbg_entries (v : Debug) : ((Eff.dbg v).apply s).entries = s.entries := rfl
@[simp] theorem Eff.dbg_sems (v : Debug) : ((Eff.dbg v).apply s).sems = s.sems := rfl
@[simp] theorem Eff.dbg_bars (v : Debug) : ((Eff.dbg v).apply s).bars = s.bars := rfl
@[simp] theorem Eff.dbg_hubRegs (v : Debug) : ((Eff.dbg v).apply s).hubRegs = s.hubRegs := rfl
@[simp] theorem Eff.dbg_stu (v : Debug) : ((Eff.dbg v).apply s).stu = s.stu := rfl
@[simp] theorem Eff.dbg_cores (v : Debug) : ((Eff.dbg v).apply s).cores = s.cores := rfl
@[simp] theorem Eff.dbg_spads (v : Debug) : ((Eff.dbg v).apply s).spads = s.spads := rfl
@[simp] theorem Eff.dbg_gmem (v : Debug) : ((Eff.dbg v).apply s).gmem = s.gmem := rfl
@[simp] theorem Eff.dbg_written (v : Debug) : ((Eff.dbg v).apply s).written = s.written := rfl
@[simp] theorem Eff.dbg_msgs (v : Debug) : ((Eff.dbg v).apply s).msgs = s.msgs := rfl
@[simp] theorem Eff.dbg_stns (v : Debug) : ((Eff.dbg v).apply s).stns = s.stns := rfl
@[simp] theorem Eff.dbg_groups (v : Debug) : ((Eff.dbg v).apply s).groups = s.groups := rfl
@[simp] theorem Eff.dbg_ctl (v : Debug) : ((Eff.dbg v).apply s).ctl = s.ctl := rfl
@[simp] theorem Eff.dbg_links (v : Debug) : ((Eff.dbg v).apply s).links = s.links := rfl
@[simp] theorem Eff.dbg_slices (v : Debug) : ((Eff.dbg v).apply s).slices = s.slices := rfl
@[simp] theorem Eff.dbg_imap (v : Debug) : ((Eff.dbg v).apply s).imap = s.imap := rfl
@[simp] theorem Eff.dbg_splitA (v : Debug) : ((Eff.dbg v).apply s).splitA = s.splitA := rfl
@[simp] theorem Eff.dbg_splitB (v : Debug) : ((Eff.dbg v).apply s).splitB = s.splitB := rfl
@[simp] theorem Eff.dbg_nextGroup (v : Debug) : ((Eff.dbg v).apply s).nextGroup = s.nextGroup := rfl
@[simp] theorem Eff.dbg_mods (v : Debug) : ((Eff.dbg v).apply s).mods = s.mods := rfl
@[simp] theorem Eff.dbg_health (v : Debug) : ((Eff.dbg v).apply s).health = s.health := rfl
@[simp] theorem Eff.dbg_snap (v : Debug) : ((Eff.dbg v).apply s).snap = s.snap := rfl
@[simp] theorem Eff.dbg_resets (v : Debug) : ((Eff.dbg v).apply s).resets = s.resets := rfl
@[simp] theorem Eff.dbg_staged (v : Debug) : ((Eff.dbg v).apply s).staged = s.staged := rfl
@[simp] theorem Eff.dbg_sets (v : Debug) : ((Eff.dbg v).apply s).sets = s.sets := rfl
@[simp] theorem Eff.dbg_hostResp (v : Debug) : ((Eff.dbg v).apply s).hostResp = s.hostResp := rfl
@[simp] theorem Eff.dbg_freeCtr (v : Debug) : ((Eff.dbg v).apply s).freeCtr = s.freeCtr := rfl
@[simp] theorem Eff.dbg_pending (v : Debug) : ((Eff.dbg v).apply s).pending = s.pending := rfl
@[simp] theorem Eff.dbg_dbg (v : Debug) : ((Eff.dbg v).apply s).dbg = v := rfl

@[simp] theorem Eff.resets_regs (v : Resets) : ((Eff.resets v).apply s).regs = s.regs := rfl
@[simp] theorem Eff.resets_tb (v : Resets) : ((Eff.resets v).apply s).tb = s.tb := rfl
@[simp] theorem Eff.resets_pw (v : Resets) : ((Eff.resets v).apply s).pw = s.pw := rfl
@[simp] theorem Eff.resets_recs (v : Resets) : ((Eff.resets v).apply s).recs = s.recs := rfl
@[simp] theorem Eff.resets_fw (v : Resets) : ((Eff.resets v).apply s).fw = s.fw := rfl
@[simp] theorem Eff.resets_pairs (v : Resets) : ((Eff.resets v).apply s).pairs = s.pairs := rfl
@[simp] theorem Eff.resets_ctxs (v : Resets) : ((Eff.resets v).apply s).ctxs = s.ctxs := rfl
@[simp] theorem Eff.resets_models (v : Resets) : ((Eff.resets v).apply s).models = s.models := rfl
@[simp] theorem Eff.resets_entries (v : Resets) : ((Eff.resets v).apply s).entries = s.entries := rfl
@[simp] theorem Eff.resets_sems (v : Resets) : ((Eff.resets v).apply s).sems = s.sems := rfl
@[simp] theorem Eff.resets_bars (v : Resets) : ((Eff.resets v).apply s).bars = s.bars := rfl
@[simp] theorem Eff.resets_hubRegs (v : Resets) : ((Eff.resets v).apply s).hubRegs = s.hubRegs := rfl
@[simp] theorem Eff.resets_stu (v : Resets) : ((Eff.resets v).apply s).stu = s.stu := rfl
@[simp] theorem Eff.resets_cores (v : Resets) : ((Eff.resets v).apply s).cores = s.cores := rfl
@[simp] theorem Eff.resets_spads (v : Resets) : ((Eff.resets v).apply s).spads = s.spads := rfl
@[simp] theorem Eff.resets_gmem (v : Resets) : ((Eff.resets v).apply s).gmem = s.gmem := rfl
@[simp] theorem Eff.resets_written (v : Resets) : ((Eff.resets v).apply s).written = s.written := rfl
@[simp] theorem Eff.resets_msgs (v : Resets) : ((Eff.resets v).apply s).msgs = s.msgs := rfl
@[simp] theorem Eff.resets_stns (v : Resets) : ((Eff.resets v).apply s).stns = s.stns := rfl
@[simp] theorem Eff.resets_groups (v : Resets) : ((Eff.resets v).apply s).groups = s.groups := rfl
@[simp] theorem Eff.resets_ctl (v : Resets) : ((Eff.resets v).apply s).ctl = s.ctl := rfl
@[simp] theorem Eff.resets_links (v : Resets) : ((Eff.resets v).apply s).links = s.links := rfl
@[simp] theorem Eff.resets_slices (v : Resets) : ((Eff.resets v).apply s).slices = s.slices := rfl
@[simp] theorem Eff.resets_imap (v : Resets) : ((Eff.resets v).apply s).imap = s.imap := rfl
@[simp] theorem Eff.resets_splitA (v : Resets) : ((Eff.resets v).apply s).splitA = s.splitA := rfl
@[simp] theorem Eff.resets_splitB (v : Resets) : ((Eff.resets v).apply s).splitB = s.splitB := rfl
@[simp] theorem Eff.resets_nextGroup (v : Resets) : ((Eff.resets v).apply s).nextGroup = s.nextGroup := rfl
@[simp] theorem Eff.resets_mods (v : Resets) : ((Eff.resets v).apply s).mods = s.mods := rfl
@[simp] theorem Eff.resets_health (v : Resets) : ((Eff.resets v).apply s).health = s.health := rfl
@[simp] theorem Eff.resets_snap (v : Resets) : ((Eff.resets v).apply s).snap = s.snap := rfl
@[simp] theorem Eff.resets_dbg (v : Resets) : ((Eff.resets v).apply s).dbg = s.dbg := rfl
@[simp] theorem Eff.resets_staged (v : Resets) : ((Eff.resets v).apply s).staged = s.staged := rfl
@[simp] theorem Eff.resets_sets (v : Resets) : ((Eff.resets v).apply s).sets = s.sets := rfl
@[simp] theorem Eff.resets_hostResp (v : Resets) : ((Eff.resets v).apply s).hostResp = s.hostResp := rfl
@[simp] theorem Eff.resets_freeCtr (v : Resets) : ((Eff.resets v).apply s).freeCtr = s.freeCtr := rfl
@[simp] theorem Eff.resets_pending (v : Resets) : ((Eff.resets v).apply s).pending = s.pending := rfl
@[simp] theorem Eff.resets_resets (v : Resets) : ((Eff.resets v).apply s).resets = v := rfl

@[simp] theorem Eff.staged_regs (v : List Staged) : ((Eff.staged v).apply s).regs = s.regs := rfl
@[simp] theorem Eff.staged_tb (v : List Staged) : ((Eff.staged v).apply s).tb = s.tb := rfl
@[simp] theorem Eff.staged_pw (v : List Staged) : ((Eff.staged v).apply s).pw = s.pw := rfl
@[simp] theorem Eff.staged_recs (v : List Staged) : ((Eff.staged v).apply s).recs = s.recs := rfl
@[simp] theorem Eff.staged_fw (v : List Staged) : ((Eff.staged v).apply s).fw = s.fw := rfl
@[simp] theorem Eff.staged_pairs (v : List Staged) : ((Eff.staged v).apply s).pairs = s.pairs := rfl
@[simp] theorem Eff.staged_ctxs (v : List Staged) : ((Eff.staged v).apply s).ctxs = s.ctxs := rfl
@[simp] theorem Eff.staged_models (v : List Staged) : ((Eff.staged v).apply s).models = s.models := rfl
@[simp] theorem Eff.staged_entries (v : List Staged) : ((Eff.staged v).apply s).entries = s.entries := rfl
@[simp] theorem Eff.staged_sems (v : List Staged) : ((Eff.staged v).apply s).sems = s.sems := rfl
@[simp] theorem Eff.staged_bars (v : List Staged) : ((Eff.staged v).apply s).bars = s.bars := rfl
@[simp] theorem Eff.staged_hubRegs (v : List Staged) : ((Eff.staged v).apply s).hubRegs = s.hubRegs := rfl
@[simp] theorem Eff.staged_stu (v : List Staged) : ((Eff.staged v).apply s).stu = s.stu := rfl
@[simp] theorem Eff.staged_cores (v : List Staged) : ((Eff.staged v).apply s).cores = s.cores := rfl
@[simp] theorem Eff.staged_spads (v : List Staged) : ((Eff.staged v).apply s).spads = s.spads := rfl
@[simp] theorem Eff.staged_gmem (v : List Staged) : ((Eff.staged v).apply s).gmem = s.gmem := rfl
@[simp] theorem Eff.staged_written (v : List Staged) : ((Eff.staged v).apply s).written = s.written := rfl
@[simp] theorem Eff.staged_msgs (v : List Staged) : ((Eff.staged v).apply s).msgs = s.msgs := rfl
@[simp] theorem Eff.staged_stns (v : List Staged) : ((Eff.staged v).apply s).stns = s.stns := rfl
@[simp] theorem Eff.staged_groups (v : List Staged) : ((Eff.staged v).apply s).groups = s.groups := rfl
@[simp] theorem Eff.staged_ctl (v : List Staged) : ((Eff.staged v).apply s).ctl = s.ctl := rfl
@[simp] theorem Eff.staged_links (v : List Staged) : ((Eff.staged v).apply s).links = s.links := rfl
@[simp] theorem Eff.staged_slices (v : List Staged) : ((Eff.staged v).apply s).slices = s.slices := rfl
@[simp] theorem Eff.staged_imap (v : List Staged) : ((Eff.staged v).apply s).imap = s.imap := rfl
@[simp] theorem Eff.staged_splitA (v : List Staged) : ((Eff.staged v).apply s).splitA = s.splitA := rfl
@[simp] theorem Eff.staged_splitB (v : List Staged) : ((Eff.staged v).apply s).splitB = s.splitB := rfl
@[simp] theorem Eff.staged_nextGroup (v : List Staged) : ((Eff.staged v).apply s).nextGroup = s.nextGroup := rfl
@[simp] theorem Eff.staged_mods (v : List Staged) : ((Eff.staged v).apply s).mods = s.mods := rfl
@[simp] theorem Eff.staged_health (v : List Staged) : ((Eff.staged v).apply s).health = s.health := rfl
@[simp] theorem Eff.staged_snap (v : List Staged) : ((Eff.staged v).apply s).snap = s.snap := rfl
@[simp] theorem Eff.staged_dbg (v : List Staged) : ((Eff.staged v).apply s).dbg = s.dbg := rfl
@[simp] theorem Eff.staged_resets (v : List Staged) : ((Eff.staged v).apply s).resets = s.resets := rfl
@[simp] theorem Eff.staged_sets (v : List Staged) : ((Eff.staged v).apply s).sets = s.sets := rfl
@[simp] theorem Eff.staged_hostResp (v : List Staged) : ((Eff.staged v).apply s).hostResp = s.hostResp := rfl
@[simp] theorem Eff.staged_freeCtr (v : List Staged) : ((Eff.staged v).apply s).freeCtr = s.freeCtr := rfl
@[simp] theorem Eff.staged_pending (v : List Staged) : ((Eff.staged v).apply s).pending = s.pending := rfl
@[simp] theorem Eff.staged_staged (v : List Staged) : ((Eff.staged v).apply s).staged = v := rfl

@[simp] theorem Eff.sets_regs (v : List CommitSet) : ((Eff.sets v).apply s).regs = s.regs := rfl
@[simp] theorem Eff.sets_tb (v : List CommitSet) : ((Eff.sets v).apply s).tb = s.tb := rfl
@[simp] theorem Eff.sets_pw (v : List CommitSet) : ((Eff.sets v).apply s).pw = s.pw := rfl
@[simp] theorem Eff.sets_recs (v : List CommitSet) : ((Eff.sets v).apply s).recs = s.recs := rfl
@[simp] theorem Eff.sets_fw (v : List CommitSet) : ((Eff.sets v).apply s).fw = s.fw := rfl
@[simp] theorem Eff.sets_pairs (v : List CommitSet) : ((Eff.sets v).apply s).pairs = s.pairs := rfl
@[simp] theorem Eff.sets_ctxs (v : List CommitSet) : ((Eff.sets v).apply s).ctxs = s.ctxs := rfl
@[simp] theorem Eff.sets_models (v : List CommitSet) : ((Eff.sets v).apply s).models = s.models := rfl
@[simp] theorem Eff.sets_entries (v : List CommitSet) : ((Eff.sets v).apply s).entries = s.entries := rfl
@[simp] theorem Eff.sets_sems (v : List CommitSet) : ((Eff.sets v).apply s).sems = s.sems := rfl
@[simp] theorem Eff.sets_bars (v : List CommitSet) : ((Eff.sets v).apply s).bars = s.bars := rfl
@[simp] theorem Eff.sets_hubRegs (v : List CommitSet) : ((Eff.sets v).apply s).hubRegs = s.hubRegs := rfl
@[simp] theorem Eff.sets_stu (v : List CommitSet) : ((Eff.sets v).apply s).stu = s.stu := rfl
@[simp] theorem Eff.sets_cores (v : List CommitSet) : ((Eff.sets v).apply s).cores = s.cores := rfl
@[simp] theorem Eff.sets_spads (v : List CommitSet) : ((Eff.sets v).apply s).spads = s.spads := rfl
@[simp] theorem Eff.sets_gmem (v : List CommitSet) : ((Eff.sets v).apply s).gmem = s.gmem := rfl
@[simp] theorem Eff.sets_written (v : List CommitSet) : ((Eff.sets v).apply s).written = s.written := rfl
@[simp] theorem Eff.sets_msgs (v : List CommitSet) : ((Eff.sets v).apply s).msgs = s.msgs := rfl
@[simp] theorem Eff.sets_stns (v : List CommitSet) : ((Eff.sets v).apply s).stns = s.stns := rfl
@[simp] theorem Eff.sets_groups (v : List CommitSet) : ((Eff.sets v).apply s).groups = s.groups := rfl
@[simp] theorem Eff.sets_ctl (v : List CommitSet) : ((Eff.sets v).apply s).ctl = s.ctl := rfl
@[simp] theorem Eff.sets_links (v : List CommitSet) : ((Eff.sets v).apply s).links = s.links := rfl
@[simp] theorem Eff.sets_slices (v : List CommitSet) : ((Eff.sets v).apply s).slices = s.slices := rfl
@[simp] theorem Eff.sets_imap (v : List CommitSet) : ((Eff.sets v).apply s).imap = s.imap := rfl
@[simp] theorem Eff.sets_splitA (v : List CommitSet) : ((Eff.sets v).apply s).splitA = s.splitA := rfl
@[simp] theorem Eff.sets_splitB (v : List CommitSet) : ((Eff.sets v).apply s).splitB = s.splitB := rfl
@[simp] theorem Eff.sets_nextGroup (v : List CommitSet) : ((Eff.sets v).apply s).nextGroup = s.nextGroup := rfl
@[simp] theorem Eff.sets_mods (v : List CommitSet) : ((Eff.sets v).apply s).mods = s.mods := rfl
@[simp] theorem Eff.sets_health (v : List CommitSet) : ((Eff.sets v).apply s).health = s.health := rfl
@[simp] theorem Eff.sets_snap (v : List CommitSet) : ((Eff.sets v).apply s).snap = s.snap := rfl
@[simp] theorem Eff.sets_dbg (v : List CommitSet) : ((Eff.sets v).apply s).dbg = s.dbg := rfl
@[simp] theorem Eff.sets_resets (v : List CommitSet) : ((Eff.sets v).apply s).resets = s.resets := rfl
@[simp] theorem Eff.sets_staged (v : List CommitSet) : ((Eff.sets v).apply s).staged = s.staged := rfl
@[simp] theorem Eff.sets_hostResp (v : List CommitSet) : ((Eff.sets v).apply s).hostResp = s.hostResp := rfl
@[simp] theorem Eff.sets_freeCtr (v : List CommitSet) : ((Eff.sets v).apply s).freeCtr = s.freeCtr := rfl
@[simp] theorem Eff.sets_pending (v : List CommitSet) : ((Eff.sets v).apply s).pending = s.pending := rfl
@[simp] theorem Eff.sets_sets (v : List CommitSet) : ((Eff.sets v).apply s).sets = v := rfl

@[simp] theorem Eff.resp_regs (v : Option HostResp) : ((Eff.resp v).apply s).regs = s.regs := rfl
@[simp] theorem Eff.resp_tb (v : Option HostResp) : ((Eff.resp v).apply s).tb = s.tb := rfl
@[simp] theorem Eff.resp_pw (v : Option HostResp) : ((Eff.resp v).apply s).pw = s.pw := rfl
@[simp] theorem Eff.resp_recs (v : Option HostResp) : ((Eff.resp v).apply s).recs = s.recs := rfl
@[simp] theorem Eff.resp_fw (v : Option HostResp) : ((Eff.resp v).apply s).fw = s.fw := rfl
@[simp] theorem Eff.resp_pairs (v : Option HostResp) : ((Eff.resp v).apply s).pairs = s.pairs := rfl
@[simp] theorem Eff.resp_ctxs (v : Option HostResp) : ((Eff.resp v).apply s).ctxs = s.ctxs := rfl
@[simp] theorem Eff.resp_models (v : Option HostResp) : ((Eff.resp v).apply s).models = s.models := rfl
@[simp] theorem Eff.resp_entries (v : Option HostResp) : ((Eff.resp v).apply s).entries = s.entries := rfl
@[simp] theorem Eff.resp_sems (v : Option HostResp) : ((Eff.resp v).apply s).sems = s.sems := rfl
@[simp] theorem Eff.resp_bars (v : Option HostResp) : ((Eff.resp v).apply s).bars = s.bars := rfl
@[simp] theorem Eff.resp_hubRegs (v : Option HostResp) : ((Eff.resp v).apply s).hubRegs = s.hubRegs := rfl
@[simp] theorem Eff.resp_stu (v : Option HostResp) : ((Eff.resp v).apply s).stu = s.stu := rfl
@[simp] theorem Eff.resp_cores (v : Option HostResp) : ((Eff.resp v).apply s).cores = s.cores := rfl
@[simp] theorem Eff.resp_spads (v : Option HostResp) : ((Eff.resp v).apply s).spads = s.spads := rfl
@[simp] theorem Eff.resp_gmem (v : Option HostResp) : ((Eff.resp v).apply s).gmem = s.gmem := rfl
@[simp] theorem Eff.resp_written (v : Option HostResp) : ((Eff.resp v).apply s).written = s.written := rfl
@[simp] theorem Eff.resp_msgs (v : Option HostResp) : ((Eff.resp v).apply s).msgs = s.msgs := rfl
@[simp] theorem Eff.resp_stns (v : Option HostResp) : ((Eff.resp v).apply s).stns = s.stns := rfl
@[simp] theorem Eff.resp_groups (v : Option HostResp) : ((Eff.resp v).apply s).groups = s.groups := rfl
@[simp] theorem Eff.resp_ctl (v : Option HostResp) : ((Eff.resp v).apply s).ctl = s.ctl := rfl
@[simp] theorem Eff.resp_links (v : Option HostResp) : ((Eff.resp v).apply s).links = s.links := rfl
@[simp] theorem Eff.resp_slices (v : Option HostResp) : ((Eff.resp v).apply s).slices = s.slices := rfl
@[simp] theorem Eff.resp_imap (v : Option HostResp) : ((Eff.resp v).apply s).imap = s.imap := rfl
@[simp] theorem Eff.resp_splitA (v : Option HostResp) : ((Eff.resp v).apply s).splitA = s.splitA := rfl
@[simp] theorem Eff.resp_splitB (v : Option HostResp) : ((Eff.resp v).apply s).splitB = s.splitB := rfl
@[simp] theorem Eff.resp_nextGroup (v : Option HostResp) : ((Eff.resp v).apply s).nextGroup = s.nextGroup := rfl
@[simp] theorem Eff.resp_mods (v : Option HostResp) : ((Eff.resp v).apply s).mods = s.mods := rfl
@[simp] theorem Eff.resp_health (v : Option HostResp) : ((Eff.resp v).apply s).health = s.health := rfl
@[simp] theorem Eff.resp_snap (v : Option HostResp) : ((Eff.resp v).apply s).snap = s.snap := rfl
@[simp] theorem Eff.resp_dbg (v : Option HostResp) : ((Eff.resp v).apply s).dbg = s.dbg := rfl
@[simp] theorem Eff.resp_resets (v : Option HostResp) : ((Eff.resp v).apply s).resets = s.resets := rfl
@[simp] theorem Eff.resp_staged (v : Option HostResp) : ((Eff.resp v).apply s).staged = s.staged := rfl
@[simp] theorem Eff.resp_sets (v : Option HostResp) : ((Eff.resp v).apply s).sets = s.sets := rfl
@[simp] theorem Eff.resp_freeCtr (v : Option HostResp) : ((Eff.resp v).apply s).freeCtr = s.freeCtr := rfl
@[simp] theorem Eff.resp_pending (v : Option HostResp) : ((Eff.resp v).apply s).pending = s.pending := rfl
@[simp] theorem Eff.resp_hostResp (v : Option HostResp) : ((Eff.resp v).apply s).hostResp = v := rfl

@[simp] theorem Eff.fresh_regs (n : Nat) : ((Eff.fresh n).apply s).regs = s.regs := rfl
@[simp] theorem Eff.fresh_tb (n : Nat) : ((Eff.fresh n).apply s).tb = s.tb := rfl
@[simp] theorem Eff.fresh_pw (n : Nat) : ((Eff.fresh n).apply s).pw = s.pw := rfl
@[simp] theorem Eff.fresh_recs (n : Nat) : ((Eff.fresh n).apply s).recs = s.recs := rfl
@[simp] theorem Eff.fresh_fw (n : Nat) : ((Eff.fresh n).apply s).fw = s.fw := rfl
@[simp] theorem Eff.fresh_pairs (n : Nat) : ((Eff.fresh n).apply s).pairs = s.pairs := rfl
@[simp] theorem Eff.fresh_ctxs (n : Nat) : ((Eff.fresh n).apply s).ctxs = s.ctxs := rfl
@[simp] theorem Eff.fresh_models (n : Nat) : ((Eff.fresh n).apply s).models = s.models := rfl
@[simp] theorem Eff.fresh_entries (n : Nat) : ((Eff.fresh n).apply s).entries = s.entries := rfl
@[simp] theorem Eff.fresh_sems (n : Nat) : ((Eff.fresh n).apply s).sems = s.sems := rfl
@[simp] theorem Eff.fresh_bars (n : Nat) : ((Eff.fresh n).apply s).bars = s.bars := rfl
@[simp] theorem Eff.fresh_hubRegs (n : Nat) : ((Eff.fresh n).apply s).hubRegs = s.hubRegs := rfl
@[simp] theorem Eff.fresh_stu (n : Nat) : ((Eff.fresh n).apply s).stu = s.stu := rfl
@[simp] theorem Eff.fresh_cores (n : Nat) : ((Eff.fresh n).apply s).cores = s.cores := rfl
@[simp] theorem Eff.fresh_spads (n : Nat) : ((Eff.fresh n).apply s).spads = s.spads := rfl
@[simp] theorem Eff.fresh_gmem (n : Nat) : ((Eff.fresh n).apply s).gmem = s.gmem := rfl
@[simp] theorem Eff.fresh_written (n : Nat) : ((Eff.fresh n).apply s).written = s.written := rfl
@[simp] theorem Eff.fresh_msgs (n : Nat) : ((Eff.fresh n).apply s).msgs = s.msgs := rfl
@[simp] theorem Eff.fresh_stns (n : Nat) : ((Eff.fresh n).apply s).stns = s.stns := rfl
@[simp] theorem Eff.fresh_groups (n : Nat) : ((Eff.fresh n).apply s).groups = s.groups := rfl
@[simp] theorem Eff.fresh_ctl (n : Nat) : ((Eff.fresh n).apply s).ctl = s.ctl := rfl
@[simp] theorem Eff.fresh_links (n : Nat) : ((Eff.fresh n).apply s).links = s.links := rfl
@[simp] theorem Eff.fresh_slices (n : Nat) : ((Eff.fresh n).apply s).slices = s.slices := rfl
@[simp] theorem Eff.fresh_imap (n : Nat) : ((Eff.fresh n).apply s).imap = s.imap := rfl
@[simp] theorem Eff.fresh_splitA (n : Nat) : ((Eff.fresh n).apply s).splitA = s.splitA := rfl
@[simp] theorem Eff.fresh_splitB (n : Nat) : ((Eff.fresh n).apply s).splitB = s.splitB := rfl
@[simp] theorem Eff.fresh_nextGroup (n : Nat) : ((Eff.fresh n).apply s).nextGroup = s.nextGroup := rfl
@[simp] theorem Eff.fresh_mods (n : Nat) : ((Eff.fresh n).apply s).mods = s.mods := rfl
@[simp] theorem Eff.fresh_health (n : Nat) : ((Eff.fresh n).apply s).health = s.health := rfl
@[simp] theorem Eff.fresh_snap (n : Nat) : ((Eff.fresh n).apply s).snap = s.snap := rfl
@[simp] theorem Eff.fresh_dbg (n : Nat) : ((Eff.fresh n).apply s).dbg = s.dbg := rfl
@[simp] theorem Eff.fresh_resets (n : Nat) : ((Eff.fresh n).apply s).resets = s.resets := rfl
@[simp] theorem Eff.fresh_staged (n : Nat) : ((Eff.fresh n).apply s).staged = s.staged := rfl
@[simp] theorem Eff.fresh_sets (n : Nat) : ((Eff.fresh n).apply s).sets = s.sets := rfl
@[simp] theorem Eff.fresh_hostResp (n : Nat) : ((Eff.fresh n).apply s).hostResp = s.hostResp := rfl
@[simp] theorem Eff.fresh_pending (n : Nat) : ((Eff.fresh n).apply s).pending = s.pending := rfl

@[simp] theorem Eff.groups_nextGroup (v : List NcuGroup) (k : Nat) : ((Eff.groups v k).apply s).nextGroup = k := rfl
@[simp] theorem Eff.split_splitA (a b : Nat) : ((Eff.split a b).apply s).splitA = a := rfl
@[simp] theorem Eff.split_splitB (a b : Nat) : ((Eff.split a b).apply s).splitB = b := rfl
@[simp] theorem Eff.fresh_freeCtr (n : Nat) : ((Eff.fresh n).apply s).freeCtr = s.freeCtr + n := rfl
@[simp] theorem Eff.cold_pw (p : Power) : ((Eff.cold p).apply s).pw = p := rfl
@[simp] theorem Eff.cold_gmem (p : Power) : ((Eff.cold p).apply s).gmem = s.gmem := rfl
@[simp] theorem Eff.cold_written (p : Power) : ((Eff.cold p).apply s).written = s.written := rfl
@[simp] theorem Eff.cold_freeCtr (p : Power) : ((Eff.cold p).apply s).freeCtr = s.freeCtr := rfl
@[simp] theorem Eff.cold_pending (p : Power) : ((Eff.cold p).apply s).pending = s.pending := rfl
@[simp] theorem Eff.warm_pw (p : Power) : ((Eff.warm p).apply s).pw = p := rfl
@[simp] theorem Eff.warm_gmem (p : Power) : ((Eff.warm p).apply s).gmem = s.gmem := rfl
@[simp] theorem Eff.warm_written (p : Power) : ((Eff.warm p).apply s).written = s.written := rfl
@[simp] theorem Eff.warm_freeCtr (p : Power) : ((Eff.warm p).apply s).freeCtr = s.freeCtr := rfl
@[simp] theorem Eff.warm_pending (p : Power) : ((Eff.warm p).apply s).pending = s.pending := rfl
@[simp] theorem Eff.warm_tb (p : Power) : ((Eff.warm p).apply s).tb = s.tb := rfl
@[simp] theorem Eff.warm_hostResp (p : Power) : ((Eff.warm p).apply s).hostResp = s.hostResp := rfl

@[simp] theorem Eff.cold_regs (p : Power) : ((Eff.cold p).apply s).regs = State.reset.regs := rfl
@[simp] theorem Eff.cold_tb (p : Power) : ((Eff.cold p).apply s).tb = State.reset.tb := rfl
@[simp] theorem Eff.cold_recs (p : Power) : ((Eff.cold p).apply s).recs = State.reset.recs := rfl
@[simp] theorem Eff.cold_fw (p : Power) : ((Eff.cold p).apply s).fw = State.reset.fw := rfl
@[simp] theorem Eff.cold_pairs (p : Power) : ((Eff.cold p).apply s).pairs = State.reset.pairs := rfl
@[simp] theorem Eff.cold_ctxs (p : Power) : ((Eff.cold p).apply s).ctxs = State.reset.ctxs := rfl
@[simp] theorem Eff.cold_models (p : Power) : ((Eff.cold p).apply s).models = State.reset.models := rfl
@[simp] theorem Eff.cold_entries (p : Power) : ((Eff.cold p).apply s).entries = State.reset.entries := rfl
@[simp] theorem Eff.cold_sems (p : Power) : ((Eff.cold p).apply s).sems = State.reset.sems := rfl
@[simp] theorem Eff.cold_bars (p : Power) : ((Eff.cold p).apply s).bars = State.reset.bars := rfl
@[simp] theorem Eff.cold_hubRegs (p : Power) : ((Eff.cold p).apply s).hubRegs = State.reset.hubRegs := rfl
@[simp] theorem Eff.cold_stu (p : Power) : ((Eff.cold p).apply s).stu = State.reset.stu := rfl
@[simp] theorem Eff.cold_cores (p : Power) : ((Eff.cold p).apply s).cores = State.reset.cores := rfl
@[simp] theorem Eff.cold_spads (p : Power) : ((Eff.cold p).apply s).spads = State.reset.spads := rfl
@[simp] theorem Eff.cold_msgs (p : Power) : ((Eff.cold p).apply s).msgs = State.reset.msgs := rfl
@[simp] theorem Eff.cold_stns (p : Power) : ((Eff.cold p).apply s).stns = State.reset.stns := rfl
@[simp] theorem Eff.cold_groups (p : Power) : ((Eff.cold p).apply s).groups = State.reset.groups := rfl
@[simp] theorem Eff.cold_ctl (p : Power) : ((Eff.cold p).apply s).ctl = State.reset.ctl := rfl
@[simp] theorem Eff.cold_links (p : Power) : ((Eff.cold p).apply s).links = State.reset.links := rfl
@[simp] theorem Eff.cold_slices (p : Power) : ((Eff.cold p).apply s).slices = State.reset.slices := rfl
@[simp] theorem Eff.cold_imap (p : Power) : ((Eff.cold p).apply s).imap = State.reset.imap := rfl
@[simp] theorem Eff.cold_splitA (p : Power) : ((Eff.cold p).apply s).splitA = State.reset.splitA := rfl
@[simp] theorem Eff.cold_splitB (p : Power) : ((Eff.cold p).apply s).splitB = State.reset.splitB := rfl
@[simp] theorem Eff.cold_nextGroup (p : Power) : ((Eff.cold p).apply s).nextGroup = State.reset.nextGroup := rfl
@[simp] theorem Eff.cold_mods (p : Power) : ((Eff.cold p).apply s).mods = State.reset.mods := rfl
@[simp] theorem Eff.cold_health (p : Power) : ((Eff.cold p).apply s).health = State.reset.health := rfl
@[simp] theorem Eff.cold_snap (p : Power) : ((Eff.cold p).apply s).snap = State.reset.snap := rfl
@[simp] theorem Eff.cold_dbg (p : Power) : ((Eff.cold p).apply s).dbg = State.reset.dbg := rfl
@[simp] theorem Eff.cold_resets (p : Power) : ((Eff.cold p).apply s).resets = State.reset.resets := rfl
@[simp] theorem Eff.cold_staged (p : Power) : ((Eff.cold p).apply s).staged = State.reset.staged := rfl
@[simp] theorem Eff.cold_sets (p : Power) : ((Eff.cold p).apply s).sets = State.reset.sets := rfl
@[simp] theorem Eff.cold_hostResp (p : Power) : ((Eff.cold p).apply s).hostResp = State.reset.hostResp := rfl

@[simp] theorem Eff.warm_recs (p : Power) : ((Eff.warm p).apply s).recs = State.reset.recs := rfl
@[simp] theorem Eff.warm_pairs (p : Power) : ((Eff.warm p).apply s).pairs = State.reset.pairs := rfl
@[simp] theorem Eff.warm_ctxs (p : Power) : ((Eff.warm p).apply s).ctxs = State.reset.ctxs := rfl
@[simp] theorem Eff.warm_models (p : Power) : ((Eff.warm p).apply s).models = State.reset.models := rfl
@[simp] theorem Eff.warm_entries (p : Power) : ((Eff.warm p).apply s).entries = State.reset.entries := rfl
@[simp] theorem Eff.warm_sems (p : Power) : ((Eff.warm p).apply s).sems = State.reset.sems := rfl
@[simp] theorem Eff.warm_bars (p : Power) : ((Eff.warm p).apply s).bars = State.reset.bars := rfl
@[simp] theorem Eff.warm_hubRegs (p : Power) : ((Eff.warm p).apply s).hubRegs = State.reset.hubRegs := rfl
@[simp] theorem Eff.warm_stu (p : Power) : ((Eff.warm p).apply s).stu = State.reset.stu := rfl
@[simp] theorem Eff.warm_cores (p : Power) : ((Eff.warm p).apply s).cores = State.reset.cores := rfl
@[simp] theorem Eff.warm_spads (p : Power) : ((Eff.warm p).apply s).spads = State.reset.spads := rfl
@[simp] theorem Eff.warm_msgs (p : Power) : ((Eff.warm p).apply s).msgs = State.reset.msgs := rfl
@[simp] theorem Eff.warm_stns (p : Power) : ((Eff.warm p).apply s).stns = State.reset.stns := rfl
@[simp] theorem Eff.warm_groups (p : Power) : ((Eff.warm p).apply s).groups = State.reset.groups := rfl
@[simp] theorem Eff.warm_ctl (p : Power) : ((Eff.warm p).apply s).ctl = State.reset.ctl := rfl
@[simp] theorem Eff.warm_links (p : Power) : ((Eff.warm p).apply s).links = State.reset.links := rfl
@[simp] theorem Eff.warm_slices (p : Power) : ((Eff.warm p).apply s).slices = State.reset.slices := rfl
@[simp] theorem Eff.warm_imap (p : Power) : ((Eff.warm p).apply s).imap = State.reset.imap := rfl
@[simp] theorem Eff.warm_splitA (p : Power) : ((Eff.warm p).apply s).splitA = State.reset.splitA := rfl
@[simp] theorem Eff.warm_splitB (p : Power) : ((Eff.warm p).apply s).splitB = State.reset.splitB := rfl
@[simp] theorem Eff.warm_nextGroup (p : Power) : ((Eff.warm p).apply s).nextGroup = State.reset.nextGroup := rfl
@[simp] theorem Eff.warm_mods (p : Power) : ((Eff.warm p).apply s).mods = State.reset.mods := rfl
@[simp] theorem Eff.warm_health (p : Power) : ((Eff.warm p).apply s).health = State.reset.health := rfl
@[simp] theorem Eff.warm_snap (p : Power) : ((Eff.warm p).apply s).snap = State.reset.snap := rfl
@[simp] theorem Eff.warm_dbg (p : Power) : ((Eff.warm p).apply s).dbg = State.reset.dbg := rfl
@[simp] theorem Eff.warm_staged (p : Power) : ((Eff.warm p).apply s).staged = State.reset.staged := rfl
@[simp] theorem Eff.warm_sets (p : Power) : ((Eff.warm p).apply s).sets = State.reset.sets := rfl

/-! ### What the accessors read -/

@[simp] theorem Eff.tb_get_reg (v : Timebase) (h : Fld) (m : Nat) : ((Eff.tb v).apply s).reg h m = s.reg h m := rfl
@[simp] theorem Eff.pw_get_reg (v : Power) (h : Fld) (m : Nat) : ((Eff.pw v).apply s).reg h m = s.reg h m := rfl
@[simp] theorem Eff.recs_get_reg (v : Records) (h : Fld) (m : Nat) : ((Eff.recs v).apply s).reg h m = s.reg h m := rfl
@[simp] theorem Eff.fw_get_reg (v : Firmware) (h : Fld) (m : Nat) : ((Eff.fw v).apply s).reg h m = s.reg h m := rfl
@[simp] theorem Eff.pair_get_reg (n : Nat) (v : Pair) (h : Fld) (m : Nat) : ((Eff.pair n v).apply s).reg h m = s.reg h m := rfl
@[simp] theorem Eff.ctx_get_reg (n : Nat) (v : Ctx) (h : Fld) (m : Nat) : ((Eff.ctx n v).apply s).reg h m = s.reg h m := rfl
@[simp] theorem Eff.model_get_reg (n : Nat) (v : Model) (h : Fld) (m : Nat) : ((Eff.model n v).apply s).reg h m = s.reg h m := rfl
@[simp] theorem Eff.entry_get_reg (n : Nat) (v : Entry) (h : Fld) (m : Nat) : ((Eff.entry n v).apply s).reg h m = s.reg h m := rfl
@[simp] theorem Eff.sem_get_reg (n : Nat) (v : Sem) (h : Fld) (m : Nat) : ((Eff.sem n v).apply s).reg h m = s.reg h m := rfl
@[simp] theorem Eff.bar_get_reg (n : Nat) (v : Barrier) (h : Fld) (m : Nat) : ((Eff.bar n v).apply s).reg h m = s.reg h m := rfl
@[simp] theorem Eff.hubReg_get_reg (n : Nat) (v : Option HubReg) (h : Fld) (m : Nat) : ((Eff.hubReg n v).apply s).reg h m = s.reg h m := rfl
@[simp] theorem Eff.stu_get_reg (v : Stu) (h : Fld) (m : Nat) : ((Eff.stu v).apply s).reg h m = s.reg h m := rfl
@[simp] theorem Eff.core_get_reg (n : Nat) (v : Core) (h : Fld) (m : Nat) : ((Eff.core n v).apply s).reg h m = s.reg h m := rfl
@[simp] theorem Eff.spData_get_reg (n a : Nat) (v : List Byte) (h : Fld) (m : Nat) : ((Eff.spData n a v).apply s).reg h m = s.reg h m := rfl
@[simp] theorem Eff.spSyn_get_reg (n g v : Nat) (h : Fld) (m : Nat) : ((Eff.spSyn n g v).apply s).reg h m = s.reg h m := rfl
@[simp] theorem Eff.spClear_get_reg (n : Nat) (h : Fld) (m : Nat) : ((Eff.spClear n).apply s).reg h m = s.reg h m := rfl
@[simp] theorem Eff.spZero_get_reg (n a k : Nat) (h : Fld) (m : Nat) : ((Eff.spZero n a k).apply s).reg h m = s.reg h m := rfl
@[simp] theorem Eff.gmData_get_reg (a : Nat) (v : List Byte) (h : Fld) (m : Nat) : ((Eff.gmData a v).apply s).reg h m = s.reg h m := rfl
@[simp] theorem Eff.gmSyn_get_reg (g v : Nat) (h : Fld) (m : Nat) : ((Eff.gmSyn g v).apply s).reg h m = s.reg h m := rfl
@[simp] theorem Eff.msgs_get_reg (v : List Msg) (h : Fld) (m : Nat) : ((Eff.msgs v).apply s).reg h m = s.reg h m := rfl
@[simp] theorem Eff.stn_get_reg (n : Nat) (v : Station) (h : Fld) (m : Nat) : ((Eff.stn n v).apply s).reg h m = s.reg h m := rfl
@[simp] theorem Eff.groups_get_reg (v : List NcuGroup) (k : Nat) (h : Fld) (m : Nat) : ((Eff.groups v k).apply s).reg h m = s.reg h m := rfl
@[simp] theorem Eff.mod_get_reg (n : Nat) (v : Module) (h : Fld) (m : Nat) : ((Eff.mod n v).apply s).reg h m = s.reg h m := rfl
@[simp] theorem Eff.ctl_get_reg (n : Nat) (v : List LCtl) (h : Fld) (m : Nat) : ((Eff.ctl n v).apply s).reg h m = s.reg h m := rfl
@[simp] theorem Eff.link_get_reg (n : Nat) (v : Link) (h : Fld) (m : Nat) : ((Eff.link n v).apply s).reg h m = s.reg h m := rfl
@[simp] theorem Eff.slices_get_reg (v : List Slice) (h : Fld) (m : Nat) : ((Eff.slices v).apply s).reg h m = s.reg h m := rfl
@[simp] theorem Eff.imap_get_reg (n : Nat) (v : Option (Nat × Nat × Nat × Nat)) (h : Fld) (m : Nat) : ((Eff.imap n v).apply s).reg h m = s.reg h m := rfl
@[simp] theorem Eff.split_get_reg (a b : Nat) (h : Fld) (m : Nat) : ((Eff.split a b).apply s).reg h m = s.reg h m := rfl
@[simp] theorem Eff.health_get_reg (v : Health) (h : Fld) (m : Nat) : ((Eff.health v).apply s).reg h m = s.reg h m := rfl
@[simp] theorem Eff.snap_get_reg (v : Snap) (h : Fld) (m : Nat) : ((Eff.snap v).apply s).reg h m = s.reg h m := rfl
@[simp] theorem Eff.dbg_get_reg (v : Debug) (h : Fld) (m : Nat) : ((Eff.dbg v).apply s).reg h m = s.reg h m := rfl
@[simp] theorem Eff.resets_get_reg (v : Resets) (h : Fld) (m : Nat) : ((Eff.resets v).apply s).reg h m = s.reg h m := rfl
@[simp] theorem Eff.staged_get_reg (v : List Staged) (h : Fld) (m : Nat) : ((Eff.staged v).apply s).reg h m = s.reg h m := rfl
@[simp] theorem Eff.sets_get_reg (v : List CommitSet) (h : Fld) (m : Nat) : ((Eff.sets v).apply s).reg h m = s.reg h m := rfl
@[simp] theorem Eff.resp_get_reg (v : Option HostResp) (h : Fld) (m : Nat) : ((Eff.resp v).apply s).reg h m = s.reg h m := rfl
@[simp] theorem Eff.fresh_get_reg (n : Nat) (h : Fld) (m : Nat) : ((Eff.fresh n).apply s).reg h m = s.reg h m := rfl

@[simp] theorem Eff.reg_get_core (f : Fld) (c v : Nat) (m : Nat) : ((Eff.reg f c v).apply s).core m = s.core m := rfl
@[simp] theorem Eff.regsDrop_get_core (d : Nat → Nat → Bool) (m : Nat) : ((Eff.regsDrop d).apply s).core m = s.core m := rfl
@[simp] theorem Eff.tb_get_core (v : Timebase) (m : Nat) : ((Eff.tb v).apply s).core m = s.core m := rfl
@[simp] theorem Eff.pw_get_core (v : Power) (m : Nat) : ((Eff.pw v).apply s).core m = s.core m := rfl
@[simp] theorem Eff.recs_get_core (v : Records) (m : Nat) : ((Eff.recs v).apply s).core m = s.core m := rfl
@[simp] theorem Eff.fw_get_core (v : Firmware) (m : Nat) : ((Eff.fw v).apply s).core m = s.core m := rfl
@[simp] theorem Eff.pair_get_core (n : Nat) (v : Pair) (m : Nat) : ((Eff.pair n v).apply s).core m = s.core m := rfl
@[simp] theorem Eff.ctx_get_core (n : Nat) (v : Ctx) (m : Nat) : ((Eff.ctx n v).apply s).core m = s.core m := rfl
@[simp] theorem Eff.model_get_core (n : Nat) (v : Model) (m : Nat) : ((Eff.model n v).apply s).core m = s.core m := rfl
@[simp] theorem Eff.entry_get_core (n : Nat) (v : Entry) (m : Nat) : ((Eff.entry n v).apply s).core m = s.core m := rfl
@[simp] theorem Eff.sem_get_core (n : Nat) (v : Sem) (m : Nat) : ((Eff.sem n v).apply s).core m = s.core m := rfl
@[simp] theorem Eff.bar_get_core (n : Nat) (v : Barrier) (m : Nat) : ((Eff.bar n v).apply s).core m = s.core m := rfl
@[simp] theorem Eff.hubReg_get_core (n : Nat) (v : Option HubReg) (m : Nat) : ((Eff.hubReg n v).apply s).core m = s.core m := rfl
@[simp] theorem Eff.stu_get_core (v : Stu) (m : Nat) : ((Eff.stu v).apply s).core m = s.core m := rfl
@[simp] theorem Eff.spData_get_core (n a : Nat) (v : List Byte) (m : Nat) : ((Eff.spData n a v).apply s).core m = s.core m := rfl
@[simp] theorem Eff.spSyn_get_core (n g v : Nat) (m : Nat) : ((Eff.spSyn n g v).apply s).core m = s.core m := rfl
@[simp] theorem Eff.spClear_get_core (n : Nat) (m : Nat) : ((Eff.spClear n).apply s).core m = s.core m := rfl
@[simp] theorem Eff.spZero_get_core (n a k : Nat) (m : Nat) : ((Eff.spZero n a k).apply s).core m = s.core m := rfl
@[simp] theorem Eff.gmData_get_core (a : Nat) (v : List Byte) (m : Nat) : ((Eff.gmData a v).apply s).core m = s.core m := rfl
@[simp] theorem Eff.gmSyn_get_core (g v : Nat) (m : Nat) : ((Eff.gmSyn g v).apply s).core m = s.core m := rfl
@[simp] theorem Eff.msgs_get_core (v : List Msg) (m : Nat) : ((Eff.msgs v).apply s).core m = s.core m := rfl
@[simp] theorem Eff.stn_get_core (n : Nat) (v : Station) (m : Nat) : ((Eff.stn n v).apply s).core m = s.core m := rfl
@[simp] theorem Eff.groups_get_core (v : List NcuGroup) (k : Nat) (m : Nat) : ((Eff.groups v k).apply s).core m = s.core m := rfl
@[simp] theorem Eff.mod_get_core (n : Nat) (v : Module) (m : Nat) : ((Eff.mod n v).apply s).core m = s.core m := rfl
@[simp] theorem Eff.ctl_get_core (n : Nat) (v : List LCtl) (m : Nat) : ((Eff.ctl n v).apply s).core m = s.core m := rfl
@[simp] theorem Eff.link_get_core (n : Nat) (v : Link) (m : Nat) : ((Eff.link n v).apply s).core m = s.core m := rfl
@[simp] theorem Eff.slices_get_core (v : List Slice) (m : Nat) : ((Eff.slices v).apply s).core m = s.core m := rfl
@[simp] theorem Eff.imap_get_core (n : Nat) (v : Option (Nat × Nat × Nat × Nat)) (m : Nat) : ((Eff.imap n v).apply s).core m = s.core m := rfl
@[simp] theorem Eff.split_get_core (a b : Nat) (m : Nat) : ((Eff.split a b).apply s).core m = s.core m := rfl
@[simp] theorem Eff.health_get_core (v : Health) (m : Nat) : ((Eff.health v).apply s).core m = s.core m := rfl
@[simp] theorem Eff.snap_get_core (v : Snap) (m : Nat) : ((Eff.snap v).apply s).core m = s.core m := rfl
@[simp] theorem Eff.dbg_get_core (v : Debug) (m : Nat) : ((Eff.dbg v).apply s).core m = s.core m := rfl
@[simp] theorem Eff.resets_get_core (v : Resets) (m : Nat) : ((Eff.resets v).apply s).core m = s.core m := rfl
@[simp] theorem Eff.staged_get_core (v : List Staged) (m : Nat) : ((Eff.staged v).apply s).core m = s.core m := rfl
@[simp] theorem Eff.sets_get_core (v : List CommitSet) (m : Nat) : ((Eff.sets v).apply s).core m = s.core m := rfl
@[simp] theorem Eff.resp_get_core (v : Option HostResp) (m : Nat) : ((Eff.resp v).apply s).core m = s.core m := rfl
@[simp] theorem Eff.fresh_get_core (n : Nat) (m : Nat) : ((Eff.fresh n).apply s).core m = s.core m := rfl
@[simp] theorem Eff.core_get_same (n : Nat) (v : Core) : ((Eff.core n v).apply s).core n = v :=
  tabGet_tabSet_same _ _ _ _
theorem Eff.core_get_ne (n m : Nat) (v : Core) (h : m ≠ n) : ((Eff.core n v).apply s).core m = s.core m :=
  tabGet_tabSet_ne _ _ _ h

@[simp] theorem Eff.reg_get_ctx (f : Fld) (c v : Nat) (m : Nat) : ((Eff.reg f c v).apply s).ctx m = s.ctx m := rfl
@[simp] theorem Eff.regsDrop_get_ctx (d : Nat → Nat → Bool) (m : Nat) : ((Eff.regsDrop d).apply s).ctx m = s.ctx m := rfl
@[simp] theorem Eff.tb_get_ctx (v : Timebase) (m : Nat) : ((Eff.tb v).apply s).ctx m = s.ctx m := rfl
@[simp] theorem Eff.pw_get_ctx (v : Power) (m : Nat) : ((Eff.pw v).apply s).ctx m = s.ctx m := rfl
@[simp] theorem Eff.recs_get_ctx (v : Records) (m : Nat) : ((Eff.recs v).apply s).ctx m = s.ctx m := rfl
@[simp] theorem Eff.fw_get_ctx (v : Firmware) (m : Nat) : ((Eff.fw v).apply s).ctx m = s.ctx m := rfl
@[simp] theorem Eff.pair_get_ctx (n : Nat) (v : Pair) (m : Nat) : ((Eff.pair n v).apply s).ctx m = s.ctx m := rfl
@[simp] theorem Eff.model_get_ctx (n : Nat) (v : Model) (m : Nat) : ((Eff.model n v).apply s).ctx m = s.ctx m := rfl
@[simp] theorem Eff.entry_get_ctx (n : Nat) (v : Entry) (m : Nat) : ((Eff.entry n v).apply s).ctx m = s.ctx m := rfl
@[simp] theorem Eff.sem_get_ctx (n : Nat) (v : Sem) (m : Nat) : ((Eff.sem n v).apply s).ctx m = s.ctx m := rfl
@[simp] theorem Eff.bar_get_ctx (n : Nat) (v : Barrier) (m : Nat) : ((Eff.bar n v).apply s).ctx m = s.ctx m := rfl
@[simp] theorem Eff.hubReg_get_ctx (n : Nat) (v : Option HubReg) (m : Nat) : ((Eff.hubReg n v).apply s).ctx m = s.ctx m := rfl
@[simp] theorem Eff.stu_get_ctx (v : Stu) (m : Nat) : ((Eff.stu v).apply s).ctx m = s.ctx m := rfl
@[simp] theorem Eff.core_get_ctx (n : Nat) (v : Core) (m : Nat) : ((Eff.core n v).apply s).ctx m = s.ctx m := rfl
@[simp] theorem Eff.spData_get_ctx (n a : Nat) (v : List Byte) (m : Nat) : ((Eff.spData n a v).apply s).ctx m = s.ctx m := rfl
@[simp] theorem Eff.spSyn_get_ctx (n g v : Nat) (m : Nat) : ((Eff.spSyn n g v).apply s).ctx m = s.ctx m := rfl
@[simp] theorem Eff.spClear_get_ctx (n : Nat) (m : Nat) : ((Eff.spClear n).apply s).ctx m = s.ctx m := rfl
@[simp] theorem Eff.spZero_get_ctx (n a k : Nat) (m : Nat) : ((Eff.spZero n a k).apply s).ctx m = s.ctx m := rfl
@[simp] theorem Eff.gmData_get_ctx (a : Nat) (v : List Byte) (m : Nat) : ((Eff.gmData a v).apply s).ctx m = s.ctx m := rfl
@[simp] theorem Eff.gmSyn_get_ctx (g v : Nat) (m : Nat) : ((Eff.gmSyn g v).apply s).ctx m = s.ctx m := rfl
@[simp] theorem Eff.msgs_get_ctx (v : List Msg) (m : Nat) : ((Eff.msgs v).apply s).ctx m = s.ctx m := rfl
@[simp] theorem Eff.stn_get_ctx (n : Nat) (v : Station) (m : Nat) : ((Eff.stn n v).apply s).ctx m = s.ctx m := rfl
@[simp] theorem Eff.groups_get_ctx (v : List NcuGroup) (k : Nat) (m : Nat) : ((Eff.groups v k).apply s).ctx m = s.ctx m := rfl
@[simp] theorem Eff.mod_get_ctx (n : Nat) (v : Module) (m : Nat) : ((Eff.mod n v).apply s).ctx m = s.ctx m := rfl
@[simp] theorem Eff.ctl_get_ctx (n : Nat) (v : List LCtl) (m : Nat) : ((Eff.ctl n v).apply s).ctx m = s.ctx m := rfl
@[simp] theorem Eff.link_get_ctx (n : Nat) (v : Link) (m : Nat) : ((Eff.link n v).apply s).ctx m = s.ctx m := rfl
@[simp] theorem Eff.slices_get_ctx (v : List Slice) (m : Nat) : ((Eff.slices v).apply s).ctx m = s.ctx m := rfl
@[simp] theorem Eff.imap_get_ctx (n : Nat) (v : Option (Nat × Nat × Nat × Nat)) (m : Nat) : ((Eff.imap n v).apply s).ctx m = s.ctx m := rfl
@[simp] theorem Eff.split_get_ctx (a b : Nat) (m : Nat) : ((Eff.split a b).apply s).ctx m = s.ctx m := rfl
@[simp] theorem Eff.health_get_ctx (v : Health) (m : Nat) : ((Eff.health v).apply s).ctx m = s.ctx m := rfl
@[simp] theorem Eff.snap_get_ctx (v : Snap) (m : Nat) : ((Eff.snap v).apply s).ctx m = s.ctx m := rfl
@[simp] theorem Eff.dbg_get_ctx (v : Debug) (m : Nat) : ((Eff.dbg v).apply s).ctx m = s.ctx m := rfl
@[simp] theorem Eff.resets_get_ctx (v : Resets) (m : Nat) : ((Eff.resets v).apply s).ctx m = s.ctx m := rfl
@[simp] theorem Eff.staged_get_ctx (v : List Staged) (m : Nat) : ((Eff.staged v).apply s).ctx m = s.ctx m := rfl
@[simp] theorem Eff.sets_get_ctx (v : List CommitSet) (m : Nat) : ((Eff.sets v).apply s).ctx m = s.ctx m := rfl
@[simp] theorem Eff.resp_get_ctx (v : Option HostResp) (m : Nat) : ((Eff.resp v).apply s).ctx m = s.ctx m := rfl
@[simp] theorem Eff.fresh_get_ctx (n : Nat) (m : Nat) : ((Eff.fresh n).apply s).ctx m = s.ctx m := rfl
@[simp] theorem Eff.ctx_get_same (n : Nat) (v : Ctx) : ((Eff.ctx n v).apply s).ctx n = v :=
  tabGet_tabSet_same _ _ _ _
theorem Eff.ctx_get_ne (n m : Nat) (v : Ctx) (h : m ≠ n) : ((Eff.ctx n v).apply s).ctx m = s.ctx m :=
  tabGet_tabSet_ne _ _ _ h

@[simp] theorem Eff.reg_get_pair (f : Fld) (c v : Nat) (m : Nat) : ((Eff.reg f c v).apply s).pair m = s.pair m := rfl
@[simp] theorem Eff.regsDrop_get_pair (d : Nat → Nat → Bool) (m : Nat) : ((Eff.regsDrop d).apply s).pair m = s.pair m := rfl
@[simp] theorem Eff.tb_get_pair (v : Timebase) (m : Nat) : ((Eff.tb v).apply s).pair m = s.pair m := rfl
@[simp] theorem Eff.pw_get_pair (v : Power) (m : Nat) : ((Eff.pw v).apply s).pair m = s.pair m := rfl
@[simp] theorem Eff.recs_get_pair (v : Records) (m : Nat) : ((Eff.recs v).apply s).pair m = s.pair m := rfl
@[simp] theorem Eff.fw_get_pair (v : Firmware) (m : Nat) : ((Eff.fw v).apply s).pair m = s.pair m := rfl
@[simp] theorem Eff.ctx_get_pair (n : Nat) (v : Ctx) (m : Nat) : ((Eff.ctx n v).apply s).pair m = s.pair m := rfl
@[simp] theorem Eff.model_get_pair (n : Nat) (v : Model) (m : Nat) : ((Eff.model n v).apply s).pair m = s.pair m := rfl
@[simp] theorem Eff.entry_get_pair (n : Nat) (v : Entry) (m : Nat) : ((Eff.entry n v).apply s).pair m = s.pair m := rfl
@[simp] theorem Eff.sem_get_pair (n : Nat) (v : Sem) (m : Nat) : ((Eff.sem n v).apply s).pair m = s.pair m := rfl
@[simp] theorem Eff.bar_get_pair (n : Nat) (v : Barrier) (m : Nat) : ((Eff.bar n v).apply s).pair m = s.pair m := rfl
@[simp] theorem Eff.hubReg_get_pair (n : Nat) (v : Option HubReg) (m : Nat) : ((Eff.hubReg n v).apply s).pair m = s.pair m := rfl
@[simp] theorem Eff.stu_get_pair (v : Stu) (m : Nat) : ((Eff.stu v).apply s).pair m = s.pair m := rfl
@[simp] theorem Eff.core_get_pair (n : Nat) (v : Core) (m : Nat) : ((Eff.core n v).apply s).pair m = s.pair m := rfl
@[simp] theorem Eff.spData_get_pair (n a : Nat) (v : List Byte) (m : Nat) : ((Eff.spData n a v).apply s).pair m = s.pair m := rfl
@[simp] theorem Eff.spSyn_get_pair (n g v : Nat) (m : Nat) : ((Eff.spSyn n g v).apply s).pair m = s.pair m := rfl
@[simp] theorem Eff.spClear_get_pair (n : Nat) (m : Nat) : ((Eff.spClear n).apply s).pair m = s.pair m := rfl
@[simp] theorem Eff.spZero_get_pair (n a k : Nat) (m : Nat) : ((Eff.spZero n a k).apply s).pair m = s.pair m := rfl
@[simp] theorem Eff.gmData_get_pair (a : Nat) (v : List Byte) (m : Nat) : ((Eff.gmData a v).apply s).pair m = s.pair m := rfl
@[simp] theorem Eff.gmSyn_get_pair (g v : Nat) (m : Nat) : ((Eff.gmSyn g v).apply s).pair m = s.pair m := rfl
@[simp] theorem Eff.msgs_get_pair (v : List Msg) (m : Nat) : ((Eff.msgs v).apply s).pair m = s.pair m := rfl
@[simp] theorem Eff.stn_get_pair (n : Nat) (v : Station) (m : Nat) : ((Eff.stn n v).apply s).pair m = s.pair m := rfl
@[simp] theorem Eff.groups_get_pair (v : List NcuGroup) (k : Nat) (m : Nat) : ((Eff.groups v k).apply s).pair m = s.pair m := rfl
@[simp] theorem Eff.mod_get_pair (n : Nat) (v : Module) (m : Nat) : ((Eff.mod n v).apply s).pair m = s.pair m := rfl
@[simp] theorem Eff.ctl_get_pair (n : Nat) (v : List LCtl) (m : Nat) : ((Eff.ctl n v).apply s).pair m = s.pair m := rfl
@[simp] theorem Eff.link_get_pair (n : Nat) (v : Link) (m : Nat) : ((Eff.link n v).apply s).pair m = s.pair m := rfl
@[simp] theorem Eff.slices_get_pair (v : List Slice) (m : Nat) : ((Eff.slices v).apply s).pair m = s.pair m := rfl
@[simp] theorem Eff.imap_get_pair (n : Nat) (v : Option (Nat × Nat × Nat × Nat)) (m : Nat) : ((Eff.imap n v).apply s).pair m = s.pair m := rfl
@[simp] theorem Eff.split_get_pair (a b : Nat) (m : Nat) : ((Eff.split a b).apply s).pair m = s.pair m := rfl
@[simp] theorem Eff.health_get_pair (v : Health) (m : Nat) : ((Eff.health v).apply s).pair m = s.pair m := rfl
@[simp] theorem Eff.snap_get_pair (v : Snap) (m : Nat) : ((Eff.snap v).apply s).pair m = s.pair m := rfl
@[simp] theorem Eff.dbg_get_pair (v : Debug) (m : Nat) : ((Eff.dbg v).apply s).pair m = s.pair m := rfl
@[simp] theorem Eff.resets_get_pair (v : Resets) (m : Nat) : ((Eff.resets v).apply s).pair m = s.pair m := rfl
@[simp] theorem Eff.staged_get_pair (v : List Staged) (m : Nat) : ((Eff.staged v).apply s).pair m = s.pair m := rfl
@[simp] theorem Eff.sets_get_pair (v : List CommitSet) (m : Nat) : ((Eff.sets v).apply s).pair m = s.pair m := rfl
@[simp] theorem Eff.resp_get_pair (v : Option HostResp) (m : Nat) : ((Eff.resp v).apply s).pair m = s.pair m := rfl
@[simp] theorem Eff.fresh_get_pair (n : Nat) (m : Nat) : ((Eff.fresh n).apply s).pair m = s.pair m := rfl
@[simp] theorem Eff.pair_get_same (n : Nat) (v : Pair) : ((Eff.pair n v).apply s).pair n = v :=
  tabGet_tabSet_same _ _ _ _
theorem Eff.pair_get_ne (n m : Nat) (v : Pair) (h : m ≠ n) : ((Eff.pair n v).apply s).pair m = s.pair m :=
  tabGet_tabSet_ne _ _ _ h

@[simp] theorem Eff.reg_get_model (f : Fld) (c v : Nat) (m : Nat) : ((Eff.reg f c v).apply s).model m = s.model m := rfl
@[simp] theorem Eff.regsDrop_get_model (d : Nat → Nat → Bool) (m : Nat) : ((Eff.regsDrop d).apply s).model m = s.model m := rfl
@[simp] theorem Eff.tb_get_model (v : Timebase) (m : Nat) : ((Eff.tb v).apply s).model m = s.model m := rfl
@[simp] theorem Eff.pw_get_model (v : Power) (m : Nat) : ((Eff.pw v).apply s).model m = s.model m := rfl
@[simp] theorem Eff.recs_get_model (v : Records) (m : Nat) : ((Eff.recs v).apply s).model m = s.model m := rfl
@[simp] theorem Eff.fw_get_model (v : Firmware) (m : Nat) : ((Eff.fw v).apply s).model m = s.model m := rfl
@[simp] theorem Eff.pair_get_model (n : Nat) (v : Pair) (m : Nat) : ((Eff.pair n v).apply s).model m = s.model m := rfl
@[simp] theorem Eff.ctx_get_model (n : Nat) (v : Ctx) (m : Nat) : ((Eff.ctx n v).apply s).model m = s.model m := rfl
@[simp] theorem Eff.entry_get_model (n : Nat) (v : Entry) (m : Nat) : ((Eff.entry n v).apply s).model m = s.model m := rfl
@[simp] theorem Eff.sem_get_model (n : Nat) (v : Sem) (m : Nat) : ((Eff.sem n v).apply s).model m = s.model m := rfl
@[simp] theorem Eff.bar_get_model (n : Nat) (v : Barrier) (m : Nat) : ((Eff.bar n v).apply s).model m = s.model m := rfl
@[simp] theorem Eff.hubReg_get_model (n : Nat) (v : Option HubReg) (m : Nat) : ((Eff.hubReg n v).apply s).model m = s.model m := rfl
@[simp] theorem Eff.stu_get_model (v : Stu) (m : Nat) : ((Eff.stu v).apply s).model m = s.model m := rfl
@[simp] theorem Eff.core_get_model (n : Nat) (v : Core) (m : Nat) : ((Eff.core n v).apply s).model m = s.model m := rfl
@[simp] theorem Eff.spData_get_model (n a : Nat) (v : List Byte) (m : Nat) : ((Eff.spData n a v).apply s).model m = s.model m := rfl
@[simp] theorem Eff.spSyn_get_model (n g v : Nat) (m : Nat) : ((Eff.spSyn n g v).apply s).model m = s.model m := rfl
@[simp] theorem Eff.spClear_get_model (n : Nat) (m : Nat) : ((Eff.spClear n).apply s).model m = s.model m := rfl
@[simp] theorem Eff.spZero_get_model (n a k : Nat) (m : Nat) : ((Eff.spZero n a k).apply s).model m = s.model m := rfl
@[simp] theorem Eff.gmData_get_model (a : Nat) (v : List Byte) (m : Nat) : ((Eff.gmData a v).apply s).model m = s.model m := rfl
@[simp] theorem Eff.gmSyn_get_model (g v : Nat) (m : Nat) : ((Eff.gmSyn g v).apply s).model m = s.model m := rfl
@[simp] theorem Eff.msgs_get_model (v : List Msg) (m : Nat) : ((Eff.msgs v).apply s).model m = s.model m := rfl
@[simp] theorem Eff.stn_get_model (n : Nat) (v : Station) (m : Nat) : ((Eff.stn n v).apply s).model m = s.model m := rfl
@[simp] theorem Eff.groups_get_model (v : List NcuGroup) (k : Nat) (m : Nat) : ((Eff.groups v k).apply s).model m = s.model m := rfl
@[simp] theorem Eff.mod_get_model (n : Nat) (v : Module) (m : Nat) : ((Eff.mod n v).apply s).model m = s.model m := rfl
@[simp] theorem Eff.ctl_get_model (n : Nat) (v : List LCtl) (m : Nat) : ((Eff.ctl n v).apply s).model m = s.model m := rfl
@[simp] theorem Eff.link_get_model (n : Nat) (v : Link) (m : Nat) : ((Eff.link n v).apply s).model m = s.model m := rfl
@[simp] theorem Eff.slices_get_model (v : List Slice) (m : Nat) : ((Eff.slices v).apply s).model m = s.model m := rfl
@[simp] theorem Eff.imap_get_model (n : Nat) (v : Option (Nat × Nat × Nat × Nat)) (m : Nat) : ((Eff.imap n v).apply s).model m = s.model m := rfl
@[simp] theorem Eff.split_get_model (a b : Nat) (m : Nat) : ((Eff.split a b).apply s).model m = s.model m := rfl
@[simp] theorem Eff.health_get_model (v : Health) (m : Nat) : ((Eff.health v).apply s).model m = s.model m := rfl
@[simp] theorem Eff.snap_get_model (v : Snap) (m : Nat) : ((Eff.snap v).apply s).model m = s.model m := rfl
@[simp] theorem Eff.dbg_get_model (v : Debug) (m : Nat) : ((Eff.dbg v).apply s).model m = s.model m := rfl
@[simp] theorem Eff.resets_get_model (v : Resets) (m : Nat) : ((Eff.resets v).apply s).model m = s.model m := rfl
@[simp] theorem Eff.staged_get_model (v : List Staged) (m : Nat) : ((Eff.staged v).apply s).model m = s.model m := rfl
@[simp] theorem Eff.sets_get_model (v : List CommitSet) (m : Nat) : ((Eff.sets v).apply s).model m = s.model m := rfl
@[simp] theorem Eff.resp_get_model (v : Option HostResp) (m : Nat) : ((Eff.resp v).apply s).model m = s.model m := rfl
@[simp] theorem Eff.fresh_get_model (n : Nat) (m : Nat) : ((Eff.fresh n).apply s).model m = s.model m := rfl
@[simp] theorem Eff.model_get_same (n : Nat) (v : Model) : ((Eff.model n v).apply s).model n = v :=
  tabGet_tabSet_same _ _ _ _
theorem Eff.model_get_ne (n m : Nat) (v : Model) (h : m ≠ n) : ((Eff.model n v).apply s).model m = s.model m :=
  tabGet_tabSet_ne _ _ _ h

@[simp] theorem Eff.reg_get_entry (f : Fld) (c v : Nat) (m : Nat) : ((Eff.reg f c v).apply s).entry m = s.entry m := rfl
@[simp] theorem Eff.regsDrop_get_entry (d : Nat → Nat → Bool) (m : Nat) : ((Eff.regsDrop d).apply s).entry m = s.entry m := rfl
@[simp] theorem Eff.tb_get_entry (v : Timebase) (m : Nat) : ((Eff.tb v).apply s).entry m = s.entry m := rfl
@[simp] theorem Eff.pw_get_entry (v : Power) (m : Nat) : ((Eff.pw v).apply s).entry m = s.entry m := rfl
@[simp] theorem Eff.recs_get_entry (v : Records) (m : Nat) : ((Eff.recs v).apply s).entry m = s.entry m := rfl
@[simp] theorem Eff.fw_get_entry (v : Firmware) (m : Nat) : ((Eff.fw v).apply s).entry m = s.entry m := rfl
@[simp] theorem Eff.pair_get_entry (n : Nat) (v : Pair) (m : Nat) : ((Eff.pair n v).apply s).entry m = s.entry m := rfl
@[simp] theorem Eff.ctx_get_entry (n : Nat) (v : Ctx) (m : Nat) : ((Eff.ctx n v).apply s).entry m = s.entry m := rfl
@[simp] theorem Eff.model_get_entry (n : Nat) (v : Model) (m : Nat) : ((Eff.model n v).apply s).entry m = s.entry m := rfl
@[simp] theorem Eff.sem_get_entry (n : Nat) (v : Sem) (m : Nat) : ((Eff.sem n v).apply s).entry m = s.entry m := rfl
@[simp] theorem Eff.bar_get_entry (n : Nat) (v : Barrier) (m : Nat) : ((Eff.bar n v).apply s).entry m = s.entry m := rfl
@[simp] theorem Eff.hubReg_get_entry (n : Nat) (v : Option HubReg) (m : Nat) : ((Eff.hubReg n v).apply s).entry m = s.entry m := rfl
@[simp] theorem Eff.stu_get_entry (v : Stu) (m : Nat) : ((Eff.stu v).apply s).entry m = s.entry m := rfl
@[simp] theorem Eff.core_get_entry (n : Nat) (v : Core) (m : Nat) : ((Eff.core n v).apply s).entry m = s.entry m := rfl
@[simp] theorem Eff.spData_get_entry (n a : Nat) (v : List Byte) (m : Nat) : ((Eff.spData n a v).apply s).entry m = s.entry m := rfl
@[simp] theorem Eff.spSyn_get_entry (n g v : Nat) (m : Nat) : ((Eff.spSyn n g v).apply s).entry m = s.entry m := rfl
@[simp] theorem Eff.spClear_get_entry (n : Nat) (m : Nat) : ((Eff.spClear n).apply s).entry m = s.entry m := rfl
@[simp] theorem Eff.spZero_get_entry (n a k : Nat) (m : Nat) : ((Eff.spZero n a k).apply s).entry m = s.entry m := rfl
@[simp] theorem Eff.gmData_get_entry (a : Nat) (v : List Byte) (m : Nat) : ((Eff.gmData a v).apply s).entry m = s.entry m := rfl
@[simp] theorem Eff.gmSyn_get_entry (g v : Nat) (m : Nat) : ((Eff.gmSyn g v).apply s).entry m = s.entry m := rfl
@[simp] theorem Eff.msgs_get_entry (v : List Msg) (m : Nat) : ((Eff.msgs v).apply s).entry m = s.entry m := rfl
@[simp] theorem Eff.stn_get_entry (n : Nat) (v : Station) (m : Nat) : ((Eff.stn n v).apply s).entry m = s.entry m := rfl
@[simp] theorem Eff.groups_get_entry (v : List NcuGroup) (k : Nat) (m : Nat) : ((Eff.groups v k).apply s).entry m = s.entry m := rfl
@[simp] theorem Eff.mod_get_entry (n : Nat) (v : Module) (m : Nat) : ((Eff.mod n v).apply s).entry m = s.entry m := rfl
@[simp] theorem Eff.ctl_get_entry (n : Nat) (v : List LCtl) (m : Nat) : ((Eff.ctl n v).apply s).entry m = s.entry m := rfl
@[simp] theorem Eff.link_get_entry (n : Nat) (v : Link) (m : Nat) : ((Eff.link n v).apply s).entry m = s.entry m := rfl
@[simp] theorem Eff.slices_get_entry (v : List Slice) (m : Nat) : ((Eff.slices v).apply s).entry m = s.entry m := rfl
@[simp] theorem Eff.imap_get_entry (n : Nat) (v : Option (Nat × Nat × Nat × Nat)) (m : Nat) : ((Eff.imap n v).apply s).entry m = s.entry m := rfl
@[simp] theorem Eff.split_get_entry (a b : Nat) (m : Nat) : ((Eff.split a b).apply s).entry m = s.entry m := rfl
@[simp] theorem Eff.health_get_entry (v : Health) (m : Nat) : ((Eff.health v).apply s).entry m = s.entry m := rfl
@[simp] theorem Eff.snap_get_entry (v : Snap) (m : Nat) : ((Eff.snap v).apply s).entry m = s.entry m := rfl
@[simp] theorem Eff.dbg_get_entry (v : Debug) (m : Nat) : ((Eff.dbg v).apply s).entry m = s.entry m := rfl
@[simp] theorem Eff.resets_get_entry (v : Resets) (m : Nat) : ((Eff.resets v).apply s).entry m = s.entry m := rfl
@[simp] theorem Eff.staged_get_entry (v : List Staged) (m : Nat) : ((Eff.staged v).apply s).entry m = s.entry m := rfl
@[simp] theorem Eff.sets_get_entry (v : List CommitSet) (m : Nat) : ((Eff.sets v).apply s).entry m = s.entry m := rfl
@[simp] theorem Eff.resp_get_entry (v : Option HostResp) (m : Nat) : ((Eff.resp v).apply s).entry m = s.entry m := rfl
@[simp] theorem Eff.fresh_get_entry (n : Nat) (m : Nat) : ((Eff.fresh n).apply s).entry m = s.entry m := rfl
@[simp] theorem Eff.entry_get_same (n : Nat) (v : Entry) : ((Eff.entry n v).apply s).entry n = v :=
  tabGet_tabSet_same _ _ _ _
theorem Eff.entry_get_ne (n m : Nat) (v : Entry) (h : m ≠ n) : ((Eff.entry n v).apply s).entry m = s.entry m :=
  tabGet_tabSet_ne _ _ _ h

@[simp] theorem Eff.reg_get_sem (f : Fld) (c v : Nat) (m : Nat) : ((Eff.reg f c v).apply s).sem m = s.sem m := rfl
@[simp] theorem Eff.regsDrop_get_sem (d : Nat → Nat → Bool) (m : Nat) : ((Eff.regsDrop d).apply s).sem m = s.sem m := rfl
@[simp] theorem Eff.tb_get_sem (v : Timebase) (m : Nat) : ((Eff.tb v).apply s).sem m = s.sem m := rfl
@[simp] theorem Eff.pw_get_sem (v : Power) (m : Nat) : ((Eff.pw v).apply s).sem m = s.sem m := rfl
@[simp] theorem Eff.recs_get_sem (v : Records) (m : Nat) : ((Eff.recs v).apply s).sem m = s.sem m := rfl
@[simp] theorem Eff.fw_get_sem (v : Firmware) (m : Nat) : ((Eff.fw v).apply s).sem m = s.sem m := rfl
@[simp] theorem Eff.pair_get_sem (n : Nat) (v : Pair) (m : Nat) : ((Eff.pair n v).apply s).sem m = s.sem m := rfl
@[simp] theorem Eff.ctx_get_sem (n : Nat) (v : Ctx) (m : Nat) : ((Eff.ctx n v).apply s).sem m = s.sem m := rfl
@[simp] theorem Eff.model_get_sem (n : Nat) (v : Model) (m : Nat) : ((Eff.model n v).apply s).sem m = s.sem m := rfl
@[simp] theorem Eff.entry_get_sem (n : Nat) (v : Entry) (m : Nat) : ((Eff.entry n v).apply s).sem m = s.sem m := rfl
@[simp] theorem Eff.bar_get_sem (n : Nat) (v : Barrier) (m : Nat) : ((Eff.bar n v).apply s).sem m = s.sem m := rfl
@[simp] theorem Eff.hubReg_get_sem (n : Nat) (v : Option HubReg) (m : Nat) : ((Eff.hubReg n v).apply s).sem m = s.sem m := rfl
@[simp] theorem Eff.stu_get_sem (v : Stu) (m : Nat) : ((Eff.stu v).apply s).sem m = s.sem m := rfl
@[simp] theorem Eff.core_get_sem (n : Nat) (v : Core) (m : Nat) : ((Eff.core n v).apply s).sem m = s.sem m := rfl
@[simp] theorem Eff.spData_get_sem (n a : Nat) (v : List Byte) (m : Nat) : ((Eff.spData n a v).apply s).sem m = s.sem m := rfl
@[simp] theorem Eff.spSyn_get_sem (n g v : Nat) (m : Nat) : ((Eff.spSyn n g v).apply s).sem m = s.sem m := rfl
@[simp] theorem Eff.spClear_get_sem (n : Nat) (m : Nat) : ((Eff.spClear n).apply s).sem m = s.sem m := rfl
@[simp] theorem Eff.spZero_get_sem (n a k : Nat) (m : Nat) : ((Eff.spZero n a k).apply s).sem m = s.sem m := rfl
@[simp] theorem Eff.gmData_get_sem (a : Nat) (v : List Byte) (m : Nat) : ((Eff.gmData a v).apply s).sem m = s.sem m := rfl
@[simp] theorem Eff.gmSyn_get_sem (g v : Nat) (m : Nat) : ((Eff.gmSyn g v).apply s).sem m = s.sem m := rfl
@[simp] theorem Eff.msgs_get_sem (v : List Msg) (m : Nat) : ((Eff.msgs v).apply s).sem m = s.sem m := rfl
@[simp] theorem Eff.stn_get_sem (n : Nat) (v : Station) (m : Nat) : ((Eff.stn n v).apply s).sem m = s.sem m := rfl
@[simp] theorem Eff.groups_get_sem (v : List NcuGroup) (k : Nat) (m : Nat) : ((Eff.groups v k).apply s).sem m = s.sem m := rfl
@[simp] theorem Eff.mod_get_sem (n : Nat) (v : Module) (m : Nat) : ((Eff.mod n v).apply s).sem m = s.sem m := rfl
@[simp] theorem Eff.ctl_get_sem (n : Nat) (v : List LCtl) (m : Nat) : ((Eff.ctl n v).apply s).sem m = s.sem m := rfl
@[simp] theorem Eff.link_get_sem (n : Nat) (v : Link) (m : Nat) : ((Eff.link n v).apply s).sem m = s.sem m := rfl
@[simp] theorem Eff.slices_get_sem (v : List Slice) (m : Nat) : ((Eff.slices v).apply s).sem m = s.sem m := rfl
@[simp] theorem Eff.imap_get_sem (n : Nat) (v : Option (Nat × Nat × Nat × Nat)) (m : Nat) : ((Eff.imap n v).apply s).sem m = s.sem m := rfl
@[simp] theorem Eff.split_get_sem (a b : Nat) (m : Nat) : ((Eff.split a b).apply s).sem m = s.sem m := rfl
@[simp] theorem Eff.health_get_sem (v : Health) (m : Nat) : ((Eff.health v).apply s).sem m = s.sem m := rfl
@[simp] theorem Eff.snap_get_sem (v : Snap) (m : Nat) : ((Eff.snap v).apply s).sem m = s.sem m := rfl
@[simp] theorem Eff.dbg_get_sem (v : Debug) (m : Nat) : ((Eff.dbg v).apply s).sem m = s.sem m := rfl
@[simp] theorem Eff.resets_get_sem (v : Resets) (m : Nat) : ((Eff.resets v).apply s).sem m = s.sem m := rfl
@[simp] theorem Eff.staged_get_sem (v : List Staged) (m : Nat) : ((Eff.staged v).apply s).sem m = s.sem m := rfl
@[simp] theorem Eff.sets_get_sem (v : List CommitSet) (m : Nat) : ((Eff.sets v).apply s).sem m = s.sem m := rfl
@[simp] theorem Eff.resp_get_sem (v : Option HostResp) (m : Nat) : ((Eff.resp v).apply s).sem m = s.sem m := rfl
@[simp] theorem Eff.fresh_get_sem (n : Nat) (m : Nat) : ((Eff.fresh n).apply s).sem m = s.sem m := rfl
@[simp] theorem Eff.sem_get_same (n : Nat) (v : Sem) : ((Eff.sem n v).apply s).sem n = v :=
  tabGet_tabSet_same _ _ _ _
theorem Eff.sem_get_ne (n m : Nat) (v : Sem) (h : m ≠ n) : ((Eff.sem n v).apply s).sem m = s.sem m :=
  tabGet_tabSet_ne _ _ _ h

@[simp] theorem Eff.reg_get_bar (f : Fld) (c v : Nat) (m : Nat) : ((Eff.reg f c v).apply s).bar m = s.bar m := rfl
@[simp] theorem Eff.regsDrop_get_bar (d : Nat → Nat → Bool) (m : Nat) : ((Eff.regsDrop d).apply s).bar m = s.bar m := rfl
@[simp] theorem Eff.tb_get_bar (v : Timebase) (m : Nat) : ((Eff.tb v).apply s).bar m = s.bar m := rfl
@[simp] theorem Eff.pw_get_bar (v : Power) (m : Nat) : ((Eff.pw v).apply s).bar m = s.bar m := rfl
@[simp] theorem Eff.recs_get_bar (v : Records) (m : Nat) : ((Eff.recs v).apply s).bar m = s.bar m := rfl
@[simp] theorem Eff.fw_get_bar (v : Firmware) (m : Nat) : ((Eff.fw v).apply s).bar m = s.bar m := rfl
@[simp] theorem Eff.pair_get_bar (n : Nat) (v : Pair) (m : Nat) : ((Eff.pair n v).apply s).bar m = s.bar m := rfl
@[simp] theorem Eff.ctx_get_bar (n : Nat) (v : Ctx) (m : Nat) : ((Eff.ctx n v).apply s).bar m = s.bar m := rfl
@[simp] theorem Eff.model_get_bar (n : Nat) (v : Model) (m : Nat) : ((Eff.model n v).apply s).bar m = s.bar m := rfl
@[simp] theorem Eff.entry_get_bar (n : Nat) (v : Entry) (m : Nat) : ((Eff.entry n v).apply s).bar m = s.bar m := rfl
@[simp] theorem Eff.sem_get_bar (n : Nat) (v : Sem) (m : Nat) : ((Eff.sem n v).apply s).bar m = s.bar m := rfl
@[simp] theorem Eff.hubReg_get_bar (n : Nat) (v : Option HubReg) (m : Nat) : ((Eff.hubReg n v).apply s).bar m = s.bar m := rfl
@[simp] theorem Eff.stu_get_bar (v : Stu) (m : Nat) : ((Eff.stu v).apply s).bar m = s.bar m := rfl
@[simp] theorem Eff.core_get_bar (n : Nat) (v : Core) (m : Nat) : ((Eff.core n v).apply s).bar m = s.bar m := rfl
@[simp] theorem Eff.spData_get_bar (n a : Nat) (v : List Byte) (m : Nat) : ((Eff.spData n a v).apply s).bar m = s.bar m := rfl
@[simp] theorem Eff.spSyn_get_bar (n g v : Nat) (m : Nat) : ((Eff.spSyn n g v).apply s).bar m = s.bar m := rfl
@[simp] theorem Eff.spClear_get_bar (n : Nat) (m : Nat) : ((Eff.spClear n).apply s).bar m = s.bar m := rfl
@[simp] theorem Eff.spZero_get_bar (n a k : Nat) (m : Nat) : ((Eff.spZero n a k).apply s).bar m = s.bar m := rfl
@[simp] theorem Eff.gmData_get_bar (a : Nat) (v : List Byte) (m : Nat) : ((Eff.gmData a v).apply s).bar m = s.bar m := rfl
@[simp] theorem Eff.gmSyn_get_bar (g v : Nat) (m : Nat) : ((Eff.gmSyn g v).apply s).bar m = s.bar m := rfl
@[simp] theorem Eff.msgs_get_bar (v : List Msg) (m : Nat) : ((Eff.msgs v).apply s).bar m = s.bar m := rfl
@[simp] theorem Eff.stn_get_bar (n : Nat) (v : Station) (m : Nat) : ((Eff.stn n v).apply s).bar m = s.bar m := rfl
@[simp] theorem Eff.groups_get_bar (v : List NcuGroup) (k : Nat) (m : Nat) : ((Eff.groups v k).apply s).bar m = s.bar m := rfl
@[simp] theorem Eff.mod_get_bar (n : Nat) (v : Module) (m : Nat) : ((Eff.mod n v).apply s).bar m = s.bar m := rfl
@[simp] theorem Eff.ctl_get_bar (n : Nat) (v : List LCtl) (m : Nat) : ((Eff.ctl n v).apply s).bar m = s.bar m := rfl
@[simp] theorem Eff.link_get_bar (n : Nat) (v : Link) (m : Nat) : ((Eff.link n v).apply s).bar m = s.bar m := rfl
@[simp] theorem Eff.slices_get_bar (v : List Slice) (m : Nat) : ((Eff.slices v).apply s).bar m = s.bar m := rfl
@[simp] theorem Eff.imap_get_bar (n : Nat) (v : Option (Nat × Nat × Nat × Nat)) (m : Nat) : ((Eff.imap n v).apply s).bar m = s.bar m := rfl
@[simp] theorem Eff.split_get_bar (a b : Nat) (m : Nat) : ((Eff.split a b).apply s).bar m = s.bar m := rfl
@[simp] theorem Eff.health_get_bar (v : Health) (m : Nat) : ((Eff.health v).apply s).bar m = s.bar m := rfl
@[simp] theorem Eff.snap_get_bar (v : Snap) (m : Nat) : ((Eff.snap v).apply s).bar m = s.bar m := rfl
@[simp] theorem Eff.dbg_get_bar (v : Debug) (m : Nat) : ((Eff.dbg v).apply s).bar m = s.bar m := rfl
@[simp] theorem Eff.resets_get_bar (v : Resets) (m : Nat) : ((Eff.resets v).apply s).bar m = s.bar m := rfl
@[simp] theorem Eff.staged_get_bar (v : List Staged) (m : Nat) : ((Eff.staged v).apply s).bar m = s.bar m := rfl
@[simp] theorem Eff.sets_get_bar (v : List CommitSet) (m : Nat) : ((Eff.sets v).apply s).bar m = s.bar m := rfl
@[simp] theorem Eff.resp_get_bar (v : Option HostResp) (m : Nat) : ((Eff.resp v).apply s).bar m = s.bar m := rfl
@[simp] theorem Eff.fresh_get_bar (n : Nat) (m : Nat) : ((Eff.fresh n).apply s).bar m = s.bar m := rfl
@[simp] theorem Eff.bar_get_same (n : Nat) (v : Barrier) : ((Eff.bar n v).apply s).bar n = v :=
  tabGet_tabSet_same _ _ _ _
theorem Eff.bar_get_ne (n m : Nat) (v : Barrier) (h : m ≠ n) : ((Eff.bar n v).apply s).bar m = s.bar m :=
  tabGet_tabSet_ne _ _ _ h

@[simp] theorem Eff.reg_get_stn (f : Fld) (c v : Nat) (m : Nat) : ((Eff.reg f c v).apply s).stn m = s.stn m := rfl
@[simp] theorem Eff.regsDrop_get_stn (d : Nat → Nat → Bool) (m : Nat) : ((Eff.regsDrop d).apply s).stn m = s.stn m := rfl
@[simp] theorem Eff.tb_get_stn (v : Timebase) (m : Nat) : ((Eff.tb v).apply s).stn m = s.stn m := rfl
@[simp] theorem Eff.pw_get_stn (v : Power) (m : Nat) : ((Eff.pw v).apply s).stn m = s.stn m := rfl
@[simp] theorem Eff.recs_get_stn (v : Records) (m : Nat) : ((Eff.recs v).apply s).stn m = s.stn m := rfl
@[simp] theorem Eff.fw_get_stn (v : Firmware) (m : Nat) : ((Eff.fw v).apply s).stn m = s.stn m := rfl
@[simp] theorem Eff.pair_get_stn (n : Nat) (v : Pair) (m : Nat) : ((Eff.pair n v).apply s).stn m = s.stn m := rfl
@[simp] theorem Eff.ctx_get_stn (n : Nat) (v : Ctx) (m : Nat) : ((Eff.ctx n v).apply s).stn m = s.stn m := rfl
@[simp] theorem Eff.model_get_stn (n : Nat) (v : Model) (m : Nat) : ((Eff.model n v).apply s).stn m = s.stn m := rfl
@[simp] theorem Eff.entry_get_stn (n : Nat) (v : Entry) (m : Nat) : ((Eff.entry n v).apply s).stn m = s.stn m := rfl
@[simp] theorem Eff.sem_get_stn (n : Nat) (v : Sem) (m : Nat) : ((Eff.sem n v).apply s).stn m = s.stn m := rfl
@[simp] theorem Eff.bar_get_stn (n : Nat) (v : Barrier) (m : Nat) : ((Eff.bar n v).apply s).stn m = s.stn m := rfl
@[simp] theorem Eff.hubReg_get_stn (n : Nat) (v : Option HubReg) (m : Nat) : ((Eff.hubReg n v).apply s).stn m = s.stn m := rfl
@[simp] theorem Eff.stu_get_stn (v : Stu) (m : Nat) : ((Eff.stu v).apply s).stn m = s.stn m := rfl
@[simp] theorem Eff.core_get_stn (n : Nat) (v : Core) (m : Nat) : ((Eff.core n v).apply s).stn m = s.stn m := rfl
@[simp] theorem Eff.spData_get_stn (n a : Nat) (v : List Byte) (m : Nat) : ((Eff.spData n a v).apply s).stn m = s.stn m := rfl
@[simp] theorem Eff.spSyn_get_stn (n g v : Nat) (m : Nat) : ((Eff.spSyn n g v).apply s).stn m = s.stn m := rfl
@[simp] theorem Eff.spClear_get_stn (n : Nat) (m : Nat) : ((Eff.spClear n).apply s).stn m = s.stn m := rfl
@[simp] theorem Eff.spZero_get_stn (n a k : Nat) (m : Nat) : ((Eff.spZero n a k).apply s).stn m = s.stn m := rfl
@[simp] theorem Eff.gmData_get_stn (a : Nat) (v : List Byte) (m : Nat) : ((Eff.gmData a v).apply s).stn m = s.stn m := rfl
@[simp] theorem Eff.gmSyn_get_stn (g v : Nat) (m : Nat) : ((Eff.gmSyn g v).apply s).stn m = s.stn m := rfl
@[simp] theorem Eff.msgs_get_stn (v : List Msg) (m : Nat) : ((Eff.msgs v).apply s).stn m = s.stn m := rfl
@[simp] theorem Eff.groups_get_stn (v : List NcuGroup) (k : Nat) (m : Nat) : ((Eff.groups v k).apply s).stn m = s.stn m := rfl
@[simp] theorem Eff.mod_get_stn (n : Nat) (v : Module) (m : Nat) : ((Eff.mod n v).apply s).stn m = s.stn m := rfl
@[simp] theorem Eff.ctl_get_stn (n : Nat) (v : List LCtl) (m : Nat) : ((Eff.ctl n v).apply s).stn m = s.stn m := rfl
@[simp] theorem Eff.link_get_stn (n : Nat) (v : Link) (m : Nat) : ((Eff.link n v).apply s).stn m = s.stn m := rfl
@[simp] theorem Eff.slices_get_stn (v : List Slice) (m : Nat) : ((Eff.slices v).apply s).stn m = s.stn m := rfl
@[simp] theorem Eff.imap_get_stn (n : Nat) (v : Option (Nat × Nat × Nat × Nat)) (m : Nat) : ((Eff.imap n v).apply s).stn m = s.stn m := rfl
@[simp] theorem Eff.split_get_stn (a b : Nat) (m : Nat) : ((Eff.split a b).apply s).stn m = s.stn m := rfl
@[simp] theorem Eff.health_get_stn (v : Health) (m : Nat) : ((Eff.health v).apply s).stn m = s.stn m := rfl
@[simp] theorem Eff.snap_get_stn (v : Snap) (m : Nat) : ((Eff.snap v).apply s).stn m = s.stn m := rfl
@[simp] theorem Eff.dbg_get_stn (v : Debug) (m : Nat) : ((Eff.dbg v).apply s).stn m = s.stn m := rfl
@[simp] theorem Eff.resets_get_stn (v : Resets) (m : Nat) : ((Eff.resets v).apply s).stn m = s.stn m := rfl
@[simp] theorem Eff.staged_get_stn (v : List Staged) (m : Nat) : ((Eff.staged v).apply s).stn m = s.stn m := rfl
@[simp] theorem Eff.sets_get_stn (v : List CommitSet) (m : Nat) : ((Eff.sets v).apply s).stn m = s.stn m := rfl
@[simp] theorem Eff.resp_get_stn (v : Option HostResp) (m : Nat) : ((Eff.resp v).apply s).stn m = s.stn m := rfl
@[simp] theorem Eff.fresh_get_stn (n : Nat) (m : Nat) : ((Eff.fresh n).apply s).stn m = s.stn m := rfl
@[simp] theorem Eff.stn_get_same (n : Nat) (v : Station) : ((Eff.stn n v).apply s).stn n = v :=
  tabGet_tabSet_same _ _ _ _
theorem Eff.stn_get_ne (n m : Nat) (v : Station) (h : m ≠ n) : ((Eff.stn n v).apply s).stn m = s.stn m :=
  tabGet_tabSet_ne _ _ _ h

@[simp] theorem Eff.reg_get_mod (f : Fld) (c v : Nat) (m : Nat) : ((Eff.reg f c v).apply s).mod m = s.mod m := rfl
@[simp] theorem Eff.regsDrop_get_mod (d : Nat → Nat → Bool) (m : Nat) : ((Eff.regsDrop d).apply s).mod m = s.mod m := rfl
@[simp] theorem Eff.tb_get_mod (v : Timebase) (m : Nat) : ((Eff.tb v).apply s).mod m = s.mod m := rfl
@[simp] theorem Eff.pw_get_mod (v : Power) (m : Nat) : ((Eff.pw v).apply s).mod m = s.mod m := rfl
@[simp] theorem Eff.recs_get_mod (v : Records) (m : Nat) : ((Eff.recs v).apply s).mod m = s.mod m := rfl
@[simp] theorem Eff.fw_get_mod (v : Firmware) (m : Nat) : ((Eff.fw v).apply s).mod m = s.mod m := rfl
@[simp] theorem Eff.pair_get_mod (n : Nat) (v : Pair) (m : Nat) : ((Eff.pair n v).apply s).mod m = s.mod m := rfl
@[simp] theorem Eff.ctx_get_mod (n : Nat) (v : Ctx) (m : Nat) : ((Eff.ctx n v).apply s).mod m = s.mod m := rfl
@[simp] theorem Eff.model_get_mod (n : Nat) (v : Model) (m : Nat) : ((Eff.model n v).apply s).mod m = s.mod m := rfl
@[simp] theorem Eff.entry_get_mod (n : Nat) (v : Entry) (m : Nat) : ((Eff.entry n v).apply s).mod m = s.mod m := rfl
@[simp] theorem Eff.sem_get_mod (n : Nat) (v : Sem) (m : Nat) : ((Eff.sem n v).apply s).mod m = s.mod m := rfl
@[simp] theorem Eff.bar_get_mod (n : Nat) (v : Barrier) (m : Nat) : ((Eff.bar n v).apply s).mod m = s.mod m := rfl
@[simp] theorem Eff.hubReg_get_mod (n : Nat) (v : Option HubReg) (m : Nat) : ((Eff.hubReg n v).apply s).mod m = s.mod m := rfl
@[simp] theorem Eff.stu_get_mod (v : Stu) (m : Nat) : ((Eff.stu v).apply s).mod m = s.mod m := rfl
@[simp] theorem Eff.core_get_mod (n : Nat) (v : Core) (m : Nat) : ((Eff.core n v).apply s).mod m = s.mod m := rfl
@[simp] theorem Eff.spData_get_mod (n a : Nat) (v : List Byte) (m : Nat) : ((Eff.spData n a v).apply s).mod m = s.mod m := rfl
@[simp] theorem Eff.spSyn_get_mod (n g v : Nat) (m : Nat) : ((Eff.spSyn n g v).apply s).mod m = s.mod m := rfl
@[simp] theorem Eff.spClear_get_mod (n : Nat) (m : Nat) : ((Eff.spClear n).apply s).mod m = s.mod m := rfl
@[simp] theorem Eff.spZero_get_mod (n a k : Nat) (m : Nat) : ((Eff.spZero n a k).apply s).mod m = s.mod m := rfl
@[simp] theorem Eff.gmData_get_mod (a : Nat) (v : List Byte) (m : Nat) : ((Eff.gmData a v).apply s).mod m = s.mod m := rfl
@[simp] theorem Eff.gmSyn_get_mod (g v : Nat) (m : Nat) : ((Eff.gmSyn g v).apply s).mod m = s.mod m := rfl
@[simp] theorem Eff.msgs_get_mod (v : List Msg) (m : Nat) : ((Eff.msgs v).apply s).mod m = s.mod m := rfl
@[simp] theorem Eff.stn_get_mod (n : Nat) (v : Station) (m : Nat) : ((Eff.stn n v).apply s).mod m = s.mod m := rfl
@[simp] theorem Eff.groups_get_mod (v : List NcuGroup) (k : Nat) (m : Nat) : ((Eff.groups v k).apply s).mod m = s.mod m := rfl
@[simp] theorem Eff.ctl_get_mod (n : Nat) (v : List LCtl) (m : Nat) : ((Eff.ctl n v).apply s).mod m = s.mod m := rfl
@[simp] theorem Eff.link_get_mod (n : Nat) (v : Link) (m : Nat) : ((Eff.link n v).apply s).mod m = s.mod m := rfl
@[simp] theorem Eff.slices_get_mod (v : List Slice) (m : Nat) : ((Eff.slices v).apply s).mod m = s.mod m := rfl
@[simp] theorem Eff.imap_get_mod (n : Nat) (v : Option (Nat × Nat × Nat × Nat)) (m : Nat) : ((Eff.imap n v).apply s).mod m = s.mod m := rfl
@[simp] theorem Eff.split_get_mod (a b : Nat) (m : Nat) : ((Eff.split a b).apply s).mod m = s.mod m := rfl
@[simp] theorem Eff.health_get_mod (v : Health) (m : Nat) : ((Eff.health v).apply s).mod m = s.mod m := rfl
@[simp] theorem Eff.snap_get_mod (v : Snap) (m : Nat) : ((Eff.snap v).apply s).mod m = s.mod m := rfl
@[simp] theorem Eff.dbg_get_mod (v : Debug) (m : Nat) : ((Eff.dbg v).apply s).mod m = s.mod m := rfl
@[simp] theorem Eff.resets_get_mod (v : Resets) (m : Nat) : ((Eff.resets v).apply s).mod m = s.mod m := rfl
@[simp] theorem Eff.staged_get_mod (v : List Staged) (m : Nat) : ((Eff.staged v).apply s).mod m = s.mod m := rfl
@[simp] theorem Eff.sets_get_mod (v : List CommitSet) (m : Nat) : ((Eff.sets v).apply s).mod m = s.mod m := rfl
@[simp] theorem Eff.resp_get_mod (v : Option HostResp) (m : Nat) : ((Eff.resp v).apply s).mod m = s.mod m := rfl
@[simp] theorem Eff.fresh_get_mod (n : Nat) (m : Nat) : ((Eff.fresh n).apply s).mod m = s.mod m := rfl
@[simp] theorem Eff.mod_get_same (n : Nat) (v : Module) : ((Eff.mod n v).apply s).mod n = v :=
  tabGet_tabSet_same _ _ _ _
theorem Eff.mod_get_ne (n m : Nat) (v : Module) (h : m ≠ n) : ((Eff.mod n v).apply s).mod m = s.mod m :=
  tabGet_tabSet_ne _ _ _ h

@[simp] theorem Eff.reg_get_link (f : Fld) (c v : Nat) (m : Nat) : ((Eff.reg f c v).apply s).link m = s.link m := rfl
@[simp] theorem Eff.regsDrop_get_link (d : Nat → Nat → Bool) (m : Nat) : ((Eff.regsDrop d).apply s).link m = s.link m := rfl
@[simp] theorem Eff.tb_get_link (v : Timebase) (m : Nat) : ((Eff.tb v).apply s).link m = s.link m := rfl
@[simp] theorem Eff.pw_get_link (v : Power) (m : Nat) : ((Eff.pw v).apply s).link m = s.link m := rfl
@[simp] theorem Eff.recs_get_link (v : Records) (m : Nat) : ((Eff.recs v).apply s).link m = s.link m := rfl
@[simp] theorem Eff.fw_get_link (v : Firmware) (m : Nat) : ((Eff.fw v).apply s).link m = s.link m := rfl
@[simp] theorem Eff.pair_get_link (n : Nat) (v : Pair) (m : Nat) : ((Eff.pair n v).apply s).link m = s.link m := rfl
@[simp] theorem Eff.ctx_get_link (n : Nat) (v : Ctx) (m : Nat) : ((Eff.ctx n v).apply s).link m = s.link m := rfl
@[simp] theorem Eff.model_get_link (n : Nat) (v : Model) (m : Nat) : ((Eff.model n v).apply s).link m = s.link m := rfl
@[simp] theorem Eff.entry_get_link (n : Nat) (v : Entry) (m : Nat) : ((Eff.entry n v).apply s).link m = s.link m := rfl
@[simp] theorem Eff.sem_get_link (n : Nat) (v : Sem) (m : Nat) : ((Eff.sem n v).apply s).link m = s.link m := rfl
@[simp] theorem Eff.bar_get_link (n : Nat) (v : Barrier) (m : Nat) : ((Eff.bar n v).apply s).link m = s.link m := rfl
@[simp] theorem Eff.hubReg_get_link (n : Nat) (v : Option HubReg) (m : Nat) : ((Eff.hubReg n v).apply s).link m = s.link m := rfl
@[simp] theorem Eff.stu_get_link (v : Stu) (m : Nat) : ((Eff.stu v).apply s).link m = s.link m := rfl
@[simp] theorem Eff.core_get_link (n : Nat) (v : Core) (m : Nat) : ((Eff.core n v).apply s).link m = s.link m := rfl
@[simp] theorem Eff.spData_get_link (n a : Nat) (v : List Byte) (m : Nat) : ((Eff.spData n a v).apply s).link m = s.link m := rfl
@[simp] theorem Eff.spSyn_get_link (n g v : Nat) (m : Nat) : ((Eff.spSyn n g v).apply s).link m = s.link m := rfl
@[simp] theorem Eff.spClear_get_link (n : Nat) (m : Nat) : ((Eff.spClear n).apply s).link m = s.link m := rfl
@[simp] theorem Eff.spZero_get_link (n a k : Nat) (m : Nat) : ((Eff.spZero n a k).apply s).link m = s.link m := rfl
@[simp] theorem Eff.gmData_get_link (a : Nat) (v : List Byte) (m : Nat) : ((Eff.gmData a v).apply s).link m = s.link m := rfl
@[simp] theorem Eff.gmSyn_get_link (g v : Nat) (m : Nat) : ((Eff.gmSyn g v).apply s).link m = s.link m := rfl
@[simp] theorem Eff.msgs_get_link (v : List Msg) (m : Nat) : ((Eff.msgs v).apply s).link m = s.link m := rfl
@[simp] theorem Eff.stn_get_link (n : Nat) (v : Station) (m : Nat) : ((Eff.stn n v).apply s).link m = s.link m := rfl
@[simp] theorem Eff.groups_get_link (v : List NcuGroup) (k : Nat) (m : Nat) : ((Eff.groups v k).apply s).link m = s.link m := rfl
@[simp] theorem Eff.mod_get_link (n : Nat) (v : Module) (m : Nat) : ((Eff.mod n v).apply s).link m = s.link m := rfl
@[simp] theorem Eff.ctl_get_link (n : Nat) (v : List LCtl) (m : Nat) : ((Eff.ctl n v).apply s).link m = s.link m := rfl
@[simp] theorem Eff.slices_get_link (v : List Slice) (m : Nat) : ((Eff.slices v).apply s).link m = s.link m := rfl
@[simp] theorem Eff.imap_get_link (n : Nat) (v : Option (Nat × Nat × Nat × Nat)) (m : Nat) : ((Eff.imap n v).apply s).link m = s.link m := rfl
@[simp] theorem Eff.split_get_link (a b : Nat) (m : Nat) : ((Eff.split a b).apply s).link m = s.link m := rfl
@[simp] theorem Eff.health_get_link (v : Health) (m : Nat) : ((Eff.health v).apply s).link m = s.link m := rfl
@[simp] theorem Eff.snap_get_link (v : Snap) (m : Nat) : ((Eff.snap v).apply s).link m = s.link m := rfl
@[simp] theorem Eff.dbg_get_link (v : Debug) (m : Nat) : ((Eff.dbg v).apply s).link m = s.link m := rfl
@[simp] theorem Eff.resets_get_link (v : Resets) (m : Nat) : ((Eff.resets v).apply s).link m = s.link m := rfl
@[simp] theorem Eff.staged_get_link (v : List Staged) (m : Nat) : ((Eff.staged v).apply s).link m = s.link m := rfl
@[simp] theorem Eff.sets_get_link (v : List CommitSet) (m : Nat) : ((Eff.sets v).apply s).link m = s.link m := rfl
@[simp] theorem Eff.resp_get_link (v : Option HostResp) (m : Nat) : ((Eff.resp v).apply s).link m = s.link m := rfl
@[simp] theorem Eff.fresh_get_link (n : Nat) (m : Nat) : ((Eff.fresh n).apply s).link m = s.link m := rfl
@[simp] theorem Eff.link_get_same (n : Nat) (v : Link) : ((Eff.link n v).apply s).link n = v :=
  tabGet_tabSet_same _ _ _ _
theorem Eff.link_get_ne (n m : Nat) (v : Link) (h : m ≠ n) : ((Eff.link n v).apply s).link m = s.link m :=
  tabGet_tabSet_ne _ _ _ h

@[simp] theorem Eff.reg_get_spad (f : Fld) (c v : Nat) (m : Nat) : ((Eff.reg f c v).apply s).spad m = s.spad m := rfl
@[simp] theorem Eff.regsDrop_get_spad (d : Nat → Nat → Bool) (m : Nat) : ((Eff.regsDrop d).apply s).spad m = s.spad m := rfl
@[simp] theorem Eff.tb_get_spad (v : Timebase) (m : Nat) : ((Eff.tb v).apply s).spad m = s.spad m := rfl
@[simp] theorem Eff.pw_get_spad (v : Power) (m : Nat) : ((Eff.pw v).apply s).spad m = s.spad m := rfl
@[simp] theorem Eff.recs_get_spad (v : Records) (m : Nat) : ((Eff.recs v).apply s).spad m = s.spad m := rfl
@[simp] theorem Eff.fw_get_spad (v : Firmware) (m : Nat) : ((Eff.fw v).apply s).spad m = s.spad m := rfl
@[simp] theorem Eff.pair_get_spad (n : Nat) (v : Pair) (m : Nat) : ((Eff.pair n v).apply s).spad m = s.spad m := rfl
@[simp] theorem Eff.ctx_get_spad (n : Nat) (v : Ctx) (m : Nat) : ((Eff.ctx n v).apply s).spad m = s.spad m := rfl
@[simp] theorem Eff.model_get_spad (n : Nat) (v : Model) (m : Nat) : ((Eff.model n v).apply s).spad m = s.spad m := rfl
@[simp] theorem Eff.entry_get_spad (n : Nat) (v : Entry) (m : Nat) : ((Eff.entry n v).apply s).spad m = s.spad m := rfl
@[simp] theorem Eff.sem_get_spad (n : Nat) (v : Sem) (m : Nat) : ((Eff.sem n v).apply s).spad m = s.spad m := rfl
@[simp] theorem Eff.bar_get_spad (n : Nat) (v : Barrier) (m : Nat) : ((Eff.bar n v).apply s).spad m = s.spad m := rfl
@[simp] theorem Eff.hubReg_get_spad (n : Nat) (v : Option HubReg) (m : Nat) : ((Eff.hubReg n v).apply s).spad m = s.spad m := rfl
@[simp] theorem Eff.stu_get_spad (v : Stu) (m : Nat) : ((Eff.stu v).apply s).spad m = s.spad m := rfl
@[simp] theorem Eff.core_get_spad (n : Nat) (v : Core) (m : Nat) : ((Eff.core n v).apply s).spad m = s.spad m := rfl
@[simp] theorem Eff.gmData_get_spad (a : Nat) (v : List Byte) (m : Nat) : ((Eff.gmData a v).apply s).spad m = s.spad m := rfl
@[simp] theorem Eff.gmSyn_get_spad (g v : Nat) (m : Nat) : ((Eff.gmSyn g v).apply s).spad m = s.spad m := rfl
@[simp] theorem Eff.msgs_get_spad (v : List Msg) (m : Nat) : ((Eff.msgs v).apply s).spad m = s.spad m := rfl
@[simp] theorem Eff.stn_get_spad (n : Nat) (v : Station) (m : Nat) : ((Eff.stn n v).apply s).spad m = s.spad m := rfl
@[simp] theorem Eff.groups_get_spad (v : List NcuGroup) (k : Nat) (m : Nat) : ((Eff.groups v k).apply s).spad m = s.spad m := rfl
@[simp] theorem Eff.mod_get_spad (n : Nat) (v : Module) (m : Nat) : ((Eff.mod n v).apply s).spad m = s.spad m := rfl
@[simp] theorem Eff.ctl_get_spad (n : Nat) (v : List LCtl) (m : Nat) : ((Eff.ctl n v).apply s).spad m = s.spad m := rfl
@[simp] theorem Eff.link_get_spad (n : Nat) (v : Link) (m : Nat) : ((Eff.link n v).apply s).spad m = s.spad m := rfl
@[simp] theorem Eff.slices_get_spad (v : List Slice) (m : Nat) : ((Eff.slices v).apply s).spad m = s.spad m := rfl
@[simp] theorem Eff.imap_get_spad (n : Nat) (v : Option (Nat × Nat × Nat × Nat)) (m : Nat) : ((Eff.imap n v).apply s).spad m = s.spad m := rfl
@[simp] theorem Eff.split_get_spad (a b : Nat) (m : Nat) : ((Eff.split a b).apply s).spad m = s.spad m := rfl
@[simp] theorem Eff.health_get_spad (v : Health) (m : Nat) : ((Eff.health v).apply s).spad m = s.spad m := rfl
@[simp] theorem Eff.snap_get_spad (v : Snap) (m : Nat) : ((Eff.snap v).apply s).spad m = s.spad m := rfl
@[simp] theorem Eff.dbg_get_spad (v : Debug) (m : Nat) : ((Eff.dbg v).apply s).spad m = s.spad m := rfl
@[simp] theorem Eff.resets_get_spad (v : Resets) (m : Nat) : ((Eff.resets v).apply s).spad m = s.spad m := rfl
@[simp] theorem Eff.staged_get_spad (v : List Staged) (m : Nat) : ((Eff.staged v).apply s).spad m = s.spad m := rfl
@[simp] theorem Eff.sets_get_spad (v : List CommitSet) (m : Nat) : ((Eff.sets v).apply s).spad m = s.spad m := rfl
@[simp] theorem Eff.resp_get_spad (v : Option HostResp) (m : Nat) : ((Eff.resp v).apply s).spad m = s.spad m := rfl
@[simp] theorem Eff.fresh_get_spad (n : Nat) (m : Nat) : ((Eff.fresh n).apply s).spad m = s.spad m := rfl

@[simp] theorem Eff.reg_get_same (f : Fld) (c v : Nat) : ((Eff.reg f c v).apply s).reg f c = v % 2 ^ f.width :=
  tabGet_tabSet_same _ _ _ _

theorem Eff.reg_get_ne (f g : Fld) (c m v : Nat) (h : g.key m ≠ f.key c) : ((Eff.reg f c v).apply s).reg g m = s.reg g m :=
  tabGet_tabSet_ne _ _ _ h

/-- The place of a field, from its key. -/
theorem key_div (x c : Nat) (h : c < 65536) : (x * 65536 + c) / 65536 = x := by
  rw [Nat.add_comm, Nat.add_mul_div_right _ _ (by decide), Nat.div_eq_of_lt h, Nat.zero_add]

/-- Two fields at different places have different keys, whatever their channels. -/
theorem Fld.key_ne (f g : Fld) (c m : Nat) (h : f.key 0 ≠ g.key 0) : g.key m ≠ f.key c := by
  intro e
  apply h
  have e' := congrArg (fun n => n / 65536) e
  simp only [Fld.key, key_div _ _ (Nat.mod_lt _ (by decide : 0 < 65536))] at e'
  simp only [Fld.key, e']

theorem Eff.spData_get_ne (n m a : Nat) (v : List Byte) (h : m ≠ n) : ((Eff.spData n a v).apply s).spad m = s.spad m :=
  tabGet_tabSet_ne _ _ _ h

theorem Eff.spSyn_get_ne (n m g v : Nat) (h : m ≠ n) : ((Eff.spSyn n g v).apply s).spad m = s.spad m :=
  tabGet_tabSet_ne _ _ _ h

theorem Eff.spClear_get_ne (n m : Nat) (h : m ≠ n) : ((Eff.spClear n).apply s).spad m = s.spad m :=
  tabGet_tabSet_ne _ _ _ h

theorem Eff.spZero_get_ne (n m a k : Nat) (h : m ≠ n) : ((Eff.spZero n a k).apply s).spad m = s.spad m :=
  tabGet_tabSet_ne _ _ _ h

@[simp] theorem Eff.spData_get_same (n a : Nat) (v : List Byte) :
    ((Eff.spData n a v).apply s).spad n = memWrite (s.spad n) spSize a v :=
  tabGet_tabSet_same _ _ _ _

@[simp] theorem Eff.spSyn_get_same (n g v : Nat) : ((Eff.spSyn n g v).apply s).spad n = memSyn (s.spad n) g v :=
  tabGet_tabSet_same _ _ _ _

@[simp] theorem Eff.spClear_get_same (n : Nat) : ((Eff.spClear n).apply s).spad n = {} :=
  tabGet_tabSet_same _ _ _ _

@[simp] theorem Eff.spZero_get_same (n a k : Nat) :
    ((Eff.spZero n a k).apply s).spad n = memZero (s.spad n) (a * 65536) ((a + k) * 65536) :=
  tabGet_tabSet_same _ _ _ _

@[simp] theorem Eff.gmData_gmem (a : Nat) (v : List Byte) : ((Eff.gmData a v).apply s).gmem = memWrite s.gmem gmSize a v := rfl
@[simp] theorem Eff.gmSyn_gmem (g v : Nat) : ((Eff.gmSyn g v).apply s).gmem = memSyn s.gmem g v := rfl

end Sys2Proof.Machine
end

