-- ==== Sys2Proof/Laws/Meaning.lean ====
section
/-! SUPPORT. How a meaning runs: the monad's steps by rfl, and what a meaning that ends in a next state can have done. -/

namespace Sys2Proof.Machine

variable {s0 : State} {α β : Type}

/-! ### The monad -/

@[simp] theorem pure_at (a : α) (t : { t : State // Reach s0 t }) : (pure a : M s0 α) t = (a, t) := rfl

@[simp] theorem bind_at (m : M s0 α) (f : α → M s0 β) (t : { t : State // Reach s0 t }) :
    (m >>= f) t = f (m t).1 (m t).2 := rfl

@[simp] theorem rd_at (t : { t : State // Reach s0 t }) : (rd : M s0 State) t = (t.val, t) := rfl

@[simp] theorem eff_at (e : Eff) (t : { t : State // Reach s0 t }) :
    (eff e : M s0 Unit) t = ((), ⟨e.apply t.val, t.property.step e⟩) := rfl

@[simp] theorem ite_at (c : Prop) [Decidable c] (m m' : M s0 α) (t : { t : State // Reach s0 t }) :
    (if c then m else m') t = if c then m t else m' t := by split <;> rfl

@[simp] theorem each_nil (f : α → M s0 Unit) : each [] f = pure () := rfl

@[simp] theorem each_cons (a : α) (l : List α) (f : α → M s0 Unit) : each (a :: l) f = (do f a; each l f) := rfl

/-- Running a meaning ends in a next state. -/
theorem run_eq (s : State) (m : M s Unit) : run s m = .next (m ⟨s, .refl⟩).2.val := rfl

@[simp] theorem runIf_true (s : State) (m : M s Unit) : runIf true s m = run s m := rfl

@[simp] theorem runIf_false (s : State) (m : M s Unit) : runIf false s m = .next s := rfl

/-! ### Reach -/

theorem Reach.trans {s t u : State} (h : Reach s t) (h' : Reach t u) : Reach s u := by
  induction h' with
  | refl => exact h
  | step e _ ih => exact ih.step e

/-- A property of states that every elementary update keeps holds of all that can be reached. -/
theorem Reach.keeps {P : State → Prop} (hP : ∀ e s, P s → P (Eff.apply e s)) {s t : State} (h : Reach s t) : P s → P t := by
  induction h with
  | refl => exact id
  | step e _ ih => exact fun hs => hP e _ (ih hs)

/-- An outcome's next state, where it has one, is reached from s. -/
def From (s : State) (o : Out) : Prop := ∀ t, o = .next t → Reach s t

theorem From.next (s : State) : From s (.next s) := fun _ h => by cases h; exact .refl

theorem From.fault (s : State) (f : Fault) : From s (.fault f) := fun _ h => by cases h

theorem From.run (s : State) (m : M s Unit) : From s (run s m) := fun _ h => by cases h; exact (m ⟨s, .refl⟩).2.property

theorem From.runIf (c : Bool) (s : State) (m : M s Unit) : From s (runIf c s m) := by
  cases c
  · exact From.next s
  · exact From.run s m

theorem From.ite {c : Prop} [Decidable c] {s : State} {a b : Out} (ha : From s a) (hb : From s b) :
    From s (if c then a else b) := by split <;> assumption

end Sys2Proof.Machine
end

