-- ==== Sys2Proof/Laws/Memory.lean ====
section
/-! SUPPORT. Memories and tables: every operation keeps the canonical form, a read after a write gives the value written,
and a write leaves every other place alone. -/

namespace Sys2Proof.Machine

variable {α : Type}

/-! ### Tables -/

theorem rising_iff (b : Nat) (t : List (Nat × α)) : rising b t = true ↔ tabWf t = true ∧ ∀ kv ∈ t, b < kv.1 := by
  induction t generalizing b with
  | nil => simp [rising, tabWf]
  | cons x t ih =>
    obtain ⟨i, w⟩ := x
    simp only [rising, tabWf, Bool.and_eq_true, decide_eq_true_eq, List.mem_cons, forall_eq_or_imp]
    constructor
    · rintro ⟨h, h'⟩
      exact ⟨h', h, fun kv hk => Nat.lt_trans h (((ih i).mp h').2 kv hk)⟩
    · rintro ⟨h', h, -⟩
      exact ⟨h, h'⟩

theorem tabWf_cons (i : Nat) (w : α) (t : Tab α) : tabWf ((i, w) :: t) = true ↔ tabWf t = true ∧ ∀ kv ∈ t, i < kv.1 :=
  rising_iff i t

theorem mem_tabSet (t : Tab α) (k : Nat) (v : α) (x : Nat × α) (h : x ∈ tabSet t k v) : x = (k, v) ∨ x ∈ t := by
  induction t with
  | nil => simpa [tabSet] using h
  | cons y t ih =>
    obtain ⟨i, w⟩ := y
    unfold tabSet at h
    split at h
    · simp only [List.mem_cons] at h ⊢
      rcases h with h | h
      · exact .inl h
      · exact .inr (.inr h)
    · split at h
      · simpa [List.mem_cons] using h
      · simp only [List.mem_cons] at h ⊢
        rcases h with h | h
        · exact .inr (.inl h)
        · rcases ih h with h | h
          · exact .inl h
          · exact .inr (.inr h)

/-- Writing a table keeps its keys rising. -/
theorem tabSet_wf (t : Tab α) (k : Nat) (v : α) (h : tabWf t = true) : tabWf (tabSet t k v) = true := by
  induction t with
  | nil => simp [tabSet, tabWf, rising]
  | cons y t ih =>
    obtain ⟨i, w⟩ := y
    rw [tabWf_cons] at h
    unfold tabSet
    split
    · rename_i e; rw [tabWf_cons]; exact ⟨h.1, fun kv hk => e ▸ h.2 kv hk⟩
    · split
      · rename_i e
        rw [tabWf_cons, tabWf_cons]
        refine ⟨h, fun kv hk => ?_⟩
        rcases List.mem_cons.mp hk with rfl | hk
        · exact e
        · exact Nat.lt_trans e (h.2 kv hk)
      · rw [tabWf_cons]
        refine ⟨ih h.1, fun kv hk => ?_⟩
        rcases mem_tabSet t k v kv hk with rfl | hk
        · simp only; omega
        · exact h.2 kv hk

/-- Dropping entries of a table keeps its keys rising. -/
theorem filter_wf (p : Nat × α → Bool) (t : Tab α) (h : tabWf t = true) : tabWf (t.filter p) = true := by
  induction t with
  | nil => simp [tabWf]
  | cons y t ih =>
    obtain ⟨i, w⟩ := y
    rw [tabWf_cons] at h
    simp only [List.filter_cons]
    split
    · rw [tabWf_cons]
      exact ⟨ih h.1, fun kv hk => h.2 kv (List.mem_filter.mp hk).1⟩
    · exact ih h.1

/-- Reading a key below every key of the table. -/
theorem tabGet_below (d : α) (t : Tab α) (k : Nat) (h : ∀ kv ∈ t, k < kv.1) : tabGet d t k = d := by
  cases t with
  | nil => rfl
  | cons y t =>
    obtain ⟨i, w⟩ := y
    have hk : k < i := h (i, w) (List.mem_cons_self ..)
    simp [tabGet, Nat.ne_of_lt hk, hk]

/-! ### Cells -/

variable [DecidableEq α]

theorem mem_cellWrite (d : α) (m : Tab α) (k : Nat) (v : α) (x : Nat × α) (h : x ∈ cellWrite d m k v) :
    (x = (k, v) ∧ v ≠ d) ∨ x ∈ m := by
  induction m with
  | nil =>
    unfold cellWrite at h
    split at h
    · simp at h
    · rename_i hv; exact .inl ⟨by simpa using h, hv⟩
  | cons y t ih =>
    obtain ⟨i, w⟩ := y
    unfold cellWrite at h
    split at h
    · split at h
      · exact .inr (List.mem_cons_of_mem _ h)
      · rename_i hv
        rcases List.mem_cons.mp h with h | h
        · exact .inl ⟨h, hv⟩
        · exact .inr (List.mem_cons_of_mem _ h)
    · split at h
      · split at h
        · exact .inr h
        · rename_i hv
          rcases List.mem_cons.mp h with h | h
          · exact .inl ⟨h, hv⟩
          · exact .inr h
      · rcases List.mem_cons.mp h with h | h
        · exact .inr (h ▸ List.mem_cons_self ..)
        · rcases ih h with h | h
          · exact .inl h
          · exact .inr (List.mem_cons_of_mem _ h)

theorem cellsWf_iff (d : α) (m : Tab α) : cellsWf d m = true ↔ tabWf m = true ∧ ∀ kv ∈ m, kv.2 ≠ d := by
  simp [cellsWf]

/-- Writing one cell keeps the canonical form. -/
theorem cellWrite_wf (d : α) (m : Tab α) (k : Nat) (v : α) (h : cellsWf d m = true) : cellsWf d (cellWrite d m k v) = true := by
  rw [cellsWf_iff] at h ⊢
  refine ⟨?_, fun kv hk => ?_⟩
  · obtain ⟨h, -⟩ := h
    induction m with
    | nil => unfold cellWrite; split <;> simp [tabWf, rising]
    | cons y t ih =>
      obtain ⟨i, w⟩ := y
      have h0 := h
      rw [tabWf_cons] at h
      unfold cellWrite
      split
      · rename_i e
        split
        · exact h.1
        · rw [tabWf_cons]; exact ⟨h.1, fun kv hk => e ▸ h.2 kv hk⟩
      · split
        · rename_i e
          split
          · exact h0
          · rw [tabWf_cons]
            refine ⟨h0, fun kv hk => ?_⟩
            rcases List.mem_cons.mp hk with rfl | hk
            · exact e
            · exact Nat.lt_trans e (h.2 kv hk)
        · rw [tabWf_cons]
          refine ⟨ih h.1, fun kv hk => ?_⟩
          rcases mem_cellWrite d t k v kv hk with ⟨rfl, -⟩ | hk
          · simp only; omega
          · exact h.2 kv hk
  · rcases mem_cellWrite d m k v kv hk with ⟨rfl, hv⟩ | hk
    · exact hv
    · exact h.2 kv hk

/-- A cell just written reads as written. -/
theorem cellRead_cellWrite_same (d : α) (m : Tab α) (k : Nat) (v : α) (h : tabWf m = true) :
    cellRead d (cellWrite d m k v) k = v := by
  unfold cellRead
  induction m with
  | nil => unfold cellWrite; split <;> simp_all [tabGet]
  | cons y t ih =>
    obtain ⟨i, w⟩ := y
    rw [tabWf_cons] at h
    unfold cellWrite
    split
    · rename_i e
      split
      · rename_i hv
        rw [tabGet_below d t k (fun kv hk => e ▸ h.2 kv hk), hv]
      · simp [tabGet]
    · rename_i e
      split
      · rename_i e'
        split
        · rename_i hv; simp [tabGet, e, e', hv]
        · simp [tabGet]
      · rename_i e'; simp [tabGet, e, e', ih h.1]

/-- Writing a cell leaves every other alone. -/
theorem cellRead_cellWrite_ne (d : α) (m : Tab α) {k a : Nat} (v : α) (h : tabWf m = true) (ha : a ≠ k) :
    cellRead d (cellWrite d m k v) a = cellRead d m a := by
  unfold cellRead
  induction m with
  | nil => unfold cellWrite; split <;> simp [tabGet, ha]
  | cons y t ih =>
    obtain ⟨i, w⟩ := y
    rw [tabWf_cons] at h
    unfold cellWrite
    split
    · rename_i e
      subst e
      split
      · by_cases h1 : a < k
        · rw [tabGet_below d t a (fun kv hk => Nat.lt_trans h1 (h.2 kv hk))]
          simp [tabGet, ha, h1]
        · simp [tabGet, ha, h1]
      · simp [tabGet, ha]
    · rename_i e
      split
      · rename_i e'
        split
        · rfl
        · by_cases h1 : a < k
          · have h2 : a < i := by omega
            have h3 : a ≠ i := by omega
            simp [tabGet, h1, h2, h3, ha]
          · simp [tabGet, ha, h1]
      · simp [tabGet, ih h.1]

theorem cellsWrite_wf (d : α) (v : List α) (m : Tab α) (a : Nat) (h : cellsWf d m = true) :
    cellsWf d (cellsWrite d m a v) = true := by
  induction v generalizing m a with
  | nil => exact h
  | cons x v ih => exact ih _ _ (cellWrite_wf d m a x h)

theorem mem_cellsWrite (d : α) (v : List α) (m : Tab α) (a : Nat) (x : Nat × α) (h : x ∈ cellsWrite d m a v) :
    (a ≤ x.1 ∧ x.1 < a + v.length) ∨ x ∈ m := by
  induction v generalizing m a with
  | nil => exact .inr h
  | cons y v ih =>
    simp only [List.length_cons]
    rcases ih _ _ h with h | h
    · exact .inl ⟨by omega, by omega⟩
    · rcases mem_cellWrite d m a y x h with ⟨rfl, -⟩ | h
      · exact .inl ⟨by simp, by simp⟩
      · exact .inr h

/-- Writing a run leaves every address outside it alone. -/
theorem cellRead_cellsWrite_out (d : α) (v : List α) (m : Tab α) (a b : Nat) (h : cellsWf d m = true)
    (hb : b < a ∨ a + v.length ≤ b) : cellRead d (cellsWrite d m a v) b = cellRead d m b := by
  induction v generalizing m a with
  | nil => rfl
  | cons x v ih =>
    simp only [List.length_cons] at hb
    have hw := cellWrite_wf d m a x h
    rw [show cellsWrite d m a (x :: v) = cellsWrite d (cellWrite d m a x) (a + 1) v from rfl, ih _ _ hw (by omega)]
    exact cellRead_cellWrite_ne d m x (((cellsWf_iff d m).mp h).1) (by omega)

/-- Every address of a run just written reads as written. -/
theorem cellRead_cellsWrite_in (d : α) (v : List α) (m : Tab α) (a i : Nat) (h : cellsWf d m = true) (hi : i < v.length) :
    cellRead d (cellsWrite d m a v) (a + i) = v.getD i d := by
  induction v generalizing m a i with
  | nil => simp at hi
  | cons x v ih =>
    have hw := cellWrite_wf d m a x h
    rw [show cellsWrite d m a (x :: v) = cellsWrite d (cellWrite d m a x) (a + 1) v from rfl]
    cases i with
    | zero =>
      rw [cellRead_cellsWrite_out d v _ _ _ hw (by omega)]
      simpa using cellRead_cellWrite_same d m a x (((cellsWf_iff d m).mp h).1)
    | succ i =>
      have := ih (cellWrite d m a x) (a + 1) i hw (by simpa using hi)
      rw [show a + (i + 1) = a + 1 + i from by omega, this]
      simp

/-! ### Memories -/

theorem Memory.wf_iff (n : Nat) (m : Memory) :
    m.wf n = true ↔ cellsWf byte0 m.data = true ∧ (∀ c ∈ m.data, c.1 < n) ∧ cellsWf 0 m.syn = true := by
  simp [Memory.wf, and_assoc]

theorem empty_wf (n : Nat) : ({} : Memory).wf n = true := by simp [Memory.wf, cellsWf, tabWf]

/-- Every memory operation keeps the canonical form. -/
theorem memWrite_wf (m : Memory) (n a : Nat) (v : List Byte) (h : m.wf n = true) : (memWrite m n a v).wf n = true := by
  rw [Memory.wf_iff] at h ⊢
  refine ⟨cellsWrite_wf _ _ _ _ h.1, fun c hc => ?_, h.2.2⟩
  rcases mem_cellsWrite _ _ _ _ _ hc with hc | hc
  · have := hc.2
    simp only [List.length_take] at this
    omega
  · exact h.2.1 c hc

theorem memSyn_wf (m : Memory) (n g v : Nat) (h : m.wf n = true) : (memSyn m g v).wf n = true := by
  rw [Memory.wf_iff] at h ⊢
  exact ⟨h.1, h.2.1, cellWrite_wf _ _ _ _ h.2.2⟩

theorem memZero_wf (m : Memory) (n a b : Nat) (h : m.wf n = true) : (memZero m a b).wf n = true := by
  rw [Memory.wf_iff, cellsWf_iff, cellsWf_iff] at h ⊢
  obtain ⟨⟨h1, h2⟩, h3, h4, h5⟩ := h
  exact ⟨⟨filter_wf _ _ h1, fun c hc => h2 c (List.mem_filter.mp hc).1⟩, fun c hc => h3 c (List.mem_filter.mp hc).1,
    filter_wf _ _ h4, fun c hc => h5 c (List.mem_filter.mp hc).1⟩

end Sys2Proof.Machine
end

