-- ==== Sys2Proof/Laws/Reach.lean ====
section
/-! SUPPORT. Every command's next state is reached from the state before by elementary updates (exec_from), so a property
that each of them keeps is kept by every step; none of them touches the queue. -/

namespace Sys2Proof.Machine

/-! ### Shared outcomes -/

theorem manual_from (r : Requester) (s : State) (body : DbgObj → M s Unit) : From s (manual r s body) := From.runIf _ _ _

theorem serve_from (op : Nat) (s : State) (body : Req → M s Unit) : From s (serve op s body) := by
  unfold serve
  split
  · exact From.runIf _ _ _
  · exact From.next _

theorem serveCtx_from (op c : Nat) (s : State) (body : Req → M s Unit) : From s (serveCtx op c s body) := serve_from _ _ _

theorem serveModel_from (op : Nat) (c : Fin 8) (k : Fin 16) (s : State) (body : Req → M s Unit) :
    From s (serveModel op c k s body) := serveCtx_from _ _ _ _

theorem frameRow_from (m : Fin 4) (t : Nat) (f : NFrame) (s : State) (body : M s Unit) : From s (frameRow m t f s body) :=
  From.ite (From.fault _ _) (From.runIf _ _ _)

theorem commitRow_from (r : Requester) (b : Block) (s : State) : From s (commitRow r b s) := From.runIf _ _ _

theorem ringRow_from (l : Fin 8) (s : State) (body : M s Unit) : From s (ringRow l s body) := From.runIf _ _ _

theorem resvFails_from (l : Fin 8) (m : ResvMsg) (x : LCtl) (d : Nat) (s : State) : From s (resvFails l m x d s) :=
  ringRow_from _ _ _

/-! ### The commands -/

theorem execRegisterWrite_from (s : State) a : From s (execRegisterWrite a s) := From.runIf _ _ _
theorem execStagedSetApply_from (s : State) b chan : From s (execStagedSetApply b chan s) := by
  unfold execStagedSetApply
  repeat' (first | exact From.runIf _ _ _ | exact From.run _ _ | exact From.next _ | exact From.fault _ _ | (extract_lets; clear_value *) | split)
theorem execGrainCommit_from (s : State) r : From s (execGrainCommit r s) := From.runIf _ _ _
theorem execTileCommit_from (s : State) r : From s (execTileCommit r s) := From.runIf _ _ _
theorem execMxCommit_from (s : State) r : From s (execMxCommit r s) := From.runIf _ _ _
theorem execNumCommit_from (s : State) r : From s (execNumCommit r s) := From.runIf _ _ _
theorem execVxCommit_from (s : State) r : From s (execVxCommit r s) := From.runIf _ _ _
theorem execProgCommit_from (s : State) r : From s (execProgCommit r s) := From.runIf _ _ _
theorem execSpCommit_from (s : State) r : From s (execSpCommit r s) := From.runIf _ _ _
theorem execStuCommit_from (s : State) r : From s (execStuCommit r s) := From.runIf _ _ _
theorem execMpCommit_from (s : State) r : From s (execMpCommit r s) := From.runIf _ _ _
theorem execNpCommit_from (s : State) r : From s (execNpCommit r s) := From.runIf _ _ _
theorem execLpCommit_from (s : State) r : From s (execLpCommit r s) := From.runIf _ _ _
theorem execHpCommit_from (s : State) r : From s (execHpCommit r s) := From.runIf _ _ _
theorem execHmCommit_from (s : State) r : From s (execHmCommit r s) := From.runIf _ _ _
theorem execDbgCommit_from (s : State) r : From s (execDbgCommit r s) := From.runIf _ _ _
theorem execPwrCommit_from (s : State) r : From s (execPwrCommit r s) := From.runIf _ _ _
theorem execGrainNowLoRead_from (s : State) r : From s (execGrainNowLoRead r s) := From.runIf _ _ _
theorem execStuCtxJobsLoRead_from (s : State) r : From s (execStuCtxJobsLoRead r s) := From.runIf _ _ _
theorem execTileDbgGo_from (s : State) r value : From s (execTileDbgGo r value s) := From.runIf _ _ _
theorem execTileDbgCaptureDone_from (s : State) done : From s (execTileDbgCaptureDone done s) := by
  unfold execTileDbgCaptureDone
  repeat' (first | exact From.runIf _ _ _ | exact From.run _ _ | exact From.next _ | exact From.fault _ _ | (extract_lets; clear_value *) | split)
theorem execSyncSet_from (s : State) r : From s (execSyncSet r s) := From.runIf _ _ _
theorem execSyncRelease_from (s : State) r : From s (execSyncRelease r s) := From.runIf _ _ _
theorem execSyncClear_from (s : State) r : From s (execSyncClear r s) := From.runIf _ _ _
theorem execFence_from (s : State) r cores : From s (execFence r cores s) := From.runIf _ _ _
theorem execSnapRestore_from (s : State) r value : From s (execSnapRestore r value s) := From.runIf _ _ _
theorem execDbgHalt_from (s : State) r cores : From s (execDbgHalt r cores s) := From.runIf _ _ _
theorem execDbgStep_from (s : State) r cores : From s (execDbgStep r cores s) := From.runIf _ _ _
theorem execDebugHaltTaken_from (s : State) core : From s (execDebugHaltTaken core s) := From.runIf _ _ _
theorem execLinkRetrain_from (s : State) r : From s (execLinkRetrain r s) := From.runIf _ _ _
theorem execWarmReset_from (s : State) r : From s (execWarmReset r s) := From.runIf _ _ _
theorem execCoreRst_from (s : State) r cores : From s (execCoreRst r cores s) := From.runIf _ _ _
theorem execPortRst_from (s : State) r value : From s (execPortRst r value s) := From.runIf _ _ _
theorem execHeldResetStart_from (s : State) u : From s (execHeldResetStart u s) := by
  unfold execHeldResetStart
  repeat' (first | exact From.runIf _ _ _ | exact From.run _ _ | exact From.next _ | exact From.fault _ _ | (extract_lets; clear_value *) | split)
theorem execCoreSelftestDone_from (s : State) core pass : From s (execCoreSelftestDone core pass s) := by
  unfold execCoreSelftestDone
  repeat' (first | exact From.runIf _ _ _ | exact From.run _ _ | exact From.next _ | exact From.fault _ _ | (extract_lets; clear_value *) | split)
theorem execMailboxRing_from (s : State) hsrc pair : From s (execMailboxRing hsrc pair s) := From.runIf _ _ _
theorem execMailboxTake_from (s : State) : From s (execMailboxTake s) := by
  unfold execMailboxTake
  repeat' (first | exact From.runIf _ _ _ | exact From.run _ _ | exact From.next _ | exact From.fault _ _ | (extract_lets; clear_value *) | split)
theorem execReplyAck_from (s : State) hsrc pair : From s (execReplyAck hsrc pair s) := From.runIf _ _ _
theorem execReplyDiscard_from (s : State) pair : From s (execReplyDiscard pair s) := From.runIf _ _ _
theorem execHello_from (s : State) : From s (execHello s) := serve_from _ _ _
theorem execBindPair_from (s : State) pair hsrc bind staging : From s (execBindPair pair hsrc bind staging s) := serve_from _ _ _
theorem execOpenTenants_from (s : State) : From s (execOpenTenants s) := serve_from _ _ _
theorem execPropose_from (s : State) : From s (execPropose s) := serve_from _ _ _
theorem execCommit_from (s : State) : From s (execCommit s) := serve_from _ _ _
theorem execWithdraw_from (s : State) change : From s (execWithdraw change s) := serve_from _ _ _
theorem execRevoke_from (s : State) what : From s (execRevoke what s) := serve_from _ _ _
theorem execKillCtx_from (s : State) ctx : From s (execKillCtx ctx s) := serve_from _ _ _
theorem execCtxResume_from (s : State) ctx : From s (execCtxResume ctx s) := serve_from _ _ _
theorem execModelLoad_from (s : State) ctx slot addr len pin : From s (execModelLoad ctx slot addr len pin s) := serve_from _ _ _
theorem execModelEvict_from (s : State) ctx slot : From s (execModelEvict ctx slot s) := serve_from _ _ _
theorem execModelPin_from (s : State) ctx slot pin : From s (execModelPin ctx slot pin s) := serve_from _ _ _
theorem execModelUnload_from (s : State) ctx slot : From s (execModelUnload ctx slot s) := serve_from _ _ _
theorem execSeqOpen_from (s : State) ctx entry addr : From s (execSeqOpen ctx entry addr s) := serve_from _ _ _
theorem execSeqSet_from (s : State) ctx entry ch : From s (execSeqSet ctx entry ch s) := serve_from _ _ _
theorem execSeqHold_from (s : State) ctx entry : From s (execSeqHold ctx entry s) := serve_from _ _ _
theorem execSeqResume_from (s : State) ctx entry : From s (execSeqResume ctx entry s) := serve_from _ _ _
theorem execSeqClose_from (s : State) ctx entry : From s (execSeqClose ctx entry s) := serve_from _ _ _
theorem execSeqRead_from (s : State) ctx entry : From s (execSeqRead ctx entry s) := serve_from _ _ _
theorem execPoolAdd_from (s : State) ctx count addr : From s (execPoolAdd ctx count addr s) := serve_from _ _ _
theorem execSyncDump_from (s : State) ctx addr : From s (execSyncDump ctx addr s) := serve_from _ _ _
theorem execSliceRelease_from (s : State) ctx slice : From s (execSliceRelease ctx slice s) := serve_from _ _ _
theorem execFwLoad_from (s : State) addr len sigOk version : From s (execFwLoad addr len sigOk version s) := by
  unfold execFwLoad
  repeat' (first | exact From.runIf _ _ _ | exact From.run _ _ | exact From.next _ | exact From.fault _ _ | (extract_lets; clear_value *) | split)
theorem execFwUpdateDone_from (s : State) : From s (execFwUpdateDone s) := by
  unfold execFwUpdateDone
  repeat' (first | exact From.runIf _ _ _ | exact From.run _ _ | exact From.next _ | exact From.fault _ _ | (extract_lets; clear_value *) | split)
theorem execAdmissionComplete_from (s : State) ctx : From s (execAdmissionComplete ctx s) := From.runIf _ _ _
theorem execDebugConsentExpiry_from (s : State) ctx : From s (execDebugConsentExpiry ctx s) := by
  unfold execDebugConsentExpiry
  repeat' (first | exact From.runIf _ _ _ | exact From.run _ _ | exact From.next _ | exact From.fault _ _ | (extract_lets; clear_value *) | split)
theorem execHoldDumpDone_from (s : State) ctx : From s (execHoldDumpDone ctx s) := by
  unfold execHoldDumpDone
  repeat' (first | exact From.runIf _ _ _ | exact From.run _ _ | exact From.next _ | exact From.fault _ _ | (extract_lets; clear_value *) | split)
theorem execBankScrubDone_from (s : State) ctx : From s (execBankScrubDone ctx s) := by
  unfold execBankScrubDone
  repeat' (first | exact From.runIf _ _ _ | exact From.run _ _ | exact From.next _ | exact From.fault _ _ | (extract_lets; clear_value *) | split)
theorem execApertureWrite_from (s : State) hsrc off data rd : From s (execApertureWrite hsrc off data rd s) := From.runIf _ _ _
theorem execApertureRead_from (s : State) hsrc off len rd : From s (execApertureRead hsrc off len rd s) := From.runIf _ _ _
theorem execGrainStrobe_from (s : State) cnt cyc : From s (execGrainStrobe cnt cyc s) := From.runIf _ _ _
theorem execHoldoverEntry_from (s : State) runs : From s (execHoldoverEntry runs s) := From.runIf _ _ _
theorem execHoldoverAdvance_from (s : State) runs : From s (execHoldoverAdvance runs s) := From.runIf _ _ _
theorem execHoldoverLimit_from (s : State) : From s (execHoldoverLimit s) := From.runIf _ _ _
theorem execTimingFrameDue_from (s : State) : From s (execTimingFrameDue s) := From.runIf _ _ _
theorem execTiming_from (s : State) link t1 t2 t3 : From s (execTiming link t1 t2 t3 s) := From.runIf _ _ _
theorem execTimingReply_from (s : State) link t1 t2 t3 t4 : From s (execTimingReply link t1 t2 t3 t4 s) := From.runIf _ _ _
theorem execNop_from (s : State) core e ph : From s (execNop core e ph s) := From.run _ _
theorem execGrain_from (s : State) core e : From s (execGrain core e s) := by
  unfold execGrain
  repeat' (first | exact From.runIf _ _ _ | exact From.run _ _ | exact From.next _ | exact From.fault _ _ | (extract_lets; clear_value *) | split)

/-- Attempting the head of an engine. -/
theorem issueHead_from (s : State) {core : Fin 32} {e : Engine} : From s (issueHead core e s) := by
  unfold issueHead
  repeat' (first | exact From.run _ _ | exact From.runIf _ _ _ | exact From.next _ | split)

theorem execLdw_from (s : State) core ph : From s (execLdw core ph s) := From.run _ _
theorem execPass_from (s : State) core ph : From s (execPass core ph s) := From.run _ _
theorem execPscl_from (s : State) core ph : From s (execPscl core ph s) := From.run _ _
theorem execPassComplete_from (s : State) core : From s (execPassComplete core s) := by
  unfold execPassComplete
  repeat' (first | exact From.runIf _ _ _ | exact From.run _ _ | exact From.next _ | exact From.fault _ _ | (extract_lets; clear_value *) | split)
theorem execDrain_from (s : State) core ph : From s (execDrain core ph s) := From.run _ _
theorem execVrun_from (s : State) core ph : From s (execVrun core ph s) := From.run _ _
theorem execTld_from (s : State) core ph : From s (execTld core ph s) := From.run _ _
theorem execTst_from (s : State) core ph : From s (execTst core ph s) := From.run _ _
theorem execTldw_from (s : State) core ph : From s (execTldw core ph s) := From.run _ _
theorem execTileLoadPark_from (s : State) core cause : From s (execTileLoadPark core cause s) := by
  unfold execTileLoadPark
  repeat' (first | exact From.runIf _ _ _ | exact From.run _ _ | exact From.next _ | exact From.fault _ _ | (extract_lets; clear_value *) | split)
theorem execTileLoadResume_from (s : State) core ph : From s (execTileLoadResume core ph s) := by
  unfold execTileLoadResume
  repeat' (first | exact From.runIf _ _ _ | exact From.run _ _ | exact From.next _ | exact From.fault _ _ | (extract_lets; clear_value *) | split)
theorem execDma_from (s : State) core ph : From s (execDma core ph s) := From.run _ _
theorem execDmaComplete_from (s : State) core ch : From s (execDmaComplete core ch s) := by
  unfold execDmaComplete
  repeat' (first | exact From.runIf _ _ _ | exact From.run _ _ | exact From.next _ | exact From.fault _ _ | (extract_lets; clear_value *) | split)
theorem execWpost_from (s : State) core ph : From s (execWpost core ph s) := From.run _ _
theorem execWwait_from (s : State) core ph : From s (execWwait core ph s) := From.run _ _
theorem execWmov_from (s : State) core ph : From s (execWmov core ph s) := From.run _ _
theorem execMrd_from (s : State) core ph : From s (execMrd core ph s) := From.run _ _
theorem execMrdFill_from (s : State) core ph : From s (execMrdFill core ph s) := by
  unfold execMrdFill
  repeat' (first | exact From.runIf _ _ _ | exact From.run _ _ | exact From.next _ | exact From.fault _ _ | (extract_lets; clear_value *) | split)
theorem execAcq_from (s : State) core ph : From s (execAcq core ph s) := From.run _ _
theorem execArrw_from (s : State) core ph : From s (execArrw core ph s) := From.run _ _
theorem execLsend_from (s : State) core ph : From s (execLsend core ph s) := From.run _ _
theorem execSwait_from (s : State) core ph : From s (execSwait core ph s) := From.run _ _
theorem execSadd_from (s : State) core ph : From s (execSadd core ph s) := From.run _ _
theorem execSsub_from (s : State) core ph : From s (execSsub core ph s) := From.run _ _
theorem execBar_from (s : State) core ph : From s (execBar core ph s) := From.run _ _
theorem execWadiReply_from (s : State) core ph : From s (execWadiReply core ph s) := by
  unfold execWadiReply
  repeat' (first | exact From.runIf _ _ _ | exact From.run _ _ | exact From.next _ | exact From.fault _ _ | (extract_lets; clear_value *) | split)
theorem execWadiXmissReply_from (s : State) core : From s (execWadiXmissReply core s) := by
  unfold execWadiXmissReply
  repeat' (first | exact From.runIf _ _ _ | exact From.run _ _ | exact From.next _ | exact From.fault _ _ | (extract_lets; clear_value *) | split)
theorem execXmissLimit_from (s : State) core u ph : From s (execXmissLimit core u ph s) := by
  unfold execXmissLimit
  repeat' (first | exact From.runIf _ _ _ | exact From.run _ _ | exact From.next _ | exact From.fault _ _ | (extract_lets; clear_value *) | split)
theorem execResolve_from (s : State) ctx page failed : From s (execResolve ctx page failed s) := From.runIf _ _ _
theorem execWriteAck_from (s : State) core holds inj : From s (execWriteAck core holds inj s) := by
  unfold execWriteAck
  repeat' (first | exact From.runIf _ _ _ | exact From.run _ _ | exact From.next _ | exact From.fault _ _ | (extract_lets; clear_value *) | split)
theorem execInboundWritePacket_from (s : State) core nth grants : From s (execInboundWritePacket core nth grants s) := by
  unfold execInboundWritePacket
  repeat' (first | exact From.runIf _ _ _ | exact From.run _ _ | exact From.next _ | exact From.fault _ _ | (extract_lets; clear_value *) | split)
theorem execRefusalNotice_from (s : State) notice : From s (execRefusalNotice notice s) := by
  unfold execRefusalNotice
  repeat' (first | exact From.runIf _ _ _ | exact From.run _ _ | exact From.next _ | exact From.fault _ _ | (extract_lets; clear_value *) | split)
theorem execSemOpApply_from (s : State) ops : From s (execSemOpApply ops s) := by
  unfold execSemOpApply
  repeat' (first | exact From.runIf _ _ _ | exact From.run _ _ | exact From.next _ | exact From.fault _ _ | (extract_lets; clear_value *) | split)
theorem execHubWaitRegister_from (s : State) core : From s (execHubWaitRegister core s) := by
  unfold execHubWaitRegister
  repeat' (first | exact From.runIf _ _ _ | exact From.run _ _ | exact From.next _ | exact From.fault _ _ | (extract_lets; clear_value *) | split)
theorem execWaitWake_from (s : State) core : From s (execWaitWake core s) := by
  unfold execWaitWake
  repeat' (first | exact From.runIf _ _ _ | exact From.run _ _ | exact From.next _ | exact From.fault _ _ | (extract_lets; clear_value *) | split)
theorem execBarrierArrival_from (s : State) nth : From s (execBarrierArrival nth s) := by
  unfold execBarrierArrival
  repeat' (first | exact From.runIf _ _ _ | exact From.run _ _ | exact From.next _ | exact From.fault _ _ | (extract_lets; clear_value *) | split)
theorem execBarrierRelease_from (s : State) nth : From s (execBarrierRelease nth s) := by
  unfold execBarrierRelease
  repeat' (first | exact From.runIf _ _ _ | exact From.run _ _ | exact From.next _ | exact From.fault _ _ | (extract_lets; clear_value *) | split)
theorem execBarrierDeadline_from (s : State) b : From s (execBarrierDeadline b s) := by
  unfold execBarrierDeadline
  repeat' (first | exact From.runIf _ _ _ | exact From.run _ _ | exact From.next _ | exact From.fault _ _ | (extract_lets; clear_value *) | split)
theorem execWaitTimerExpiry_from (s : State) core e : From s (execWaitTimerExpiry core e s) := by
  unfold execWaitTimerExpiry
  repeat' (first | exact From.runIf _ _ _ | exact From.run _ _ | exact From.next _ | exact From.fault _ _ | (extract_lets; clear_value *) | split)
theorem execStepAssign_from (s : State) ctx : From s (execStepAssign ctx s) := From.runIf _ _ _
theorem execCaravanBuild_from (s : State) ctx : From s (execCaravanBuild ctx s) := by
  unfold execCaravanBuild
  repeat' (first | exact From.runIf _ _ _ | exact From.run _ _ | exact From.next _ | exact From.fault _ _ | (extract_lets; clear_value *) | split)
theorem execCaravanCut_from (s : State) : From s (execCaravanCut s) := by
  unfold execCaravanCut
  repeat' (first | exact From.runIf _ _ _ | exact From.run _ _ | exact From.next _ | exact From.fault _ _ | (extract_lets; clear_value *) | split)
theorem execBuilderResume_from (s : State) : From s (execBuilderResume s) := by
  unfold execBuilderResume
  repeat' (first | exact From.runIf _ _ _ | exact From.run _ _ | exact From.next _ | exact From.fault _ _ | (extract_lets; clear_value *) | split)
theorem execResidencyLoad_from (s : State) slot : From s (execResidencyLoad slot s) := by
  unfold execResidencyLoad
  repeat' (first | exact From.runIf _ _ _ | exact From.run _ _ | exact From.next _ | exact From.fault _ _ | (extract_lets; clear_value *) | split)
theorem execParcelStart_from (s : State) core segUpset : From s (execParcelStart core segUpset s) := by
  unfold execParcelStart
  repeat' (first | exact From.runIf _ _ _ | exact From.run _ _ | exact From.next _ | exact From.fault _ _ | (extract_lets; clear_value *) | split)
theorem execParcelEnd_from (s : State) core : From s (execParcelEnd core s) := From.runIf _ _ _
theorem execStealRequest_from (s : State) ask : From s (execStealRequest ask s) := From.runIf _ _ _
theorem execStepEnd_from (s : State) ctx : From s (execStepEnd ctx s) := by
  unfold execStepEnd
  repeat' (first | exact From.runIf _ _ _ | exact From.run _ _ | exact From.next _ | exact From.fault _ _ | (extract_lets; clear_value *) | split)
theorem execBeStepCap_from (s : State) ctx : From s (execBeStepCap ctx s) := by
  unfold execBeStepCap
  repeat' (first | exact From.runIf _ _ _ | exact From.run _ _ | exact From.next _ | exact From.fault _ _ | (extract_lets; clear_value *) | split)
theorem execStepBudget_from (s : State) ctx : From s (execStepBudget ctx s) := by
  unfold execStepBudget
  repeat' (first | exact From.runIf _ _ _ | exact From.run _ _ | exact From.next _ | exact From.fault _ _ | (extract_lets; clear_value *) | split)
theorem execRdata_from (s : State) stn rtag inc status changed : From s (execRdata stn rtag inc status changed s) := by
  unfold execRdata
  repeat' (first | exact From.runIf _ _ _ | exact From.run _ _ | exact From.next _ | exact From.fault _ _ | (extract_lets; clear_value *) | split)
theorem execWack_from (s : State) stn rtag inc ok : From s (execWack stn rtag inc ok s) := by
  unfold execWack
  repeat' (first | exact From.runIf _ _ _ | exact From.run _ _ | exact From.next _ | exact From.fault _ _ | (extract_lets; clear_value *) | split)
theorem execCrd_from (s : State) stn rd wr : From s (execCrd stn rd wr s) := by
  unfold execCrd
  repeat' (first | exact From.runIf _ _ _ | exact From.run _ _ | exact From.next _ | exact From.fault _ _ | (extract_lets; clear_value *) | split)
theorem execNportWrFrame_from (s : State) m f : From s (execNportWrFrame m f s) := frameRow_from _ _ _ _ _
theorem execNportAckFrame_from (s : State) m f : From s (execNportAckFrame m f s) := frameRow_from _ _ _ _ _
theorem execNportRefuseFrame_from (s : State) m f : From s (execNportRefuseFrame m f s) := frameRow_from _ _ _ _ _
theorem execNportSyncFrame_from (s : State) m f : From s (execNportSyncFrame m f s) := frameRow_from _ _ _ _ _
theorem execNportNakFrame_from (s : State) m f : From s (execNportNakFrame m f s) := frameRow_from _ _ _ _ _
theorem execNportCrdFrame_from (s : State) m f : From s (execNportCrdFrame m f s) := frameRow_from _ _ _ _ _
theorem execNportRetrainTimeout_from (s : State) m : From s (execNportRetrainTimeout m s) := by
  unfold execNportRetrainTimeout
  repeat' (first | exact From.runIf _ _ _ | exact From.run _ _ | exact From.next _ | exact From.fault _ _ | (extract_lets; clear_value *) | split)
theorem execLinkSlot_from (s : State) link : From s (execLinkSlot link s) := by
  unfold execLinkSlot
  repeat' (first | exact From.runIf _ _ _ | exact From.run _ _ | exact From.next _ | exact From.fault _ _ | (extract_lets; clear_value *) | split)
theorem execDataFrame_from (s : State) link f : From s (execDataFrame link f s) := From.runIf _ _ _
theorem execEmptyFrame_from (s : State) link f : From s (execEmptyFrame link f s) := From.runIf _ _ _
theorem execControlFrame_from (s : State) link f : From s (execControlFrame link f s) := From.runIf _ _ _
theorem execTrainFrame_from (s : State) link lanes : From s (execTrainFrame link lanes s) := by
  unfold execTrainFrame
  repeat' (first | exact From.runIf _ _ _ | exact From.run _ _ | exact From.next _ | exact From.fault _ _ | (extract_lets; clear_value *) | split)
theorem execSigDet_from (s : State) link lanes : From s (execSigDet link lanes s) := by
  unfold execSigDet
  repeat' (first | exact From.runIf _ _ _ | exact From.run _ _ | exact From.next _ | exact From.fault _ _ | (extract_lets; clear_value *) | split)
theorem execTrainStateTimeout_from (s : State) link : From s (execTrainStateTimeout link s) := by
  unfold execTrainStateTimeout
  repeat' (first | exact From.runIf _ _ _ | exact From.run _ _ | exact From.next _ | exact From.fault _ _ | (extract_lets; clear_value *) | split)
theorem execIdent_from (s : State) link m delay : From s (execIdent link m delay s) := by
  unfold execIdent
  repeat' (first | exact From.runIf _ _ _ | exact From.run _ _ | exact From.next _ | exact From.fault _ _ | (extract_lets; clear_value *) | split)
theorem execFeat_from (s : State) link revs bits : From s (execFeat link revs bits s) := by
  unfold execFeat
  repeat' (first | exact From.runIf _ _ _ | exact From.run _ _ | exact From.next _ | exact From.fault _ _ | (extract_lets; clear_value *) | split)
theorem execBarArrive_from (s : State) link b phase spkg : From s (execBarArrive link b phase spkg s) := From.runIf _ _ _
theorem execBarRelease_from (s : State) link b phase spkg : From s (execBarRelease link b phase spkg s) := From.runIf _ _ _
theorem execLoss_from (s : State) link seq inc : From s (execLoss link seq inc s) := From.runIf _ _ _
theorem execRefuse_from (s : State) link tag score sctx dst : From s (execRefuse link tag score sctx dst s) := From.runIf _ _ _
theorem execResvReq_from (s : State) link m : From s (execResvReq link m s) := From.runIf _ _ _
theorem execResvAck_from (s : State) link m : From s (execResvAck link m s) := From.runIf _ _ _
theorem execResvNak_from (s : State) link m : From s (execResvNak link m s) := From.runIf _ _ _
theorem execResvRel_from (s : State) link m : From s (execResvRel link m s) := From.runIf _ _ _
theorem execResvHoldEnd_from (s : State) link m : From s (execResvHoldEnd link m s) := From.runIf _ _ _
theorem execResvHoldExpiry_from (s : State) opkg oinst slice : From s (execResvHoldExpiry opkg oinst slice s) := by
  unfold execResvHoldExpiry
  repeat' (first | exact From.runIf _ _ _ | exact From.run _ _ | exact From.next _ | exact From.fault _ _ | (extract_lets; clear_value *) | split)
theorem execLinkRetry_from (s : State) : From s (execLinkRetry s) := From.runIf _ _ _
theorem execStateEccError_from (s : State) u : From s (execStateEccError u s) := From.runIf _ _ _
theorem execCcpWatchdog_from (s : State) : From s (execCcpWatchdog s) := From.runIf _ _ _
theorem execHealthWindow_from (s : State) h : From s (execHealthWindow h s) := From.runIf _ _ _
theorem execSnapshotCut_from (s : State) : From s (execSnapshotCut s) := From.runIf _ _ _
theorem execSnapshotDrain_from (s : State) : From s (execSnapshotDrain s) := From.runIf _ _ _
theorem execSnapshotComplete_from (s : State) : From s (execSnapshotComplete s) := From.runIf _ _ _
theorem execDrainTimeout_from (s : State) ackError : From s (execDrainTimeout ackError s) := From.runIf _ _ _
theorem execPwrOkRise_from (s : State) : From s (execPwrOkRise s) := From.runIf _ _ _
theorem execPwrOkFall_from (s : State) : From s (execPwrOkFall s) := From.runIf _ _ _
theorem execCtrlEnRise_from (s : State) : From s (execCtrlEnRise s) := From.runIf _ _ _
theorem execCtrlEnFall_from (s : State) : From s (execCtrlEnFall s) := From.runIf _ _ _
theorem execWarmRstN_from (s : State) : From s (execWarmRstN s) := From.runIf _ _ _
theorem execInternalResetRelease_from (s : State) : From s (execInternalResetRelease s) := From.runIf _ _ _
theorem execSelftestDone_from (s : State) failed othersOk : From s (execSelftestDone failed othersOk s) := From.runIf _ _ _
theorem execCoreDomainReady_from (s : State) core : From s (execCoreDomainReady core s) := From.runIf _ _ _
theorem execCorePowerOff_from (s : State) core : From s (execCorePowerOff core s) := From.runIf _ _ _
theorem execPcapStep_from (s : State) step : From s (execPcapStep step s) := From.runIf _ _ _
theorem execDroopEvent_from (s : State) : From s (execDroopEvent s) := From.runIf _ _ _
theorem execDroopStepDown_from (s : State) above : From s (execDroopStepDown above s) := by
  unfold execDroopStepDown
  repeat' (first | exact From.runIf _ _ _ | exact From.run _ _ | exact From.next _ | exact From.fault _ _ | (extract_lets; clear_value *) | split)
theorem execThermalStep_from (s : State) tj : From s (execThermalStep tj s) := From.runIf _ _ _
theorem execGovernorUpdate_from (s : State) pdyn pleak : From s (execGovernorUpdate pdyn pleak s) := From.runIf _ _ _
theorem execChangeDeadline_from (s : State) change : From s (execChangeDeadline change s) := by
  unfold execChangeDeadline
  repeat' (first | exact From.runIf _ _ _ | exact From.run _ _ | exact From.next _ | exact From.fault _ _ | (extract_lets; clear_value *) | split)
theorem execNportTrained_from (s : State) m rev speed x32 peerInst peerMod : From s (execNportTrained m rev speed x32 peerInst peerMod s) := by
  unfold execNportTrained
  repeat' (first | exact From.runIf _ _ _ | exact From.run _ _ | exact From.next _ | exact From.fault _ _ | (extract_lets; clear_value *) | split)
theorem execNportRetrain_from (s : State) m : From s (execNportRetrain m s) := by
  unfold execNportRetrain
  repeat' (first | exact From.runIf _ _ _ | exact From.run _ _ | exact From.next _ | exact From.fault _ _ | (extract_lets; clear_value *) | split)
theorem execStationLinkUp_from (s : State) stn rd wr : From s (execStationLinkUp stn rd wr s) := by
  unfold execStationLinkUp
  repeat' (first | exact From.runIf _ _ _ | exact From.run _ _ | exact From.next _ | exact From.fault _ _ | (extract_lets; clear_value *) | split)
theorem execStartGrainReached_from (s : State) core e : From s (execStartGrainReached core e s) := by
  unfold execStartGrainReached
  repeat' (first | exact From.run _ _ | exact From.next _ | exact issueHead_from _ | (extract_lets; clear_value *) | split)
theorem execDeadlineMissed_from (s : State) core e : From s (execDeadlineMissed core e s) := by
  unfold execDeadlineMissed
  repeat' (first | exact From.run _ _ | exact From.next _ | exact issueHead_from _ | (extract_lets; clear_value *) | split)
theorem execTokenArrival_from (s : State) core e : From s (execTokenArrival core e s) := by
  unfold execTokenArrival
  repeat' (first | exact From.run _ _ | exact From.next _ | exact issueHead_from _ | (extract_lets; clear_value *) | split)

/-- Every command: its next state, where it has one, is reached by elementary updates. -/
theorem exec_from (i : Instr) (s : State) : From s (exec i s) := by
  cases i with
  | registerWrite a => exact execRegisterWrite_from s a
  | stagedSetApply b chan => exact execStagedSetApply_from s b chan
  | grainCommit r => exact execGrainCommit_from s r
  | tileCommit r => exact execTileCommit_from s r
  | mxCommit r => exact execMxCommit_from s r
  | numCommit r => exact execNumCommit_from s r
  | vxCommit r => exact execVxCommit_from s r
  | progCommit r => exact execProgCommit_from s r
  | spCommit r => exact execSpCommit_from s r
  | stuCommit r => exact execStuCommit_from s r
  | mpCommit r => exact execMpCommit_from s r
  | npCommit r => exact execNpCommit_from s r
  | lpCommit r => exact execLpCommit_from s r
  | hpCommit r => exact execHpCommit_from s r
  | hmCommit r => exact execHmCommit_from s r
  | dbgCommit r => exact execDbgCommit_from s r
  | pwrCommit r => exact execPwrCommit_from s r
  | grainNowLoRead r => exact execGrainNowLoRead_from s r
  | stuCtxJobsLoRead r => exact execStuCtxJobsLoRead_from s r
  | tileDbgGo r value => exact execTileDbgGo_from s r value
  | tileDbgCaptureDone done => exact execTileDbgCaptureDone_from s done
  | syncSet r => exact execSyncSet_from s r
  | syncRelease r => exact execSyncRelease_from s r
  | syncClear r => exact execSyncClear_from s r
  | fence r cores => exact execFence_from s r cores
  | snapRestore r value => exact execSnapRestore_from s r value
  | dbgHalt r cores => exact execDbgHalt_from s r cores
  | dbgStep r cores => exact execDbgStep_from s r cores
  | debugHaltTaken core => exact execDebugHaltTaken_from s core
  | linkRetrain r => exact execLinkRetrain_from s r
  | warmReset r => exact execWarmReset_from s r
  | coreRst r cores => exact execCoreRst_from s r cores
  | portRst r value => exact execPortRst_from s r value
  | heldResetStart u => exact execHeldResetStart_from s u
  | coreSelftestDone core pass => exact execCoreSelftestDone_from s core pass
  | mailboxRing hsrc pair => exact execMailboxRing_from s hsrc pair
  | mailboxTake => exact execMailboxTake_from s
  | replyAck hsrc pair => exact execReplyAck_from s hsrc pair
  | replyDiscard pair => exact execReplyDiscard_from s pair
  | hello => exact execHello_from s
  | bindPair pair hsrc bind staging => exact execBindPair_from s pair hsrc bind staging
  | openTenants => exact execOpenTenants_from s
  | propose => exact execPropose_from s
  | commit => exact execCommit_from s
  | withdraw change => exact execWithdraw_from s change
  | revoke what => exact execRevoke_from s what
  | killCtx ctx => exact execKillCtx_from s ctx
  | ctxResume ctx => exact execCtxResume_from s ctx
  | modelLoad ctx slot addr len pin => exact execModelLoad_from s ctx slot addr len pin
  | modelEvict ctx slot => exact execModelEvict_from s ctx slot
  | modelPin ctx slot pin => exact execModelPin_from s ctx slot pin
  | modelUnload ctx slot => exact execModelUnload_from s ctx slot
  | seqOpen ctx entry addr => exact execSeqOpen_from s ctx entry addr
  | seqSet ctx entry ch => exact execSeqSet_from s ctx entry ch
  | seqHold ctx entry => exact execSeqHold_from s ctx entry
  | seqResume ctx entry => exact execSeqResume_from s ctx entry
  | seqClose ctx entry => exact execSeqClose_from s ctx entry
  | seqRead ctx entry => exact execSeqRead_from s ctx entry
  | poolAdd ctx count addr => exact execPoolAdd_from s ctx count addr
  | syncDump ctx addr => exact execSyncDump_from s ctx addr
  | sliceRelease ctx slice => exact execSliceRelease_from s ctx slice
  | fwLoad addr len sigOk version => exact execFwLoad_from s addr len sigOk version
  | fwUpdateDone => exact execFwUpdateDone_from s
  | admissionComplete ctx => exact execAdmissionComplete_from s ctx
  | debugConsentExpiry ctx => exact execDebugConsentExpiry_from s ctx
  | holdDumpDone ctx => exact execHoldDumpDone_from s ctx
  | bankScrubDone ctx => exact execBankScrubDone_from s ctx
  | apertureWrite hsrc off data rd => exact execApertureWrite_from s hsrc off data rd
  | apertureRead hsrc off len rd => exact execApertureRead_from s hsrc off len rd
  | grainStrobe cnt cyc => exact execGrainStrobe_from s cnt cyc
  | holdoverEntry runs => exact execHoldoverEntry_from s runs
  | holdoverAdvance runs => exact execHoldoverAdvance_from s runs
  | holdoverLimit => exact execHoldoverLimit_from s
  | timingFrameDue => exact execTimingFrameDue_from s
  | timing link t1 t2 t3 => exact execTiming_from s link t1 t2 t3
  | timingReply link t1 t2 t3 t4 => exact execTimingReply_from s link t1 t2 t3 t4
  | startGrainReached core e => exact execStartGrainReached_from s core e
  | deadlineMissed core e => exact execDeadlineMissed_from s core e
  | tokenArrival core e => exact execTokenArrival_from s core e
  | nop core e ph => exact execNop_from s core e ph
  | grain core e => exact execGrain_from s core e
  | ldw core ph => exact execLdw_from s core ph
  | pass core ph => exact execPass_from s core ph
  | pscl core ph => exact execPscl_from s core ph
  | passComplete core => exact execPassComplete_from s core
  | drain core ph => exact execDrain_from s core ph
  | vrun core ph => exact execVrun_from s core ph
  | tld core ph => exact execTld_from s core ph
  | tst core ph => exact execTst_from s core ph
  | tldw core ph => exact execTldw_from s core ph
  | tileLoadPark core cause => exact execTileLoadPark_from s core cause
  | tileLoadResume core ph => exact execTileLoadResume_from s core ph
  | dma core ph => exact execDma_from s core ph
  | dmaComplete core ch => exact execDmaComplete_from s core ch
  | wpost core ph => exact execWpost_from s core ph
  | wwait core ph => exact execWwait_from s core ph
  | wmov core ph => exact execWmov_from s core ph
  | mrd core ph => exact execMrd_from s core ph
  | mrdFill core ph => exact execMrdFill_from s core ph
  | acq core ph => exact execAcq_from s core ph
  | arrw core ph => exact execArrw_from s core ph
  | lsend core ph => exact execLsend_from s core ph
  | swait core ph => exact execSwait_from s core ph
  | sadd core ph => exact execSadd_from s core ph
  | ssub core ph => exact execSsub_from s core ph
  | bar core ph => exact execBar_from s core ph
  | wadiReply core ph => exact execWadiReply_from s core ph
  | wadiXmissReply core => exact execWadiXmissReply_from s core
  | xmissLimit core u ph => exact execXmissLimit_from s core u ph
  | resolve ctx page failed => exact execResolve_from s ctx page failed
  | writeAck core holds inj => exact execWriteAck_from s core holds inj
  | inboundWritePacket core nth grants => exact execInboundWritePacket_from s core nth grants
  | refusalNotice notice => exact execRefusalNotice_from s notice
  | semOpApply ops => exact execSemOpApply_from s ops
  | hubWaitRegister core => exact execHubWaitRegister_from s core
  | waitWake core => exact execWaitWake_from s core
  | barrierArrival nth => exact execBarrierArrival_from s nth
  | barrierRelease nth => exact execBarrierRelease_from s nth
  | barrierDeadline b => exact execBarrierDeadline_from s b
  | waitTimerExpiry core e => exact execWaitTimerExpiry_from s core e
  | stepAssign ctx => exact execStepAssign_from s ctx
  | caravanBuild ctx => exact execCaravanBuild_from s ctx
  | caravanCut => exact execCaravanCut_from s
  | builderResume => exact execBuilderResume_from s
  | residencyLoad slot => exact execResidencyLoad_from s slot
  | parcelStart core segUpset => exact execParcelStart_from s core segUpset
  | parcelEnd core => exact execParcelEnd_from s core
  | stealRequest ask => exact execStealRequest_from s ask
  | stepEnd ctx => exact execStepEnd_from s ctx
  | beStepCap ctx => exact execBeStepCap_from s ctx
  | stepBudget ctx => exact execStepBudget_from s ctx
  | rdata stn rtag inc status changed => exact execRdata_from s stn rtag inc status changed
  | wack stn rtag inc ok => exact execWack_from s stn rtag inc ok
  | crd stn rd wr => exact execCrd_from s stn rd wr
  | nportWrFrame m f => exact execNportWrFrame_from s m f
  | nportAckFrame m f => exact execNportAckFrame_from s m f
  | nportRefuseFrame m f => exact execNportRefuseFrame_from s m f
  | nportSyncFrame m f => exact execNportSyncFrame_from s m f
  | nportNakFrame m f => exact execNportNakFrame_from s m f
  | nportCrdFrame m f => exact execNportCrdFrame_from s m f
  | nportRetrainTimeout m => exact execNportRetrainTimeout_from s m
  | linkSlot link => exact execLinkSlot_from s link
  | dataFrame link f => exact execDataFrame_from s link f
  | emptyFrame link f => exact execEmptyFrame_from s link f
  | controlFrame link f => exact execControlFrame_from s link f
  | trainFrame link lanes => exact execTrainFrame_from s link lanes
  | sigDet link lanes => exact execSigDet_from s link lanes
  | trainStateTimeout link => exact execTrainStateTimeout_from s link
  | ident link m delay => exact execIdent_from s link m delay
  | feat link revs bits => exact execFeat_from s link revs bits
  | barArrive link b phase spkg => exact execBarArrive_from s link b phase spkg
  | barRelease link b phase spkg => exact execBarRelease_from s link b phase spkg
  | loss link seq inc => exact execLoss_from s link seq inc
  | refuse link tag score sctx dst => exact execRefuse_from s link tag score sctx dst
  | resvReq link m => exact execResvReq_from s link m
  | resvAck link m => exact execResvAck_from s link m
  | resvNak link m => exact execResvNak_from s link m
  | resvRel link m => exact execResvRel_from s link m
  | resvHoldEnd link m => exact execResvHoldEnd_from s link m
  | resvHoldExpiry opkg oinst slice => exact execResvHoldExpiry_from s opkg oinst slice
  | linkRetry => exact execLinkRetry_from s
  | stateEccError u => exact execStateEccError_from s u
  | ccpWatchdog => exact execCcpWatchdog_from s
  | healthWindow h => exact execHealthWindow_from s h
  | snapshotCut => exact execSnapshotCut_from s
  | snapshotDrain => exact execSnapshotDrain_from s
  | snapshotComplete => exact execSnapshotComplete_from s
  | drainTimeout ackError => exact execDrainTimeout_from s ackError
  | pwrOkRise => exact execPwrOkRise_from s
  | pwrOkFall => exact execPwrOkFall_from s
  | ctrlEnRise => exact execCtrlEnRise_from s
  | ctrlEnFall => exact execCtrlEnFall_from s
  | warmRstN => exact execWarmRstN_from s
  | internalResetRelease => exact execInternalResetRelease_from s
  | selftestDone failed othersOk => exact execSelftestDone_from s failed othersOk
  | coreDomainReady core => exact execCoreDomainReady_from s core
  | corePowerOff core => exact execCorePowerOff_from s core
  | pcapStep step => exact execPcapStep_from s step
  | droopEvent => exact execDroopEvent_from s
  | droopStepDown above => exact execDroopStepDown_from s above
  | thermalStep tj => exact execThermalStep_from s tj
  | governorUpdate pdyn pleak => exact execGovernorUpdate_from s pdyn pleak
  | changeDeadline change => exact execChangeDeadline_from s change
  | nportTrained m rev speed x32 peerInst peerMod => exact execNportTrained_from s m rev speed x32 peerInst peerMod
  | nportRetrain m => exact execNportRetrain_from s m
  | stationLinkUp stn rd wr => exact execStationLinkUp_from s stn rd wr

end Sys2Proof.Machine
end

