-- ==== Sys2Proof/Laws/Frame.lean ====
section
/-! SUPPORT. Frames: which parts of the state an elementary update can change, and how a meaning is shown, operation by
operation, to leave a part alone. -/

namespace Sys2Proof.Machine

/-! ### Parts -/

theorem CorePart.same_refl (c : CorePart) (k : Core) : c.same k k := by cases c <;> simp [CorePart.same]

theorem CorePart.same_trans (c : CorePart) {k l m : Core} (h : c.same k l) (h' : c.same l m) : c.same k m := by
  cases c <;> simp_all [CorePart.same]

theorem Part.same_refl (p : Part) (s : State) : p.same s s := by cases p <;> simp [Part.same, CorePart.same_refl]

theorem Part.same_trans (p : Part) {s t u : State} (h : p.same s t) (h' : p.same t u) : p.same s u := by
  cases p with
  | core n c => exact c.same_trans h h'
  | _ => simp_all [Part.same]

/-- The parts that an elementary update can change. -/
def Eff.touches : Eff → Part → Prop
  | .reg f c _, .reg k => k = f.key c
  | .regsDrop _, .reg _ => True
  | .tb _, .tb | .pw _, .pw | .recs _, .recs | .fw _, .fw | .stu _, .stu => True
  | .pair n _, .pair m | .pair n _, .staging m | .ctx n _, .ctx m | .model n _, .model m | .entry n _, .entry m | .sem n _, .sem m
  | .bar n _, .bar m | .hubReg n _, .hubReg m | .core n _, .core m _ | .stn n _, .stn m | .mod n _, .mod m
  | .ctl n _, .ctl m | .link n _, .link m | .imap n _, .imap m => m = n
  | .spData n a v, .spByte m b => m = n ∧ a ≤ b ∧ b < a + v.length
  | .spSyn n g _, .spChk m h => m = n ∧ h = g
  | .spClear n, .spByte m _ | .spClear n, .spChk m _ | .spZero n _ _, .spByte m _ | .spZero n _ _, .spChk m _ => m = n
  | .gmData a v, .gmByte b => a ≤ b ∧ b < a + v.length
  | .gmData a v, .written g => a / 64 ≤ g ∧ g < (a + v.length + 63) / 64
  | .gmSyn g _, .gmChk h => h = g
  | .msgs _, .msgs | .groups _ _, .groups | .slices _, .slices | .split _ _, .split | .health _, .health
  | .snap _, .snap | .dbg _, .dbg | .resets _, .resets | .staged _, .staged | .sets _, .sets | .resp _, .resp
  | .fresh _, .free => True
  | .cold _, .gmByte _ | .cold _, .gmChk _ | .cold _, .written _ | .cold _, .free | .cold _, .pending => False
  | .cold _, _ => True
  | .warm _, .gmByte _ | .warm _, .gmChk _ | .warm _, .written _ | .warm _, .free | .warm _, .pending | .warm _, .tb
  | .warm _, .resp => False
  | .warm _, _ => True
  | _, _ => False

theorem tabGet_setRun_ne (l : List Nat) (t : Tab Bool) (b g : Nat) (h : ∀ i ∈ l, g ≠ b + i) :
    tabGet false (l.foldl (fun t i => tabSet t (b + i) true) t) g = tabGet false t g := by
  induction l generalizing t with
  | nil => rfl
  | cons x l ih =>
    simp only [List.foldl_cons]
    rw [ih _ fun i hi => h i (List.mem_cons_of_mem _ hi)]
    exact tabGet_tabSet_ne _ _ _ (h x (List.mem_cons_self ..))

theorem written_ne (t : Tab Bool) (a n g : Nat) (h : ¬ (a / 64 ≤ g ∧ g < (a + n + 63) / 64)) :
    tabGet false (markWritten t a n) g = tabGet false t g := by
  unfold markWritten
  apply tabGet_setRun_ne
  intro i hi
  simp only [List.mem_range] at hi
  omega

theorem spad_of (s : State) (n : Nat) (h : s.Inv) : (s.spad n).wf spSize = true := by
  have h := h.spads
  unfold State.spad
  generalize s.spads = t at h
  induction t with
  | nil => rfl
  | cons x t ih =>
    unfold tabGet
    split
    · exact h x (List.mem_cons_self ..)
    · split
      · rfl
      · exact ih fun kv hk => h kv (List.mem_cons_of_mem _ hk)

/-- A part that an update does not touch is the same after it. -/
theorem Eff.same (e : Eff) (p : Part) (s : State) (hI : s.Inv) (h : ¬ e.touches p) : p.same s (e.apply s) := by
  have out : ∀ (m : Memory) (n a : Nat) (v : List Byte) (b : Nat), m.wf n = true → ¬ (a ≤ b ∧ b < a + v.length) →
      cellRead byte0 m.data b = cellRead byte0 (memWrite m n a v).data b := by
    intro m n a v b hw hb
    refine (cellRead_cellsWrite_out _ _ _ _ _ ((Memory.wf_iff _ _).mp hw).1 ?_).symm
    simp only [List.length_take]
    omega
  have syn : ∀ (m : Memory) (n g v k : Nat), m.wf n = true → k ≠ g → tabGet 0 m.syn k = tabGet 0 (memSyn m g v).syn k := by
    intro m n g v k hw hk
    have hw := ((Memory.wf_iff _ _).mp hw).2.2
    exact (cellRead_cellWrite_ne 0 m.syn _ (((cellsWf_iff _ _).mp hw).1) hk).symm
  cases e with
  | reg f c v =>
    cases p with
    | reg k => exact fun d => (tabGet_tabSet_ne _ _ _ h).symm
    | core n c => exact c.same_refl _
    | _ => (first | rfl | exact fun _ => rfl | exact ⟨rfl, rfl⟩)
  | spData n a v =>
    cases p with
    | core n c => exact c.same_refl _
    | spByte m b =>
      by_cases hm : m = n
      · subst hm
        simp only [Part.same, State.spbyte, Eff.spData_get_same]
        exact out _ _ _ _ _ (spad_of s m hI) fun hb => h ⟨rfl, hb⟩
      · simp only [Part.same, State.spbyte, Eff.spData_get_ne s n m a v hm]
    | spChk m g =>
      by_cases hm : m = n
      · subst hm; simp only [Part.same, Eff.spData_get_same, memWrite]
      · simp only [Part.same, Eff.spData_get_ne s n m a v hm]
    | _ => (first | rfl | exact fun _ => rfl | exact ⟨rfl, rfl⟩)
  | spSyn n g v =>
    cases p with
    | core n c => exact c.same_refl _
    | spByte m b =>
      by_cases hm : m = n
      · subst hm; simp only [Part.same, State.spbyte, Eff.spSyn_get_same, memSyn]
      · simp only [Part.same, State.spbyte, Eff.spSyn_get_ne s n m g v hm]
    | spChk m k =>
      by_cases hm : m = n
      · subst hm
        simp only [Part.same, Eff.spSyn_get_same]
        exact syn _ _ _ _ _ (spad_of s m hI) fun hk => h ⟨rfl, hk⟩
      · simp only [Part.same, Eff.spSyn_get_ne s n m g v hm]
    | _ => (first | rfl | exact fun _ => rfl | exact ⟨rfl, rfl⟩)
  | spClear n =>
    cases p with
    | core n c => exact c.same_refl _
    | spByte m b => simp only [Part.same, State.spbyte, Eff.spClear_get_ne s n m h]
    | spChk m k => simp only [Part.same, Eff.spClear_get_ne s n m h]
    | _ => (first | rfl | exact fun _ => rfl | exact ⟨rfl, rfl⟩)
  | spZero n a k =>
    cases p with
    | core n c => exact c.same_refl _
    | spByte m b => simp only [Part.same, State.spbyte, Eff.spZero_get_ne s n m a k h]
    | spChk m g => simp only [Part.same, Eff.spZero_get_ne s n m a k h]
    | _ => (first | rfl | exact fun _ => rfl | exact ⟨rfl, rfl⟩)
  | gmData a v =>
    cases p with
    | core n c => exact c.same_refl _
    | gmByte b => exact out _ _ _ _ _ hI.gmem h
    | written g => exact (written_ne _ _ _ _ h).symm
    | _ => (first | rfl | exact fun _ => rfl | exact ⟨rfl, rfl⟩)
  | gmSyn g v =>
    cases p with
    | core n c => exact c.same_refl _
    | gmChk k => exact syn _ _ _ _ _ hI.gmem h
    | _ => (first | rfl | exact fun _ => rfl | exact ⟨rfl, rfl⟩)
  | core n v =>
    cases p with
    | core m c =>
      simp only [Part.same, Eff.core_get_ne s n m v h]
      exact c.same_refl _
    | _ => (first | rfl | exact fun _ => rfl | exact ⟨rfl, rfl⟩)
  | pair n v =>
    cases p with
    | core n c => exact c.same_refl _
    | pair m => simp only [Part.same, Eff.pair_get_ne s n m v h]
    | staging m => simp only [Part.same, Eff.pair_get_ne s n m v h]
    | _ => (first | rfl | exact fun _ => rfl | exact ⟨rfl, rfl⟩)
  | cold q => cases p <;> (first | rfl | exact fun _ => rfl | exact ⟨rfl, rfl⟩ | exact absurd trivial h)
  | warm q => cases p <;> (first | rfl | exact fun _ => rfl | exact ⟨rfl, rfl⟩ | exact absurd trivial h)
  | _ =>
    cases p <;>
      (first
        | rfl
        | exact fun _ => rfl
        | exact CorePart.same_refl _ _
        | exact ⟨rfl, rfl⟩
        | exact absurd trivial h
        | exact (tabGet_tabSet_ne _ _ _ h).symm)

/-! ### The invariant -/

/-- Writing a register field keeps every field within its width. -/
theorem regsWf_set (t : Tab Nat) (f : Fld) (c v : Nat) (h : regsWf t = true) : regsWf (tabSet t (f.key c) (v % 2 ^ f.width)) = true := by
  simp only [regsWf, Bool.and_eq_true, List.all_eq_true, decide_eq_true_eq] at h ⊢
  refine ⟨tabSet_wf _ _ _ h.1, fun kv hk => ?_⟩
  rcases mem_tabSet _ _ _ _ hk with rfl | hk
  · have : keyWidth (f.key c) = f.width := by
      have hm : c % 65536 < 65536 := Nat.mod_lt _ (by decide)
      have h1 := f.hi.isLt
      have h2 := f.lo.isLt
      simp only [keyWidth, Fld.key, Fld.width, key_div _ _ hm]
      have e1 : ((f.addr * 32 + f.hi.val) * 32 + f.lo.val) / 32 = f.addr * 32 + f.hi.val := by omega
      rw [e1]
      have e2 : (f.addr * 32 + f.hi.val) % 32 = f.hi.val := by omega
      have e3 : ((f.addr * 32 + f.hi.val) * 32 + f.lo.val) % 32 = f.lo.val := by omega
      rw [e2, e3]
    rw [this]; exact Nat.mod_lt _ (Nat.two_pow_pos _)
  · exact h.2 kv hk

theorem set_all {α} (P : α → Prop) (t : Tab α) (k : Nat) (v : α) (h : ∀ kv ∈ t, P kv.2) (hv : P v) : ∀ kv ∈ tabSet t k v, P kv.2 := by
  intro kv hk
  rcases mem_tabSet _ _ _ _ hk with rfl | hk
  · exact hv
  · exact h kv hk

theorem foldl_wf (l : List Nat) (t : Tab Bool) (f : Nat → Nat) (h : tabWf t = true) : tabWf (l.foldl (fun t i => tabSet t (f i) true) t) = true := by
  induction l generalizing t with
  | nil => exact h
  | cons x l ih => exact ih _ (tabSet_wf _ _ _ h)
/-- Every elementary update keeps the invariant. -/
theorem Eff.keeps_inv (e : Eff) (s : State) (h : s.Inv) : (e.apply s).Inv := by
  have ⟨hr, hg, hs, ht⟩ := h
  simp only [Bool.and_eq_true] at ht
  cases e <;> (try exact ⟨hr, hg, hs, by simp only [Bool.and_eq_true]; exact ht⟩)
  all_goals try (exact ⟨hr, hg, hs, by simp only [Eff.apply, Bool.and_eq_true]; simp only [ht, tabSet_wf, and_self]⟩)
  case reg f c v => exact ⟨regsWf_set _ _ _ _ hr, hg, hs, by simp only [Bool.and_eq_true]; exact ht⟩
  case regsDrop d =>
    refine ⟨?_, hg, hs, by simp only [Bool.and_eq_true]; exact ht⟩
    simp only [regsWf, Bool.and_eq_true, List.all_eq_true] at hr ⊢
    exact ⟨filter_wf _ _ hr.1, fun kv hk => hr.2 kv (List.mem_filter.mp hk).1⟩
  case spData n a v => 
    exact ⟨hr, hg, set_all (fun m => Memory.wf spSize m = true) _ _ _ hs (memWrite_wf _ _ _ _ (spad_of s n h)),
      by simp only [Eff.apply, Bool.and_eq_true]; simp only [ht, tabSet_wf, and_self]⟩
  case spSyn n a v => 
    exact ⟨hr, hg, set_all (fun m => Memory.wf spSize m = true) _ _ _ hs (memSyn_wf _ _ _ _ (spad_of s n h)),
      by simp only [Eff.apply, Bool.and_eq_true]; simp only [ht, tabSet_wf, and_self]⟩
  case spClear n => 
    exact ⟨hr, hg, set_all (fun m => Memory.wf spSize m = true) _ _ _ hs (empty_wf _),
      by simp only [Eff.apply, Bool.and_eq_true]; simp only [ht, tabSet_wf, and_self]⟩
  case spZero n a v => 
    exact ⟨hr, hg, set_all (fun m => Memory.wf spSize m = true) _ _ _ hs (memZero_wf _ _ _ _ (spad_of s n h)),
      by simp only [Eff.apply, Bool.and_eq_true]; simp only [ht, tabSet_wf, and_self]⟩
  case gmData a v => exact ⟨hr, memWrite_wf _ _ _ _ hg, hs, by simp only [Eff.apply, Bool.and_eq_true]; simp only [ht, and_self, foldl_wf, markWritten]⟩
  case gmSyn g v => exact ⟨hr, memSyn_wf _ _ _ _ hg, hs, by simp only [Bool.and_eq_true]; exact ht⟩
  case cold p => exact ⟨by rfl, hg, by simp [Eff.apply, State.reset], by simp only [Eff.apply, Bool.and_eq_true]; simp [ht]; decide⟩
  case warm p =>
    refine ⟨?_, hg, by simp [Eff.apply, State.reset], by simp only [Eff.apply, Bool.and_eq_true]; simp [ht]; decide⟩
    simp only [regsWf, Bool.and_eq_true, List.all_eq_true] at hr ⊢
    exact ⟨filter_wf _ _ hr.1, fun kv hk => hr.2 kv (List.mem_filter.mp hk).1⟩

end Sys2Proof.Machine
end

