-- ==== Sys2Proof/Laws/Does.lean ====
section
/-! SUPPORT. What a meaning does, said as the elementary updates it carries out and the states it carries them out in
(Does), and what that keeps (Pres); both are shown operation by operation. -/

namespace Sys2Proof.Machine

/-- t is reached from s by updates e of states u with P u e. -/
inductive ReachBy (P : State → Eff → Prop) (s : State) : State → Prop where
  | refl : ReachBy P s s
  | step {t : State} (e : Eff) : ReachBy P s t → P t e → ReachBy P s (e.apply t)

theorem ReachBy.trans {P : State → Eff → Prop} {s t u : State} (h : ReachBy P s t) (h' : ReachBy P t u) : ReachBy P s u := by
  induction h' with
  | refl => exact h
  | step e _ he ih => exact ih.step e he

theorem ReachBy.mono {P Q : State → Eff → Prop} (hPQ : ∀ t e, P t e → Q t e) {s t : State} (h : ReachBy P s t) :
    ReachBy Q s t := by
  induction h with
  | refl => exact .refl
  | step e _ he ih => exact ih.step e (hPQ _ _ he)

/-- What every update keeps, in the states in which it is carried out, holds at the end. -/
theorem ReachBy.keeps {P : State → Eff → Prop} {I : State → Prop} (hI : ∀ t e, P t e → I t → I (e.apply t)) {s t : State}
    (h : ReachBy P s t) : I s → I t := by
  induction h with
  | refl => exact id
  | step e _ he ih => exact fun hs => hI _ _ he (ih hs)

variable {s0 : State} {α β : Type}

/-- From any state, m carries out only updates that P allows. -/
def Does (P : State → Eff → Prop) (m : M s0 α) : Prop := ∀ t, ReachBy P t.val (m t).2.val

/-- From any state where I holds, m ends where I holds. -/
def Pres (I : State → Prop) (m : M s0 α) : Prop := ∀ t, I t.val → I (m t).2.val

theorem Does.mono {P Q : State → Eff → Prop} {m : M s0 α} (h : Does P m) (hPQ : ∀ t e, P t e → Q t e) : Does Q m :=
  fun t => (h t).mono hPQ

theorem Does.pres {P : State → Eff → Prop} {I : State → Prop} {m : M s0 α} (h : Does P m)
    (hI : ∀ t e, P t e → I t → I (e.apply t)) : Pres I m := fun t ht => (h t).keeps hI ht

section

variable {P : State → Eff → Prop}

theorem Does.pure (a : α) : Does P (pure a : M s0 α) := fun _ => .refl

theorem Does.rd : Does P (rd : M s0 State) := fun _ => .refl

theorem Does.bind {m : M s0 α} {f : α → M s0 β} (hm : Does P m) (hf : ∀ a, Does P (f a)) : Does P (m >>= f) :=
  fun t => (hm t).trans (hf _ _)

/-- A step after reading the state: what is read is the state in which the step starts. -/
theorem Does.rd_bind {f : State → M s0 β} (hf : ∀ t, ReachBy P t.val (f t.val t).2.val) :
    Does P (Machine.rd >>= f : M s0 β) := fun t => hf t

theorem Does.eff (e : Eff) (h : ∀ t, P t e) : Does P (eff e : M s0 Unit) := fun _ => .step e .refl (h _)

theorem Does.ite (c : Prop) [Decidable c] {m m' : M s0 α} (hm : c → Does P m) (hm' : ¬ c → Does P m') :
    Does P (if c then m else m') := by
  split
  · exact hm ‹_›
  · exact hm' ‹_›

theorem Does.each (l : List α) {f : α → M s0 Unit} (hf : ∀ a ∈ l, Does P (f a)) : Does P (each l f) := by
  induction l with
  | nil => exact Does.pure ()
  | cons a l ih =>
    exact Does.bind (hf a (List.mem_cons_self ..)) fun _ => ih fun b hb => hf b (List.mem_cons_of_mem _ hb)

end

section

variable {I : State → Prop}

theorem Pres.pure (a : α) : Pres I (pure a : M s0 α) := fun _ h => h

theorem Pres.rd : Pres I (rd : M s0 State) := fun _ h => h

theorem Pres.bind {m : M s0 α} {f : α → M s0 β} (hm : Pres I m) (hf : ∀ a, Pres I (f a)) : Pres I (m >>= f) :=
  fun t h => hf _ _ (hm t h)

theorem Pres.rd_bind {f : State → M s0 β} (hf : ∀ t, I t.val → I (f t.val t).2.val) : Pres I (Machine.rd >>= f : M s0 β) :=
  fun t h => hf t h

theorem Pres.eff (e : Eff) (h : ∀ t, I t → I (e.apply t)) : Pres I (eff e : M s0 Unit) := fun _ ht => h _ ht

theorem Pres.ite (c : Prop) [Decidable c] {m m' : M s0 α} (hm : c → Pres I m) (hm' : ¬ c → Pres I m') :
    Pres I (if c then m else m') := by
  split
  · exact hm ‹_›
  · exact hm' ‹_›

theorem Pres.each (l : List α) {f : α → M s0 Unit} (hf : ∀ a ∈ l, Pres I (f a)) : Pres I (each l f) := by
  induction l with
  | nil => exact Pres.pure ()
  | cons a l ih =>
    exact Pres.bind (hf a (List.mem_cons_self ..)) fun _ => ih fun b hb => hf b (List.mem_cons_of_mem _ hb)

end

/-! ### Updates of one record -/

theorem Pres.setReg {I : State → Prop} (f : Fld) (c v : Nat) (h : ∀ t w, I t → I ((Eff.reg f c w).apply t)) :
    Pres I (setReg f c v : M s0 Unit) := Pres.eff _ fun t => h t v

theorem Pres.bumpReg {I : State → Prop} (f : Fld) (c n : Nat) (h : ∀ t w, I t → I ((Eff.reg f c w).apply t)) :
    Pres I (bumpReg f c n : M s0 Unit) := fun t ht => h t.val _ ht

theorem Pres.setRegBit {I : State → Prop} (f : Fld) (i : Nat) (b : Bool) (h : ∀ t w, I t → I ((Eff.reg f 0 w).apply t)) :
    Pres I (setRegBit f i b : M s0 Unit) := fun t ht => h t.val _ ht

theorem Pres.modCore {I : State → Prop} (n : Nat) (g : Core → Core)
    (h : ∀ t, I t → I ((Eff.core n (g (t.core n))).apply t)) : Pres I (modCore n g : M s0 Unit) := fun t ht => h t.val ht

/-! ### Frames -/

/-- s's invariant holds and nothing but what `may` names has changed since s. -/
def Framed (may : Part → Prop) (s t : State) : Prop := t.Inv ∧ SameBut may s t

theorem Framed.start {may : Part → Prop} {s : State} (h : s.Inv) : Framed may s s := ⟨h, fun p _ => p.same_refl s⟩

/-- An update that touches only what `may` names keeps the frame. -/
theorem Framed.eff {may : Part → Prop} {s t : State} (e : Eff) (h : ∀ p, e.touches p → may p) (ht : Framed may s t) :
    Framed may s (e.apply t) :=
  ⟨e.keeps_inv t ht.1, fun p hp => p.same_trans (ht.2 p hp) (e.same p t ht.1 fun hq => hp (h p hq))⟩

/-- An update of core n keeps the frame where it changes only the core's parts that `may` names. -/
theorem Framed.core {may : Part → Prop} {s t : State} (n : Nat) (v : Core)
    (h : ∀ c, ¬ may (.core n c) → c.same (t.core n) v) (ht : Framed may s t) : Framed may s ((Eff.core n v).apply t) := by
  refine ⟨Eff.keeps_inv _ t ht.1, fun p hp => p.same_trans (ht.2 p hp) ?_⟩
  cases p with
  | core m c =>
    by_cases hm : m = n
    · subst hm
      simp only [Part.same, Eff.core_get_same]
      exact h c hp
    · exact Eff.same _ _ _ ht.1 fun hq => hm hq
  | _ => exact Eff.same _ _ _ ht.1 fun hq => hq.elim

end Sys2Proof.Machine
end

