-- ==== Sys2Proof/Laws/Records.lean ====
section
/-! SUPPORT. What making a fault record or a trace record does (R396 to R398, R416): the updates it carries out, the frame
that it keeps, and the parts of the state that it leaves as they are. -/

namespace Sys2Proof.Machine

variable {s0 : State}

/-- The updates of a write of good bytes to the granules that `ok` names (R253, R332): their bytes and checks, and the stations
that serve them with their counts. -/
def WriteEff (ok : Nat → Prop) : Eff → Prop
  | .gmData a v => 0 < v.length ∧ ∀ b, a ≤ b → b < a + v.length → ok (b / 64)
  | .gmSyn g _ => ok g
  | .stn n _ => ∃ g, ok g ∧ n = stationOf (64 * g)
  | .reg f c _ => f = Fd.mpWrGranGran ∧ ∃ g, ok g ∧ c = stationOf (64 * g)
  | _ => False

/-- The updates of records and traces: their counters, the record queue, the trace position, and writes to the rings. -/
def NoteEff (t : State) : Eff → Prop
  | .recs _ | .dbg _ => True
  | .reg f c v => (f.key c = Fd.recSeqSeq.key 0 ∨ f.key c = Fd.recDropDropped.key 0 ∨ f.key c = Fd.traceHeadCount.key 0
        ∨ f.key c = Fd.traceDropDropped.key 0)
      ∨ WriteEff t.inRing (.reg f c v)
  | e => WriteEff t.inRing e

/-- The runs into which n granules from an aligned address are split lie among those granules, and none is empty. -/
theorem runsOf_mem (k : Nat) : ∀ (a n : Nat), a % 64 = 0 → ∀ p ∈ runsOf k a n,
    p.1 % 64 = 0 ∧ a ≤ p.1 ∧ 0 < p.2 ∧ p.1 / 64 + p.2 ≤ a / 64 + n := by
  induction k with
  | zero => intro a n _ p hp; exact absurd hp (List.not_mem_nil)
  | succ k ih =>
    intro a n ha p hp
    unfold runsOf at hp
    split at hp
    · exact absurd hp (List.not_mem_nil)
    · rename_i hn
      simp only [List.mem_cons] at hp
      have hlt : a / 64 % 64 < 64 := Nat.mod_lt _ (by decide)
      rcases hp with rfl | hp
      · exact ⟨ha, Nat.le_refl _, by simp only []; omega, by simp only []; omega⟩
      · obtain ⟨h1, h2, h3, h4⟩ := ih _ _ (by omega) p hp
        exact ⟨h1, by omega, h3, by omega⟩

section Writes

variable {ok : Nat → Prop}

/-- What a write to the granules `ok` does, from any state. -/
abbrev WritesOk (ok : Nat → Prop) {α : Type} (m : M s0 α) : Prop := Does (fun _ e => WriteEff ok e) m

theorem toLe_length (v n : Nat) : (toLe v n).length = n := by
  induction n generalizing v with
  | zero => rfl
  | succ n ih => simp [toLe, ih]

theorem slice_length (l : List Byte) (o n : Nat) : (slice l o n).length = n := by
  unfold slice
  simp only [List.length_append, List.length_replicate, List.length_take, List.length_drop]
  omega

theorem putGran_writes (g : Nat) (x : GranS) (h : ok g) : WritesOk ok (putGrans (64 * g) [x] : M s0 Unit) := by
  refine Does.each _ fun i hi => ?_
  have hi : i = 0 := by have := List.mem_range.mp hi; simp only [List.length_singleton] at this; omega
  subst hi
  refine Does.bind (Does.eff _ fun _ => ⟨by rw [slice_length]; decide, fun b h1 h2 => ?_⟩) fun _ => Does.eff _ fun _ => ?_
  · rw [slice_length] at h2
    have : b / 64 = g := by omega
    exact this ▸ h
  · show ok _
    have : (64 * g + 64 * 0) / 64 = g := by omega
    simpa using h

theorem acceptGran_writes (n bound g : Nat) (h : ok g) (hn : n = stationOf (64 * g)) :
    WritesOk ok (acceptGran n bound g : M s0 Unit) := by
  refine Does.bind Does.rd fun s => Does.each _ fun q _ => Does.bind Does.rd fun t => ?_
  cases q with
  | read r => exact Does.eff _ fun _ => ⟨g, h, hn⟩
  | write w => exact Does.bind (Does.eff _ fun _ => ⟨g, h, hn⟩) fun _ => putGran_writes g _ h

theorem stationOf_run (a i m : Nat) (ha : a % 64 = 0) (hi : i < m) (hm : m ≤ 64 - a / 64 % 64) :
    stationOf (64 * (a / 64 + i)) = stationOf a := by
  unfold stationOf
  have h1 : 64 * (a / 64 + i) / 4096 = a / 4096 := by omega
  have h2 : 64 * (a / 64 + i) / 2 ^ 13 = a / 2 ^ 13 := by
    have e : ∀ x, x / 2 ^ 13 = x / 4096 / 2 := fun x => by omega
    rw [e, e, h1]
  rw [h1, h2]

/-- A run stays within one 4096-byte unit. -/
theorem runsOf_unit (k : Nat) : ∀ (a n : Nat), ∀ p ∈ runsOf k a n, p.2 ≤ 64 - p.1 / 64 % 64 := by
  induction k with
  | zero => intro a n p hp; exact absurd hp (List.not_mem_nil)
  | succ k ih =>
    intro a n p hp
    unfold runsOf at hp
    split at hp
    · exact absurd hp (List.not_mem_nil)
    · simp only [List.mem_cons] at hp
      rcases hp with rfl | hp
      · simp only []; omega
      · exact ih _ _ p hp

theorem modStn_writes (n : Nat) (f : Station → Station) (h : ∃ g, ok g ∧ n = stationOf (64 * g)) :
    WritesOk ok (modStn n f : M s0 Unit) := Does.bind Does.rd fun _ => Does.eff _ fun _ => h

theorem directRun_writes (who : MemUser) (o : Bool) (a m : Nat) (ha : a % 64 = 0) (h0 : 0 < m)
    (hm : m ≤ 64 - a / 64 % 64) (h : ∀ i, i < m → ok (a / 64 + i)) :
    WritesOk ok (directRun who true o a m : M s0 Unit) := by
  have hs : ∃ g, ok g ∧ stationOf a = stationOf (64 * g) := ⟨a / 64 + 0, h 0 h0, (stationOf_run a 0 m ha h0 hm).symm⟩
  unfold directRun
  refine Does.bind Does.rd fun s => Does.bind (Does.each _ fun i hi => ?_) fun _ => Does.bind Does.rd fun t => ?_
  · have hi := List.mem_range.mp hi
    exact acceptGran_writes _ _ _ (h i hi) (stationOf_run a i m ha hi hm).symm
  · simp only [Bool.not_true, Bool.false_and, Bool.false_eq_true, if_false]
    exact modStn_writes _ _ hs

theorem bumpUnits_writes (n k r : Nat) (h : ∃ g, ok g ∧ n = stationOf (64 * g)) :
    WritesOk ok (bumpUnits Fd.mpWrGranGran n k r : M s0 Nat) := by
  refine Does.ite _ (fun _ => ?_) fun _ => Does.pure _
  exact Does.bind (Does.bind Does.rd fun _ => Does.eff _ fun _ => ⟨rfl, h⟩) fun _ => Does.pure _

theorem countOut_good (n : Nat) (k : Nat) (h : ∃ g, ok g ∧ n = stationOf (64 * g)) :
    WritesOk ok (countOut n (List.replicate k ⟨[], 0⟩) : M s0 Unit) := by
  have e1 : ((List.replicate k (⟨[], 0⟩ : GranS)).filter fun g => g.syn = markSyn).length = 0 := by
    rw [List.length_eq_zero_iff, List.filter_eq_nil_iff]
    intro x hx
    rw [List.eq_of_mem_replicate hx]
    decide
  have e2 : ((List.replicate k (⟨[], 0⟩ : GranS)).filter fun g => g.syn ≠ 0 && g.syn ≠ markSyn).length = 0 := by
    rw [List.length_eq_zero_iff, List.filter_eq_nil_iff]
    intro x hx
    rw [List.eq_of_mem_replicate hx]
    decide
  unfold countOut
  simp only [e1, e2, ne_eq, not_true_eq_false, if_false]
  exact Does.bind Does.rd fun _ => Does.bind (bumpUnits_writes _ _ _ h) fun _ => modStn_writes _ _ h

/-- A write of good bytes through the stations touches only the granules that hold them (R253, R313). -/
theorem gwrite_writes (who : MemUser) (a : Nat) (v : List Byte) (hv : 0 < v.length)
    (h : ∀ b, a % gmSize ≤ b → b < a % gmSize + v.length → ok (b / 64)) : WritesOk ok (gwrite who a v : M s0 Unit) := by
  have hdiv : a % gmSize % 64 = a % 64 := Nat.mod_mod_of_dvd _ (by decide)
  have hg : ∀ i, i < granSpan a v.length → ok (a % gmSize / 64 + i) := by
    intro i hi
    unfold granSpan at hi
    split at hi
    · omega
    · have := h (max (a % gmSize) (64 * (a % gmSize / 64 + i))) (Nat.le_max_left ..) (by omega)
      have e : max (a % gmSize) (64 * (a % gmSize / 64 + i)) / 64 = a % gmSize / 64 + i := by omega
      exact e ▸ this
  have hrun : ∀ p ∈ runsOf (granSpan a v.length) (a % gmSize / 64 * 64) (granSpan a v.length),
      p.1 % 64 = 0 ∧ 0 < p.2 ∧ p.2 ≤ 64 - p.1 / 64 % 64 ∧ ∀ i, i < p.2 → ok (p.1 / 64 + i) := by
    intro p hp
    obtain ⟨h1, h2, h3, h4⟩ := runsOf_mem _ _ _ (by omega) p hp
    refine ⟨h1, h3, runsOf_unit _ _ _ p hp, fun i hi => ?_⟩
    have := hg (p.1 / 64 + i - a % gmSize / 64) (by omega)
    have e : a % gmSize / 64 + (p.1 / 64 + i - a % gmSize / 64) = p.1 / 64 + i := by omega
    exact e ▸ this
  unfold gwrite viaStations
  refine Does.bind (Does.each _ fun p hp => ?_) fun _ => Does.bind (Does.eff _ fun _ => ⟨hv, h⟩) fun _ =>
    Does.bind (Does.each _ fun i hi => Does.eff _ fun _ => hg i (List.mem_range.mp hi)) fun _ => Does.each _ fun p hp => ?_
  · obtain ⟨h1, h2, h3, h4⟩ := hrun p hp
    exact directRun_writes who true p.1 p.2 h1 h2 h3 h4
  · obtain ⟨h1, h2, h3, h4⟩ := hrun p hp
    exact countOut_good _ _ ⟨p.1 / 64 + 0, h4 0 h2, (stationOf_run p.1 0 p.2 h1 h2 h3).symm⟩

end Writes

/-- The rings stay where they are under writes. -/
theorem WriteEff.rings {ok : Nat → Prop} {e : Eff} (t : State) (h : WriteEff ok e) (g : Nat) :
    (e.apply t).inRing g ↔ t.inRing g := by
  cases e with
  | gmData a v => exact Iff.rfl
  | gmSyn g v => exact Iff.rfl
  | stn n v => exact Iff.rfl
  | reg f c v =>
    obtain ⟨rfl, n, -, rfl⟩ := h
    have e : ∀ (f : Fld) (k : Nat), f.key k ≠ Fd.mpWrGranGran.key (stationOf (64 * n)) →
        ((Eff.reg Fd.mpWrGranGran (stationOf (64 * n)) v).apply t).reg f k = t.reg f k := fun f k hk => tabGet_tabSet_ne _ _ _ hk
    have hk : ∀ (f : Fld), f.key 0 / 65536 ≠ Fd.mpWrGranGran.key 0 / 65536 → f.key 0 ≠ Fd.mpWrGranGran.key (stationOf (64 * n)) := by
      intro f hf hq
      refine hf ?_
      rw [hq]
      show (_ * 65536 + stationOf (64 * n) % 65536) / 65536 = (_ * 65536 + 0 % 65536) / 65536
      have : stationOf (64 * n) % 65536 < 65536 := Nat.mod_lt _ (by decide)
      omega
    simp only [State.inRing, State.ringBase, State.traceSize, e _ _ (hk Fd.recBaseLoAddr (by decide)),
      e _ _ (hk Fd.recBaseHiAddr (by decide)), e _ _ (hk Fd.traceBaseLoAddr (by decide)),
      e _ _ (hk Fd.traceBaseHiAddr (by decide)), e _ _ (hk Fd.traceCfgLog (by decide))]
    exact Iff.rfl
  | _ => exact h.elim

/-- Writes to the rings of the state in which they start are notes. -/
theorem ReachBy.notes {t u : State} (h : ReachBy (fun _ e => WriteEff t.inRing e) t u) :
    (∀ g, u.inRing g ↔ t.inRing g) ∧ ReachBy NoteEff t u := by
  induction h with
  | refl => exact ⟨fun _ => Iff.rfl, .refl⟩
  | @step u e _ he ih =>
    refine ⟨fun g => (WriteEff.rings u he g).trans (ih.1 g), ih.2.step e ?_⟩
    have hq : u.inRing = t.inRing := funext fun g => propext (ih.1 g)
    cases e with
    | reg f c v => exact .inr (hq ▸ he)
    | gmData a v => exact (hq ▸ he : WriteEff u.inRing (.gmData a v))
    | gmSyn g v => exact (hq ▸ he : WriteEff u.inRing (.gmSyn g v))
    | stn n v => exact (hq ▸ he : WriteEff u.inRing (.stn n v))
    | _ => exact he.elim

theorem Rec.bytes_length (r : Rec) (seq lost : Nat) : (r.bytes seq lost).length = 32 := by
  simp [Rec.bytes, slice_length, toLe_length]

theorem deliver_does (r : Rec) (ring : Nat) : Does NoteEff (deliver r ring : M s0 Unit) := by
  intro t
  have hw := (gwrite_writes (s0 := s0) (ok := t.val.inRing) .firmware (t.val.ringBase ring + 32 * (t.val.ringSeq ring % 16384))
    (r.bytes (t.val.ringSeq ring) (tabGet 0 t.val.recs.lost ring)) (by rw [Rec.bytes_length]; decide) (fun b h1 h2 => by
      rw [Rec.bytes_length] at h2
      refine .inl ⟨ring, t.val.ringSeq ring % 16384, b - (t.val.ringBase ring + 32 * (t.val.ringSeq ring % 16384)) % gmSize,
        Nat.mod_lt _ (by decide), by omega, ?_⟩
      congr 1; omega) t).notes.2
  unfold deliver
  simp only [bind_at, rd_at, eff_at, ite_at, setReg, pure_at]
  have h1 : ∀ u v, NoteEff u (.recs v) := fun _ _ => trivial
  have h2 : ∀ u v, NoteEff u (.reg Fd.recSeqSeq 0 v) := fun _ _ => .inl (.inl rfl)
  split
  · exact .step _ (.step _ hw (h1 _ _)) (h2 _ _)
  · exact .step _ hw (h1 _ _)

theorem emit_does (r : Rec) : Does NoteEff (emit r : M s0 Unit) := by
  unfold emit
  refine Does.bind Does.rd fun s => Does.bind (Does.each _ fun d _ => deliver_does r d) fun _ => ?_
  refine Does.ite _ (fun _ => Does.bind Does.rd fun s => Does.ite _ (fun _ => ?_) fun _ => ?_) fun _ => Does.pure ()
  · exact Does.eff _ fun _ => trivial
  · exact Does.bind (Does.eff _ fun _ => trivial) fun _ => Does.bind Does.rd fun _ => Does.eff _ fun _ => .inl (.inr (.inl rfl))

theorem ctxRec_does (k : RecKind) (c u tag : Nat) (d : List Byte) : Does NoteEff (ctxRec k c u tag d : M s0 Unit) :=
  Does.bind Does.rd fun _ => emit_does _

theorem platRec_does (k : RecKind) (u tag : Nat) (d : List Byte) : Does NoteEff (platRec k u tag d : M s0 Unit) :=
  Does.bind Does.rd fun _ => emit_does _

theorem pairRec_does (k : RecKind) (u : Nat) (d : List Byte) (l : List Nat) : Does NoteEff (pairRec k u d l : M s0 Unit) :=
  Does.bind Does.rd fun _ => emit_does _

theorem flushRecords_does : Does NoteEff (flushRecords : M s0 Unit) :=
  Does.bind Does.rd fun _ => Does.bind (Does.eff _ fun _ => trivial) fun _ => Does.each _ fun r _ => emit_does r

theorem traceSize_pos (s : State) : 0 < s.traceSize := Nat.two_pow_pos _

/-- The end of a trace record: the position and the count. -/
theorem traceEnd_does (n now cyc k : Nat) : Does NoteEff (do
    modDbg fun d => d.tracedOne n now cyc k
    bumpReg Fd.traceHeadCount : M s0 Unit) :=
  Does.bind (Does.bind Does.rd fun _ => Does.eff _ fun _ => trivial) fun _ =>
    Does.bind Does.rd fun _ => Does.eff _ fun _ => .inl (.inr (.inr (.inl rfl)))

theorem traceRec_does (core c e op tag p cyc : Nat) (a b d : Bool) :
    Does NoteEff (traceRec core c e op tag p cyc a b d : M s0 Unit) := by
  unfold traceRec
  intro t
  rw [bind_at, rd_at, ite_at]
  split
  · exact .refl
  rw [ite_at]
  split
  · exact (Does.bind Does.rd fun _ => Does.eff _ fun _ => .inl (.inr (.inr (.inr rfl))) : Does NoteEff (bumpReg Fd.traceDropDropped)) t
  · rw [bind_at]
    refine ReachBy.trans (gwrite_writes (s0 := s0) (ok := t.val.inRing) _ _ _ ?_ ?_ t).notes.2 (traceEnd_does _ _ _ _ _)
    · simp [toLe_length, zeros]
    intro b h1 h2
    have hl : b - (t.val.reg Fd.traceBaseLoAddr + t.val.reg Fd.traceBaseHiAddr * 2 ^ 32
        + t.val.dbg.ringPos % t.val.traceSize) % gmSize < 32 := by
      simp only [List.length_append, toLe_length, zeros, List.length_replicate] at h2
      omega
    exact .inr ⟨t.val.dbg.ringPos % t.val.traceSize, _, Nat.mod_lt _ (traceSize_pos _), hl,
      congrArg (· / 64) (Nat.add_sub_of_le h1).symm⟩

/-! ### What they keep -/

/-- A frame that lets records be made and does not move the rings. -/
structure Notes (may : Part → Prop) (s : State) : Prop where
  noted : ∀ p, s.noted p → may p
  base  : ¬ may (.reg (Fd.recBaseLoAddr.key 0)) ∧ ¬ may (.reg (Fd.recBaseHiAddr.key 0)) ∧ ∀ n, ¬ may (.staging n)
  trace : ¬ may (.reg (Fd.traceBaseLoAddr.key 0)) ∧ ¬ may (.reg (Fd.traceBaseHiAddr.key 0)) ∧ ¬ may (.reg (Fd.traceCfgLog.key 0))

theorem Notes.inRing {may : Part → Prop} {s t : State} (h : Notes may s) (ht : SameBut may s t) (g : Nat) :
    t.inRing g ↔ s.inRing g := by
  have h1 : s.reg Fd.recBaseLoAddr 0 = t.reg Fd.recBaseLoAddr 0 := ht _ h.base.1 _
  have h2 : s.reg Fd.recBaseHiAddr 0 = t.reg Fd.recBaseHiAddr 0 := ht _ h.base.2.1 _
  have h3 : ∀ n, (s.pair n).staging = (t.pair n).staging := fun n => ht _ (h.base.2.2 n)
  have h4 : s.reg Fd.traceBaseLoAddr 0 = t.reg Fd.traceBaseLoAddr 0 := ht _ h.trace.1 _
  have h5 : s.reg Fd.traceBaseHiAddr 0 = t.reg Fd.traceBaseHiAddr 0 := ht _ h.trace.2.1 _
  have h6 : s.reg Fd.traceCfgLog 0 = t.reg Fd.traceCfgLog 0 := ht _ h.trace.2.2 _
  simp only [State.inRing, State.ringBase, State.traceSize, h1, h2, h3, h4, h5, h6]

theorem NoteEff.framed {may : Part → Prop} {s : State} (h : Notes may s) (t : State) (e : Eff) (he : NoteEff t e)
    (ht : Framed may s t) : Framed may s (e.apply t) := by
  refine Framed.eff e (fun p hp => h.noted p ?_) ht
  have hr : t.inRing = s.inRing := funext fun g => propext (h.inRing ht.2 g)
  cases e with
  | recs v => cases p <;> first | trivial | exact hp.elim
  | dbg v => cases p <;> first | trivial | exact hp.elim
  | reg f c v =>
    cases p with
    | reg k =>
      cases hp
      rcases he with (he | he | he | he) | ⟨rfl, g, hg, rfl⟩
      · exact .inl he
      · exact .inr (.inl he)
      · exact .inr (.inr (.inl he))
      · exact .inr (.inr (.inr (.inl he)))
      · exact .inr (.inr (.inr (.inr ⟨_, ⟨g, hr ▸ hg, rfl⟩, rfl⟩)))
    | _ => exact hp.elim
  | gmData a v =>
    obtain ⟨hv, he⟩ : 0 < v.length ∧ ∀ b, a ≤ b → b < a + v.length → s.inRing (b / 64) := hr ▸ he
    cases p with
    | gmByte b => exact he b hp.1 hp.2
    | written k =>
      have h1 := hp.1
      have h2 := hp.2
      have := he (max a (64 * k)) (Nat.le_max_left ..) (by omega)
      have e : max a (64 * k) / 64 = k := by omega
      exact e ▸ this
    | _ => exact hp.elim
  | gmSyn g v =>
    cases p with
    | gmChk k => cases hp; exact (hr ▸ he : s.inRing g)
    | _ => exact hp.elim
  | stn n v =>
    obtain ⟨g, hg, rfl⟩ := he
    cases p with
    | stn k => cases hp; exact ⟨g, hr ▸ hg, rfl⟩
    | _ => exact hp.elim
  | _ => exact he.elim

end Sys2Proof.Machine
end

