-- ==== Sys2Proof/Laws/Issue.lean ====
section
/-! SUPPORT. The issue of a command: a head that stands ready issues (issueWith_ready), and all that its leaving the stream
changes (issueEnter_quiet). -/

namespace Sys2Proof.Machine

variable {s0 : State}

/-! ### States that differ by notes only -/

/-- t differs from s only in the registers whose keys ks names, in records, traces, the memory that holds their rings, and the
stations that serve it. -/
structure Quiet (ks : Nat → Prop) (s t : State) : Prop where
  regs : ∀ k d, ¬ ks k → tabGet d t.regs k = tabGet d s.regs k
  rest : t = { s with regs := t.regs, recs := t.recs, dbg := t.dbg, gmem := t.gmem, written := t.written, stns := t.stns }

theorem Quiet.refl (ks : Nat → Prop) (s : State) : Quiet ks s s := ⟨fun _ _ _ => rfl, rfl⟩

theorem Quiet.trans {ks : Nat → Prop} {s t u : State} (h : Quiet ks s t) (h' : Quiet ks t u) : Quiet ks s u :=
  ⟨fun k d hk => (h'.regs k d hk).trans (h.regs k d hk), by rw [h'.rest, h.rest]⟩

/-- The keys of the counters of records and traces. -/
def noteKeys (k : Nat) : Prop :=
  k = Fd.recSeqSeq.key 0 ∨ k = Fd.recDropDropped.key 0 ∨ k = Fd.traceHeadCount.key 0
    ∨ k = Fd.traceDropDropped.key 0 ∨ ∃ n, k = Fd.mpWrGranGran.key n

theorem NoteEff.quiet {ks : Nat → Prop} (hk : ∀ k, noteKeys k → ks k) {s : State} (t : State) (e : Eff) (he : NoteEff t e)
    (ht : Quiet ks s t) : Quiet ks s (e.apply t) := by
  refine ht.trans ?_
  cases e with
  | reg f c v =>
    have hq : noteKeys (f.key c) := by
      rcases he with (he | he | he | he) | ⟨rfl, -⟩
      · exact .inl he
      · exact .inr (.inl he)
      · exact .inr (.inr (.inl he))
      · exact .inr (.inr (.inr (.inl he)))
      · exact .inr (.inr (.inr (.inr ⟨c, rfl⟩)))
    refine ⟨fun _ _ h => tabGet_tabSet_ne _ _ _ fun e => h (hk _ (e ▸ hq)), rfl⟩
  | recs v => exact ⟨fun _ _ _ => rfl, rfl⟩
  | dbg v => exact ⟨fun _ _ _ => rfl, rfl⟩
  | gmData a v => exact ⟨fun _ _ _ => rfl, rfl⟩
  | gmSyn g v => exact ⟨fun _ _ _ => rfl, rfl⟩
  | stn n v => exact ⟨fun _ _ _ => rfl, rfl⟩
  | _ => exact he.elim

/-- Writing a register that ks names. -/
theorem Quiet.reg {ks : Nat → Prop} {s t : State} (f : Fld) (c v : Nat) (h : ks (f.key c)) (ht : Quiet ks s t) :
    Quiet ks s ((Eff.reg f c v).apply t) :=
  ht.trans ⟨fun _ _ hk => tabGet_tabSet_ne _ _ _ fun e => hk (e ▸ h), rfl⟩

theorem Quiet.dbg {ks : Nat → Prop} {s t : State} (v : Debug) (ht : Quiet ks s t) : Quiet ks s ((Eff.dbg v).apply t) :=
  ht.trans ⟨fun _ _ _ => rfl, rfl⟩

theorem Quiet.of_notes {ks : Nat → Prop} (hk : ∀ k, noteKeys k → ks k) {s : State} {α : Type} {m : M s0 α}
    (h : Does NoteEff m) : Pres (Quiet ks s) m := h.pres (fun t e => NoteEff.quiet hk t e)

theorem Quiet.core {ks : Nat → Prop} {s t : State} (h : Quiet ks s t) (n : Nat) : t.core n = s.core n := by
  rw [h.rest]; rfl

/-- Writing a core in two states that differ by notes only. -/
theorem Quiet.setCore {ks : Nat → Prop} {s t : State} (h : Quiet ks s t) (n : Nat) (v : Core) :
    Quiet ks ((Eff.core n v).apply s) ((Eff.core n v).apply t) := by
  refine ⟨h.regs, ?_⟩
  rw [h.rest]
  rfl

/-! ### Issue -/

/-- A head that stands ready, is legal and meets its engine's own conditions issues. -/
theorem issueWith_ready {s : State} {n : Nat} {e : Engine} {r : Running} {h : Head} (R : s.Ready n e r h) (ops : List Nat)
    (ph : Phys) (reason : State → Running → Head → Option Nat) (busy : State → Running → Head → Bool)
    (body : Issued → M s Unit) (seen : Running → Head → M s Unit) (ho : ops.contains (opcodeOf h.cmd) = true) (hr : reason s r h = none)
    (hb : busy s r h = false) :
    run s (issueWith n e ops ph reason busy body seen) = run s (issueNow n e ph r h body) := by
  unfold run issueWith
  have hs : ¬ ((s.headLate r ((s.core n).eng e) h = true ∧ hardOf h.cmd = true) ∧ r.t4 = true) := by simpa using R.soft
  have ho' : opcodeOf h.cmd ∈ ops := by simpa using ho
  simp [R.may, R.run, R.head, R.idle, R.legal, R.come, R.turn, hs, R.pops, R.room, hr, hb, ho']

/-- The registers that a command's leaving its stream may change: the grain counters of R54. -/
def issueKeys (n : Nat) (k : Nat) : Prop :=
  noteKeys k ∨ k = Fd.coreGrainSlackMinSlack.key n ∨ k = Fd.coreGrainMissMissed.key n
    ∨ k = Fd.coreGrainMissLastTag.key n ∨ k = Fd.grainMissCntMissed.key 0

theorem missedRecord_quiet (n c tag d a : Nat) (l : List Nat) {s : State} :
    Pres (Quiet (issueKeys n) s) (missedRecord n c tag d a l : M s0 Unit) := by
  unfold missedRecord
  refine Pres.bind (Quiet.of_notes (fun k h => .inl h) (ctxRec_does _ _ _ _ _)) fun _ => ?_
  refine Pres.bind (Pres.bumpReg _ _ _ fun t w => Quiet.reg _ _ _ (.inr (.inr (.inl rfl)))) fun _ => ?_
  refine Pres.bind (Pres.setReg _ _ _ fun t w => Quiet.reg _ _ _ (.inr (.inr (.inr (.inl rfl))))) fun _ => ?_
  refine Pres.bind (Pres.bumpReg _ _ _ fun t w => Quiet.reg _ _ _ (.inr (.inr (.inr (.inr rfl))))) fun _ => ?_
  exact Pres.setReg _ _ _ fun t w => Quiet.reg _ _ _ (.inr (.inl rfl))

theorem recordSlack_quiet (n held : Nat) {s : State} : Pres (Quiet (issueKeys n) s) (recordSlack n held : M s0 Unit) :=
  fun _ h => Quiet.reg _ _ _ (.inr (.inl rfl)) h

theorem issueNote_quiet (n : Nat) (e : Engine) (r : Running) (h : Head) {s : State} :
    Pres (Quiet (issueKeys n) s) (issueNote n e r h : M s0 Unit) := by
  unfold issueNote
  refine Pres.bind Pres.rd fun u => ?_
  have late : ∀ (d : Option Nat), Pres (Quiet (issueKeys n) s) (match d with
      | some d => missedRecord n r.parcel.ctx (tagOf h.cmd) d u.tb.now ((u.core n).poisonTags h)
      | none => pure () : M s0 Unit) := by
    intro d
    cases d with
    | none => exact Pres.pure _
    | some d => exact missedRecord_quiet _ _ _ _ _ _
  dsimp only
  split
  · exact Pres.bind (recordSlack_quiet _ _) fun _ => late _
  · exact late _

theorem issueTrace_quiet (n : Nat) (e : Engine) (ph : Phys) (r : Running) (h : Head) {s : State} :
    Pres (Quiet (issueKeys n) s) (issueTrace n e ph r h : M s0 Unit) := by
  unfold issueTrace
  refine Pres.bind Pres.rd fun u => ?_
  dsimp only
  have ht : ∀ a b c d e f g h i j, Pres (Quiet (issueKeys n) s) (traceRec a b c d e f g h i j : M s0 Unit) :=
    fun _ _ _ _ _ _ _ _ _ _ => Quiet.of_notes (fun _ h => .inl h) (traceRec_does _ _ _ _ _ _ _ _ _ _)
  have hd : ∀ g, Pres (Quiet (issueKeys n) s) (modDbg g : M s0 Unit) := fun _ _ h => Quiet.dbg _ h
  repeat' (first | exact Pres.pure _ | exact ht _ _ _ _ _ _ _ _ _ _ | (refine Pres.bind (hd _) fun _ => ?_) | split)

/-- Leaving the stream changes the core as `taken` says, and besides only notes and grain counters. -/
theorem issueEnter_quiet (n : Nat) (e : Engine) (ph : Phys) (r : Running) (h : Head) (t : { t : State // Reach s0 t }) :
    Quiet (issueKeys n) ((Eff.core n ((t.val.core n).taken e h)).apply t.val)
      ((issueEnter n e ph r h : M s0 Unit) t).2.val := by
  have h1 := issueNote_quiet (s0 := s0) n e r h t (Quiet.refl (issueKeys n) t.val)
  have h2 := h1.setCore n ((t.val.core n).taken e h)
  have h3 : ((t.val.core n).taken e h) = (((issueNote n e r h : M s0 Unit) t).2.val.core n).taken e h := by rw [h1.core n]
  exact issueTrace_quiet (s0 := s0) n e ph r h ((takeHead n e h : M s0 Unit) ((issueNote n e r h : M s0 Unit) t).2).2
    (h3 ▸ h2)

/-- A ready head that issues does what its body says in a state where only that has happened. -/
theorem issueNow_eq (s : State) (n : Nat) (e : Engine) (ph : Phys) (r : Running) (h : Head) (body : Issued → M s Unit) :
    ∃ t, run s (issueNow n e ph r h body) = .next (body (s.issued n e ph r h) t).2.val
      ∧ Quiet (issueKeys n) ((Eff.core n ((s.core n).taken e h)).apply s) t.val :=
  ⟨((issueEnter n e ph r h : M s Unit) ⟨s, .refl⟩).2, rfl, issueEnter_quiet (s0 := s) n e ph r h ⟨s, .refl⟩⟩

end Sys2Proof.Machine
end

