-- ==== Sys2Proof/WellFormed.lean ====
section
/-! DEFINITION. Well-formed commands: the operand ranges that the port tables and register rules give and that the types
of the operands do not already hold. -/

namespace Sys2Proof

/-- A granule is 64 bytes (R393). -/
def granOk (g : List Byte) : Bool := g.length == 64

/-- A register access names an offset of the 64 KiB window and 1 to 8 bytes (R13, R17). -/
def Access.wf (a : Access) : Bool := a.addr < 65536 && 1 ≤ a.width && a.width ≤ 8

/-- An upset names a tile register row or a scratchpad granule (R55, R221). -/
def Upset.wf (u : Upset) : Bool := (u.unit < 32 && u.row < 64) || (u.unit == 32 && u.row < 49152)

/-- A fault of a column sum names an array, a beat, a segment and a logical column (R105). -/
def ColFault.wf (f : ColFault) : Bool := f.arr < 4 && f.beat < 128 && f.seg < 4 && f.col < 258

/-- Physical inputs within their counters' meaning: a cycle of a grain (R53), rows and columns that exist. -/
def Phys.wf (p : Phys) : Bool :=
  p.cyc < 32 && p.upsets.all Upset.wf && p.faults.all ColFault.wf && p.meets.all fun m => m.treg < 32 && m.row < 64

/-- A granule of a port message. -/
def Gran.wf (g : Gran) : Bool := granOk g.data

/-- A WR frame carries 1 to 8 granules, any other a 16-byte body (Table 13-7). -/
def NFrame.wrWf (f : NFrame) : Bool := 1 ≤ f.grans.length && f.grans.length ≤ 8 && f.grans.all granOk

def NFrame.bodyWf (f : NFrame) : Bool := f.grans.isEmpty && f.body.length == 16

/-- A slot frame carries whole granules (Table 14-3). -/
def LFrame.wf (f : LFrame) : Bool := f.grans.all granOk

/-- A link has at most 20 lanes (R341). -/
def lanesWf (l : List LaneView) : Bool := l.length ≤ 20

/-- The operand ranges of each command. -/
def Instr.wf : Instr → Bool
  | .registerWrite a => a.wf
  | .stagedSetApply _ chan => chan < 65536
  | .apertureWrite _ off data _ => 1 ≤ data.length && off.toNat + data.length ≤ 2 ^ 24
  | .apertureRead _ off len _ => 1 ≤ len && off.toNat + len ≤ 2 ^ 24
  | .grainStrobe _ cyc => cyc < 256
  | .tileDbgCaptureDone d => d.ph.wf
  | .nop _ _ ph | .ldw _ ph | .pass _ ph | .pscl _ ph | .drain _ ph | .vrun _ ph | .tld _ ph | .tst _ ph | .tldw _ ph
  | .dma _ ph | .wpost _ ph | .wwait _ ph | .wmov _ ph | .mrd _ ph | .mrdFill _ ph | .acq _ ph | .arrw _ ph
  | .lsend _ ph | .swait _ ph | .sadd _ ph | .ssub _ ph | .bar _ ph => ph.wf
  | .rdata _ _ _ _ changed => changed.all fun g => g.1 < 8 && g.2.wf
  | .nportWrFrame _ f => f.wrWf
  | .nportAckFrame _ f | .nportRefuseFrame _ f | .nportSyncFrame _ f | .nportNakFrame _ f
  | .nportCrdFrame _ f => f.bodyWf
  | .dataFrame _ f | .emptyFrame _ f | .controlFrame _ f => f.wf
  | .trainFrame _ lanes | .sigDet _ lanes => lanesWf lanes
  | .seqSet _ _ ch => ch.limit.isSome || ch.stop.isSome || ch.invT.isSome || ch.topk.isSome || ch.rlimit.isSome
  | .resvReq _ m | .resvAck _ m | .resvNak _ m | .resvRel _ m | .resvHoldEnd _ m => m.hop < m.nhop && m.nhop ≤ 16
  | .governorUpdate pdyn pleak => pdyn + pleak < 4096
  | _ => true

/-- The granules that a command carries. -/
def Instr.granules : Instr → List (List Byte)
  | .rdata _ _ _ _ changed => changed.map (·.2.data)
  | .nportWrFrame _ f => f.grans
  | .dataFrame _ f | .emptyFrame _ f | .controlFrame _ f => f.grans
  | _ => []

end Sys2Proof
end

