-- ==== Sys2Proof/Laws/PerInstr.lean ====
section
/-! SUPPORT. Statements made per command: a well-formed command carries whole granules. -/

namespace Sys2Proof.Laws.WfTotal

/-- A well-formed command carries granules of 64 bytes only (R393). -/
def Statement (i : Instr) : Prop := i.wf = true → ∀ g ∈ i.granules, g.length = 64

theorem of_all {l : List (List Byte)} (h : l.all granOk = true) : ∀ g ∈ l, g.length = 64 := by
  simpa [granOk] using h

theorem registerWrite (a : Access) : Statement (.registerWrite a) := fun _ _ h => nomatch h
theorem stagedSetApply (b : Block) (chan : Nat) : Statement (.stagedSetApply b chan) := fun _ _ h => nomatch h
theorem grainCommit (r : Requester) : Statement (.grainCommit r) := fun _ _ h => nomatch h
theorem tileCommit (r : Requester) : Statement (.tileCommit r) := fun _ _ h => nomatch h
theorem mxCommit (r : Requester) : Statement (.mxCommit r) := fun _ _ h => nomatch h
theorem numCommit (r : Requester) : Statement (.numCommit r) := fun _ _ h => nomatch h
theorem vxCommit (r : Requester) : Statement (.vxCommit r) := fun _ _ h => nomatch h
theorem progCommit (r : Requester) : Statement (.progCommit r) := fun _ _ h => nomatch h
theorem spCommit (r : Requester) : Statement (.spCommit r) := fun _ _ h => nomatch h
theorem stuCommit (r : Requester) : Statement (.stuCommit r) := fun _ _ h => nomatch h
theorem mpCommit (r : Requester) : Statement (.mpCommit r) := fun _ _ h => nomatch h
theorem npCommit (r : Requester) : Statement (.npCommit r) := fun _ _ h => nomatch h
theorem lpCommit (r : Requester) : Statement (.lpCommit r) := fun _ _ h => nomatch h
theorem hpCommit (r : Requester) : Statement (.hpCommit r) := fun _ _ h => nomatch h
theorem hmCommit (r : Requester) : Statement (.hmCommit r) := fun _ _ h => nomatch h
theorem dbgCommit (r : Requester) : Statement (.dbgCommit r) := fun _ _ h => nomatch h
theorem pwrCommit (r : Requester) : Statement (.pwrCommit r) := fun _ _ h => nomatch h
theorem grainNowLoRead (r : Requester) : Statement (.grainNowLoRead r) := fun _ _ h => nomatch h
theorem stuCtxJobsLoRead (r : Requester) : Statement (.stuCtxJobsLoRead r) := fun _ _ h => nomatch h
theorem tileDbgGo (r : Requester) (value : Word) : Statement (.tileDbgGo r value) := fun _ _ h => nomatch h
theorem tileDbgCaptureDone (done : CaptureEnd) : Statement (.tileDbgCaptureDone done) := fun _ _ h => nomatch h
theorem syncSet (r : Requester) : Statement (.syncSet r) := fun _ _ h => nomatch h
theorem syncRelease (r : Requester) : Statement (.syncRelease r) := fun _ _ h => nomatch h
theorem syncClear (r : Requester) : Statement (.syncClear r) := fun _ _ h => nomatch h
theorem fence (r : Requester) (cores : Word) : Statement (.fence r cores) := fun _ _ h => nomatch h
theorem snapRestore (r : Requester) (value : Word) : Statement (.snapRestore r value) := fun _ _ h => nomatch h
theorem dbgHalt (r : Requester) (cores : Word) : Statement (.dbgHalt r cores) := fun _ _ h => nomatch h
theorem dbgStep (r : Requester) (cores : Word) : Statement (.dbgStep r cores) := fun _ _ h => nomatch h
theorem debugHaltTaken (core : Fin 32) : Statement (.debugHaltTaken core) := fun _ _ h => nomatch h
theorem linkRetrain (r : Requester) : Statement (.linkRetrain r) := fun _ _ h => nomatch h
theorem warmReset (r : Requester) : Statement (.warmReset r) := fun _ _ h => nomatch h
theorem coreRst (r : Requester) (cores : Word) : Statement (.coreRst r cores) := fun _ _ h => nomatch h
theorem portRst (r : Requester) (value : Word) : Statement (.portRst r value) := fun _ _ h => nomatch h
theorem heldResetStart (u : ResetUnit) : Statement (.heldResetStart u) := fun _ _ h => nomatch h
theorem coreSelftestDone (core : Fin 32) (pass : Bool) : Statement (.coreSelftestDone core pass) := fun _ _ h => nomatch h
theorem mailboxRing (hsrc : Fin 16) (pair : Fin 8) : Statement (.mailboxRing hsrc pair) := fun _ _ h => nomatch h
theorem mailboxTake : Statement (.mailboxTake) := fun _ _ h => nomatch h
theorem replyAck (hsrc : Fin 16) (pair : Fin 8) : Statement (.replyAck hsrc pair) := fun _ _ h => nomatch h
theorem replyDiscard (pair : Fin 8) : Statement (.replyDiscard pair) := fun _ _ h => nomatch h
theorem hello : Statement (.hello) := fun _ _ h => nomatch h
theorem bindPair (pair : Fin 8) (hsrc : Fin 16) (bind : Bool) (staging : BitVec 64) : Statement (.bindPair pair hsrc bind staging) :=
  fun _ _ h => nomatch h
theorem openTenants : Statement (.openTenants) := fun _ _ h => nomatch h
theorem propose : Statement (.propose) := fun _ _ h => nomatch h
theorem commit : Statement (.commit) := fun _ _ h => nomatch h
theorem withdraw (change : BitVec 16) : Statement (.withdraw change) := fun _ _ h => nomatch h
theorem revoke (what : RevokeWhat) : Statement (.revoke what) := fun _ _ h => nomatch h
theorem killCtx (ctx : Fin 8) : Statement (.killCtx ctx) := fun _ _ h => nomatch h
theorem ctxResume (ctx : Fin 8) : Statement (.ctxResume ctx) := fun _ _ h => nomatch h
theorem modelLoad (ctx : Fin 8) (slot : Fin 16) (addr : BitVec 64) (len : Word) (pin : Bool) : Statement (.modelLoad ctx slot addr len pin) :=
  fun _ _ h => nomatch h
theorem modelEvict (ctx : Fin 8) (slot : Fin 16) : Statement (.modelEvict ctx slot) := fun _ _ h => nomatch h
theorem modelPin (ctx : Fin 8) (slot : Fin 16) (pin : Bool) : Statement (.modelPin ctx slot pin) := fun _ _ h => nomatch h
theorem modelUnload (ctx : Fin 8) (slot : Fin 16) : Statement (.modelUnload ctx slot) := fun _ _ h => nomatch h
theorem seqOpen (ctx : Fin 8) (entry : Fin 8192) (addr : BitVec 64) : Statement (.seqOpen ctx entry addr) :=
  fun _ _ h => nomatch h
theorem seqSet (ctx : Fin 8) (entry : Fin 8192) (ch : SeqChange) : Statement (.seqSet ctx entry ch) :=
  fun _ _ h => nomatch h
theorem seqHold (ctx : Fin 8) (entry : Fin 8192) : Statement (.seqHold ctx entry) := fun _ _ h => nomatch h
theorem seqResume (ctx : Fin 8) (entry : Fin 8192) : Statement (.seqResume ctx entry) := fun _ _ h => nomatch h
theorem seqClose (ctx : Fin 8) (entry : Fin 8192) : Statement (.seqClose ctx entry) := fun _ _ h => nomatch h
theorem seqRead (ctx : Fin 8) (entry : Fin 8192) : Statement (.seqRead ctx entry) := fun _ _ h => nomatch h
theorem poolAdd (ctx : Fin 8) (count : Nat) (addr : BitVec 64) : Statement (.poolAdd ctx count addr) :=
  fun _ _ h => nomatch h
theorem syncDump (ctx : Fin 8) (addr : BitVec 64) : Statement (.syncDump ctx addr) := fun _ _ h => nomatch h
theorem sliceRelease (ctx : Fin 8) (slice : BitVec 16) : Statement (.sliceRelease ctx slice) := fun _ _ h => nomatch h
theorem fwLoad (addr : BitVec 64) (len : Word) (sigOk : Bool) (version : Word) : Statement (.fwLoad addr len sigOk version) :=
  fun _ _ h => nomatch h
theorem fwUpdateDone : Statement (.fwUpdateDone) := fun _ _ h => nomatch h
theorem admissionComplete (ctx : Fin 8) : Statement (.admissionComplete ctx) := fun _ _ h => nomatch h
theorem debugConsentExpiry (ctx : Fin 8) : Statement (.debugConsentExpiry ctx) := fun _ _ h => nomatch h
theorem holdDumpDone (ctx : Fin 8) : Statement (.holdDumpDone ctx) := fun _ _ h => nomatch h
theorem bankScrubDone (ctx : Fin 8) : Statement (.bankScrubDone ctx) := fun _ _ h => nomatch h
theorem apertureWrite (hsrc : Fin 16) (off : BitVec 24) (data : List Byte) (rd : RdStatus) : Statement (.apertureWrite hsrc off data rd) :=
  fun _ _ h => nomatch h
theorem apertureRead (hsrc : Fin 16) (off : BitVec 24) (len : Nat) (rd : RdStatus) : Statement (.apertureRead hsrc off len rd) :=
  fun _ _ h => nomatch h
theorem grainStrobe (cnt : BitVec 48) (cyc : Nat) : Statement (.grainStrobe cnt cyc) := fun _ _ h => nomatch h
theorem holdoverEntry (runs : List CycleRun) : Statement (.holdoverEntry runs) := fun _ _ h => nomatch h
theorem holdoverAdvance (runs : List CycleRun) : Statement (.holdoverAdvance runs) := fun _ _ h => nomatch h
theorem holdoverLimit : Statement (.holdoverLimit) := fun _ _ h => nomatch h
theorem timingFrameDue : Statement (.timingFrameDue) := fun _ _ h => nomatch h
theorem timing (link : Fin 8) (t1 t2 t3 : Nat) : Statement (.timing link t1 t2 t3) := fun _ _ h => nomatch h
theorem timingReply (link : Fin 8) (t1 t2 t3 t4 : Nat) : Statement (.timingReply link t1 t2 t3 t4) := fun _ _ h => nomatch h
theorem startGrainReached (core : Fin 32) (e : Engine) : Statement (.startGrainReached core e) := fun _ _ h => nomatch h
theorem deadlineMissed (core : Fin 32) (e : Engine) : Statement (.deadlineMissed core e) := fun _ _ h => nomatch h
theorem tokenArrival (core : Fin 32) (e : Engine) : Statement (.tokenArrival core e) := fun _ _ h => nomatch h
theorem nop (core : Fin 32) (e : Engine) (ph : Phys) : Statement (.nop core e ph) := fun _ _ h => nomatch h
theorem grain (core : Fin 32) (e : Engine) : Statement (.grain core e) := fun _ _ h => nomatch h
theorem ldw (core : Fin 32) (ph : Phys) : Statement (.ldw core ph) := fun _ _ h => nomatch h
theorem pass (core : Fin 32) (ph : Phys) : Statement (.pass core ph) := fun _ _ h => nomatch h
theorem pscl (core : Fin 32) (ph : Phys) : Statement (.pscl core ph) := fun _ _ h => nomatch h
theorem passComplete (core : Fin 32) : Statement (.passComplete core) := fun _ _ h => nomatch h
theorem drain (core : Fin 32) (ph : Phys) : Statement (.drain core ph) := fun _ _ h => nomatch h
theorem vrun (core : Fin 32) (ph : Phys) : Statement (.vrun core ph) := fun _ _ h => nomatch h
theorem tld (core : Fin 32) (ph : Phys) : Statement (.tld core ph) := fun _ _ h => nomatch h
theorem tst (core : Fin 32) (ph : Phys) : Statement (.tst core ph) := fun _ _ h => nomatch h
theorem tldw (core : Fin 32) (ph : Phys) : Statement (.tldw core ph) := fun _ _ h => nomatch h
theorem tileLoadPark (core : Fin 32) (cause : ParkCause) : Statement (.tileLoadPark core cause) := fun _ _ h => nomatch h
theorem tileLoadResume (core : Fin 32) (ph : Phys) : Statement (.tileLoadResume core ph) := fun _ _ h => nomatch h
theorem dma (core : Fin 32) (ph : Phys) : Statement (.dma core ph) := fun _ _ h => nomatch h
theorem dmaComplete (core : Fin 32) (ch : Fin 16) : Statement (.dmaComplete core ch) := fun _ _ h => nomatch h
theorem wpost (core : Fin 32) (ph : Phys) : Statement (.wpost core ph) := fun _ _ h => nomatch h
theorem wwait (core : Fin 32) (ph : Phys) : Statement (.wwait core ph) := fun _ _ h => nomatch h
theorem wmov (core : Fin 32) (ph : Phys) : Statement (.wmov core ph) := fun _ _ h => nomatch h
theorem mrd (core : Fin 32) (ph : Phys) : Statement (.mrd core ph) := fun _ _ h => nomatch h
theorem mrdFill (core : Fin 32) (ph : Phys) : Statement (.mrdFill core ph) := fun _ _ h => nomatch h
theorem acq (core : Fin 32) (ph : Phys) : Statement (.acq core ph) := fun _ _ h => nomatch h
theorem arrw (core : Fin 32) (ph : Phys) : Statement (.arrw core ph) := fun _ _ h => nomatch h
theorem lsend (core : Fin 32) (ph : Phys) : Statement (.lsend core ph) := fun _ _ h => nomatch h
theorem swait (core : Fin 32) (ph : Phys) : Statement (.swait core ph) := fun _ _ h => nomatch h
theorem sadd (core : Fin 32) (ph : Phys) : Statement (.sadd core ph) := fun _ _ h => nomatch h
theorem ssub (core : Fin 32) (ph : Phys) : Statement (.ssub core ph) := fun _ _ h => nomatch h
theorem bar (core : Fin 32) (ph : Phys) : Statement (.bar core ph) := fun _ _ h => nomatch h
theorem wadiReply (core : Fin 32) (ph : Phys) : Statement (.wadiReply core ph) := fun _ _ h => nomatch h
theorem wadiXmissReply (core : Fin 32) : Statement (.wadiXmissReply core) := fun _ _ h => nomatch h
theorem xmissLimit (core : Fin 32) (u : MissUnit) (ph : Phys) : Statement (.xmissLimit core u ph) := fun _ _ h => nomatch h
theorem resolve (ctx : Fin 8) (page : BitVec 52) (failed : Bool) : Statement (.resolve ctx page failed) :=
  fun _ _ h => nomatch h
theorem writeAck (core : Fin 32) (holds : List Nat) (inj : Nat) : Statement (.writeAck core holds inj) :=
  fun _ _ h => nomatch h
theorem inboundWritePacket (core : Fin 32) (nth : Nat) (grants : BankGrants) : Statement (.inboundWritePacket core nth grants) :=
  fun _ _ h => nomatch h
theorem refusalNotice (notice : NoticeIn) : Statement (.refusalNotice notice) :=
  fun _ _ h => nomatch h
theorem semOpApply (ops : SemCycle) : Statement (.semOpApply ops) := fun _ _ h => nomatch h
theorem hubWaitRegister (core : Fin 32) : Statement (.hubWaitRegister core) := fun _ _ h => nomatch h
theorem waitWake (core : Fin 32) : Statement (.waitWake core) := fun _ _ h => nomatch h
theorem barrierArrival (nth : Nat) : Statement (.barrierArrival nth) := fun _ _ h => nomatch h
theorem barrierRelease (nth : Nat) : Statement (.barrierRelease nth) := fun _ _ h => nomatch h
theorem barrierDeadline (b : Fin 256) : Statement (.barrierDeadline b) := fun _ _ h => nomatch h
theorem waitTimerExpiry (core : Fin 32) (e : Engine) : Statement (.waitTimerExpiry core e) := fun _ _ h => nomatch h
theorem stepAssign (ctx : Fin 8) : Statement (.stepAssign ctx) := fun _ _ h => nomatch h
theorem caravanBuild (ctx : Fin 8) : Statement (.caravanBuild ctx) := fun _ _ h => nomatch h
theorem caravanCut : Statement (.caravanCut) := fun _ _ h => nomatch h
theorem builderResume : Statement (.builderResume) := fun _ _ h => nomatch h
theorem residencyLoad (slot : Fin 16) : Statement (.residencyLoad slot) := fun _ _ h => nomatch h
theorem parcelStart (core : Fin 32) (segUpset : Bool) : Statement (.parcelStart core segUpset) := fun _ _ h => nomatch h
theorem parcelEnd (core : Fin 32) : Statement (.parcelEnd core) := fun _ _ h => nomatch h
theorem stealRequest (ask : StealCycle) : Statement (.stealRequest ask) :=
  fun _ _ h => nomatch h
theorem stepEnd (ctx : Fin 8) : Statement (.stepEnd ctx) := fun _ _ h => nomatch h
theorem beStepCap (ctx : Fin 8) : Statement (.beStepCap ctx) := fun _ _ h => nomatch h
theorem stepBudget (ctx : Fin 8) : Statement (.stepBudget ctx) := fun _ _ h => nomatch h
theorem rdata (stn : Fin 6) (rtag : Fin 1024) (inc : BitVec 8) (status : RdStatus) (changed : List (Nat × Gran)) : Statement (.rdata stn rtag inc status changed) := by
  intro h g hg
  simp only [Instr.wf, List.all_eq_true, Bool.and_eq_true] at h
  simp only [Instr.granules, List.mem_map] at hg
  obtain ⟨x, hx, rfl⟩ := hg
  simpa [Gran.wf, granOk] using (h x hx).2
theorem wack (stn : Fin 6) (rtag : Fin 1024) (inc : BitVec 8) (ok : Bool) : Statement (.wack stn rtag inc ok) :=
  fun _ _ h => nomatch h
theorem crd (stn : Fin 6) (rd wr : Nat) : Statement (.crd stn rd wr) := fun _ _ h => nomatch h
theorem nportWrFrame (m : Fin 4) (f : NFrame) : Statement (.nportWrFrame m f) := by
  intro h
  simp only [Instr.wf, NFrame.wrWf, Bool.and_eq_true] at h
  exact of_all h.2
theorem nportAckFrame (m : Fin 4) (f : NFrame) : Statement (.nportAckFrame m f) := fun _ _ h => nomatch h
theorem nportRefuseFrame (m : Fin 4) (f : NFrame) : Statement (.nportRefuseFrame m f) := fun _ _ h => nomatch h
theorem nportSyncFrame (m : Fin 4) (f : NFrame) : Statement (.nportSyncFrame m f) := fun _ _ h => nomatch h
theorem nportNakFrame (m : Fin 4) (f : NFrame) : Statement (.nportNakFrame m f) := fun _ _ h => nomatch h
theorem nportCrdFrame (m : Fin 4) (f : NFrame) : Statement (.nportCrdFrame m f) := fun _ _ h => nomatch h
theorem nportRetrainTimeout (m : Fin 4) : Statement (.nportRetrainTimeout m) := fun _ _ h => nomatch h
theorem linkSlot (link : Fin 8) : Statement (.linkSlot link) := fun _ _ h => nomatch h
theorem dataFrame (link : Fin 8) (f : LFrame) : Statement (.dataFrame link f) := fun h => of_all h
theorem emptyFrame (link : Fin 8) (f : LFrame) : Statement (.emptyFrame link f) := fun h => of_all h
theorem controlFrame (link : Fin 8) (f : LFrame) : Statement (.controlFrame link f) := fun h => of_all h
theorem trainFrame (link : Fin 8) (lanes : List LaneView) : Statement (.trainFrame link lanes) := fun _ _ h => nomatch h
theorem sigDet (link : Fin 8) (lanes : List LaneView) : Statement (.sigDet link lanes) := fun _ _ h => nomatch h
theorem trainStateTimeout (link : Fin 8) : Statement (.trainStateTimeout link) := fun _ _ h => nomatch h
theorem ident (link : Fin 8) (m : IdentMsg) (delay : Nat) : Statement (.ident link m delay) := fun _ _ h => nomatch h
theorem feat (link : Fin 8) (revs : Byte) (bits : Word) : Statement (.feat link revs bits) := fun _ _ h => nomatch h
theorem barArrive (link : Fin 8) (b : Fin 256) (phase : BarPhase) (spkg : Fin 4096) : Statement (.barArrive link b phase spkg) :=
  fun _ _ h => nomatch h
theorem barRelease (link : Fin 8) (b : Fin 256) (phase : BarPhase) (spkg : Fin 4096) : Statement (.barRelease link b phase spkg) :=
  fun _ _ h => nomatch h
theorem loss (link : Fin 8) (seq : BitVec 16) (inc : BitVec 8) : Statement (.loss link seq inc) := fun _ _ h => nomatch h
theorem refuse (link : Fin 8) (tag : BitVec 16) (score : Fin 32) (sctx : Fin 8) (dst : LSrc) : Statement (.refuse link tag score sctx dst) :=
  fun _ _ h => nomatch h
theorem resvReq (link : Fin 8) (m : ResvMsg) : Statement (.resvReq link m) := fun _ _ h => nomatch h
theorem resvAck (link : Fin 8) (m : ResvMsg) : Statement (.resvAck link m) := fun _ _ h => nomatch h
theorem resvNak (link : Fin 8) (m : ResvMsg) : Statement (.resvNak link m) := fun _ _ h => nomatch h
theorem resvRel (link : Fin 8) (m : ResvMsg) : Statement (.resvRel link m) := fun _ _ h => nomatch h
theorem resvHoldEnd (link : Fin 8) (m : ResvMsg) : Statement (.resvHoldEnd link m) := fun _ _ h => nomatch h
theorem resvHoldExpiry (opkg : Fin 4096) (oinst : Fin 16) (slice : BitVec 16) : Statement (.resvHoldExpiry opkg oinst slice) :=
  fun _ _ h => nomatch h
theorem linkRetry : Statement (.linkRetry) := fun _ _ h => nomatch h
theorem stateEccError (u : EccUnit) : Statement (.stateEccError u) := fun _ _ h => nomatch h
theorem ccpWatchdog : Statement (.ccpWatchdog) := fun _ _ h => nomatch h
theorem healthWindow (h : HealthIn) : Statement (.healthWindow h) := fun _ _ h => nomatch h
theorem snapshotCut : Statement (.snapshotCut) := fun _ _ h => nomatch h
theorem snapshotDrain : Statement (.snapshotDrain) := fun _ _ h => nomatch h
theorem snapshotComplete : Statement (.snapshotComplete) := fun _ _ h => nomatch h
theorem drainTimeout (ackError : Bool) : Statement (.drainTimeout ackError) := fun _ _ h => nomatch h
theorem pwrOkRise : Statement (.pwrOkRise) := fun _ _ h => nomatch h
theorem pwrOkFall : Statement (.pwrOkFall) := fun _ _ h => nomatch h
theorem ctrlEnRise : Statement (.ctrlEnRise) := fun _ _ h => nomatch h
theorem ctrlEnFall : Statement (.ctrlEnFall) := fun _ _ h => nomatch h
theorem warmRstN : Statement (.warmRstN) := fun _ _ h => nomatch h
theorem internalResetRelease : Statement (.internalResetRelease) := fun _ _ h => nomatch h
theorem selftestDone (failed : Word) (othersOk : Bool) : Statement (.selftestDone failed othersOk) := fun _ _ h => nomatch h
theorem coreDomainReady (core : Fin 32) : Statement (.coreDomainReady core) := fun _ _ h => nomatch h
theorem corePowerOff (core : Fin 32) : Statement (.corePowerOff core) := fun _ _ h => nomatch h
theorem pcapStep (step : Fin 8) : Statement (.pcapStep step) := fun _ _ h => nomatch h
theorem droopEvent : Statement (.droopEvent) := fun _ _ h => nomatch h
theorem droopStepDown (above : BitVec 48) : Statement (.droopStepDown above) := fun _ _ h => nomatch h
theorem thermalStep (tj : Nat) : Statement (.thermalStep tj) := fun _ _ h => nomatch h
theorem governorUpdate (pdyn pleak : Nat) : Statement (.governorUpdate pdyn pleak) := fun _ _ h => nomatch h
theorem changeDeadline (change : BitVec 16) : Statement (.changeDeadline change) := fun _ _ h => nomatch h
theorem nportTrained (m : Fin 4) (rev : Fin 4) (speed : Fin 8) (x32 : Bool) (peerInst : Fin 16) (peerMod : Fin 4) : Statement (.nportTrained m rev speed x32 peerInst peerMod) :=
  fun _ _ h => nomatch h
theorem nportRetrain (m : Fin 4) : Statement (.nportRetrain m) := fun _ _ h => nomatch h
theorem stationLinkUp (stn : Fin 6) (rd wr : Nat) : Statement (.stationLinkUp stn rd wr) := fun _ _ h => nomatch h

end Sys2Proof.Laws.WfTotal
end

