-- ==== Sys2Proof/Laws/Stations.lean ====
section
/-! SUPPORT. What an access through the M-port stations leaves alone where nothing waits at them (R253). -/

namespace Sys2Proof.Machine
variable {s0 : State}

/-- No request waits at a station, and memory, contexts and entries are those of s. -/
structure Stilled (s t : State) : Prop where
  idle    : ∀ n, (t.stn n).reads = [] ∧ (t.stn n).writes = [] ∧ (t.stn n).waiting = []
  mem     : t.gmem = s.gmem
  ctxs    : t.ctxs = s.ctxs
  entries : t.entries = s.entries

theorem Stilled.reg {s t : State} (f : Fld) (c v : Nat) (h : Stilled s t) : Stilled s ((Eff.reg f c v).apply t) :=
  ⟨h.idle, h.mem, h.ctxs, h.entries⟩

theorem Stilled.stn {s t : State} (n : Nat) (x : Station) (h : Stilled s t)
    (hx : x.reads = [] ∧ x.writes = [] ∧ x.waiting = []) : Stilled s ((Eff.stn n x).apply t) := by
  refine ⟨fun m => ?_, h.mem, h.ctxs, h.entries⟩
  have e : ((Eff.stn n x).apply t).stn m = tabGet {} (tabSet t.stns n x) m := rfl
  rw [e]
  by_cases hm : m = n
  · subst hm
    rw [tabGet_tabSet_same]
    exact hx
  · rw [tabGet_tabSet_ne _ _ _ hm]
    exact h.idle m

theorem modStn_stilled {s : State} (n : Nat) (f : Station → Station)
    (hf : ∀ x, (f x).reads = x.reads ∧ (f x).writes = x.writes ∧ (f x).waiting = x.waiting) :
    Pres (Stilled s) (modStn n f : M s0 Unit) := fun t ht => by
  refine Stilled.stn n _ ht ?_
  obtain ⟨a, b, c⟩ := hf (t.val.stn n)
  obtain ⟨x, y, z⟩ := ht.idle n
  exact ⟨a.trans x, b.trans y, c.trans z⟩

theorem countCe_stilled {s : State} (n : Nat) : Pres (Stilled s) (countCe n : M s0 Unit) :=
  fun _ ht => ⟨ht.idle, ht.mem, ht.ctxs, ht.entries⟩

theorem bumpUnits_stilled {s : State} (f : Fld) (n k r : Nat) : Pres (Stilled s) (bumpUnits f n k r : M s0 Nat) := by
  unfold bumpUnits
  dsimp only
  repeat' first
    | exact Pres.pure _
    | exact Pres.rd
    | exact Pres.bumpReg _ _ _ fun _ _ h => h.reg _ _ _
    | refine Pres.bind ?_ fun _ => ?_
    | refine Pres.ite _ (fun _ => ?_) fun _ => ?_

theorem countIn_stilled {s : State} (n : Nat) (q : Bool) (gs : List (GranS × Bool)) :
    Pres (Stilled s) (countIn n q gs : M s0 Unit) := by
  unfold countIn
  dsimp only
  repeat' first
    | exact Pres.pure _
    | exact Pres.rd
    | exact Pres.bumpReg _ _ _ fun _ _ h => h.reg _ _ _
    | exact countCe_stilled _
    | exact bumpUnits_stilled _ _ _ _
    | exact modStn_stilled _ _ fun _ => ⟨rfl, rfl, rfl⟩
    | refine Pres.bind ?_ fun _ => ?_
    | refine Pres.ite _ (fun _ => ?_) fun _ => ?_

theorem acceptBefore_stilled {s : State} (n b a k : Nat) : Pres (Stilled s) (acceptBefore n b a k : M s0 Unit) :=
  Pres.each _ fun g _ t ht => by
    have hw : (t.val.stn n).wanting b (a / 64 + g) = [] := by
      obtain ⟨x, y, z⟩ := ht.idle n
      simp [Station.wanting, x, y, z]
    show Stilled s (each ((t.val.stn n).wanting b (a / 64 + g)) _ t).2.val
    rw [hw]
    exact ht

/-- A read through stations at which nothing waits leaves memory, contexts and entries alone (R253). -/
theorem viaStations_stilled {s : State} (who : MemUser) (w : Bool) (a n : Nat) (ok : Bool) :
    Pres (Stilled s) (viaStations who w a n ok : M s0 Unit) :=
  Pres.each _ fun p _ => by
    unfold directRun
    dsimp only
    repeat' first
      | exact Pres.pure _
      | exact Pres.rd
      | exact Pres.bumpReg _ _ _ fun _ _ h => h.reg _ _ _
      | exact acceptBefore_stilled _ _ _ _
      | exact countIn_stilled _ _ _
      | exact modStn_stilled _ _ fun _ => ⟨rfl, rfl, rfl⟩
      | refine Pres.bind ?_ fun _ => ?_
      | refine Pres.ite _ (fun _ => ?_) fun _ => ?_

end Sys2Proof.Machine
end

