-- ==== Sys2Proof/Tests/Slice0.lean ====
section
/-! SUPPORT. Tests: an ill-formed term for each well-formedness check, for each statement a state and operands that meet its
hypotheses (wit_), and results that the spec gives, of one step each (test_). -/

open Sys2Proof Sys2Proof.Machine Sys2Proof.Said

namespace Sys2Proof.Tests

set_option Elab.async false
set_option maxRecDepth 100000

/-! ### States -/

/-- The cluster acts. -/
def live : State := { State.reset with pw := { State.reset.pw with released := true } }

/-- Its firmware is OPEN. -/
def opened : State := (Eff.reg Fd.fwStatusState 0 2).apply live

/-- A context of tenant 1 with banks 0 and 1 of cores 0 and 1, and windows over the low 16 MiB. -/
def adm1 : Adm :=
  { tenant := 1, mask := 3, nb := 2, minNb := 2, maxseq := 4, chunk := 8, pgShift := 16, tppLog := 4, tokcap := 16,
    cslBase := 0x10000, candBase := 0x20000, candStride := 8256, poolLog := 6, poolBase := 0x8000,
    windows := [(0, 0x1000000)] }

/-- Context 1 is admitted, the domains of its cores are on; pair 1 is its tenant's, pair 0 the platform's. -/
def owned (x : Ctx) : State :=
  let s : State := { (Eff.reg Fd.corePwrStReady 0 3).apply opened with
    ctxs := [(1, { x with prot := .admitted, adm := if x.adm.tenant = 0 then adm1 else x.adm })],
    pairs := [(0, { bound := true, hsrc := 0, staging := 0 }), (1, { bound := true, hsrc := 1, staging := 0x200000 })] }
  ([0, 1].foldl (fun s n => (Eff.reg (Fd.spPartNb 1) n 2).apply ((Eff.reg (Fd.spPartValid 1) n 1).apply s)) s)

/-- A request of a pair. -/
def req (pair op : Nat) (payload : List Byte := []) : Req :=
  { pair := pair, abi := 3, opcode := op, seq := 7, payload := payload, epoch := 0 }

/-- s with that request in service. -/
def asks (pair op : Nat) (s : State) (payload : List Byte := []) : State :=
  { (Eff.pair pair { s.pair pair with service := some (req pair op payload) }).apply s with
    fw := { s.fw with lastPair := pair } }

/-- A command word with an opcode, tag 9 and the rest of its fields. -/
def word (op : Nat) (rest : Nat := 0) : Cmd := BitVec.ofNat 128 (op * 2 ^ 120 + 9 * 2 ^ 104 + rest)

/-- The parcel that core 0 runs. -/
def parcel0 : Parcel :=
  { index := 0, ctx := 1, seg := 0, slice := 0, first := 0, nseq := 1, rank := 0, parg := 0, pinned := true }

def run0 : Running :=
  { parcel := parcel0, model := 0, step := 0, t4 := true, start := 0, wadis := 255, oases := 0xFFFF }

/-- Core 0 runs parcel0 for context 1, and the stream of engine e is l. -/
def runs (e : Engine) (l : List Cmd) (g : Core → Core := id) : State :=
  (Eff.core 0 (g (({ ctx := some 1, prev := some 1, run := some run0 } : Core).setEng e { stream := l }))).apply (owned {})

/-- The head of a stream that is one command. -/
def head0 (w : Cmd) : Head := ⟨none, w, none, []⟩

/-- The outcome is a next state with a property. -/
def goes (o : Out) (p : State → Bool) : Bool :=
  match o with
  | .next t => p t
  | _ => false

theorem inv_of {s : State} (h : (regsWf s.regs && s.gmem.wf gmSize && (s.spads.all fun kv => kv.2.wf spSize)
    && (tabWf s.pairs && tabWf s.ctxs && tabWf s.models && tabWf s.entries && tabWf s.sems && tabWf s.bars
    && tabWf s.hubRegs && tabWf s.cores && tabWf s.spads && tabWf s.written && tabWf s.stns && tabWf s.ctl
    && tabWf s.links && tabWf s.imap && tabWf s.mods)) = true) : s.Inv := by
  simp only [Bool.and_eq_true, List.all_eq_true] at h
  exact ⟨h.1.1.1, h.1.1.2, h.1.2, by simp only [Bool.and_eq_true]; exact h.2⟩

/-- The conditions of State.Ready but those that name the head. -/
def readyB (s : State) (n : Nat) (e : Engine) (r : Running) (h : Head) : Bool :=
  s.mayIssue n e && (s.core n).run == some r && ((s.core n).eng e).wait == none && commonReason r.t4 h == none
    && !s.headEarly r ((s.core n).eng e) h && !s.dueAfter n e && !(s.headLate r ((s.core n).eng e) h && hardOf h.cmd && r.t4)
    && (s.core n).canPop (popsOf h.cmd h.pscl) && (s.core n).hasRoom (outsOf h.cmd)

/-- The head of engine e of core n. -/
def headIs (s : State) (n : Nat) (e : Engine) (h : Head) : Bool :=
  match ((s.core n).eng e).head with
  | some x => x.grain == h.grain && x.cmd == h.cmd && x.pscl == h.pscl && x.rest == h.rest
  | none => false

theorem ready_of {s : State} {n : Nat} {e : Engine} {r : Running} {h : Head}
    (hb : (headIs s n e h && readyB s n e r h) = true) : s.Ready n e r h := by
  simp only [readyB, Bool.and_eq_true, beq_iff_eq, Bool.not_eq_true'] at hb
  obtain ⟨hh, ⟨⟨⟨⟨⟨⟨⟨⟨a, b⟩, c⟩, d⟩, e'⟩, k⟩, f⟩, g⟩, i⟩⟩ := hb
  refine ⟨a, b, ?_, c, d, e', k, f, g, i⟩
  unfold headIs at hh
  split at hh
  · next x hx =>
    simp only [Bool.and_eq_true, beq_iff_eq] at hh
    rw [hx, show x = h from by cases x; cases h; simp_all]
  · cases hh

/-! ### Ill-formed commands -/

def gran63 : Gran := ⟨zeros 63, 0, true⟩

def frame0 : NFrame :=
  { dinst := 0, dcore := 0, sinst := 0, score := 0, mark := 0, inc := 0, seq := 0, credit := 0, tag := 0, offset := 0,
    grans := [], body := zeros 16, sctx := 0, crcOk := true }

def slot0 : LFrame :=
  { grain := 0, sinst := 0, spkg := 0, sctx := 0, score := 0, owner := 0, dinst := 0, dpkg := 0, dcore := 0, inc := 0,
    offset := 0, seq := 0, tag := 0, becrd := 0, mark := 0, grans := [], crcOk := true }

def resv0 : ResvMsg :=
  { hop := 0, opkg := 0, oinst := 0, slice := 0, reason := 0, hopRec := 0, first := 0, count := 0, stride := 0, offset := 0,
    nhop := 1 }

def lane0 : LaneView := ⟨true, true, true, false, 0, 0⟩

theorem wf_registerWrite : (Instr.registerWrite ⟨.firmware, 65536, 4, true, 0⟩).wf = false
    ∧ (Instr.registerWrite ⟨.firmware, 0, 9, true, 0⟩).wf = false ∧ (Instr.registerWrite ⟨.firmware, 0, 0, true, 0⟩).wf = false := by
  decide +kernel
theorem wf_stagedSetApply : (Instr.stagedSetApply .sp 65536).wf = false := by decide +kernel
theorem wf_apertureWrite : (Instr.apertureWrite 0 0 [] .ok).wf = false
    ∧ (Instr.apertureWrite 0 0xFFFFFF (zeros 2) .ok).wf = false := by decide +kernel
theorem wf_apertureRead : (Instr.apertureRead 0 0 0 .ok).wf = false ∧ (Instr.apertureRead 0 0xFFFFFF 2 .ok).wf = false := by
  decide +kernel
theorem wf_grainStrobe : (Instr.grainStrobe 0 256).wf = false := by decide +kernel
theorem wf_phys : (Instr.nop 0 .mx { cyc := 32 }).wf = false ∧ (Instr.nop 0 .mx { upsets := [{ unit := 33, row := 0, corrected := true }] }).wf = false
    ∧ (Instr.nop 0 .mx { upsets := [{ unit := 31, row := 64, corrected := true }] }).wf = false
    ∧ (Instr.pass 0 { faults := [⟨4, 0, 0, 0, 1⟩] }).wf = false ∧ (Instr.drain 0 { meets := [⟨32, 0, 0⟩] }).wf = false := by
  decide +kernel
theorem wf_rdata : (Instr.rdata 0 0 0 .ok [(0, gran63)]).wf = false ∧ (Instr.rdata 0 0 0 .ok [(8, ⟨zeros 64, 0, true⟩)]).wf = false := by
  decide +kernel
theorem wf_nport : (Instr.nportWrFrame 0 frame0).wf = false ∧ (Instr.nportAckFrame 0 { frame0 with body := [] }).wf = false
    ∧ (Instr.nportCrdFrame 0 { frame0 with grans := [zeros 64] }).wf = false := by decide +kernel
theorem wf_slot : (Instr.dataFrame 0 { slot0 with grans := [zeros 63] }).wf = false := by decide +kernel
theorem wf_lanes : (Instr.trainFrame 0 (List.replicate 21 lane0)).wf = false := by decide +kernel
theorem wf_seqSet : (Instr.seqSet 0 0 ⟨none, none, none, none, none⟩).wf = false := by decide +kernel
theorem wf_resv : (Instr.resvReq 0 { resv0 with nhop := 17 }).wf = false ∧ (Instr.resvAck 0 { resv0 with hop := 1 }).wf = false := by
  decide +kernel
theorem wf_governor : (Instr.governorUpdate 4000 96).wf = false := by decide +kernel

/-! ### Witnesses: the machine, registers, debug, power -/

theorem wit_ResetMeetsInvariant : State.reset.Inv := inv_of (by decide +kernel)
theorem wit_StepKeepsInvariant : State.reset.Inv ∧ step State.reset = .next State.reset := ⟨inv_of (by decide +kernel), rfl⟩

def sTenant : State := asks 2 0x2A (owned {})
theorem wit_TenantReachesOwnContextsOnly :
    ctxRow (.seqHold 1 0) = some (0x2A, 1) ∧ sTenant.alive = true ∧ sTenant.serving 0x2A = some (req 2 0x2A)
      ∧ (sTenant.pair 2).epoch = (req 2 0x2A).epoch ∧ (req 2 0x2A).pair ≠ 0 ∧ (sTenant.ctx 1).adm.tenant ≠ (req 2 0x2A).pair
      ∧ (sTenant.ctx 0).prot ≠ .admitted := by decide +kernel

/-- The firmware has staged LOSS_LIMIT; a committed set of it is due, another breaks a rule. -/
def sStaged : State := { opened with staged := [⟨reqCode .firmware, Fd.grainCtrlLossLimit, 0, 5⟩] }
def set1 : CommitSet := { block := .grain, chan := 0, hsrc := 1, vals := [⟨1, Fd.grainCtrlLossLimit, 0, 5⟩], dueAt := 0, ready := true }
def set2 : CommitSet := { block := .lp, chan := 0, hsrc := 1, vals := [⟨1, Fd.lpCfgSplitA, 0, 3⟩], dueAt := 0, ready := true }
def sSets : State := { opened with sets := [set1, set2] }
theorem wit_CommitsTakeAndApply : sStaged.takes .firmware = true
    ∧ ([Block.grain, .tile, .mx, .num, .vx, .prog, .sp, .stu, .mp, .np, .lp, .hp, .hm, .dbg, .pwr].all fun b =>
      opened.accessKind .firmware (commitAddr b) 4 true == none) = true
    ∧ sSets.alive = true ∧ (sSets.sets.find? fun c => c.block = .grain && c.chan = 0) = some set1 ∧ set1.due sSets = true
    ∧ set1.breach sSets = false ∧ (∀ v ∈ set1.vals, v.fld ∈ Fd.all ∧ v.fld.acc = .rws)
    ∧ (set1.vals.map fun v => v.fld.key v.chan).Nodup
    ∧ (sSets.sets.find? fun c => c.block = .lp && c.chan = 0) = some set2 ∧ set2.due sSets = true ∧ set2.breach sSets = true := by
  decide +kernel
theorem test_commit : goes (exec (.grainCommit .firmware) sStaged) (fun t => t.staged == [] && t.sets.length == 1) = true := by
  decide +kernel
/-- LOSS_LIMIT below 16 takes effect, and reads, as 16 (R12, R53). -/
theorem test_setApply : goes (exec (.stagedSetApply .grain 0) sSets) (fun t => t.reg Fd.grainCtrlLossLimit == 16) = true := by
  decide +kernel

theorem wit_WritesFollowAccessCodes : opened.takes .firmware = true ∧ opened.accessKind .firmware 0x1000 4 true = none
    ∧ opened.takes (.host 0) = true ∧ opened.accessKind (.host 0) 0x1000 8 true = some 1
    ∧ opened.accessKind (.host 0) 0xFFFC 4 true = some 2 := by decide +kernel
theorem wit_ReadsAnswerAndLatch : opened.takes .firmware = true ∧ opened.accessKind .firmware 0x880C 4 false = none := by decide +kernel
theorem test_read_reset : goes (exec (accessOf .firmware 0x880C 4 false 0) opened) (fun t => t.hostResp == answer 0x40 false) = true := by
  decide +kernel

/-- Core 0 runs for context 1, whose debug consent is with HSRC 0. -/
def sDebug : State :=
  { (Eff.core 0 { ctx := some 1, prev := some 1, capture := some (3, 4) }).apply (owned { consent := some (0, 0) }) with
    dbg := { wanted := 1 } }
theorem wit_TileCaptureUnderConsent : sDebug.takes .firmware = true ∧ sDebug.accessKind .firmware 0x2220 4 true = none
    ∧ bit (0x80001800 : Word).toNat 31 = true ∧ sDebug.mayDebug .firmware 0 = true ∧ opened.mayDebug .firmware 0 = false
    ∧ sDebug.alive = true ∧ (sDebug.core 0).capture = some (3, 4)
    ∧ ((sDebug.core 0).tile 3 4).syn0 = 0 ∧ ((sDebug.core 0).tile 3 4).syn1 = 0 := by decide +kernel
/-- The lower half of the row to be captured fails its check. -/
def sDebugBad : State := (Eff.core 0 { sDebug.core 0 with tiles := [(3 * 64 + 4, { syn0 := 1 })] }).apply sDebug
theorem wit_TileCaptureUnderConsent_bad : sDebugBad.alive = true ∧ (sDebugBad.core 0).capture = some (3, 4)
    ∧ ((sDebugBad.core 0).tile 3 4).syn0 ≠ 0 := by decide +kernel
theorem test_captureBad : goes (exec (.tileDbgCaptureDone ⟨0, {}⟩) sDebugBad) (fun t => t.reg Fd.tileEccUncorr 0 == 1) = true := by
  decide +kernel
theorem test_capture : goes (exec (.tileDbgGo .firmware 0x80001880) sDebug) (fun t => (t.core 0).capture == some (3, 4)) = true := by
  decide +kernel

def sHalted : State := (Eff.reg Fd.dbgHaltedCores 0 1).apply sDebug
theorem wit_HaltsLastWithConsent : sDebug.takes .firmware = true ∧ sDebug.accessKind .firmware 0xA014 4 true = none
    ∧ bit (1 : Word).toNat 0 = true ∧ sDebug.mayDebug .firmware 0 = true ∧ bit sDebug.dbg.wanted 0 = true
    ∧ sDebug.halted 0 = false ∧ sDebug.consented 1 = true ∧ (sDebug.core 0).atBoundary = true
    ∧ sDebug.accessKind .firmware 0xA018 4 true = none ∧ sHalted.mayDebug .firmware 0 = true ∧ sHalted.halted 0 = true
    ∧ (sDebug.ctx 1).consent = some (0, 0) ∧ reached sDebug.tb.now 0 = true := by decide +kernel
theorem test_halt : goes (exec (.debugHaltTaken 0) sDebug) (fun t => t.halted 0) = true := by decide +kernel

/-- SYNC_DBG selects hub semaphore 0 of context 1, or its barrier 0, which has one of two arrivals. -/
def sManual (space : Nat) : State :=
  (Eff.reg Fd.syncDbgValueValue 0 77).apply <| (Eff.reg Fd.syncDbgSelSpace (reqChan .firmware) space).apply
    { owned {} with
      sems := [(hubSemKey 0, { alloc := true, owner := 1 })],
      bars := [(0, { alloc := true, owner := 1, expect := 2, cur := 1 })] }
theorem wit_ManualActionsTakeEffect : (sManual 1).takes .firmware = true ∧ (sManual 1).accessKind .firmware 0x6058 4 true = none
    ∧ (sManual 1).dbgObj (reqChan .firmware) = .sem (hubSemKey 0) ∧ (sManual 1).dbgMay .firmware (.sem (hubSemKey 0)) = true
    ∧ (sManual 2).dbgObj (reqChan .firmware) = .bar 0 ∧ ((sManual 2).bar 0).scope = 0
    ∧ ((sManual 2).bar 0).next ≠ ((sManual 2).bar 0).expected ∧ (sManual 2).dbgMay .firmware (.bar 0) = true
    ∧ (sManual 2).takes .firmware = true
    ∧ (sManual 2).accessKind .firmware 0x6058 4 true = none := by decide +kernel
/-- The top node of the barrier is in another cluster. -/
def sManualFar : State := { sManual 2 with bars := [(0, { alloc := true, owner := 1, scope := 1, pkgInst := 16 })] }
theorem wit_ManualActionsTakeEffect_far : sManualFar.dbgObj (reqChan .firmware) = .bar 0
    ∧ sManualFar.dbgMay .firmware (.bar 0) = true ∧ (sManualFar.bar 0).topHere = false := by
  refine ⟨by decide +kernel, by decide +kernel, ?_⟩
  show ({ alloc := true, owner := 1, scope := 1, pkgInst := 16 } : Barrier).topHere = false
  have := Config.inst.isLt
  simp [Barrier.topHere]
  omega
theorem test_manualSet : goes (exec (.syncSet .firmware) (sManual 1)) (fun t => (t.sem (hubSemKey 0)).count == 77) = true := by
  decide +kernel
theorem test_manualRelease : goes (exec (.syncRelease .firmware) (sManual 2)) (fun t => (t.bar 0).phase) = true := by
  decide +kernel

def sDroop : State := { opened with
  tb := { opened.tb with now := 300 }, pw := { opened.pw with droop := 4, vddcOk := some 200 } }
theorem wit_ClockStepsFollowTheirSources : sDroop.alive = true ∧ sDroop.pw.droop ≠ 0
    ∧ reached sDroop.tb.now (grainAdd 200 sDroop.droopHold) = true
    ∧ 4 - min 4 (grainSub sDroop.tb.now (grainAdd 200 sDroop.droopHold) + 1) < sDroop.pw.droop
    ∧ reached sDroop.tb.now (grainAdd 400 sDroop.droopHold) = false
    ∧ elapsed sDroop.tb.now sDroop.pw.thermAt 256 = true := by decide +kernel
theorem test_clkSrc : sDroop.shown 0 0x8010 0 Fd.clkStatusSrc = 2 := by decide +kernel
theorem test_thermal : goes (exec (.thermalStep 115) sDroop) (fun t => t.pw.therm == 1 && t.pw.thermTrip) = true := by
  decide +kernel

def sOff : State := { State.reset with pw := { State.reset.pw with pwrOk := false, ctrlEn := false } }
def sDomain : State := (Eff.reg Fd.corePwrStReady 0 1).apply ((Eff.reg Fd.corePwrOn 0 3).apply (owned {}))
def sIdle : State := { (Eff.reg Fd.corePwrOn 0 4).apply opened with tb := { opened.tb with now := 65536 } }
theorem wit_PowerSwitchesZeroed : sOff.pw.pwrOk = false ∧ sOff.pw.ctrlEn = false ∧ State.reset.pw.pwrOk = true
    ∧ State.reset.pw.ctrlEn = true ∧ (({ sOff with pw := { sOff.pw with pwrOk := true } } : State).pw.pwrOk = true)
    ∧ (({ sOff with pw := { sOff.pw with ctrlEn := true } } : State).pw.ctrlEn = true)
    ∧ sDomain.alive = true ∧ bit (sDomain.reg Fd.corePwrOn) 1 = true ∧ bit (sDomain.reg Fd.corePwrStReady) 1 = false
    ∧ sIdle.alive = true ∧ bit (sIdle.reg Fd.corePwrOn) 2 = true ∧ sIdle.fenced 2 = false ∧ sIdle.masked 2 = false
    ∧ elapsed sIdle.tb.now (tabGet 0 sIdle.pw.idleFrom 2) 65536 = true := by decide +kernel

theorem wit_StartUpStages : State.reset.pw.pwrOk = true ∧ State.reset.pw.ctrlEn = true ∧ State.reset.pw.released = false
    ∧ ({ live with pw := { live.pw with selfTest := true } } : State).alive = true := by decide +kernel
theorem test_release : goes (exec .internalResetRelease State.reset) State.alive = true := by decide +kernel

theorem wit_WarmResetLosesAllButTheKept : opened.alive = true ∧ (opened.resets.held.any fun h => h.1 == .warm) = false
    ∧ opened.mustHold .warm = false ∧ opened.takes .firmware = true ∧ opened.accessKind .firmware 0x8040 4 true = none := by
  decide +kernel
theorem test_warm : goes (exec .warmRstN (owned {})) (fun t => t.ctxs == [] && t.reg (Fd.portInc 0) == 1 && t.coreInc 5 == 1) = true := by
  decide +kernel

def sTesting : State := { opened with resets := { opened.resets with testing := 1 } }
theorem wit_CoreResetFencesAndTests : opened.alive = true ∧ opened.takes .firmware = true
    ∧ opened.accessKind .firmware 0x8044 4 true = none ∧ bit (1 : Word).toNat 0 = true
    ∧ bit opened.resets.testing 0 = false ∧ opened.fenced 0 = false
    ∧ sTesting.alive = true ∧ bit sTesting.resets.testing 0 = true
    ∧ (∀ k, k < 16 → (sTesting.model k).st = .resident → bit (sTesting.ctx (sTesting.model k).ctx).adm.mask 0 = false) := by
  decide +kernel
/-- Core 0 is fenced; its INC advanced `n` grains ago. -/
def sFenced (n : Nat) : State :=
  { (Eff.reg Fd.fencedCores 0 1).apply opened with
    tb := { opened.tb with now := 10000 }, resets := { opened.resets with lastInc := [(incCore 0, some (10000 - n))] } }
theorem wit_CoreResetFencesAndTests_fenced : (sFenced 5000).fenced 0 = true ∧ (sFenced 5000).mustHold (.core 0) = false
    ∧ ((sFenced 5000).resets.held.any fun h => h.1 == .core 0) = false ∧ (sFenced 5).fenced 0 = true
    ∧ (sFenced 5).mustHold (.core 0) = true ∧ (sFenced 5).takes .firmware = true ∧ (sFenced 5).alive = true
    ∧ (sFenced 5).accessKind .firmware 0x8044 4 true = none := by decide +kernel
theorem test_coreRstFenced : goes (exec (.coreRst .firmware 1) (sFenced 5000)) (fun t => bit t.resets.testing 0) = true := by
  decide +kernel
theorem test_coreRst : goes (exec (.coreRst .firmware 1) opened) (fun t => t.fenced 0 && !t.fenced 1) = true := by decide +kernel

def sHeld : State := { opened with resets := { opened.resets with held := [(.hport, 0)] } }
theorem wit_PortResetsAdvanceInc : opened.alive = true ∧ opened.takes .firmware = true
    ∧ opened.accessKind .firmware 0x8048 4 true = none ∧ bit (4 : Word).toNat 2 = true
    ∧ (opened.resets.held.any fun h => h.1 == .stn 2) = false ∧ opened.mustHold (.stn 2) = false
    ∧ (sHeld.resets.held.find? fun h => h.1 == .hport) = some (.hport, 0) ∧ sHeld.mustHold .hport = false := by decide +kernel
/-- Station 2's INC has advanced; resets of core 3 and of the whole cluster are held. -/
def sHeld2 : State := { opened with resets := { opened.resets with
  lastInc := [(incStn 2, some 0)], held := [(.core 3, 0), (.warm, 2)] }, tb := { opened.tb with now := 100 } }
theorem wit_PortResetsAdvanceInc_held : sHeld2.takes .firmware = true ∧ sHeld2.accessKind .firmware 0x8048 4 true = none
    ∧ sHeld2.mustHold (.stn 2) = true ∧ (sHeld2.resets.held.any fun h => h.1 == .stn 2) = false
    ∧ (sHeld2.resets.held.find? fun h => h.1 == .core 3) = some (.core 3, 0) ∧ sHeld2.mustHold (.core 3) = false
    ∧ (sHeld2.resets.held.find? fun h => h.1 == .warm) = some (.warm, 2)
    ∧ ({ sHeld2 with resets := { sHeld2.resets with lastInc := [] } } : State).mustHold .warm = false := by decide +kernel
theorem test_portRst : goes (exec (.portRst .firmware 4) opened) (fun t => t.reg (Fd.portInc 2) == 1 && t.reg (Fd.portInc 3) == 0) = true := by
  decide +kernel
theorem test_heldReset : goes (exec (.heldResetStart (.core 3)) sHeld2) (fun t => bit t.resets.testing 3
    && t.resets.held == [(.warm, 2)]) = true := by decide +kernel
theorem wit_StepRunsFrontCommand : State.reset.pending = [] := rfl
theorem test_strayCredit : (match exec (.stationLinkUp 0 1 1) opened with | .fault f => f == .portContract "STATION_LINK_UP" | _ => false) = true := by
  decide +kernel

/-! ### Witnesses: mailbox, firmware, aperture, timebase, health, snapshots -/

/-- The reply of pair 0 stands and has waited 2^20 grains. -/
def sReplied : State := (Eff.reg Fd.mbRepStatusValid 0 1).apply { owned {} with tb := { now := 2 ^ 20 } }
theorem wit_RingAckAndDiscard : opened.takes (.host 0) = true
    ∧ opened.accessKind (.host 0) 0x1078 4 true = none ∧ opened.answers 0 0 = true
    ∧ sReplied.takes (.host 0) = true ∧ sReplied.accessKind (.host 0) 0x10FC 4 true = none ∧ sReplied.answers 0 0 = true
    ∧ sReplied.reg Fd.mbRepStatusValid 0 = 1 ∧ elapsed sReplied.tb.now (sReplied.pair 0).validAt (2 ^ 20) = true := by
  decide +kernel
theorem test_ring : goes (exec (.mailboxRing 0 0) opened) (fun t => t.reg Fd.mbStatusTaken 0 == 1 && (t.pair 0).rung == some 0) = true := by
  decide +kernel

/-- Pair 0 has rung HELLO, pair 1 an undefined ABI. -/
def sRung (p : Nat) (b0 b2 : Nat) : State :=
  (Eff.reg (Fd.mbReq 0) p (b0 + 65536 * b2)).apply ((Eff.pair p { (owned {}).pair p with rung := some 0 }).apply (owned {}))
theorem wit_TakeServesOrAnswers : (sRung 0 1 3).alive = true ∧ (sRung 0 1 3).nextPair = some 0 ∧ (sRung 0 1 3).fwFree = true := by
  decide +kernel
theorem test_takeBad : goes (exec .mailboxTake (sRung 1 1 9)) (fun t => t.reg (Fd.mbRep 2) 1 == Status.badAbi.code
    && t.reg Fd.mbRepStatusValid 1 == 1) = true := by decide +kernel

/-- An address outside the scratchpad aperture, wherever the strap puts that. -/
def clear : Nat := if Config.spaUnit.val = 0 then 2 ^ 31 else 0

theorem clear_overlap {x n : Nat} (h : x + n ≤ 2 ^ 31) : overlap (clear + x) n Config.spaBase (2 ^ 31) = false := by
  unfold overlap Config.spaBase clear
  simp only [ne_eq, decide_not, Bool.and_eq_false_imp, Bool.and_eq_true, Bool.not_eq_true', decide_eq_false_iff_not,
    decide_eq_true_eq, and_imp]
  split <;> omega

def sBind : State := asks 0 0x02 opened
def sDump : State := asks 0 0x38 (owned { consent := some (0, 5) })
theorem wit_FirmwareCommandsAct : (asks 0 0x01 opened).alive = true ∧ ((asks 0 0x01 opened).pair 0).epoch = (req 0 1).epoch
    ∧ (asks 0 0x01 opened).serving 0x01 = some (req 0 0x01) ∧ sBind.alive = true ∧ (sBind.pair 0).epoch = (req 0 2).epoch
    ∧ sBind.serving 0x02 = some (req 0 0x02) ∧ (3 : Fin 8).val ≠ (req 0 2).pair ∧ sBind.ownsCtx 3 = false
    ∧ sBind.hsrcTaken 3 5 = false ∧ (asks 0 0x03 opened).serving 0x03 = some (req 0 3)
    ∧ (asks 0 0x03 opened).alive = true := by decide +kernel
theorem wit_FirmwareCommandsAct_bind : ∃ a : BitVec 64, a.toNat % 2 ^ 20 = 0
    ∧ overlap a.toNat (2 ^ 20) Config.spaBase (2 ^ 31) = false := by
  have h := clear_overlap (x := 0) (n := 2 ^ 20) (by decide)
  unfold clear at h
  split at h
  · exact ⟨0x80000000, by decide, h⟩
  · exact ⟨0, by decide, h⟩
theorem wit_FirmwareCommandsAct_dump : sDump.alive = true ∧ (sDump.pair 0).epoch = (req 0 0x38).epoch
    ∧ sDump.serving 0x38 = some (req 0 0x38) ∧ (sDump.ctx 1).prot = .admitted
    ∧ ((sDump.ctx 1).consent.map (·.1)) = some (sDump.pair 0).hsrc := by decide +kernel
theorem wit_FirmwareCommandsAct_address : ∃ a : BitVec 64,
    sDump.mayWriteTo (req 0 0x38) a.toNat (((sDump.syncDump 1).length + 63) / 64 * 64) = true := by
  have e : sDump.syncDump 1 = [] := by decide +kernel
  refine ⟨0, ?_⟩
  rw [e]
  unfold State.mayWriteTo overlap req
  decide
theorem wit_FirmwareCommandsAct_inv : sDump.Inv := inv_of (by decide +kernel)

def sLoad : State := asks 0 0x48 opened
def sUpdating : State := { opened with fw := { opened.fw with
  update := some { req := req 0 0x48, prev := 2, version := 7, start := 0 } } }
theorem wit_FirmwareUpdatesAndRestarts : sLoad.alive = true ∧ sLoad.serving 0x48 = some (req 0 0x48) ∧ sLoad.allAnswered = true
    ∧ sLoad.fw.update = none ∧ 0x80100000 + 0x180000 ≤ gmSize
    ∧ sUpdating.alive = true ∧ sUpdating.fw.update = some { req := req 0 0x48, prev := 2, version := 7, start := 0 }
    ∧ ({ opened with fw := { opened.fw with restarting := some 2 } } : State).fw.update = none ∧ opened.fwState ≠ 0 ∧ opened.fw.restarting = none
    ∧ (sLoad.pair 0).service = some (req 0 0x48) ∧ (sLoad.pair 0).epoch = (req 0 0x48).epoch := by decide +kernel
theorem wit_FirmwareUpdatesAndRestarts_clear : overlap (clear + 0x100000) 0x180000 Config.spaBase (2 ^ 31) = false :=
  clear_overlap (by decide)

/-- The aperture's window begins where the scratchpad aperture does not. -/
def sHigh : State := (Eff.reg Fd.aperBaseBase 0 128).apply opened
def sClear : State := if Config.spaUnit.val = 0 then sHigh else opened
theorem inAperture_far {a : Nat} (h : Config.spaUnit.val = 0 ∧ 2 ^ 31 ≤ a ∨ Config.spaUnit.val ≠ 0 ∧ a < 2 ^ 31) :
    inAperture a = false := by
  unfold inAperture Config.spaBase
  rw [Bool.and_eq_false_imp]
  intro g
  rw [decide_eq_true_eq] at g
  rw [decide_eq_false_iff_not]
  omega
theorem sHigh_open : sHigh.hportOpen = true ∧ sHigh.aperture 64 % 64 = 0 ∧ sHigh.aperture 64 + 64 ≤ gmSize
    ∧ sHigh.ggood (sHigh.aperture 64) 64 = true ∧ 2 ^ 31 ≤ sHigh.aperture 64 := by decide +kernel
theorem opened_open : opened.hportOpen = true ∧ opened.aperture 64 % 64 = 0 ∧ opened.aperture 64 + 64 ≤ gmSize
    ∧ opened.ggood (opened.aperture 64) 64 = true ∧ opened.aperture 64 < 2 ^ 31 := by decide +kernel
theorem wit_ApertureReadsAndWrites : sClear.hportOpen = true ∧ inAperture (sClear.aperture 64) = false
    ∧ sClear.aperture 64 % 64 = 0 ∧ sClear.aperture 64 + 64 ≤ gmSize ∧ sClear.ggood (sClear.aperture 64) 64 = true := by
  unfold sClear
  split
  · next h => exact ⟨sHigh_open.1, inAperture_far (.inl ⟨h, sHigh_open.2.2.2.2⟩), sHigh_open.2.1, sHigh_open.2.2.1, sHigh_open.2.2.2.1⟩
  · next h => exact ⟨opened_open.1, inAperture_far (.inr ⟨h, opened_open.2.2.2.2⟩), opened_open.2.1, opened_open.2.2.1,
      opened_open.2.2.2.1⟩
theorem wit_ApertureReadsAndWrites_inv : sClear.Inv := by
  unfold sClear
  split
  · exact inv_of (by decide +kernel)
  · exact inv_of (by decide +kernel)
/-- Where the strap puts the scratchpad aperture within reach of APER_BASE, the aperture's window may begin there. -/
def sPads : State := (Eff.reg Fd.aperBaseBase 0 (128 * Config.spaUnit.val)).apply opened
theorem sPads_open : sPads.hportOpen = true := by
  unfold State.hportOpen State.alive sPads
  rw [Eff.reg_pw]
  decide +kernel
theorem aperture_at (n : Nat) (h : n < 2 ^ 25) (s : State) :
    ((Eff.reg Fd.aperBaseBase 0 (128 * n)).apply s).aperture 64 = 128 * n * 2 ^ 24 + 64 := by
  unfold State.aperture
  rw [Eff.reg_get_same, show 2 ^ Fd.aperBaseBase.width = 2 ^ 32 from by decide, Nat.mod_eq_of_lt (by omega)]
theorem inAperture_at (n : Nat) (hn : n = Config.spaUnit.val) : inAperture (128 * n * 2 ^ 24 + 64) = true := by
  unfold inAperture Config.spaBase
  rw [← hn]
  simp only [Bool.and_eq_true, decide_eq_true_eq]
  omega
theorem wit_ApertureReadsAndWrites_pads (h : Config.spaUnit.val < 2 ^ 25) :
    sPads.hportOpen = true ∧ inAperture (sPads.aperture 64) = true :=
  ⟨sPads_open, (congrArg inAperture (aperture_at _ h _)).trans (inAperture_at _ rfl)⟩
def sLocked : State := { opened with tb := { now := 10, everLocked := true, last := some 10 } }
def sHold : State := { opened with tb := { now := 10, last := some 10, holdover := true, holdAdv := 5000 } }
theorem wit_GrainCountNeverDecreases : opened.alive = true ∧ sLocked.alive = true ∧ sLocked.tb.last = some 10
    ∧ sLocked.tb.everLocked = true ∧ (12 : BitVec 48).toNat ≠ grainAdd sLocked.tb.now 1
    ∧ goodStrobes { sLocked.tb with good := 3 } 11 = 4
    ∧ sLocked.tb.holdover = false ∧ sLocked.lossLimit ≤ cyclesOf [⟨0, 60⟩, ⟨4, 40⟩] ∧ (sHold.tb.weigh [⟨0, 60⟩]).last ≠ none ∧ sHold.alive = true ∧ sHold.tb.last = some 10
    ∧ sHold.tb.holdover = true ∧ sHold.tb.limited = false ∧ sHold.holdLimit < sHold.tb.holdAdv := by decide +kernel
/-- Beyond LOSS_LIMIT the count goes on by the cycles of each clock step as that step weighs them (R47). -/
theorem test_holdover : goes (exec (.holdoverEntry [⟨0, 60⟩, ⟨4, 40⟩]) sLocked) (fun t =>
    t.tb.now == 10 + (60 * cycleWeight 0 + 40 * cycleWeight 4) / 1680 && t.reg Fd.grainStatusLoss == 1) = true := by decide +kernel
theorem test_strobeBack : goes (exec (.grainStrobe 4 0) sLocked) (fun t => t.tb.now == 10 && t.reg Fd.grainStatusDisc == 1) = true := by
  decide +kernel

/-- Link 0 is ACTIVE with every feature. -/
def linked (s : State) : State :=
  (Eff.reg Fd.linkFeatActActive 0 0xFF).apply ((Eff.reg Fd.linkStatusState 0 6).apply s)
def sSync : State := { (Eff.reg Fd.grainSyncSyncEn 0 1).apply (linked opened) with tb := { now := 4096, timingOut := true } }
/-- Link 0 is in IDENT. -/
def sIdent : State := (Eff.reg Fd.linkStatusState 0 3).apply sSync
theorem wit_TimingExchangeMeasuresOffset : sSync.alive = true ∧ sSync.reg Fd.grainSyncSyncEn = 1
    ∧ sSync.tb.timingDue = true ∧ sIdent.linkSt 0 = 3 ∧ sIdent.alive = true ∧ sSync.linkHas 0 0 = true ∧ sSync.tb.timingOut = true
    ∧ sSync.reg Fd.grainSyncUplink = 0 ∧ (((20 : Nat) : Int) - (10 : Nat) - (((34 : Nat) : Int) - (30 : Nat))) % 2 = 0 := by
  decide +kernel
theorem test_offset : goes (exec (.timingReply 0 10 20 30 34) sSync) (fun t => t.reg Fd.grainOffsetOffset == 3) = true := by
  decide +kernel

theorem wit_HealthWindowRisk : sSync.alive = true ∧ elapsed sSync.tb.now sSync.health.start 4096 = true := by decide +kernel

/-- Snapshots are on for context 1, which has one sequence. -/
def sSnap (st : Nat) : State :=
  { (Eff.reg Fd.snapCfgEn 0 1).apply ((Eff.reg Fd.snapCfgCtxEn 0 2).apply (owned {})) with
    entries := [(3, { ctx := 1, st := .ready })], snap := { st := st, seq := st, done := 0 } }
theorem wit_SnapshotsSaveAndRestore : ([0, 1, 2].all fun k => (sSnap k).alive && (sSnap k).reg Fd.snapCfgEn == 1
      && reached (sSnap k).tb.now (sSnap k).snap.due && (sSnap k).snap.st == k && !(sSnap k).snap.lateCut) = true := by
  decide +kernel
/-- An image at 0 but for the CRC of its header: context 1 of tenant 1 is included, and sequence 3 is READY. -/
def imageCells : List Host.Cell :=
  (cellsWrite byte0 (cellsWrite byte0 [] 128 [0x81]) 132 (toLe (crc32c (toLe 0 8)) 4)) ++ [(576 + 64 * 3 + 34, 0x21)]
def sBare : State := { owned {} with gmem := { data := imageCells } }
@[irreducible] def imageCrc : Nat := crc32c ((sBare.gread 0 64).take 60 ++ sBare.gread 64 524800)
/-- The image with a CRC in its header. -/
def imageWith (k : Nat) : List Host.Cell := cellsWrite byte0 imageCells 60 (toLe k 4)
def holding (m : List Host.Cell) : State := { owned {} with gmem := { data := m } }
/-- The whole image is there. -/
def sImage : State := holding (imageWith imageCrc)
def asked (s : State) (v : Nat) : State := fetched ((Eff.reg Fd.snapRestoreDone 0 0).apply (restoreAsked s v)) .firmware 0 524864

theorem asked_stilled (s : State) (v : Nat) (h : s.stns = []) : Stilled s (asked s v) :=
  viaStations_stilled .firmware false 0 524864 true ⟨(Eff.reg Fd.snapRestoreDone 0 0).apply (restoreAsked s v), .refl⟩
    ⟨fun n => by
      show (tabGet {} s.stns n).reads = [] ∧ (tabGet {} s.stns n).writes = [] ∧ (tabGet {} s.stns n).waiting = []
      rw [h]; exact ⟨rfl, rfl, rfl⟩, rfl, rfl, rfl⟩

theorem cellsRead_map (m : Tab Byte) (a n : Nat) : cellsRead byte0 m a n = (List.range n).map fun i => cellRead byte0 m (a + i) := by
  induction n generalizing a with
  | zero => rfl
  | succ n ih =>
    rw [List.range_succ_eq_map, List.map_cons, List.map_map]
    show cellRead byte0 m a :: cellsRead byte0 m (a + 1) n = _
    rw [ih]
    refine congrArg (cellRead byte0 m a :: ·) (List.map_congr_left fun i _ => ?_)
    show cellRead byte0 m (a + 1 + i) = cellRead byte0 m (a + (i + 1))
    rw [show a + 1 + i = a + (i + 1) from by omega]

theorem image_out (k a n : Nat) (h : a + n ≤ 60 ∨ 64 ≤ a) : cellsRead byte0 (imageWith k) a n = cellsRead byte0 imageCells a n := by
  rw [cellsRead_map, cellsRead_map]
  refine List.map_congr_left fun i hi => ?_
  have := List.mem_range.mp hi
  refine cellRead_cellsWrite_out _ _ _ _ _ (by decide +kernel) ?_
  have : (toLe k 4).length = 4 := rfl
  omega

theorem image_header (k : Nat) : cellsRead byte0 (imageWith k) 0 64 = cellsRead byte0 imageCells 0 60 ++ toLe k 4 := by
  have h := image_out k 0 60 (.inl (by decide))
  rw [cellsRead_map] at h ⊢
  rw [show (64 : Nat) = 60 + 4 from rfl, List.range_add, List.map_append, h]
  congr 1
  have e : ∀ i, i < 4 → cellRead byte0 (imageWith k) (0 + (60 + i)) = (toLe k 4).getD i byte0 := fun i hi => by
    rw [Nat.zero_add]
    exact cellRead_cellsWrite_in _ _ _ _ _ (by decide +kernel) hi
  rw [List.map_map]
  show [_, _, _, _] = _
  simp only [Function.comp]
  rw [e 0 (by decide), e 1 (by decide), e 2 (by decide), e 3 (by decide)]
  rfl

theorem crcByte_lt (c : Nat) (b : Byte) (h : c < 2 ^ 32) : crcByte c b < 2 ^ 32 := by
  have hb : ∀ x, x < 2 ^ 32 → crcBit x < 2 ^ 32 := fun x hx => by
    unfold crcBit
    split
    · exact Nat.xor_lt_two_pow (by omega) (by decide)
    · omega
  unfold crcByte
  have : c ^^^ b.toNat < 2 ^ 32 := Nat.xor_lt_two_pow h (by have := b.isLt; omega)
  exact hb _ (hb _ (hb _ (hb _ (hb _ (hb _ (hb _ (hb _ this)))))))
theorem crc_lt (l : List Byte) : crc32c l < 2 ^ 32 := by
  have : ∀ (l : List Byte) c, c < 2 ^ 32 → l.foldl crcByte c < 2 ^ 32 := fun l => by
    induction l with
    | nil => exact fun _ h => h
    | cons b l ih => exact fun c h => ih _ (crcByte_lt c b h)
  exact Nat.xor_lt_two_pow (this l _ (by decide)) (by decide)

theorem le4 (v : Nat) (h : v < 2 ^ 32) : leNat (toLe v 4) = v := by
  simp only [toLe, leNat, BitVec.toNat_ofNat]
  omega

theorem restore_good (k : Nat) (hk : k = imageCrc) : (asked (holding (imageWith k)) 0x80000001).restoreBad 0 1 = false := by
  obtain ⟨-, hm, hc, he⟩ := asked_stilled (holding (imageWith k)) 0x80000001 rfl
  generalize asked (holding (imageWith k)) 0x80000001 = u at hm hc he ⊢
  have rd : ∀ a n, a < gmSize → u.gread a n = cellsRead byte0 (imageWith k) a n := fun a n h => by
    show cellsRead byte0 u.gmem.data (a % gmSize) n = _
    rw [hm, Nat.mod_eq_of_lt h]
    rfl
  have cx : u.ctx 1 = (owned {}).ctx 1 := by
    unfold State.ctx
    rw [hc]
    rfl
  have en : ∀ i, u.entry i = {} := fun i => by
    unfold State.entry
    rw [he]
    rfl
  unfold State.restoreBad
  simp only [cx, en]
  rw [rd 0 64 (by decide), rd (0 + 64 + 64 * 1) 64 (by decide), rd (0 + 64) 524800 (by decide), image_header,
    image_out k (0 + 64 + 64 * 1) 64 (.inr (by decide)), image_out k (0 + 64) 524800 (.inr (by decide))]
  have hlen : (cellsRead byte0 imageCells 0 60).length = 60 := by decide +kernel
  have h1 : (cellsRead byte0 imageCells 0 60 ++ toLe k 4).take 60 = cellsRead byte0 imageCells 0 60 := by
    rw [List.take_append_of_le_length (by omega), List.take_of_length_le (by omega)]
  have h2 : leAt (cellsRead byte0 imageCells 0 60 ++ toLe k 4) 60 4 = k := by
    unfold leAt slice
    rw [List.drop_append_of_le_length (by omega), List.drop_of_length_le (by omega), List.nil_append]
    exact le4 _ (by rw [hk]; unfold imageCrc; exact crc_lt _)
  have h3 : crc32c (cellsRead byte0 imageCells 0 60 ++ cellsRead byte0 imageCells (0 + 64) 524800) = k := by
    have : (cellsRead byte0 imageCells 0 64).take 60 = cellsRead byte0 imageCells 0 60 := by decide +kernel
    rw [hk]
    unfold imageCrc
    rw [show sBare.gread 0 64 = cellsRead byte0 imageCells 0 64 from rfl,
      show sBare.gread 64 524800 = cellsRead byte0 imageCells 64 524800 from rfl, this]
  rw [h1, h2, h3]
  simp only [ne_eq, not_true_eq_false, decide_false, Bool.false_or, Bool.or_eq_false_iff, List.any_eq_false]
  refine ⟨⟨⟨⟨by decide +kernel, by decide +kernel⟩, by decide +kernel⟩, by decide +kernel⟩, fun p _ => by decide⟩
theorem restore_reach (s : State) : s.accessKind .firmware 0x9040 4 true = none := by
  have hf : ∀ f ∈ regFields 0x9040, f.scope = .one := by decide +kernel
  have hn : (regFields 0x9040).isEmpty = false := by decide +kernel
  have ha : ((regFields 0x9040).any fun f => (s.chan (reqChan .firmware) 0x9040 f.scope).isNone) = false := by
    rw [List.any_eq_false]
    intro f h
    rw [hf f h]
    exact Bool.false_ne_true
  simp [State.accessKind, State.mayReach, hn, ha]
theorem image_base (m : List Host.Cell) : (holding m).reg64 Fd.snapImageLoAddr Fd.snapImageHiAddr = 0 := by
  have h : (owned {}).reg64 Fd.snapImageLoAddr Fd.snapImageHiAddr = 0 := by decide +kernel
  have hr : (holding m).regs = (owned {}).regs := by
    unfold holding
    dsimp only
  unfold State.reg64 State.reg at h ⊢
  rw [hr]
  exact h
theorem wit_SnapshotsSaveAndRestore_good : sImage.takes .firmware = true
    ∧ sImage.reg64 Fd.snapImageLoAddr Fd.snapImageHiAddr = 0 ∧ bit (0x80000001 : Word).toNat 31 = true
    ∧ bits (0x80000001 : Word).toNat 2 0 = 1 ∧ sImage.accessKind .firmware 0x9040 4 true = none
    ∧ (asked sImage 0x80000001).restoreBad 0 1 = false :=
  ⟨rfl, image_base _, by decide, by decide, restore_reach _, restore_good _ rfl⟩
/-- Where nothing has written an image, a restore is refused. -/
theorem wit_SnapshotsSaveAndRestore_bad : (asked (owned {}) 0x80000001).restoreBad 0 1 = true := by
  obtain ⟨-, hm, -, -⟩ := asked_stilled (owned {}) 0x80000001 rfl
  have rd : (asked (owned {}) 0x80000001).gread (0 + 64 + 64 * 1) 64 = zeros 64 := by
    show cellsRead byte0 (asked (owned {}) 0x80000001).gmem.data _ 64 = _
    rw [hm]
    decide +kernel
  unfold State.restoreBad
  simp only [rd]
  simp [show bit (leAt (zeros 64) 0 1) 7 = false from by decide +kernel]
theorem test_cut : goes (exec .snapshotCut (sSnap 0)) (fun t => t.snap.st == 1 && t.snap.image.length == 1 && t.snap.seq == 1) = true := by
  decide +kernel

/-! ### Witnesses: synchronisation -/

/-- Core 0 runs with w at the head of SX; identifiers 5 to 8 name hub semaphore 0, semaphore 0 of cores 0 and 1, barrier 0. -/
def sSx (w : Cmd) : State :=
  { (Eff.core 0 { ctx := some 1, prev := some 1, run := some run0, sx := { stream := [w] } }).apply (owned
      { map := [(5, some ⟨0, .hubSem 0, false⟩), (6, some ⟨0, .coreSem 0 0, false⟩), (7, some ⟨0, .coreSem 1 0, false⟩),
                (8, some ⟨0, .barrier 0, false⟩)] }) with
    sems := [(coreSemKey 0 0, { alloc := true, owner := 1, count := 3 }), (coreSemKey 1 0, { alloc := true, owner := 1 }),
             (hubSemKey 0, { alloc := true, owner := 1 })],
    bars := [(0, { alloc := true, owner := 1, member := true, expect := 2, mask := 3 })] }

/-- An SX command on an identifier with an amount and a mode. -/
def sxWord (op vid n : Nat) (mode : Nat := 0) : Cmd := word op (vid * 2 ^ 80 + mode * 2 ^ 64 + n * 2 ^ 32)

/-- What SemaphoreCommandsAct asks of a command on identifier vid, beside Inv and Ready. -/
def namesSem (w : Cmd) (vid k : Nat) : Bool :=
  (((sSx w).lookup 1 (cf w 95 80)).bind (semKeyOf 0)) == some k && cf w 95 80 == vid && cf w 79 64 == 0 && !((sSx w).sem k).gone

theorem wit_SemaphoreCommandsAct_ready : ∀ w ∈ [sxWord 0x50 6 2, sxWord 0x50 6 9, sxWord 0x50 5 1, sxWord 0x51 6 1,
    sxWord 0x52 6 9, sxWord 0x51 7 1, sxWord 0x52 7 1], (sSx w).Ready 0 .sx run0 (head0 w) := by
  intro w hw
  simp only [List.mem_cons, List.not_mem_nil, or_false] at hw
  rcases hw with rfl | rfl | rfl | rfl | rfl | rfl | rfl <;> exact ready_of (by decide +kernel)
theorem wit_SemaphoreCommandsAct_inv : ∀ w, (sSx w).Inv := fun w => inv_of (by with_unfolding_all rfl)
theorem wit_SemaphoreCommandsAct : namesSem (sxWord 0x50 6 2) 6 0 = true ∧ inCore 0 0 = true
    ∧ namesSem (sxWord 0x50 5 1) 5 32768 = true ∧ namesSem (sxWord 0x51 6 1) 6 0 = true ∧ namesSem (sxWord 0x52 6 9) 6 0 = true
    ∧ namesSem (sxWord 0x51 7 1) 7 1024 = true ∧ inCore 0 1024 = false
    ∧ opcodeOf (sxWord 0x52 7 1) = 0x52 ∧ cf (sxWord 0x50 5 1) 63 32 = 1 := by decide +kernel
/-- Semaphore 0, of identifier 6, is GONE. -/
def sGone (w : Cmd) : State := (Eff.sem 0 { (sSx w).sem 0 with gone := true }).apply (sSx w)
theorem wit_SemaphoreCommandsAct_gone : (sGone (sxWord 0x50 6 0)).Ready 0 .sx run0 (head0 (sxWord 0x50 6 0))
    ∧ (sGone (sxWord 0x52 6 9)).Ready 0 .sx run0 (head0 (sxWord 0x52 6 9)) :=
  ⟨ready_of (by decide +kernel), ready_of (by decide +kernel)⟩
theorem wit_SemaphoreCommandsAct_goneInv : ∀ w, (sGone w).Inv := fun w => inv_of (by with_unfolding_all rfl)
theorem test_gone : ((sGone (sxWord 0x52 6 9)).sem 0).gone = true
    ∧ goes (exec (.ssub 0 {}) (sGone (sxWord 0x52 6 9))) (fun t => (t.sem 0).count == 3 && !(t.sem 0).poison && (t.core 0).sx.stream == []) = true := by
  decide +kernel
theorem wit_SemaphoreCommandsAct_zero : namesSem (sxWord 0x50 5 0) 5 32768 = true ∧ cf (sxWord 0x50 5 0) 63 32 = 0 := by decide +kernel
theorem test_sub_refused : goes (exec (.ssub 0 {}) (sSx (sxWord 0x52 6 9))) (fun t => (t.sem 0).count == 3 && (t.sem 0).poison) = true := by
  decide +kernel
theorem test_sadd : goes (exec (.sadd 0 {}) (sSx (sxWord 0x51 6 4))) (fun t => (t.sem 0).count == 7 && !(t.sem 0).poison) = true := by
  decide +kernel
theorem test_swait : goes (exec (.swait 0 {}) (sSx (sxWord 0x50 5 1))) (fun t => (t.core 0).sx.wait.isSome && t.msgs.length == 1) = true := by
  decide +kernel

theorem wit_BarrierCommandsAct_ready : ∀ w ∈ [sxWord 0x53 8 0 1, sxWord 0x53 8 0 2, sxWord 0x53 8 0 3],
    (sSx w).Ready 0 .sx run0 (head0 w) := by
  intro w hw
  simp only [List.mem_cons, List.not_mem_nil, or_false] at hw
  rcases hw with rfl | rfl | rfl <;> exact ready_of (by decide +kernel)
theorem wit_BarrierCommandsAct : ([1, 2, 3].all fun m =>
    (sSx (sxWord 0x53 8 0 m)).lookup 1 (cf (sxWord 0x53 8 0 m) 95 80) == some (.barrier 0)
      && cf (sxWord 0x53 8 0 m) 79 66 == 0 && cf (sxWord 0x53 8 0 m) 63 32 == 0 && cf (sxWord 0x53 8 0 m) 65 64 == m) = true
    ∧ ((sSx 0).bar 0).gone = false ∧ bit ((sSx 0).bar 0).mask 0 = true ∧ run0.parcel.pinned = true
    ∧ ((sSx 0).core 0).outW = [] ∧ ((sSx 0).core 0).injectQ = [] := by decide +kernel
theorem test_bar : goes (exec (.bar 0 {}) (sSx (sxWord 0x53 8 0 3))) (fun t => ((t.bar 0).leaf 0).pend == 1
    && (t.core 0).sx.wait.isSome) = true := by decide +kernel

/-- SX of core 0 waits; a semaphore operation, a registration, a wake, an arrival and a release are under way. -/
def sWait : Wait := { cmd := 0, ticket := 0, outs := [], poison := false, since := 0, what := .sem 0 1 5 }
def sMsgs : State :=
  { (Eff.core 0 { ctx := some 1, prev := some 1, run := some run0, sx := { wait := some sWait } }).apply (sSx 0) with
    bars := [(0, { alloc := true, owner := 1, member := true, expect := 2, mask := 3, dl := 5, first := some 0,
                   leaves := [(0, { pend := 1 })] })],
    tb := { now := 100000 },
    msgs := [⟨1, 0, 0, .semOp 0 false 4 6 9 0 false⟩, ⟨0, nodeHub, 0, .waitReg 32768 1 9 0⟩, ⟨nodeHub, 0, 0, .wake 0 false false⟩,
             ⟨1, nodeHub, 0, .arrive 0 (some false) 9 false⟩] }
def sRelease : State := { sMsgs with msgs := [⟨nodeHub, 0, 0, .release 0 false false⟩] }
theorem wit_SemaphoresApplyWakeTimeOut : sMsgs.alive = true
    ∧ (anyArrivals isSemOp sMsgs.msgs [])[0]? = some ⟨1, 0, 0, .semOp 0 false 4 6 9 0 false⟩
    ∧ (sMsgs.sem 0).alloc = true ∧ (sMsgs.sem 0).gone = false
    ∧ (arrivals nodeHub isWaitReg (sMsgs.msgs.filter (·.src = 0)) []).head? = some ⟨0, nodeHub, 0, .waitReg 32768 1 9 0⟩
    ∧ sMsgs.coreInc 0 = 0 ∧ (sMsgs.sem 32768).gone = false ∧ sMsgs.arrival 0 isWake = some ⟨nodeHub, 0, 0, .wake sWait.ticket false false⟩
    ∧ (sMsgs.core 0).sx.wait = some sWait ∧ sWait.what = .sem 0 1 5 ∧ (sMsgs.sem 0).count = 3 ∧ sMsgs.coreGone 0 = false ∧ (sMsgs.core 0).run = some run0 ∧ elapsed sMsgs.tb.now 0 (sMsgs.tmo 1) = true := by
  decide +kernel
theorem test_apply : goes (exec (.semOpApply ⟨0, []⟩) sMsgs) (fun t => (t.sem 0).count == 7) = true := by decide +kernel
/-- An add of 4 from core 2 and a subtract of 5 from core 1 reach semaphore 0, which counts 3 (R271). -/
def sPair : State := { sSx 0 with
  msgs := [⟨1, 0, 0, .semOp 0 true 5 6 9 0 false⟩, ⟨2, 0, 0, .semOp 0 false 4 6 9 0 false⟩] }
theorem wit_SemaphoresApplyWakeTimeOut_pair : sPair.alive = true ∧ (sPair.sem 0).alloc = true ∧ (sPair.sem 0).gone = false
    ∧ (anyArrivals isSemOp sPair.msgs [])[1]? = some ⟨2, 0, 0, .semOp 0 false 4 6 9 0 false⟩
    ∧ (anyArrivals isSemOp sPair.msgs [])[0]? = some ⟨1, 0, 0, .semOp 0 true 5 6 9 0 false⟩
    ∧ sPair.coreGone 0 = false ∧ (sPair.sem 0).count + 4 ≤ 0xFFFFFFFF ∧ 5 ≤ (sPair.sem 0).count + 4 := by decide +kernel
theorem test_pair : (goes (exec (.semOpApply ⟨0, [1]⟩) sPair) fun t => (t.sem 0).count == 2 && !(t.sem 0).poison) = true
    ∧ (goes (exec (.semOpApply ⟨1, [0]⟩) sPair) fun t => (t.sem 0).count == 2 && !(t.sem 0).poison) = true := by decide +kernel
theorem test_timeout : goes (exec (.waitTimerExpiry 0 .sx) sMsgs) (fun t => t.reg Fd.parcelStatusLastStatus 0 == 2
    && (t.core 0).run == none) = true := by decide +kernel
theorem wit_BarrierEventsAct : (anyArrivals isArrive sMsgs.msgs [])[0]? = some ⟨1, nodeHub, 0, .arrive 0 (some false) 9 false⟩
    ∧ (sMsgs.bar 0).phase = false ∧ (sMsgs.bar 0).gone = false ∧ (sMsgs.bar 0).scope = 0 ∧ (sMsgs.bar 0).sent = false
    ∧ (sMsgs.bar 0).next ≠ (sMsgs.bar 0).expected
    ∧ (anyArrivals isRelease sRelease.msgs [])[0]? = some ⟨nodeHub, 0, 0, .release 0 false false⟩
    ∧ (sRelease.bar 0).member = true ∧ bit (sRelease.bar 0).mask 0 = true ∧ ((sRelease.bar 0).leaf 0).pend ≠ 0
    ∧ (sMsgs.bar 0).alloc = true ∧ (sMsgs.bar 0).dl ≠ 0 ∧ (sMsgs.bar 0).topHere = true ∧ (sMsgs.bar 0).topNode.late = false
    ∧ (sMsgs.bar 0).topNode.first = some 0 ∧ elapsed sMsgs.tb.now 0 (sMsgs.bar 0).dl = true := by decide +kernel
def sLateNext : State :=
  { sMsgs with bars := [(255, { alloc := true, owner := 1, member := true, mask := 3, expect := 2, dl := 5,
                                lateDone := true, first := some 0, firstNext := some 99995 })] }
theorem wit_BarrierEventsAct_next : (sLateNext.bar 255).topHere = true ∧ (sLateNext.bar 255).topNode.late = true
    ∧ (sLateNext.bar 255).topNode.lateNext = false ∧ (sLateNext.bar 255).topNode.firstNext = some 99995
    ∧ elapsed sLateNext.tb.now 99995 (sLateNext.bar 255).dl = true
    ∧ goes (exec (.barrierDeadline 255) sLateNext) (fun t => (t.bar 255).lateNext) = true := by decide +kernel
theorem test_barDeadline : goes (exec (.barrierDeadline 0) sMsgs) (fun t => t.reg Fd.syncCtxResidLate 1 == 1) = true := by
  decide +kernel

/-! ### Witnesses: the streams -/

def wNop : Cmd := word 0
/-- A GRAIN word with a start at grain 5 and a deadline at grain 20 of the parcel. -/
def wGrain : Cmd := word 0x01
def sNop (eg : Eng := {}) (now : Nat := 0) : State :=
  { (Eff.core 0 { ctx := some 1, prev := some 1, run := some run0, vx := { eg with stream := [wNop] } }).apply (owned {}) with
    tb := { now := now } }
theorem wit_HeldHeadsIssueAndMisses_nop : (sNop).Inv ∧ (sNop).Ready 0 .vx run0 (head0 wNop) ∧ cf wNop 95 48 = 0
    ∧ opcodeOf wNop = 0 := ⟨inv_of (by decide +kernel), ready_of (by decide +kernel), by decide +kernel⟩
theorem wit_HeldHeadsIssueAndMisses_hold : (sNop { hold := some 0 }).Ready 0 .vx run0 (head0 wNop)
    ∧ ((sNop { hold := some 0 }).core 0).vx.hold.isSome = true := ⟨ready_of (by decide +kernel), by decide +kernel⟩
/-- A GRAIN word that names grain 5 of the parcel: a start (2^96, at 95:64) or a deadline (2^97, at 63:32). -/
def wStart : Cmd := word 0x01 (2 ^ 96 + 5 * 2 ^ 64)
def wDeadline : Cmd := word 0x01 (2 ^ 97 + 5 * 2 ^ 32)
theorem wit_HeldHeadsIssueAndMisses_start :
    (sNop { grain := some wStart, startHold := some 0 } 9).Ready 0 .vx run0 ⟨some wStart, wNop, none, []⟩
    ∧ ((sNop { grain := some wStart, startHold := some 0 } 9).core 0).vx.startHold.isSome = true
    ∧ startGrain run0 ((sNop { grain := some wStart, startHold := some 0 } 9).core 0).vx (some wStart) = some 5
    ∧ (sNop { grain := some wStart, startHold := some 0 } 9).started 5 = true :=
  ⟨ready_of (by decide +kernel), by decide +kernel⟩
theorem wit_HeldHeadsIssueAndMisses_grain : (runs .vx [wStart, wNop]).mayIssue 0 .vx = true
    ∧ ((runs .vx [wStart, wNop]).core 0).vx.stream = [wStart, wNop] ∧ opcodeOf wStart = 0x01
    ∧ ((runs .vx [wStart, wNop]).core 0).vx.wait = none ∧ ((runs .vx [wStart, wNop]).core 0).vx.grain = none
    ∧ ((runs .vx [wStart, wNop]).core 0).vx.pscl = none := by decide +kernel
theorem wit_HeldHeadsIssueAndMisses_miss : (sNop { grain := some wDeadline } 9).Inv
    ∧ (sNop { grain := some wDeadline } 9).Ready 0 .vx run0 ⟨some wDeadline, wNop, none, []⟩
    ∧ deadlineGrain run0 ((sNop { grain := some wDeadline } 9).core 0).vx (some wDeadline) = some 5
    ∧ (sNop { grain := some wDeadline } 9).late 5 = true :=
  ⟨inv_of (by decide +kernel), ready_of (by decide +kernel), by decide +kernel⟩
theorem test_miss : goes (exec (.deadlineMissed 0 .vx) (sNop { grain := some wDeadline } 9)) (fun t =>
    t.reg Fd.coreGrainMissMissed 0 == 1 && t.reg Fd.coreGrainMissLastTag 0 == 9 && (t.core 0).vx.stream == []) = true := by
  decide +kernel

/-- A NOP that breaks what is common to all commands (an undefined flag), and a PSCL alone. -/
def wBad : Cmd := word 0 (2 ^ 97)
def wPscl : Cmd := word 0x12
theorem wit_IllegalCommandIsSkipped : (runs .vx [wBad]).mayIssue 0 .vx = true ∧ ((runs .vx [wBad]).core 0).run = some run0
    ∧ ((runs .vx [wBad]).core 0).vx.wait = none ∧ headIs (runs .vx [wBad]) 0 .vx (head0 wBad) = true
    ∧ (runs .vx [wBad]).headLate run0 {} (head0 wBad) = false ∧ (runs .vx [wBad]).dueAfter 0 .vx = false
    ∧ (runs .mx [wPscl]).dueAfter 0 .mx = false
    ∧ ((runs .vx [wBad]).core 0).canPop (popsOf wBad none) = true ∧ ((runs .vx [wBad]).core 0).hasRoom (outsOf wBad) = true
    ∧ commonReason true (head0 wBad) = some 0x01
    ∧ (runs .mx [wPscl]).mayIssue 0 .mx = true ∧ ((runs .mx [wPscl]).core 0).run = some run0
    ∧ headIs (runs .mx [wPscl]) 0 .mx (head0 wPscl) = true ∧ opcodeOf wPscl = 0x12 ∧ commonReason true (head0 wPscl) = none := by
  decide +kernel
theorem wit_IllegalCommandIsSkipped_inv : (runs .vx [wBad]).Inv ∧ (runs .mx [wPscl]).Inv :=
  ⟨inv_of (by decide +kernel), inv_of (by decide +kernel)⟩
theorem wit_IllegalCommandIsSkipped_row : rowAt 0 .vx {} (opcodeOf wBad) = some (.nop 0 .vx {}) := by
  rw [show opcodeOf wBad = 0x00 from by decide +kernel]; rfl
/-- A HARD command whose deadline has passed, illegal as well. -/
def wHard : Cmd := word 0 (2 ^ 103 + 2 ^ 97)
theorem wit_IllegalCommandIsSkipped_hard : (sNop { grain := some wDeadline } 9).late 5 = true
    ∧ (let s := { runs .vx [wHard] (fun c => { c with vx := { c.vx with grain := some wDeadline } }) with tb := { now := 9 } }
      s.mayIssue 0 .vx = true ∧ headIs s 0 .vx ⟨some wDeadline, wHard, none, []⟩ = true ∧ s.dueAfter 0 .vx = false
        ∧ (s.headLate run0 (s.core 0).vx ⟨some wDeadline, wHard, none, []⟩ && hardOf wHard && run0.t4) = true
        ∧ goes (exec (.nop 0 .vx {}) s) (fun t => t.reg Fd.skipInfoReason 0 == 9) = true) := by decide +kernel
theorem test_skip : goes (exec (.nop 0 .vx {}) (runs .vx [wBad])) (fun t => t.reg Fd.coreSkipCount 0 == 1
    && t.reg Fd.coreSkipLastTag 0 == 9 && t.reg Fd.skipInfoReason 0 == 1) = true := by decide +kernel

/-! ### Witnesses: tiles, arrays, vectors -/

/-- Two rows of 16 bytes of register 2, from partition offset 64 (Tables 3-1, 8-10). -/
def wTile (op : Nat) : Cmd := word op ((2 * 2 ^ 11 + 1 * 2 ^ 5) * 2 ^ 80 + 64 * 2 ^ 56)
/-- One row of register 2 from wadi 0 (Table 8-13). -/
def wTldw : Cmd := word 0x32 (2 * 2 ^ 11 * 2 ^ 80)
def ent0 (present : Bool) : WadiEnt :=
  { addr := 0, len := 64, ncu := 0, tag := 0, idx := 0, base := 0, srcs := [], present := present, grans := [⟨List.replicate 64 5, 0⟩] }
theorem wit_TileCommandsMoveRows_ready : (runs .tx [wTile 0x30]).Ready 0 .tx run0 (head0 (wTile 0x30))
    ∧ (runs .tx [wTile 0x31]).Ready 0 .tx run0 (head0 (wTile 0x31))
    ∧ (∀ b, (runs .tx [wTldw] fun c => { c with wadis := [(0, [ent0 b])] }).Ready 0 .tx run0 (head0 wTldw)) :=
  ⟨ready_of (by decide +kernel), ready_of (by decide +kernel), fun b => ready_of (by cases b <;> decide +kernel)⟩
theorem wit_TileCommandsMoveRows : opcodeOf (wTile 0x30) = 0x30
    ∧ txReason 0 (runs .tx [wTile 0x30]) run0 (head0 (wTile 0x30)) = none ∧ ((runs .tx [wTile 0x30]).core 0).load = none
    ∧ txRows (wTile 0x30) = [(0, 0), (0, 1)]
    ∧ (∀ q ∈ txRows (wTile 0x30), (runs .tx [wTile 0x30]).spGood 0 1 (txAddr (wTile 0x30) q.1 q.2) 16 = true)
    ∧ txReason 0 (runs .tx [wTile 0x31]) run0 (head0 (wTile 0x31)) = none
    ∧ ((runs .tx [wTile 0x31]).part 0 1).1 + ((runs .tx [wTile 0x31]).part 0 1).2 ≤ 48
    ∧ (∀ q ∈ txRows (wTile 0x31), (((runs .tx [wTile 0x31]).core 0).tile 2 q.2).good 16 = true)
    ∧ txReason 0 (runs .tx [wTldw]) run0 (head0 wTldw) = none ∧ opcodeOf wTldw = 0x32
    ∧ (ent0 true).present = true ∧ (ent0 true).bad = false ∧ (ent0 false).present = false ∧ cf wTldw 79 77 = 0 := by
  decide +kernel
theorem wit_TileCommandsMoveRows_inv : (runs .tx [wTile 0x30]).Inv ∧ (runs .tx [wTile 0x31]).Inv
    ∧ (runs .tx [wTldw] fun c => { c with wadis := [(0, [ent0 true])] }).Inv :=
  ⟨inv_of (by decide +kernel), inv_of (by decide +kernel), inv_of (by decide +kernel)⟩
theorem test_tldw : goes (exec (.tldw 0 {}) (runs .tx [wTldw] fun c => { c with wadis := [(0, [ent0 true])] })) (fun t =>
    ((t.core 0).tile 2 0).data == List.replicate 16 5 && (t.core 0).wadi 0 == []) = true := by decide +kernel
/-- A tile load waits for an entry that missed. -/
def load0 (p : Option ParkCause) : Load := { cmd := wTldw, ticket := 0, outs := [], poison := false, row := 0, parked := p }
def sLoading (p : Option ParkCause) (st : FarStatus) : State :=
  runs .tx [] fun c => { c with load := some (load0 p), wadis := [(0, [{ ent0 false with status := st }])] }
/-- A halt of core 0 is pending, under consent. -/
def sHaltLoad : State :=
  { (Eff.core 0 ((sLoading none .ok).core 0)).apply (owned { consent := some (0, 5) }) with dbg := { wanted := 1 } }
theorem wit_TileCommandsMoveRows_park : (sLoading none .xmiss).alive = true
    ∧ ((sLoading none .xmiss).core 0).load = some (load0 none) ∧ ((sLoading none .xmiss).core 0).loadMissed (load0 none) = true
    ∧ (sHaltLoad.core 0).load = some (load0 none) ∧ ((sHaltLoad.core 0).loadWaits (load0 none) && sHaltLoad.haltPending 0) = true
    ∧ (sLoading (some .xmiss) .ok).halted 0 = false ∧ (sLoading (some .xmiss) .ok).haltPending 0 = false
    ∧ ((sLoading (some .xmiss) .ok).core 0).loadMissed (load0 (some .xmiss)) = false
    ∧ bit (sLoading (some .interrupt) .ok).dbg.wanted 0 = false ∧ (sLoading (some .interrupt) .ok).halted 0 = false := by
  decide +kernel
theorem test_park : goes (exec (.tileLoadPark 0 .xmiss) (sLoading none .xmiss)) (fun t => t.reg Fd.tileResumePending 0 == 1
    && t.reg Fd.tileResumeTag 0 == 9) = true := by decide +kernel

/-- LDW of arrays 0 and 1, plane 1, from registers 4 and 5, checksums in register 8 (Table 8-4). -/
def wLdw : Cmd := word 0x10 ((4 * 2 ^ 11 + 63 * 2 ^ 5 + 7 * 4) * 2 ^ 80 + (8 * 2 ^ 11 + 31 * 2 ^ 5 + 7 * 4) * 2 ^ 64 + 3 * 2 ^ 60 + 2 ^ 58)
/-- A PASS of one beat of INT4 over register 2, array 0, plane 0, bank 0, with ZERO (Table 8-5). -/
def wPass : Cmd := word 0x11 (2 ^ 100 + 1 * 2 ^ 92 + (2 * 2 ^ 11 + 3 * 4) * 2 ^ 40 + (2 * 2 ^ 11 + 3 * 4) * 2 ^ 24)
/-- A DRAIN of four rows into register 3 from array 0, bank 0, slot 0 (Table 8-6). -/
def wDrain : Cmd := word 0x13 ((3 * 2 ^ 11 + 3 * 2 ^ 5 + 7 * 4) * 2 ^ 80)
theorem wit_ArrayCommandsLoadDrainComplete_ready : (runs .mx [wLdw]).Ready 0 .mx run0 (head0 wLdw)
    ∧ (runs .mx [wDrain]).Ready 0 .mx run0 (head0 wDrain) ∧ (runs .mx [wPass]).Ready 0 .mx run0 (head0 wPass) :=
  ⟨ready_of (by decide +kernel), ready_of (by decide +kernel), ready_of (by decide +kernel)⟩
theorem wit_ArrayCommandsLoadDrainComplete : ldwReason (runs .mx [wLdw]) run0 (head0 wLdw) = none
    ∧ ((runs .mx [wLdw]).core 0).latch0 = none ∧ arraysOf (cf wLdw 63 60) = [0, 1]
    ∧ drainReason 0 (runs .mx [wDrain]) run0 (head0 wDrain) = none ∧ drainBusy 0 (runs .mx [wDrain]) run0 (head0 wDrain) = false
    ∧ passReason 0 (runs .mx [wPass]) run0 (head0 wPass) = none
    ∧ opcodeOf wLdw = 0x10 ∧ opcodeOf wDrain = 0x13 ∧ opcodeOf wPass = 0x11 := by decide +kernel
theorem wit_ArrayCommandsLoadDrainComplete_inv : (runs .mx [wLdw]).Inv ∧ (runs .mx [wDrain]).Inv ∧ (runs .mx [wPass]).Inv :=
  ⟨inv_of (by decide +kernel), inv_of (by decide +kernel), inv_of (by decide +kernel)⟩
def pass0 : PassFlight := { cmd := wPass, ticket := 0, outs := [], poison := false }
def sPassing : State := runs .mx [] fun c => { c with passes := [pass0] }
theorem wit_ArrayCommandsLoadDrainComplete_pass : sPassing.Inv ∧ sPassing.alive = true ∧ (sPassing.core 0).run.isSome = true
    ∧ (sPassing.core 0).passes = [pass0] ∧ pass0.fails = [] := ⟨inv_of (by decide +kernel), by decide +kernel⟩
theorem test_passComplete : goes (exec (.passComplete 0) sPassing) (fun t => t.reg Fd.mxPassesPasses 0 == 1
    && t.reg Fd.mxBeatsBeats 0 == 1) = true := by decide +kernel
/-- Plane 0 of array 0 is loaded. -/
def sPass : State := runs .mx [wPass] fun c => { c with planes := [(0, { loaded := true })] }
theorem wit_ArrayCommandsLoadDrainComplete_issue : sPass.Inv ∧ sPass.Ready 0 .mx run0 (head0 wPass)
    ∧ passReason 0 sPass run0 (head0 wPass) = none ∧ passBusy 0 sPass run0 (head0 wPass) = false
    ∧ passBusy 0 (runs .mx [wPass]) run0 (head0 wPass) = true :=
  ⟨inv_of (by decide +kernel), ready_of (by decide +kernel), by decide +kernel⟩
theorem test_passWaits : goes (exec (.pass 0 {}) (runs .mx [wPass])) (fun t => (t.core 0).mx.stream == [wPass]
    && (t.core 0).passes == []) = true := by decide +kernel
theorem wit_PassAccumulatesProducts : (sPass.core 0).latch1 = none ∧ (passF wPass).src = false
    ∧ (passF wPass).scaled = false ∧ (passF wPass).fold = 0 ∧ (passF wPass).camel = 0 ∧ (passF wPass).two = false
    ∧ 0 ∈ arraysOf (passF wPass).mask ∧ (passF wPass).beats = 1 := by decide +kernel

/-- A VRUN whose descriptor stands at partition offset 0: n0 elements of A at 128 pass to O at 192, both INT32. -/
def wVrun : Cmd := word 0x20
def vrunCells (n0 : Byte) : List Host.Cell :=
  (if n0 = 0 then [] else [(0, n0)]) ++ [(2, 1), (4, 1), (6, 1), (32, 128), (45, 1), (46, 0x10), (64, 7), (65568, 192), (65581, 1), (65582, 0x10)]
def sVrun (n0 : Byte) : State := { runs .vx [wVrun] with spads := [(0, ⟨vrunCells n0, []⟩)] }
theorem wit_VrunWritesItsSinks_ready : (sVrun 1).Inv ∧ (sVrun 1).Ready 0 .vx run0 (head0 wVrun)
    ∧ (sVrun 0).Inv ∧ (sVrun 0).Ready 0 .vx run0 (head0 wVrun) :=
  ⟨inv_of (by decide +kernel), ready_of (by decide +kernel), inv_of (by decide +kernel), ready_of (by decide +kernel)⟩
theorem wit_VrunWritesItsSinks : vrunReason 0 (sVrun 1) run0 (head0 wVrun) = none
    ∧ vrunReason 0 (sVrun 0) run0 (head0 wVrun) = none ∧ popPoison (sVrun 1) 0 (head0 wVrun) = false
    ∧ (sVrun 1).spGood 0 1 (cf wVrun 87 64) 128 = true ∧ ((sVrun 0).vdesc 0 1 wVrun).total = 0
    ∧ ((sVrun 1).vdesc 0 1 wVrun).total = 1
    ∧ (sVrun 1).firstFail 0 1 ((sVrun 1).vdesc 0 1 wVrun) ((sVrun 1).vxElems 0 1 ((sVrun 1).vdesc 0 1 wVrun)) 0 = none
    ∧ granulesOf (vrunWrites (sVrun 1) 0 1 ((sVrun 1).vdesc 0 1 wVrun)) = [3]
    ∧ 192 < (sVrun 1).partSize 0 1 ∧ ((sVrun 1).spGran 0 1 192).syn = 0 := by decide +kernel
theorem test_vrun : goes (exec (.vrun 0 {}) (sVrun 1)) (fun t => t.spRead 0 1 192 4 == [7, 0, 0, 0]) = true := by decide +kernel

/-! ### Numeric formats (R118, R141, R151) -/
theorem test_bfb : ((encBfb [{ v := .fin false 1 0 }, { v := .fin true 1 (-1) }]).1, (encBfb [{ v := .fin false 1 0 },
    { v := .fin true 1 (-1) }]).2.map (·.code)) = (127, [16384, 65536 - 8192]) := by decide +kernel
theorem test_bfbNan : ((encBfb [{ v := .nan }, { v := .fin false 1 0 }]).1, (encBfb [{ v := .nan }, { v := .fin false 1 0 }]).2.map
    (·.code)) = (255, [0, 0]) := by decide +kernel
theorem test_saturated : (encElem 0xC false { v := .nan, sat := some true }).code = 32768
    ∧ (encElem 0xC false { v := .nan, sat := some true }).sat = true := by decide +kernel
theorem test_argmax : reduceRow 0 4 [0x80000000, 0] = 1 ∧ reduceRow 0 5 [0, 0x80000000] = 1 := by decide +kernel

/-! ### The rate of the trace unit (R416) -/
theorem test_traced : (let d := (List.range 4).foldl (fun d k => Debug.tracedOne d (2 ^ 20) 9 3 k) {}
    (({ State.reset with dbg := d, tb := { State.reset.tb with now := 9 } } : State).tracedIn 3,
     ({ State.reset with dbg := d, tb := { State.reset.tb with now := 9 } } : State).tracedIn 4,
     ({ State.reset with dbg := d, tb := { State.reset.tb with now := 10 } } : State).tracedIn 3, d.ringPos)) = (4, 0, 0, 128) := by
  decide +kernel

/-! ### Witnesses: far reads and writes -/

def wWwait (n : Nat) : Cmd := word 0x42 (n * 2 ^ 64)
def wArrw (n : Nat) : Cmd := word 0x46 (n * 2 ^ 32)
/-- One or two entries of wadi 0 to partition offset 128. -/
def wWmov (n : Nat) : Cmd := word 0x43 (128 * 2 ^ 64 + n * 2 ^ 55)
/-- The descriptor at partition offset 0. -/
def wWpost : Cmd := word 0x41
/-- Core 0 runs with w at the head of DX, one present entry in wadi 0, and bytes in its partition. -/
def sDx (w : Cmd) (cells : List Host.Cell) : State :=
  { (Eff.core 0 { ctx := some 1, prev := some 1, run := some run0, dx := { stream := [w] }, wadis := [(0, [ent0 true])] }).apply
      (owned {}) with spads := [(0, ⟨cells, []⟩)] }
/-- A WPOST descriptor of two or of 256 entries of 64 bytes, 64 apart. -/
def post2 : List Host.Cell := [(8, 64), (12, 2), (14, 1)]
def post256 : List Host.Cell := [(8, 64), (13, 1), (14, 1)]
theorem wit_WadiCommandsPostWaitMove_ready : ∀ x ∈ [(wWwait 1, []), (wWwait 2, []), (wArrw 0, []), (wArrw 64, []),
    (wWmov 1, []), (wWmov 2, []), (wWpost, []), (wWpost, post2), (wWpost, post256)],
    (sDx x.1 x.2).Inv ∧ (sDx x.1 x.2).Ready 0 .dx run0 (head0 x.1) ∧ dxReason 0 (sDx x.1 x.2) run0 (head0 x.1) = none := by
  intro x hx
  simp only [List.mem_cons, List.not_mem_nil, or_false] at hx
  rcases hx with rfl | rfl | rfl | rfl | rfl | rfl | rfl | rfl | rfl <;>
    exact ⟨inv_of (by decide +kernel), ready_of (by decide +kernel), by decide +kernel⟩
theorem wit_WadiCommandsPostWaitMove : presentHead [ent0 true] = 1 ∧ cf (wWwait 2) 72 64 = 2 ∧ cf (wWmov 2) 63 55 = 2
    ∧ ((sDx (wWmov 1) []).part 0 1).1 + ((sDx (wWmov 1) []).part 0 1).2 ≤ 48 ∧ (ent0 true).bad = false
    ∧ (((ent0 true).grans.map (·.data)).flatten.take (ent0 true).len).length = 64
    ∧ (sDx wWpost post2).spGood 0 1 (cf wWpost 87 64) 64 = true ∧ ((sDx wWpost post2).core 0).load = none
    ∧ (postDesc ((sDx wWpost []).spRead 0 1 (cf wWpost 87 64) 64)).n = 0
    ∧ (postDesc ((sDx wWpost post2).spRead 0 1 (cf wWpost 87 64) 64)).n = 2
    ∧ (postDesc ((sDx wWpost post256).spRead 0 1 (cf wWpost 87 64) 64)).n = 256 := by decide +kernel
theorem test_wpost : goes (exec (.wpost 0 {}) (sDx wWpost post2)) (fun t => ((t.core 0).wadi 0).length == 3
    && (((t.core 0).wadi 0).getD 2 (ent0 true)).addr == 64) = true := by decide +kernel
theorem test_wmov : goes (exec (.wmov 0 {}) (sDx (wWmov 1) [])) (fun t => t.spRead 0 1 128 2 == [5, 5]
    && (t.core 0).wadi 0 == []) = true := by decide +kernel
theorem test_wwait : goes (exec (.wwait 0 {}) (sDx (wWwait 2) [])) (fun t => (t.core 0).dx.wait.isSome) = true := by
  decide +kernel

/-- A chain of one local descriptor: 64 bytes from offset 256 to 512. -/
def wDma : Cmd := word 0x40
def dma1 : List Host.Cell := [(1, 1), (9, 2), (16, 64), (20, 1), (128, 7)]
def desc1 : DmaDesc := { src := 256, dst := 512, len := 64, nrows := 1, sstride := 0, dstride := 0, more := false, skf := 0,
                         skew := false, dglobal := false, sglobal := false, ncu := 0 }
def chain0 : Dma := { cmd := wDma, ticket := 0, outs := [], poison := false, descs := [] }
def sChain : State := runs .dx [] fun c => { c with dmas := [(0, some chain0)] }
theorem wit_DmaCopiesAndCompletes : (sDx wDma dma1).Inv ∧ (sDx wDma dma1).Ready 0 .dx run0 (head0 wDma) ∧ sChain.Inv :=
  ⟨inv_of (by decide +kernel), ready_of (by decide +kernel), inv_of (by decide +kernel)⟩
theorem wit_DmaCopiesAndCompletes_chain : opcodeOf wDma = 0x40 ∧ dxReason 0 (sDx wDma dma1) run0 (head0 wDma) = none
    ∧ ((sDx wDma dma1).core 0).dma 0 = none ∧ (sDx wDma dma1).chainAt 0 1 8 (cf wDma 87 64) = some [desc1]
    ∧ (sDx wDma dma1).spGood 0 1 (cf wDma 87 64) 64 = true ∧ desc1.overlaps = false
    ∧ popPoison (sDx wDma dma1) 0 (head0 wDma) = false
    ∧ (sDx wDma dma1).spGood 0 1 (desc1.srcAt 0).toNat 64 = true ∧ (sDx wDma dma1).spGood 0 1 (desc1.dstAt 0).toNat 64 = true
    ∧ sChain.alive = true ∧ (sChain.core 0).dma 0 = some chain0 ∧ chain0.settled = true := by decide +kernel
theorem test_dma : goes (exec (.dma 0 {}) (sDx wDma dma1)) (fun t => t.spRead 0 1 512 2 == [7, 0]) = true := by decide +kernel
theorem test_dmaComplete : goes (exec (.dmaComplete 0 0) sChain) (fun t => (t.core 0).dma 0 == none) = true := by decide +kernel

/-- MRD of the line at the pointer of partition offset 0, to offset 64; ACQ of everything. -/
def wMrd : Cmd := word 0x44 (64 * 2 ^ 64)
def wAcq : Cmd := word 0x45 (2 ^ 96)
def line0 : McLine := { addr := 0, ctx := 1, gran := ⟨List.replicate 64 3, 0⟩, used := 0 }
def sMrd (w : Cmd) (l : List McLine) : State := runs .dx [w] fun c => { c with mcache := l }
theorem wit_LineCommandsAndLsend_ready : ∀ x ∈ [(wMrd, [line0]), (wMrd, []), (wAcq, [line0])],
    (sMrd x.1 x.2).Inv ∧ (sMrd x.1 x.2).Ready 0 .dx run0 (head0 x.1) ∧ dxReason 0 (sMrd x.1 x.2) run0 (head0 x.1) = none := by
  intro x hx
  simp only [List.mem_cons, List.not_mem_nil, or_false] at hx
  rcases hx with rfl | rfl | rfl <;> exact ⟨inv_of (by decide +kernel), ready_of (by decide +kernel), by decide +kernel⟩
theorem wit_LineCommandsAndLsend : ((sMrd wMrd [line0]).core 0).line 1 ((sMrd wMrd [line0]).mrdLine 0 1 wMrd) = some line0
    ∧ line0.gran.syn = 0 ∧ ((sMrd wMrd []).core 0).line 1 ((sMrd wMrd []).mrdLine 0 1 wMrd) = none
    ∧ ((sMrd wMrd []).core 0).mrds.length < 8 ∧ (sMrd wMrd []).spGood 0 1 (cf wMrd 63 40) 8 = true ∧ cf wAcq 96 96 = 1
    ∧ opcodeOf wMrd = 0x44 ∧ opcodeOf wAcq = 0x45 := by decide +kernel
theorem test_mrd : goes (exec (.mrd 0 {}) (sMrd wMrd [line0])) (fun t => t.spRead 0 1 64 2 == [3, 3]
    && t.reg Fd.mcHitsHits 0 == 1) = true := by decide +kernel
theorem test_acq : goes (exec (.acq 0 {}) (sMrd wAcq [line0])) (fun t => (t.core 0).mcache == []) = true := by decide +kernel
def mrd0 : Mrd := { cmd := wMrd, ticket := 0, outs := [], poison := false, rid := 4, line := 0, dst := 64 }
def msgFill : Msg := ⟨32, 0, 0, .reply 4 .ok [⟨zeros 64, 0⟩]⟩
def sFill : State := { runs .dx [] fun c => { c with mrds := [mrd0] } with msgs := [msgFill] }
theorem wit_LineCommandsAndLsend_fill : sFill.alive = true ∧ sFill.nextReply 0 1 = some msgFill
    ∧ (sFill.core 0).mrdOf 4 = some mrd0 ∧ (sFill.core 0).runCtx = 1 ∧ mrd0.dst + 64 ≤ sFill.partSize 0 1 := by decide +kernel
theorem wit_LineCommandsAndLsend_fillInv : sFill.Inv := inv_of (by decide +kernel)

/-- LSEND of 64 bytes (or none) at offset 256 to core 0 of another package; one of packages 1 and 2 is another. -/
def wLsend : Cmd := word 0x47
def lsendCells (p len : Nat) : List Host.Cell :=
  [(1, 1), (14, BitVec.ofNat 8 (16 * p))] ++ (if len = 0 then [] else [(16, 64)]) ++ [(20, 1)]
def sLsend (p len st : Nat) : State :=
  (Eff.reg Fd.linkStatusRev 0 3).apply <| (Eff.reg Fd.linkStatusTxWidth 0 20).apply <| (Eff.reg Fd.linkStatusState 0 st).apply <|
    (Eff.reg Fd.routeAValid 1 1).apply <| (Eff.reg Fd.routeAValid 2 1).apply (sDx wLsend (lsendCells p len))
theorem lsendReason_of {n : Nat} {s : State} {r : Running} {h : Head} (h1 : dxReserved h.cmd = 0)
    (h2 : (decide (cf h.cmd 87 64 % 64 ≠ 0) || decide (s.partSize n r.parcel.ctx < cf h.cmd 87 64 + 64)) = false)
    (h3 : ((s.lsendDesc n r.parcel.ctx h.cmd).2
      && s.lsendOk n r.parcel.ctx (lsendBundle h.cmd) (s.lsendDesc n r.parcel.ctx h.cmd).1) = true)
    (h4 : lsendRsv h.cmd = false) : lsendReason n s r h = none := by
  simp only [lsendReason, h1, h2, h4, h3]
  rfl
theorem wit_LineCommandsAndLsend_lsend : ∀ p ∈ [1, 2], ∀ len ∈ [0, 64], ∀ st ∈ [0, 3, 6], Config.pkg.val ≠ p →
    (sLsend p len st).Inv ∧ (sLsend p len st).Ready 0 .dx run0 (head0 wLsend)
    ∧ lsendReason 0 (sLsend p len st) run0 (head0 wLsend) = none := by
  intro p hp len hl st hs hc
  simp only [List.mem_cons, List.not_mem_nil, or_false] at hp hl hs
  have ok : ∀ d : DmaDesc, dstPkg d.dst = p →
      (!d.sglobal && !d.dglobal && decide (d.ncu = 0) && decide (d.len ≤ 3145728) && sideOk false d.src d.len d.sstride
        && (decide (d.len = 0) || (List.range d.nrows).all fun r => inPart ((sLsend p len st).partSize 0 1) (d.srcAt r) d.len)
        && ((sLsend p len st).routeOn 0 (dstPkg d.dst)).isSome && decide (dstOff d.dst * 64 + d.total ≤ 2 ^ 22)
        && decide (bits d.dst 26 0 = 0) && (decide (d.nrows ≤ 1) || decide (d.dstride = (d.len : Nat))) && d.skewOk) = true →
      (sLsend p len st).lsendOk 0 1 0 d = true := by
    intro d hd hh
    simp only [Bool.and_eq_true] at hh
    obtain ⟨⟨⟨⟨⟨⟨⟨⟨⟨⟨a, b⟩, c⟩, d'⟩, e⟩, f⟩, g⟩, i⟩, j⟩, k⟩, m⟩ := hh
    simp only [State.lsendOk, Bool.and_eq_true]
    exact ⟨⟨⟨⟨⟨⟨⟨⟨⟨⟨⟨a, b⟩, c⟩, d'⟩, e⟩, f⟩, by rw [hd]; simpa using fun h => hc h.symm⟩, g⟩, i⟩, j⟩, k⟩, m⟩
  rcases hp with rfl | rfl <;> rcases hl with rfl | rfl <;> rcases hs with rfl | rfl | rfl <;>
    exact ⟨inv_of (by decide +kernel), ready_of (by decide +kernel), lsendReason_of (by decide +kernel) (by decide +kernel)
      (by rw [Bool.and_eq_true]; exact ⟨by decide +kernel, ok _ (by decide +kernel) (by decide +kernel)⟩) (by decide +kernel)⟩
theorem wit_LineCommandsAndLsend_states : ([1, 2].all fun p => [0, 3, 6].all fun st =>
      (sLsend p 64 st).linkSt 0 == st && ((sLsend p 64 st).lsendDesc 0 1 wLsend).1.total == 64
        && ((sLsend p 0 st).lsendDesc 0 1 wLsend).1.total == 0 && (sLsend p 64 st).txGrans 0 != 0
        && (tabGet [] ((sLsend p 64 st).link 0).staged (stageKey false 1)).length < 2 && (sLsend p 64 st).flights 0 == []
        && !lsendBusy (sLsend p 64 st) run0 (head0 wLsend) ((sLsend p 64 st).core 0).dx
        && (sLsend p 64 st).spGood 0 1 (cf wLsend 87 64) 64) = true ∧ opcodeOf wLsend = 0x47 := by decide +kernel

/-- A reserved LSEND whose deadline, grain 5, has passed; its context has the slot of grain 12 on link 0. -/
def wRsv : Cmd := word 0x47 (2 ^ 95)
def wBoth : Cmd := word 0x01 (2 ^ 97 + 2 ^ 96 + 5 * 2 ^ 64 + 5 * 2 ^ 32)
def sDefer : State :=
  { (Eff.reg Fd.slotEntryOwners 12 2).apply <| (Eff.reg Fd.routeAValid 1 1).apply (sDx wRsv (lsendCells 1 64)) with
    tb := { now := 10 } }
def sDefer' : State := (Eff.core 0 { sDefer.core 0 with dx := { stream := [wRsv], grain := some wBoth } }).apply sDefer
theorem wit_HeldHeadsIssueAndMisses_defer : sDefer'.Inv ∧ sDefer'.Ready 0 .dx run0 ⟨some wBoth, wRsv, none, []⟩
    ∧ deadlineGrain run0 (sDefer'.core 0).dx (some wBoth) = some 5 ∧ sDefer'.late 5 = true ∧ opcodeOf wRsv = 0x47
    ∧ lsendRsv wRsv = true ∧ (hardOf wRsv && run0.t4) = false ∧ sDefer'.nextSlot 0 1 wRsv = some 12 :=
  ⟨inv_of (by decide +kernel), ready_of (by decide +kernel), by decide +kernel⟩

theorem test_deferred : goes (exec (.deadlineMissed 0 .dx) sDefer') (fun t => (t.core 0).dx.moved == some 12
    && (t.core 0).dx.missed == some 5 && t.reg Fd.coreGrainMissMissed 0 == 0) = true := by decide +kernel

/-- Wadi 0 waits for read 4; the reply is good, stale, or a miss. -/
def ent4 : WadiEnt := { ent0 false with srcs := [(4, 0)], grans := [], base := 0, tag := 9 }
def msg4 (inc : Nat) (st : FarStatus) : Msg := ⟨32, 0, inc, .reply 4 st [⟨zeros 64, 0⟩]⟩
def sReplyTo (inc : Nat) (st : FarStatus) : State :=
  { runs .dx [] fun c => { c with wadis := [(0, [ent4])], wadiOut := [4] } with msgs := [msg4 inc st] }
theorem wit_RepliesFillAndMiss : (sReplyTo 0 .ok).alive = true ∧ ((sReplyTo 0 .ok).core 0).dx.wait = none
    ∧ ((sReplyTo 0 .ok).core 0).load = none ∧ (sReplyTo 0 .ok).nextReply 0 0 = some (msg4 0 .ok)
    ∧ ((sReplyTo 0 .ok).core 0).wadiOf 4 = some 0 ∧ (sReplyTo 1 .ok).nextReply 0 0 = some (msg4 1 .ok)
    ∧ (1 : Nat) ≠ (sReplyTo 1 .ok).coreInc 0 ∧ (sReplyTo 0 .xmiss).nextReply 0 2 = some (msg4 0 .xmiss)
    ∧ ((sReplyTo 0 .xmiss).core 0).wadiOf 4 = some 0 ∧ ((sReplyTo 0 .xmiss).core 0).missAt 0 = none := by decide +kernel
theorem test_wadiReply : goes (exec (.wadiReply 0 {}) (sReplyTo 0 .ok)) (fun t => presentHead ((t.core 0).wadi 0) == 1) = true := by
  decide +kernel
def entX : WadiEnt := { ent4 with status := .xmiss, srcs := [] }
def mrdX : Mrd := { mrd0 with missAt := some 0 }
def sMissed : State :=
  { runs .dx [] fun c => { c with wadis := [(0, [entX])], mrds := [mrdX] } with tb := { now := 2 ^ 21 } }
theorem wit_RepliesFillAndMiss_miss : sMissed.alive = true ∧ (sMissed.core 0).missAt 0 = some 0
    ∧ ((sMissed.core 0).wadi 0)[0]? = some entX ∧ elapsed sMissed.tb.now 0 (sMissed.xmissLimit 0) = true
    ∧ (sMissed.core 0).mrds.find? (fun m => match m.missAt with
        | some g => elapsed sMissed.tb.now g (sMissed.xmissLimit 0)
        | none => false) = some mrdX
    ∧ (sMissed.core 0).run.isSome = true ∧ (sMissed.core 0).runCtx = 1 ∧ touchesPage 0 entX.missed (readBytes entX.ncu entX.len) = true
    ∧ entX.len ≠ 0 := by
  decide +kernel
theorem test_xmissLimit : goes (exec (.xmissLimit 0 (.wadi 0) {}) sMissed) (fun t =>
    (((t.core 0).wadi 0).getD 0 ent4).status == .error) = true := by decide +kernel

/-- Write 3 of core 0 is unacknowledged, and an add waits for it. -/
def flight3 : SxFlight :=
  { id := 5, cmd := 0, ticket := 0, outs := [], poison := false, op := .add 1024 2, vid := 7, waits := [3], since := 0 }
def sUnacked (b : Body) : State :=
  { runs .dx [] fun c => { c with outW := [{ id := 3, tag := 9, ch := 0, ctx := 1 }], sxOps := [flight3] } with
    msgs := [⟨1, 0, 0, b⟩] }
theorem wit_WritesAreAnswered : (sUnacked (.ack 3 0)).alive = true ∧ (sUnacked (.ack 3 0)).arrival 0 isAck = some ⟨1, 0, 0, .ack 3 0⟩
    ∧ ((sUnacked (.ack 3 0)).core 0).outW.find? (·.id = 3) = some { id := 3, tag := 9, ch := 0, ctx := 1 }
    ∧ ((sUnacked (.ack 3 0)).core 0).injectQ = [] ∧ (sUnacked (.ack 3 0)).coreInc 0 = 0
    ∧ (sUnacked (.refusal 3)).arrival 0 isRefusal = some ⟨1, 0, 0, .refusal 3⟩ := by decide +kernel
theorem test_refusal : goes (exec (.refusalNotice ⟨0, [], 0⟩) (sUnacked (.refusal 3))) (fun t => t.reg Fd.ordAckErrLastTag 0 == 9
    && (t.core 0).outW == []) = true := by decide +kernel
def writer0 : Writer := { pkg := 1, inst := 2, ctx := 3, score := 0 }
def pkt0 : Pkt := { id := 3, tag := 9, ctx := 3, ch := 0, addr := 0, ncu := 0, grans := [⟨List.replicate 64 6, 0⟩] }
def oasis0 : Oasis := { isOpen := true, ctx := 1, id := 0, gbase := 0, pbase := 64, len := 128, writers := [(1, 2, 3, false, 0)] }
def msgW : Msg := ⟨1, 0, 0, .write writer0 0 pkt0⟩
def sInbound (on : Nat) (l : Tab Oasis) : State :=
  { (Eff.reg Fd.corePwrStReady 0 on).apply (runs .dx [] fun c => { c with oases := l }) with msgs := [msgW] }
theorem wit_WritesAreAnswered_inbound : (sInbound 0 []).arrival 0 isWrite = some msgW ∧ (sInbound 0 []).coreGone 0 = true
    ∧ (sInbound 1 []).coreGone 0 = false ∧ (sInbound 1 []).oasisFor 0 0 64 writer0 false 0 = none
    ∧ (sInbound 1 [(0, oasis0)]).coreGone 0 = false ∧ ((sInbound 1 [(0, oasis0)]).core 0).dx.wait = none
    ∧ ((sInbound 1 [(0, oasis0)]).part 0 1).1 + ((sInbound 1 [(0, oasis0)]).part 0 1).2 ≤ 48
    ∧ 64 + 64 ≤ (sInbound 1 [(0, oasis0)]).partSize 0 1 := by decide +kernel
theorem wit_WritesAreAnswered_oasis : (sInbound 1 [(0, oasis0)]).oasisFor 0 0 64 writer0 false 0 = some 0 := by
  unfold State.oasisFor
  rw [show ((sInbound 1 [(0, oasis0)]).core 0).oasisAt 0 64 = some 0 from by decide +kernel]
  have p : oasis0.permits writer0 false 0 = true := by simp [Oasis.permits, oasis0, writer0]
  have e : tabGet {} ((sInbound 1 [(0, oasis0)]).core 0).oases 0 = oasis0 := by decide +kernel
  have b : ((sInbound 1 [(0, oasis0)]).banksOf 0 1 64 64).any ((sInbound 1 [(0, oasis0)]).core 0).bankBusy = false := by
    decide +kernel
  simp only [e, p]
  rw [show oasis0.pbase + 0 - oasis0.gbase = 64 from rfl, show oasis0.ctx = 1 from rfl, b]
  rfl
/-- The packet has taken its oasis, and its one granule waits for its bank. -/
def landing0 : Landing := { src := 1, inc := 0, by_ := writer0, off := 0, pkt := pkt0, slot := 0, left := [0] }
def sLanding : State := (Eff.core 0 { (sInbound 1 [(0, oasis0)]).core 0 with landing := [landing0] }).apply (sInbound 1 [(0, oasis0)])
theorem wit_WritesAreAnswered_landing : ((sInbound 1 [(0, oasis0)]).core 0).landing = [] ∧ (0 < pkt0.grans.length ∧ 0 ∈ [0])
    ∧ (sLanding.core 0).landing = [landing0] ∧ landing0.src < 32 ∧ (sLanding.core 0).dx.wait = none ∧ sLanding.alive = true := by
  decide +kernel
theorem test_inbound : (match exec (.inboundWritePacket 0 0 ⟨0, []⟩) (sInbound 1 []) with
    | .next t => t.msgs == [⟨0, 1, 0, .refusal 3⟩] && t.reg Fd.spRefusedRefused 0 == 1 | _ => false) = true := by decide +kernel
theorem wit_WritesAreAnswered_inv : (sInbound 0 []).Inv ∧ (sInbound 1 []).Inv ∧ (sInbound 1 [(0, oasis0)]).Inv :=
  ⟨inv_of (by decide +kernel), inv_of (by decide +kernel), inv_of (by decide +kernel)⟩

/-! ### Witnesses: ports -/

def read0 : StnRead := { rtag := 1, dest := .core 0 0 4, ctx := 1, cls := 0, addr := 64, ngr := 1, ord := 0, ckvReq := false }
def write0 : StnWrite := { rtag := 2, dest := .packet 0 0 3, ctx := 1, cls := 0, addr := 128, grans := [⟨List.replicate 64 6, 0⟩], ord := 1 }
/-- Station 0 is ready, with one read and one write under way. -/
def sStn : State :=
  (Eff.stn 0 { rdCred := 60, wrCred := 60, reads := [read0], writes := [write0] }).apply <|
    (Eff.reg Fd.mpStnCreditRd 0 64).apply <| (Eff.reg Fd.mpStnCreditWr 0 64).apply <| (Eff.reg Fd.mpStnStatusReady 0 1).apply opened
theorem wit_StationsAnswer : opened.alive = true ∧ (opened.stn 0).waiting = [] ∧ opened.reg Fd.mpStnStatusReady = 0
    ∧ sStn.alive = true ∧ (sStn.stn 0).waiting = [] ∧ sStn.reg Fd.mpStnStatusReady = 1
    ∧ (sStn.stn 0).rdCred + 4 ≤ sStn.reg Fd.mpStnCreditRd ∧ (sStn.stn 0).wrCred + 4 ≤ sStn.reg Fd.mpStnCreditWr
    ∧ (3 : BitVec 8).toNat ≠ sStn.portIncOf (incStn 0) ∧ (0 : BitVec 8).toNat = sStn.portIncOf (incStn 0)
    ∧ (sStn.stn 0).reads.find? (fun r => r.rtag = 1) = some read0
    ∧ read0.dest = .core 0 0 4 ∧ (∀ i, i < read0.ngr → (sStn.stn 0).wanting read0.ord (read0.addr / 64 + i) = [])
    ∧ (sStn.stn 0).writes.find? (fun w => w.rtag = 2) = some write0 ∧ write0.dest = .packet 0 0 3 ∧ write0.done = []
    ∧ write0.addr % 64 = 0 ∧ write0.addr + 64 * write0.grans.length ≤ gmSize
    ∧ (∀ i, i < write0.grans.length → (sStn.stn 0).wanting write0.ord (write0.addr / 64 + i) = []) := by decide +kernel
/-- The write reached the station before the read of the same granule. -/
def write1 : StnWrite := { write0 with addr := 64, ord := 0 }
def read1 : StnRead := { read0 with ord := 1 }
def sStnOrd : State := (Eff.stn 0 { sStn.stn 0 with reads := [read1], writes := [write1] }).apply sStn
theorem wit_StationsAnswer_order : sStnOrd.alive = true ∧ (sStnOrd.stn 0).reads.find? (fun r => r.rtag = 1) = some read1
    ∧ (0 : BitVec 8).toNat = sStnOrd.portIncOf (incStn 0) ∧ read1.got = [] ∧ read1.ngr = 1 ∧ read1.addr < gmSize
    ∧ (sStnOrd.stn 0).wanting read1.ord (read1.addr / 64) = [.write write1]
    ∧ write1.grans[read1.addr / 64 - write1.addr / 64]? = some ⟨List.replicate 64 6, 0⟩ := by decide +kernel
theorem wit_StationsAnswer_orderInv : sStnOrd.Inv := inv_of (by decide +kernel)
/-- The read answers what the write before it brought, though that has no acknowledgement yet (R253). -/
theorem test_rdataOrder : goes (exec (.rdata 0 1 0 .ok []) sStnOrd) (fun t => t.gbyte 64 == 6 && match t.msgs with
    | [⟨_, _, _, .reply 4 .ok [g]⟩] => g.data == List.replicate 64 6
    | _ => false) = true := by decide +kernel
theorem wit_StationsAnswer_inv : sStn.Inv := inv_of (by decide +kernel)
theorem test_wack : goes (exec (.wack 0 2 0 true) sStn) (fun t => t.gbyte 128 == 6 && t.gbyte 192 == 0
    && t.msgs == [⟨nodeStn 0, 0, 0, .ack 3 0⟩]) = true := by decide +kernel
theorem test_rdata : goes (exec (.rdata 0 1 0 .xmiss []) sStn) (fun t => t.msgs.length == 1 && (t.stn 0).reads == []) = true := by
  decide +kernel

/-- Module 0 is in its link state; every cluster is reached through it; core 0 waits for a write to cluster 3. -/
def sMod : State :=
  (Eff.mod 0 { trained := true }).apply <| (Eff.reg Fd.npRouteEnEn 0 0xFFFF).apply
    (runs .dx [] fun c => { c with outW := [{ id := 3, tag := 9, ch := 0, ctx := 1, dinst := some 3 }] })
def elsewhere : Fin 16 := if Config.inst = 0 then 1 else 0
def fHere : NFrame := { frame0 with dinst := Config.inst, sinst := 3, tag := 9, body := [5, 0, 1] ++ zeros 13 }
theorem elsewhere_ne : elsewhere ≠ Config.inst := by
  unfold elsewhere
  split
  · next h => rw [h]; decide
  · next h => exact fun e => h e.symm
theorem wit_ModulesTakeFrames : sMod.alive = true ∧ sMod.modUp 0 = true ∧ (sMod.mod 0).rxSeq = 0 ∧ sMod.route 0 = some 0
    ∧ sMod.route 1 = some 0 ∧ sMod.portIncOf (incMod 0) = 0 ∧ (sMod.remotePkt 0 9 3 0).isSome = true ∧ (sMod.mod 0).owed = 0 ∧ (sMod.mod 0).waiting = []
    ∧ opened.modUp 0 = false := by decide +kernel
theorem wit_ModulesTakeFrames_frames : fHere.dinst = Config.inst ∧ fHere.crcOk = true ∧ fHere.seq.toNat = 0
    ∧ leAt fHere.body 2 1 = 1 ∧ leAt fHere.body 3 1 < 2 ∧ leAt fHere.body 0 2 < 4096
    ∧ ({ fHere with dinst := elsewhere } : NFrame).dinst ≠ Config.inst := ⟨rfl, by decide +kernel, by decide +kernel, by decide +kernel,
  by decide +kernel, by decide +kernel, elsewhere_ne⟩
/-- Whichever modules the strap wires, module 0 is absent or not: either part of the statement has its module. -/
theorem wit_ModulesTakeFrames_wired : Config.nmod.val = 0 → absent 0 = true := fun h => by simp [absent, h]
theorem wit_ModulesTakeFrames_absent : Config.nmod.val ≠ 0 → absent 0 = false := fun h => by simp [absent, h]
def sRetrain : State := { (Eff.mod 0 { trained := true, retrain := some 0 }).apply opened with tb := { now := 5000 } }
/-- The module still holds a write of core 0 to core 0 of cluster 3. -/
def frameOut : NFrame := { frame0 with dinst := 3, sinst := Config.inst, tag := 9 }
def sRetrainOwing : State :=
  { (Eff.mod 0 { trained := true, retrain := some 0, waiting := [⟨1, frameOut, 1, false⟩] }).apply
      (runs .dx [] fun c => { c with outW := [{ id := 3, tag := 9, ch := 0, ctx := 1, dinst := some 3 }] }) with tb := { now := 5000 } }
theorem wit_ModulesTakeFrames_owing : (sRetrainOwing.mod 0).buffered = [⟨1, frameOut, 1, false⟩] ∧ frameOut.sinst = Config.inst
    ∧ frameOut.lsrc = none
    ∧ sRetrainOwing.remotePkt 0 9 3 0 = some { id := 3, tag := 9, ch := 0, ctx := 1, dinst := some 3 } :=
  ⟨rfl, rfl, rfl, rfl⟩
theorem wit_ModulesTakeFrames_timeout : (sRetrain.mod 0).retrain = some 0 ∧ elapsed sRetrain.tb.now 0 4096 = true
    ∧ sRetrain.alive = true := by decide +kernel

/-- Links 0 and 1 are ACTIVE at revision 2 with all features. TX slot 5 of link 0 is context 1's, RX slot 5 is FREE and RX
slot 6 is flow 0's, as is TX slot 70 of link 1. Every package is reached over link 1. -/
def sLink (now : Nat) (lk : Link := {}) : State :=
  let reg := fun (f : Fld) c v s => (Eff.reg f c v).apply s
  let s := [1, 2].foldl (fun s p => reg Fd.routeAValid p 1 (reg Fd.routeALink p 1 s)) (owned {})
  let s := [0, 1].foldl (fun s l => reg Fd.linkStatusState l 6 (reg Fd.linkFeatActActive l 0xFF (reg Fd.linkStatusRev l 2
    (reg Fd.linkStatusTxWidth l 20 s)))) s
  let s := reg Fd.slotEntryOwners 5 2 (reg Fd.slotEntryOwners (2048 + 6) 0x40 (reg Fd.slotEntryOwners 70 0x4000 s))
  let s := reg Fd.flowCfgValid 0 1 (reg Fd.flowCfgOutLink 0 1 (reg Fd.flowCfgLag 0 64 s))
  (Eff.link 0 lk).apply { s with tb := { now := now }, splitA := 2 }
def otherPkg : Fin 4096 := if Config.pkg = 1 then 2 else 1
theorem otherPkg_ne : otherPkg ≠ Config.pkg := by
  unfold otherPkg
  split
  · next h => rw [h]; decide
  · next h => exact fun e => h e.symm
def out0 : LOut := ⟨slot0, 2, []⟩
theorem wit_LinksCarryFrames : (sLink 64).alive = true ∧ (sLink 64).linkSt 0 = 6 ∧ ((sLink 64).link 0).lastSlot ≠ some 64
    ∧ (sLink 64).slotOwner 0 0 (64 % 1024) = 0xFF
    ∧ (sLink 5).slotOwner 0 0 (5 % 1024) = 2 ∧ ((sLink 5 { staged := [(1, [out0])] }).link 0).again = []
    ∧ (tabGet [] ((sLink 5 { staged := [(1, [out0])] }).link 0).staged 1).head? = some out0
    ∧ ((sLink 5 { synced := true }).link 0).synced = true ∧ ((sLink 5 { synced := true }).link 0).rxSeq = 0
    ∧ (sLink 5 { synced := true }).slotOwner 1 0 5 = 0 ∧ (sLink 5 { synced := true }).linkTo 1 = some 1
    ∧ (sLink 5 { synced := true }).linkTo 2 = some 1
    ∧ (sLink 5 { synced := true }).linkHas 0 4 = true ∧ (sLink 5 { synced := true }).linkHas 1 4 = true
    ∧ (sLink 5 { synced := true }).slotOwner 1 0 6 = 0x40 + 0 ∧ (sLink 5 { synced := true }).reg Fd.flowCfgValid 0 = 1
    ∧ (sLink 5 { synced := true }).reg Fd.flowCfgOutBundle 0 * 4 + (sLink 5 { synced := true }).reg Fd.flowCfgOutLink 0 = 1
    ∧ reached 5 (grainAdd 6 ((sLink 5 { synced := true }).reg Fd.flowCfgLag 0)) = false
    ∧ (sLink 5 { synced := true }).slotOwner 0 1 (70 % 1024) = 0x40 + 0
    ∧ ((Eff.reg Fd.slotEntryOwners 70 0).apply (sLink 5 { synced := true })).slotOwner 0 1 (70 % 1024) ≠ 0x40 + 0
    ∧ ((sLink 5 { synced := true }).link 1).fwdRsv = [] ∧ (sLink 5 { synced := true }).route 0 = none
    ∧ (sLink 5 { synced := true }).route 1 = none ∧ ({ sLink 5 with tb := { now := 5, limited := true } } : State).tb.limited = true
    ∧ out0.owner = 1 + 1
    ∧ 32768 ≤ ((0 : BitVec 16).toNat + 65536 - ((sLink 5 { synced := true, rxSeq := 9 }).link 0).rxSeq) % 65536 := by
  decide +kernel
theorem wit_LinksCarryFrames_frames : ({ slot0 with dpkg := Config.pkg, dinst := Config.inst } : LFrame).dpkg = Config.pkg
    ∧ ({ slot0 with dpkg := otherPkg } : LFrame).dpkg ≠ Config.pkg := ⟨rfl, otherPkg_ne⟩
theorem test_linkSlot : goes (exec (.linkSlot 0) (sLink 5 { staged := [(1, [out0])] })) (fun t => (t.link 0).kept.length == 1) = true := by
  decide +kernel
/-- Beyond the holdover limit the slot goes out EMPTY (R48). -/
theorem test_limited : goes (exec (.linkSlot 0) { sLink 5 { staged := [(1, [out0])] } with tb := { now := 5, limited := true } })
    (fun t => (t.link 0).kept == [] && (tabGet [] (t.link 0).staged 1).length == 1) = true := by decide +kernel
theorem test_old : goes (exec (.dataFrame 0 slot0) (sLink 5 { synced := true, rxSeq := 9 })) (fun t =>
    t.reg Fd.linkLostDiscard 0 == 1) = true := by decide +kernel

def sGroup (root : Nat) : State :=
  { sLink 5 with bars := [(0, { alloc := true, owner := 1, scope := 2, pkgInst := Config.inst, rootPkg := root,
                                expect := 2, members := 2 ^ Config.inst.val, root := { expect := 3 }, pkgNode := { expect := 1 } })] }
def sRing : State := { sLink 5 with recs := { baseSet := true } }
theorem wit_LinkMessagesAct : (sLink 5).linkHas 0 5 = true ∧ (0 : BitVec 8).toNat = (sLink 5).portIncOf incLport
    ∧ sRing.ringOpen 0 = true ∧ sRing.ringBase 0 % 64 = 0 ∧ sRing.ringBase 0 + 2 ^ 19 ≤ gmSize := by decide +kernel
theorem wit_LinkMessagesAct_inv : sRing.Inv := inv_of (by decide +kernel)
theorem wit_LinkMessagesAct_groups : (sGroup Config.pkg).linkHas 0 1 = true ∧ (sGroup Config.pkg).groupBar 0 = true
    ∧ (sGroup otherPkg).linkHas 0 1 = true ∧ (sGroup otherPkg).groupBar 0 = true := by decide +kernel
theorem wit_LinkMessagesAct_bars : ∀ root, ((sGroup root).bar 0).pkgInst = Config.inst.val ∧ ((sGroup root).bar 0).rootPkg = root
    ∧ ((sGroup root).bar 0).root.phase = false
    ∧ ((sGroup root).bar 0).root.cur + 1 < ((sGroup root).bar 0).root.expect
    ∧ ((sGroup root).bar 0).pkgNode.next ≠ ((sGroup root).bar 0).pkgNode.expect ∧ ((sGroup root).bar 0).next ≠ ((sGroup root).bar 0).expected :=
  fun root => ⟨rfl, rfl, rfl, by show (0 : Nat) + 1 < 3; decide, by show (0 : Nat) ≠ 1; decide, by show (0 : Nat) ≠ 2; decide⟩
theorem wit_LinkMessagesAct_root : Config.pkg.val = Config.pkg.val ∧ otherPkg.val ≠ Config.pkg.val :=
  ⟨rfl, fun h => otherPkg_ne (Fin.ext h)⟩
theorem wit_LinkMessagesAct_member : Config.inst.val ∈ ((sGroup otherPkg).bar 0).memberInsts := by
  have h := Config.inst.isLt
  rw [show ((sGroup otherPkg).bar 0).memberInsts = bitsSet (2 ^ Config.inst.val) 16 from rfl]
  generalize Config.inst.val = k at h ⊢
  revert k
  decide +kernel

/-- Link 0 in a training state; the installation map wires it to link 1 of bundle 0 of cluster 2 of package 3. -/
def sTrain (st : Nat) (now : Nat := 0) (lk : Link := {}) : State :=
  { (Eff.reg Fd.linkStatusState 0 st).apply <| (Eff.reg Fd.lpFeatEnEn 0 0xFF).apply <| (Eff.reg Fd.lpCfgMaxrev 0 3).apply <|
      (Eff.reg Fd.linkStatusRxWidth 0 20).apply <| (Eff.reg Fd.linkStatusTxWidth 0 20).apply <|
      (Eff.reg Fd.linkPeerMatch 0 1).apply ((Eff.link 0 lk).apply opened) with
    imap := [(0, some (3, 2, 0, 1))], tb := { now := now } }
def laneAt (i : Nat) : LaneView := ⟨true, true, true, false, Fin.ofNat 20 i, 1⟩
def ident0 : IdentMsg := { pkg := 3, inst := 2, bundle := 0, link := 1, version := 0, digest := 0, rxFenced := 0 }
theorem wit_LinksTrain : (sTrain 1).alive = true ∧ opened.accessKind .firmware 0x3028 4 true = none
    ∧ opened.chan 0 0x3028 .link = some 0 ∧ State.reset.fwState < 2
    ∧ ({ live with tb := { now := 65536 } } : State).alive = true ∧ elapsed 65536 live.pw.retryAt 65536 = true
    ∧ (sTrain 1).linkSt 0 = 1 ∧ (sTrain 2).linkSt 0 = 2 ∧ (sTrain 5).linkSt 0 = 5 ∧ ((sTrain 1).lanesOf 0).length = 20
    ∧ ((List.range 20).map laneAt).length = 20
    ∧ (∀ i < 20, ∃ v, ((List.range 20).map laneAt)[i]? = some v ∧ v.sig = true ∧ v.cdr = true ∧ v.valid = true ∧ v.lane = i)
    ∧ (sTrain 2).mapEntry 0 = some (3, 2, 0, 1)
    ∧ (∀ i ∈ (sTrain 2).lanesOf 0, (sTrain 2).reg Fd.laneStatusFault i = 0)
    ∧ ([(1, 4096), (2, 16384), (3, 4096), (4, 1024), (5, 16384)].all fun q =>
        (sTrain q.1 20000).linkSt 0 == q.1 && elapsed 20000 ((sTrain q.1 20000).link 0).since (q.2 + 1)) = true
    ∧ (sTrain 3).linkSt 0 = 3 ∧ ((sTrain 3).link 0).featIn = none ∧ ((sTrain 3).link 0).identIn = none
    ∧ ((sTrain 3 0 { identIn := some ident0 }).link 0).identIn = some ident0 ∧ (sTrain 3).reg Fd.linkPeerMatch 0 = 1
    ∧ bestRev 0x1E ((sTrain 3).reg Fd.lpCfgMaxrev) = 3
    ∧ ((sTrain 3).lanesOf 0).length ≤ (sTrain 3).reg Fd.linkStatusRxWidth 0 := by decide +kernel
theorem wit_LinksTrain_ident : ident0.rxFenced = 0 ∧ ((sTrain 3 0 { featIn := some (0x1E, 0x7F) }).link 0).featIn = some (0x1E, 0x7F)
    ∧ (sTrain 3).mapEntry 0 = some (ident0.pkg.val, ident0.inst.val, ident0.bundle.val, ident0.link.val)
    ∧ (sTrain 3).reg Fd.linkStatusRxWidth 0 = ((sTrain 3).lanesOf 0).length
    ∧ (sTrain 3).mapEntry 0 ≠ some (4, 2, 0, 1) ∧ ((sTrain 3).link 0).lastId = none := by decide +kernel
theorem test_identFull : goes (exec (.ident 0 ident0 12) (sTrain 3 0 { featIn := some (0x1E, 0x7F) })) (fun t =>
    t.linkSt 0 == 5 && t.reg Fd.linkStatusRev 0 == 3) = true := by decide +kernel
theorem test_quarantine : goes (exec (.ident 0 { ident0 with pkg := 4 } 12) (sTrain 3 0 { featIn := some (0x1E, 0x7F) })) (fun t =>
    t.linkSt 0 == 7) = true := by decide +kernel
theorem test_feat : goes (exec (.feat 0 0x1E 0x7F) (sTrain 3 0 { identIn := some ident0 })) (fun t => t.linkSt 0 == 5
    && t.reg Fd.linkStatusRev 0 == 3) = true := by decide +kernel
theorem test_ident : goes (exec (.ident 0 ident0 12) (sTrain 3)) (fun t => t.reg Fd.linkPeerMatch 0 == 1
    && t.reg Fd.linkPeerPkg 0 == 3) = true := by decide +kernel

/-! ### Witnesses: serving -/

def ent (st : EntState) : Entry := { seqId := 5, pos := 0, plen := 2, limit := 8, draw := 2, pages := 0x4000, npages := 1, ctx := 1, st := st }
def rec0 (fan : Nat) : PlanRec := { fan := fan, stage := 0, seg := 0, gparam := 0, nslice := 1, sliceBase := 0, parg := 4 }
def model0 : Model := { st := .resident, ctx := 1, addr := 0x300000, len := 4096, modelId := 7, plan := [rec0 1] }
/-- Context 1 with an entry and a resident model; its cores have power. -/
def serving (x : Ctx) (now : Nat := 0) : State :=
  let s : State := { owned x with models := [(0, model0)], entries := [(3, ent .ready)], tb := { now := now } }
  (Eff.reg Fd.corePwrStReady 0 3).apply s
def sWaiting : State := serving { run := .waiting }
theorem wit_StepsStartAndBuildCaravans : sWaiting.alive = true ∧ sWaiting.starts 1 = true ∧ sWaiting.joins 1 = true
    ∧ sWaiting.maskCores 1 = [0, 1] := by decide +kernel
theorem wit_StepsStartAndBuildCaravans_inv : sWaiting.Inv := inv_of (by decide +kernel)
theorem test_assign : goes (exec (.stepAssign 1) sWaiting) (fun t => (t.core 0).ctx == some 1 && (t.core 2).ctx == none
    && (t.ctx 1).run == .running) = true := by decide +kernel
def car (seqs : List CarSeq) (cores : List Nat := [0, 1]) : Caravan := { model := 0, seqs := seqs, cores := cores }
def seq0 (draws : Bool) (outcome : Nat) : CarSeq :=
  { entry := 3, pos := 0, ntok := 2, draws := draws, npages := 1, pages := 0x4000, tokens := 0, outcome := outcome }
/-- The STU builds the caravan v of context 1. -/
def building (v : Caravan) (b : Bool := true) (st : Bool := false) : State :=
  { serving { run := .running, caravan := some v } 70000 with stu := { builder := if b then some 1 else none, stalled := st } }
theorem wit_StepsStartAndBuildCaravans_build : (building (car [])).stu.builder = some 1
    ∧ ((building (car [])).ctx 1).caravan = some (car [])
    ∧ seqsOf (building (car [])) 1 (some 0) = [seq0 true 0]
    ∧ seqsOf (building (car [] [])) 1 none = [] ∧ ((building (car [])).ctx 1).adm.cslBase % 64 = 0
    ∧ 0x10000 + (cslBytes adm1 0 [seq0 true 0]).length ≤ gmSize := by decide +kernel
theorem wit_StepsStartAndBuildCaravans_buildInv : (building (car [])).Inv ∧ (building (car [] [])).Inv :=
  ⟨inv_of (by decide +kernel), inv_of (by decide +kernel)⟩
/-- Nothing joined when the step began; since then a page has come, and the context's cores are free. -/
theorem wit_StepsStartAndBuildCaravans_join : ((building (car [] [])).ctx 1).queued = []
    ∧ (let v : Caravan := { car [] [] with served := true }
      let s := building v
      (s.ctx 1).caravan = some v ∧ seqsOf s 1 (some 0) = [seq0 true 0]
        ∧ ((s.maskCores 1).filter fun n => (s.core n).ctx.isNone) = [0, 1])
    ∧ ({ car [] with served := true } : Caravan).cores ≠ [] := by decide +kernel
theorem test_build : goes (exec (.caravanBuild 1) (building (car []))) (fun t => t.gbyte 0x10000 == 1 && t.gbyte 0x10040 == 3) = true := by
  decide +kernel

/-- The caravan of one sequence, before and behind its only parcel; the home queue of core 0 full. -/
def sFull (st : Bool) : State :=
  (Eff.core 0 { ctx := some 1, home := List.replicate 256 { parcel0 with pinned := false } }).apply (building (car [seq0 true 0]) true st)
theorem wit_ParcelsReachCores : (building (car [seq0 true 0])).alive = true
    ∧ (car [seq0 true 0]).next model0.plan = some ([rec0 1], rec0 1, 0)
    ∧ ({ car [seq0 true 0] with stage := 1 } : Caravan).next model0.plan = none
    ∧ ((building (car [seq0 true 0])).model 0).plan = model0.plan ∧ ((building (car [seq0 true 0])).core 0).home.length < 256
    ∧ 256 ≤ ((sFull false).core 0).home.length ∧ (sFull true).stu.stalled = true
    ∧ ((building (car [seq0 true 0]) true true).core 0).home.length < 256 := by decide +kernel
theorem test_cutParcel : goes (exec .caravanCut (building (car [seq0 true 0]))) (fun t => ((t.core 0).home.map (·.parg)) == [4]) = true := by
  decide +kernel
def sSteal : State := (Eff.core 1 { ctx := some 1 }).apply (sFull false)
theorem wit_ParcelsReachCores_steal : sSteal.fenced 1 = false ∧ (sSteal.core 1).ctx = some 1 ∧ (sSteal.core 1).idle = true
    ∧ sSteal.victim ((neighbours 1).filter fun m => (sSteal.core m).ctx = some 1) = some 0
    ∧ (sSteal.ctx 1).steal = true ∧ tailUnpinned (sSteal.core 0).home = some { parcel0 with pinned := false }
    ∧ (building (car [])).victim ((neighbours 1).filter fun m => ((building (car [])).core m).ctx = some 1) = none := by
  decide +kernel
/-- Cores 1 and 3 are idle in the step of context 1, and the only record queued is unpinned, at the head of core 2's queue. -/
def sRivals : State :=
  (Eff.core 1 { ctx := some 1 }).apply <| (Eff.core 3 { ctx := some 1 }).apply <|
    (Eff.core 2 { ctx := some 1, home := [{ parcel0 with pinned := false }] }).apply (building (car [seq0 true 0]))
theorem wit_ParcelsReachCores_rivals : sRivals.alive = true ∧ sRivals.mayAsk 1 = true ∧ sRivals.mayAsk 3 = true
    ∧ sRivals.target 1 = some (2, { parcel0 with pinned := false }) ∧ sRivals.target 3 = some (2, { parcel0 with pinned := false })
    ∧ (sRivals.core 2).run = none ∧ (sRivals.core 2).home.head? = some { parcel0 with pinned := false } := by decide +kernel
theorem test_rivals : goes (exec (.stealRequest ⟨3, [1], []⟩) sRivals) (fun t => (t.core 3).stolen == none && (t.core 1).stolen.isSome
    && t.reg Fd.stealStatsRefused == 1) = true := by decide +kernel
/-- Core 0 runs a parcel of the caravan whose next parcel is its own. -/
def sRunning : State := (Eff.core 0 { ctx := some 1, run := some run0 }).apply (building (car [seq0 true 0]))
theorem wit_ParcelsReachCores_buffer : (sRunning.core 0).run.isSome = true ∧ sRunning.fenced 0 = false
    ∧ (sRunning.core 0).home = [] ∧ (sRunning.ctx 1).caravan = some (car [seq0 true 0]) ∧ sRunning.stu.builder = some 1
    ∧ (sRunning.model 0).plan = [rec0 1] := by decide +kernel

/-- The segment table entry of segment 0 (a NOP for MX) and a candidate block: token 7 with logit 0. -/
def cellsServe : List Host.Cell := [(0x20000, 1), (0x20040, 7), (0x300000, 0x40), (0x300004, 1)]
def starting (v : Caravan) (k : Core) : State := (Eff.core 0 k).apply { building v false with gmem := ⟨cellsServe, []⟩ }
def sStart : State := starting (car [seq0 true 0]) { ctx := some 1, home := [parcel0] }
theorem wit_ParcelsStartAndEnd : sStart.alive = true ∧ (sStart.core 0).nextParcel = some parcel0
    ∧ (sStart.ctx 1).caravan = some (car [seq0 true 0]) ∧ (sStart.core 0).run = none ∧ (sStart.core 0).ctx = some 1
    ∧ sStart.fenced 0 = false ∧ sStart.setsPending 0 = false
    ∧ (segmentOf sStart 0 0 parcel0).good = true
    ∧ (segmentOf sStart 0 0 parcel0).streams.any (!·.isEmpty) = true ∧ model0.param % 64 = 0
    ∧ model0.param + 64 ≤ sStart.partSize 0 1 ∧ (sStart.part 0 1).1 + (sStart.part 0 1).2 ≤ 48 := by decide +kernel
/-- The segment is in the buffer already, with its check failed or good; or another parcel waits behind this one. -/
def sBuffered (ok : Bool) : State :=
  starting (car [seq0 true 0])
    { ctx := some 1, home := [parcel0], segBuf := some { segmentOf sStart 0 0 parcel0 with good := ok } }
theorem wit_ParcelsStartAndEnd_buffered : ([true, false].all fun ok =>
      (segmentOf (sBuffered ok) 0 0 parcel0).good == ok && (sBuffered ok).alive && ((sBuffered ok).core 0).nextParcel == some parcel0
        && ((sBuffered ok).core 0).segBuf == some (segmentOf (sBuffered ok) 0 0 parcel0)
        && ((sBuffered ok).core 0).home.drop 1 == []) = true
    ∧ ((starting (car [seq0 true 0]) { ctx := some 1, home := [parcel0, { parcel0 with index := 1 }] }).core 0).nextParcel
        = some parcel0 := by decide +kernel
theorem wit_ParcelsStartAndEnd_inv : sStart.Inv := inv_of (by decide +kernel)
theorem test_parcelStart : goes (exec (.parcelStart 0 false) sStart) (fun t => (t.core 0).mx.stream == [0] && (t.core 0).home == []) = true := by
  decide +kernel
def sEnding : State := starting { car [seq0 true 0] with cut := 1 } { ctx := some 1, run := some { run0 with poisoned := true } }
theorem wit_ParcelsStartAndEnd_end : (sEnding.core 0).run = some { run0 with poisoned := true } ∧ (sEnding.core 0).complete = true
    ∧ (sEnding.ctx 1).caravan.isSome = true ∧ sEnding.alive = true := by decide +kernel
theorem wit_ParcelsStartAndEnd_endInv : sEnding.Inv := inv_of (by decide +kernel)
theorem test_parcelEnd : goes (exec (.parcelEnd 0) sEnding) (fun t => t.reg Fd.parcelStatusLastStatus 0 == 1
    && (t.ctx 1).shownEnded == 1) = true := by decide +kernel

/-- The step of context 1 has ended: its sequence draws, does not draw, or was dropped. -/
def ended (q : CarSeq) : Caravan := { car [q] with cut := 1, ended := 1, cutDone := true }
def sEnded (q : CarSeq) : State := starting (ended q) { ctx := some 1 }
theorem wit_StepEndAdvancesSequences : ([seq0 true 0, seq0 false 1, seq0 false 2].all fun q =>
    (sEnded q).alive && ((sEnded q).ctx 1).caravan == some (ended q) && ((sEnded q).ctx 1).run == .running
      && (ended q).cores.all ((sEnded q).acked 1) && (sEnded q).ownSems 1 == [] && (sEnded q).ownBars 1 == []
      && ((sEnded q).ctx 1).queued == []) = true
    ∧ ((ended (seq0 true 0)).seqs.map (·.entry)).Nodup
    ∧ (let s1 := fetched (sEnded (seq0 true 0)) (.step 1) adm1.candBase 4
      let n := leNat (s1.gread adm1.candBase 4)
      let s2 := fetched s1 (.step 1) (adm1.candBase + 64) (8 * min n 1024)
      drawToken n (s2.gread (adm1.candBase + 64) (8 * min n 1024)) ((sEnded (seq0 true 0)).entry 3).invT
        ((sEnded (seq0 true 0)).entry 3).topk (philoxWord adm1.seed 5 2) = some 7) := by decide +kernel
/-- The step of context 1 ends with a semaphore left at 1 instead of 0, under RESIDUE_POISON. -/
def sResidue : State :=
  let s := sEnded (seq0 true 0)
  { s with ctxs := [(1, { s.ctx 1 with adm := { adm1 with residuePoison := true } })],
           sems := [(hubSemKey 0, { alloc := true, owner := 1, count := 1 })] }
theorem wit_StepEndAdvancesSequences_residue : hasResidue sResidue 1 = true ∧ hasResidue (sEnded (seq0 true 0)) 1 = false
    ∧ (sResidue.ctx 1).adm.residuePoison = true ∧ (sResidue.ctx 1).queued = [] ∧ sResidue.alive = true
    ∧ (sResidue.ctx 1).caravan = some (ended (seq0 true 0)) ∧ (sResidue.ctx 1).run = .running
    ∧ (ended (seq0 true 0)).cores.all (sResidue.acked 1) = true := by decide +kernel
theorem wit_StepEndAdvancesSequences_residueInv : sResidue.Inv := inv_of (by decide +kernel)
theorem test_residue : goes (exec (.stepEnd 1) sResidue) (fun t => (t.entry 3).pos == 0 && (t.entry 3).outcome == 3) = true := by
  decide +kernel
theorem wit_StepEndAdvancesSequences_inv : (sEnded (seq0 true 0)).Inv ∧ (sEnded (seq0 false 1)).Inv ∧ (sEnded (seq0 false 2)).Inv :=
  ⟨inv_of (by decide +kernel), inv_of (by decide +kernel), inv_of (by decide +kernel)⟩
theorem test_stepEnd : goes (exec (.stepEnd 1) (sEnded (seq0 true 0))) (fun t => (t.entry 3).last == 7 && (t.entry 3).pos == 2
    && (t.ctx 1).jobs == 1) = true := by decide +kernel

def bounded (be : Bool) : State :=
  serving { run := .running, caravan := some (car [seq0 true 0]), adm := { adm1 with be := be, budget := 100, abortLimit := 3 } } 70000
theorem wit_StepsAreBounded : (bounded true).alive = true ∧ ((bounded true).ctx 1).run = .running
    ∧ ((bounded true).ctx 1).caravan = some (car [seq0 true 0]) ∧ ((bounded true).ctx 1).adm.be = true
    ∧ elapsed 70000 ((bounded true).ctx 1).start 65536 = true ∧ ((bounded true).ctx 1).queued = []
    ∧ ((bounded false).ctx 1).adm.be = false ∧ ((bounded false).ctx 1).adm.budget ≠ 0 ∧ ((bounded false).ctx 1).lateDone = false
    ∧ elapsed 70000 ((bounded false).ctx 1).start (((bounded false).ctx 1).adm.budget + 1) = true := by decide +kernel
theorem wit_StepsAreBounded_inv : (bounded true).Inv ∧ (bounded false).Inv := ⟨inv_of (by decide +kernel), inv_of (by decide +kernel)⟩
theorem test_beCap : goes (exec (.beStepCap 1) (bounded true)) (fun t => t.reg Fd.stuCtxAbortAborts 1 == 1
    && (t.entry 3).outcome == 4) = true := by decide +kernel

/-! ### Witnesses: commands on contexts -/

/-- Cells that hold bytes from an address on. -/
def cellsAt (a : Nat) (b : List Byte) : List Host.Cell :=
  ((List.range b.length).zip b).filterMap fun x => if x.2 = 0 then none else some (a + x.1, x.2)
/-- Context 1 with entry 3 in a state, and an image at the start of its tenant's staging region. -/
def sSeq (op : Nat) (st : EntState) (run : RunState) : State :=
  asks 1 op { serving { run := run } with
    entries := if st = .free then [] else [(3, ent st)], gmem := ⟨cellsAt 0x200000 (ent .ready).bytes, []⟩ }
theorem wit_SequenceCommandsAct : ([(0x28, EntState.free), (0x29, .ready), (0x2A, .ready), (0x2B, .held), (0x2C, .ready), (0x2D, .done)].all fun x =>
    [RunState.waiting, .running].all fun run =>
      let s := sSeq x.1 x.2 run
      s.alive && (s.pair 1).epoch == 0 && s.mayName (req 1 x.1) 1 && s.serving x.1 == some (req 1 x.1) && (s.ctx 1).run == run
        && (s.entry 3).st == x.2 && (x.2 == .free || (s.entry 3).ctx == 1) && s.inStaging (req 1 x.1) 0x200000 64
        && !((some (9 : BitVec 32)).isSome && limitBad (s.ctx 1).adm { ent x.2 with limit := 9 })) = true
    ∧ openBad adm1 1 { entryOf (ent .ready).bytes with pos := 0, draw := 0, npages := 0, rcount := 0, outcome := 0, st := .ready } = none
    ∧ (fetched (sSeq 0x28 .free .waiting) .firmware 0x200000 64).gread 0x200000 64 = (ent .ready).bytes := by decide +kernel
theorem test_seqHold : goes (exec (.seqHold 1 3) (sSeq 0x2A .ready .waiting)) (fun t => (t.entry 3).st == .held
    && t.reg Fd.mbRepStatusValid 1 == 1) = true := by decide +kernel
theorem test_seqOpen : goes (exec (.seqOpen 1 3 0x200000) (sSeq 0x28 .free .waiting)) (fun t => (t.entry 3).st == .ready
    && (t.entry 3).limit == 8) = true := by decide +kernel
theorem test_seqQueued : goes (exec (.seqHold 1 3) (sSeq 0x2A .ready .running)) (fun t => (t.entry 3).st == .ready
    && (t.ctx 1).queued.length == 1 && t.reg Fd.mbRepStatusValid 1 == 0) = true := by decide +kernel

/-- The page list of entry 3 names one page; the staging region names another. -/
def sPages (op : Nat) : State :=
  asks 1 op { serving { run := .waiting } with gmem := ⟨[(0x4002, 5), (0x200002, 6)], []⟩ }
theorem wit_PagesReturnToThePool : (sPages 0x2C).alive = true ∧ (sPages 0x2C).mayName (req 1 0x2C) 1 = true
    ∧ ((sPages 0x2C).ctx 1).adm.poolBase % 64 = 0
    ∧ ((sPages 0x2C).ctx 1).adm.poolBase + 8 * ((sPages 0x2C).ctx 1).adm.poolSize ≤ gmSize
    ∧ 8 ≤ ((sPages 0x2C).ctx 1).adm.poolSize ∧ (sPages 0x2C).serving 0x2C = some (req 1 0x2C) ∧ ((sPages 0x2C).entry 3).ctx = 1
    ∧ ((sPages 0x2C).entry 3).st ≠ .free ∧ ((sPages 0x2C).ctx 1).run ≠ .running ∧ (sPages 0x2C).snap.st = 0
    ∧ (sPages 0x30).serving 0x30 = some (req 1 0x30) ∧ (sPages 0x30).inStaging (req 1 0x30) 0x200000 8 = true
    ∧ ((sPages 0x30).ctx 1).poolCount + (sPages 0x30).pagesOut 1 + 1 ≤ ((sPages 0x30).ctx 1).adm.poolSize
    ∧ leAt ((fetched (sPages 0x30) .firmware 0x200000 8).gread 0x200000 8) 0 8 = 0x60000 ∧ 0x60000 % 2 ^ adm1.pgShift = 0 := by decide +kernel
theorem wit_PagesReturnToThePool_inv : (sPages 0x2C).Inv ∧ (sPages 0x30).Inv := ⟨inv_of (by decide +kernel), inv_of (by decide +kernel)⟩
theorem test_seqClose : goes (exec (.seqClose 1 3) (sPages 0x2C)) (fun t => t.gbyte 0x8002 == 5 && (t.ctx 1).poolCount == 1
    && (t.entry 3).st == .free) = true := by decide +kernel

/-- A binary of one segment, whose MX stream is one NOP, with one hub semaphore of identifier 5 (Tables 7-1, 7-2, 11-1). -/
def binHead : List Byte :=
  toLe magic4 4 ++ toLe 128 2 ++ [0, 0] ++ toLe 1 2 ++ zeros 10 ++ toLe 128 4 ++ toLe 160 4 ++ toLe 224 4 ++ toLe 16 4 ++ zeros 28
    ++ toLe 256 4 ++ zeros 56
def binBody : List Byte := toLe 240 4 ++ [1, 0] ++ zeros 26 ++ zeros 64 ++ ([3, 1, 0, 0, 5, 0] ++ zeros 10) ++ zeros 16
def binary : List Byte := binHead ++ toLe (crc32c (binHead ++ zeros 4 ++ binBody)) 4 ++ binBody
def sModel (op : Nat) (m : Model) : State :=
  asks 1 op { serving { run := .waiting, adm := { adm1 with hubSems := 2 } } with
    models := [(0, m)], entries := [], gmem := ⟨cellsAt 0x300000 binary, []⟩ }
def sEvicted : State := sModel 0 { model0 with st := .evicted, len := 256, wanted := true }
theorem wit_ModelCommandsAct : (sModel 0x20 {}).alive = true ∧ (sModel 0x20 {}).mayName (req 1 0x20) 1 = true
    ∧ (sModel 0x20 {}).serving 0x20 = some (req 1 0x20) ∧ ((sModel 0x20 {}).model 0).st = .empty
    ∧ (sModel 0x20 {}).inWindows 1 0x300000 256 = true
    ∧ (match (sModel 0x20 {}).checkBinary 1 ((fetched (sModel 0x20 {}) .firmware 0x300000 256).gread 0x300000 256) with
      | .ok l => (vidsOf l).map (·.2) == [5]
      | _ => false) = true := by decide +kernel
theorem wit_ModelCommandsAct_evict : ([0x21, 0x22, 0x23].all fun op => (sModel op model0).serving op == some (req 1 op)
      && ((sModel op model0).model 0).ctx == 1 && ((sModel op model0).model 0).st == .resident && !(sModel op model0).modelRuns 0
      && (sModel op model0).readyOf 1 0 == []) = true
    ∧ (sEvicted.model 0).st = .evicted ∧ (sEvicted.model 0).wanted = true ∧ sEvicted.fwBusy = false
    ∧ (sEvicted.ctx (sEvicted.model 0).ctx).prot = .admitted
    ∧ (match sEvicted.checkBinary 1
        ((fetched sEvicted .firmware (sEvicted.model 0).addr (sEvicted.model 0).len).gread (sEvicted.model 0).addr (sEvicted.model 0).len) with
      | .ok _ => true
      | _ => false) = true := by decide +kernel
theorem wit_ModelCommandsAct_inv : (sModel 0x20 {}).Inv ∧ (sModel 0x21 model0).Inv ∧ (sModel 0x22 model0).Inv ∧ (sModel 0x23 model0).Inv
    ∧ sEvicted.Inv := ⟨inv_of (by decide +kernel), inv_of (by decide +kernel), inv_of (by decide +kernel), inv_of (by decide +kernel),
  inv_of (by decide +kernel)⟩
theorem test_modelLoad : goes (exec (.modelLoad 1 0 0x300000 256 false) (sModel 0x20 {})) (fun t => (t.model 0).st == .resident
    && t.lookup 1 5 == some (.hubSem 0)) = true := by decide +kernel

/-- The platform proposes a debug consent for context 1; its record stands at an address outside the aperture. -/
def changeRec : List Byte := [1, 2] ++ zeros 62
def proposal (a : Nat) : Req := req 0 0x10 ([6, 0, 5, 0, 0, 0, 0, 0] ++ toLe a 8 ++ [64, 0])
def sPropose (a : Nat) : State := asks 0 0x10 { serving {} with gmem := ⟨[(a, 1), (a + 1, 2)], []⟩ } (proposal a).payload
theorem proposeBad_of {s : State} {r : Req} (h1 : leAt r.payload 1 1 = 0 ∧ leAt r.payload 2 2 ≠ 0 ∧ r.abi = 3)
    (h2 : leAt r.payload 0 1 = 6 ∧ leAt r.payload 4 4 = 0 ∧ leAt r.payload 16 2 = 64 ∧ leAt r.payload 8 8 % 64 = 0 ∧ r.pair = 0)
    (h3 : overlap (leAt r.payload 8 8) 64 Config.spaBase (2 ^ 31) = false) (h4 : s.fw.changes = []) : s.proposeBad r = none := by
  obtain ⟨a, b, c⟩ := h1
  obtain ⟨d, e, f, g, i⟩ := h2
  unfold State.proposeBad
  simp only [a, b, c, d, e, f, g, i, h3, h4]
  rfl
theorem wit_ChangesTakeEveryParty_propose : ∃ a, (sPropose a).serving 0x10 = some (proposal a)
    ∧ (sPropose a).proposeBad (proposal a) = none ∧ (sPropose a).alive = true := by
  have h := clear_overlap (x := 0x200000) (n := 64) (by decide)
  unfold clear at h
  split at h
  · exact ⟨0x80200000, by decide +kernel, proposeBad_of (by decide +kernel) (by decide +kernel)
      (by rw [show leAt (proposal 0x80200000).payload 8 8 = 2 ^ 31 + 0x200000 from by decide +kernel]; exact h) (by decide +kernel),
      by decide +kernel⟩
  · exact ⟨0x200000, by decide +kernel, proposeBad_of (by decide +kernel) (by decide +kernel)
      (by rw [show leAt (proposal 0x200000).payload 8 8 = 0 + 0x200000 from by decide +kernel]; exact h) (by decide +kernel),
      by decide +kernel⟩
theorem wit_ChangesTakeEveryParty_parties : ([0x200000, 0x80200000].all fun a =>
    match (sPropose a).checkChange (leAt (proposal a).payload 0 1) (proposed (sPropose a) (proposal a) [0, 1]).record with
    | .ok parties => parties == [0, 1] && parties.contains (proposal a).pair
    | _ => false) = true := by decide +kernel
def change0 (committed : List Nat) : Change :=
  { id := 1, kind := 6, token := 5, digest := 77, deadline := 900, record := changeRec, proposer := 0, parties := [0, 1],
    committed := committed }
def sChange (pair op token : Nat) (committed : List Nat) (now : Nat := 0) : State :=
  asks pair op { serving {} now with fw := { opened.fw with changes := [change0 committed] } }
    (toLe 1 2 ++ toLe token 2 ++ toLe 77 4)
theorem wit_ChangesTakeEveryParty : ([(5, []), (5, [0]), (6, [0])].all fun x =>
      (sChange 1 0x11 x.1 x.2).serving 0x11 == some (req 1 0x11 (toLe 1 2 ++ toLe x.1 2 ++ toLe 77 4))
        && ((sChange 1 0x11 x.1 x.2).fw.changes.find? fun h => h.id = 1) == some (change0 x.2)
        && !reached (sChange 1 0x11 x.1 x.2).tb.now 900) = true
    ∧ (change0 []).parties.contains 1 = true ∧ (change0 []).parties.all ([1].contains ·) = false
    ∧ (change0 [0]).parties.all ([0, 1].contains ·) = true ∧ (change0 [0]).committed.contains 1 = false
    ∧ (match (sChange 1 0x11 5 [0]).checkChange 6 changeRec with | .ok _ => true | _ => false) = true
    ∧ (sChange 0 0x12 5 [0]).serving 0x12 = some (req 0 0x12 (toLe 1 2 ++ toLe 5 2 ++ toLe 77 4))
    ∧ reached (sChange 0 0x12 5 [0] 1000).tb.now 900 = true := by decide +kernel
def sExpired : State :=
  asks 1 0x11 { serving {} 1000 with fw := { opened.fw with expired := [(1, [0, 1])] } } (toLe 1 2 ++ toLe 5 2 ++ toLe 77 4)
theorem wit_ChangesTakeEveryParty_expired : sExpired.alive = true
    ∧ sExpired.serving 0x11 = some (req 1 0x11 (toLe 1 2 ++ toLe 5 2 ++ toLe 77 4))
    ∧ (sExpired.fw.changes.find? fun h => h.id = 1) = none
    ∧ (sExpired.fw.expired.find? fun e => e.1 = 1) = some (1, [0, 1]) := by decide +kernel
/-- The platform withdraws its acceptance of the quarantined link 5, before its deadline. -/
def quarChange : Change := { change0 [0] with kind := 5, record := [1, 1] ++ zeros 62 }
def sQuar : State :=
  (Eff.reg Fd.linkStatusState 5 7).apply
    (asks 0 0x12 { serving {} with fw := { opened.fw with changes := [quarChange] } })
theorem wit_ChangesTakeEveryParty_rejects : sQuar.alive = true ∧ sQuar.serving 0x12 = some (req 0 0x12)
    ∧ (sQuar.fw.changes.find? fun h => h.id = 1) = some quarChange ∧ quarChange.kind = 5 ∧ quarChange.proposer = 0
    ∧ leAt quarChange.record 0 1 * 4 + leAt quarChange.record 1 1 = 5 ∧ sQuar.linkSt 5 = 7 := by decide +kernel
theorem test_rejects : goes (exec (.withdraw 1) sQuar) (fun t => t.linkSt 5 == 0 && t.linkSt 4 == sQuar.linkSt 4) = true := by
  decide +kernel
theorem test_commitLast : goes (exec .commit (sChange 1 0x11 5 [0])) (fun t => ((t.ctx 1).consent.map (·.1)) == some 2
    && t.fw.changes == []) = true := by decide +kernel
theorem test_mismatch : goes (exec .commit (sChange 1 0x11 6 [0])) (fun t => t.reg Fd.hpChgMismatch == 1 && t.fw.changes == []
    && (t.ctx 1).consent == none) = true := by decide +kernel

/-- Context 1 holds a debug consent, a forensic hold, a shared map entry and an open oasis. -/
def sRevoke (op : Nat) : State :=
  asks 1 op ((Eff.core 0 { oases := [(0, { oasis0 with writers := [] })] }).apply { serving { run := .held, consent := some (0, 5), hold := some ⟨0, 2 ^ 20, false⟩, map := [(5, some ⟨0, .hubSem 0, true⟩)] } with
    sems := [(hubSemKey 0, { alloc := true, owner := 2 })] })
theorem wit_RevokeAndResumeAct : (sRevoke 0x13).alive = true ∧ (sRevoke 0x13).serving 0x13 = some (req 1 0x13)
    ∧ (sRevoke 0x13).mayName (req 1 0x13) 1 = true ∧ ((sRevoke 0x13).ctx 1).consent.isSome = true
    ∧ ((sRevoke 0x13).ctx 1).hold = some ⟨0, 2 ^ 20, false⟩ ∧ ((sRevoke 0x13).ctx 1).prot = .admitted
    ∧ tabGet none ((sRevoke 0x13).ctx 1).map 5 = some ⟨0, .hubSem 0, true⟩
    ∧ 1 ∈ [((sRevoke 0x13).ctx 1).adm.tenant, 0]
    ∧ (sRevoke 0x13).openOf 1 0 = [{ oasis0 with writers := [] }] ∧ 1 ∈ (sRevoke 0x13).oasisParties 1 []
    ∧ (sRevoke 0x19).serving 0x19 = some (req 1 0x19) ∧ (sRevoke 0x19).mayName (req 1 0x19) 1 = true
    ∧ ((sRevoke 0x19).ctx 1).run = .held := by decide +kernel
theorem test_revokeOasis : goes (exec (.revoke (.oasis 1 0)) (sRevoke 0x13)) (fun t => t.openOf 1 0 == []) = true := by decide +kernel

def sKill : State :=
  asks 1 0x18 { building (car [seq0 true 0]) with sems := [(hubSemKey 0, { alloc := true, owner := 1 })] }
theorem wit_TeardownFreesEverything : sKill.alive = true ∧ sKill.serving 0x18 = some (req 1 0x18)
    ∧ sKill.mayName (req 1 0x18) 1 = true := by decide +kernel
theorem wit_TeardownFreesEverything_inv : sKill.Inv := inv_of (by decide +kernel)

def hold0 : Hold := { addr := 0x400000, len := 2 ^ 20, acting := true }
def sHeldCtx : State :=
  { serving {} with ctxs := [(1, { prot := .held, adm := adm1, hold := some hold0, tearReq := some (req 1 0x18), jobs := 7 })] }
def sScrub : State :=
  { (Eff.core 0 { scrub := [(0, 2, 1)] }).apply (serving {}) with
    ctxs := [(1, { prot := .tearing, adm := adm1, scrubbing := true, tearReq := some (req 1 0x18), jobs := 7 })] }
def bankWait0 : BankWait := { req := req 0 0x11, chg := { change0 [0, 1] with kind := 1 }, adm := adm1, admits := true }
def sAdmit : State := { serving {} with ctxs := [(1, { bankWait := some bankWait0 })] }
theorem wit_BanksChangeHands : sHeldCtx.alive = true ∧ sHeldCtx.fwBusy = false ∧ (sHeldCtx.ctx 1).hold = some hold0
    ∧ (sHeldCtx.ctx 1).prot = .held ∧ hold0.addr % 64 = 0 ∧ hold0.addr + popcount adm1.mask 32 * dumpBytes adm1.nb ≤ gmSize
    ∧ (∀ n ∈ bitsSet adm1.mask 32, sHeldCtx.partSize n 1 = adm1.nb * 65536)
    ∧ (sScrub.ctx 1).scrubbing = true ∧ (sScrub.ctx 1).tearReq = some (req 1 0x18) ∧ (sScrub.pair 1).epoch = 0
    ∧ (sAdmit.ctx 1).bankWait = some bankWait0 ∧ sAdmit.banksFree 1 adm1 = true := by decide +kernel
theorem wit_BanksChangeHands_inv : sHeldCtx.Inv ∧ sScrub.Inv ∧ sAdmit.Inv :=
  ⟨inv_of (by decide +kernel), inv_of (by decide +kernel), inv_of (by decide +kernel)⟩
/-- Context 1's partition gave up bank 2 of core 0, which still runs for it. -/
def sShrunk : State := (Eff.core 0 { ctx := some 1, run := some run0, scrub := [(2, 1, 1)] }).apply (serving { run := .running })
theorem wit_BanksChangeHands_shrink : sShrunk.alive = true ∧ sShrunk.fwBusy = false ∧ (sShrunk.ctx 1).scrubbing = false
    ∧ (sShrunk.core 0).scrub.any (·.2.2 = 1) = true := by decide +kernel
theorem wit_BanksChangeHands_shrinkInv : sShrunk.Inv := inv_of (by decide +kernel)
theorem test_scrub : goes (exec (.bankScrubDone 1) sScrub) (fun t => (t.ctx 1).prot == .free && (t.ctx 1).jobs == 7
    && t.reg Fd.mbRepStatusValid 1 == 1) = true := by decide +kernel
theorem test_admit : goes (exec (.admissionComplete 1) sAdmit) (fun t => (t.ctx 1).prot == .admitted
    && t.reg (Fd.spPartNb 1) 1 == 2) = true := by decide +kernel

/-! ### Witnesses: slices, fences -/

/-- Links 0 and 4 are ACTIVE with every feature. -/
def sAdm : State :=
  let reg := fun (f : Fld) c v s => (Eff.reg f c v).apply s
  reg Fd.linkStatusState 4 6 (reg Fd.linkFeatActActive 4 0xFF (sLink 5))
/-- A request whose first hop is this cluster's: from link 0 on to link 4 with lag 8, or, where last, ending here. -/
def hopRest (last : Bool) : Nat := if last then 64 else 8 + 8 * 256
def hopMsg (last : Bool) (first : BitVec 16) : ResvMsg :=
  { resv0 with opkg := 9, oinst := 3, slice := 4, first := first, count := 1, stride := 1,
               hopRec := BitVec.ofNat 64 (Config.pkg.val + 4096 * Config.inst.val + 65536 * hopRest last) }
theorem hopMsg_rec (last : Bool) (first : BitVec 16) :
    (hopMsg last first).hopRec.toNat = Config.pkg.val + 4096 * Config.inst.val + 65536 * hopRest last := by
  have a := Config.pkg.isLt
  have b := Config.inst.isLt
  have c : hopRest last ≤ 2056 := by cases last <;> decide
  simp only [hopMsg, BitVec.toNat_ofNat]
  omega
theorem hop_of (p i r : Nat) (hp : p < 4096) (hi : i < 16) :
    let h := p + 4096 * i + 65536 * r
    hopPkg h = p ∧ hopInst h = i ∧ hopIn h = bits r 0 0 * 4 + bits r 2 1 ∧ hopLast h = bit r 6
      ∧ hopOut h = bits r 3 3 * 4 + bits r 5 4 ∧ hopLag h = bits r 15 8 := by
  simp only [hopPkg, hopInst, hopIn, hopLast, hopOut, hopLag, bits, bit, Nat.shiftRight_eq_div_pow, Nat.reducePow, Nat.reduceAdd,
    Nat.reduceSub, decide_eq_decide]
  omega
theorem hop_fields (last : Bool) :
    let h := Config.pkg.val + 4096 * Config.inst.val + 65536 * hopRest last
    hopPkg h = Config.pkg.val ∧ hopInst h = Config.inst.val ∧ hopIn h = 0 ∧ hopLast h = last
      ∧ hopOut h = (if last then 0 else 4) ∧ hopLag h = (if last then 0 else 8) := by
  have h := hop_of Config.pkg.val Config.inst.val (hopRest last) Config.pkg.isLt Config.inst.isLt
  refine ⟨h.1, h.2.1, h.2.2.1.trans ?_, h.2.2.2.1.trans ?_, h.2.2.2.2.1.trans ?_, h.2.2.2.2.2.trans ?_⟩ <;> cases last <;> decide
theorem wit_SlicesReserveAndRelease_mine : ∀ last first,
    hopPkg (hopMsg last first).hopRec.toNat = Config.pkg.val ∧ hopInst (hopMsg last first).hopRec.toNat = Config.inst.val
      ∧ hopIn (hopMsg last first).hopRec.toNat = 0 ∧ hopLast (hopMsg last first).hopRec.toNat = last := by
  intro last first
  rw [hopMsg_rec]
  exact ⟨(hop_fields last).1, (hop_fields last).2.1, (hop_fields last).2.2.1, (hop_fields last).2.2.2.1⟩
theorem wit_SlicesReserveAndRelease_other : hopPkg ({ hopMsg true 7 with hopRec := BitVec.ofNat 64 otherPkg.val } : ResvMsg).hopRec.toNat
    ≠ Config.pkg.val := by
  have a := otherPkg.isLt
  have e : hopPkg (BitVec.ofNat 64 otherPkg.val).toNat = otherPkg.val := by
    simp only [hopPkg, bits, BitVec.toNat_ofNat]
    omega
  exact fun h => otherPkg_ne (Fin.ext (e.symm.trans h))
theorem sAdm_ring : sAdm.linkOn 0 = true ∧ sAdm.fwBusy = false ∧ sAdm.sliceAt resv0 false 0 = none
    ∧ sAdm.slices = [] ∧ sAdm.freeFlow = some 1 := by decide +kernel
theorem wit_SlicesReserveAndRelease : sAdm.resvReason (hopMsg true 7) = none ∧ sAdm.resvReason (hopMsg true 64) = some 1
    ∧ sAdm.resvReason (hopMsg false 7) = none := by
  refine ⟨?_, ?_, ?_⟩ <;> unfold State.resvReason hopSlots <;> rw [hopMsg_rec]
  · obtain ⟨-, -, h3, h4, h5, h6⟩ := hop_fields true
    simp only [h3, h4, h5, h6, sAdm_ring.2.2.2.1]
    decide +kernel
  · obtain ⟨-, -, h3, h4, h5, h6⟩ := hop_fields true
    simp only [h3, h4, h5, h6, sAdm_ring.2.2.2.1]
    decide +kernel
  · obtain ⟨-, -, h3, h4, h5, h6⟩ := hop_fields false
    simp only [h3, h4, h5, h6, sAdm_ring.2.2.2.1]
    decide +kernel
/-- Slice 4 of cluster 3 of package 9 on its way through, or one of context 1 at its origin. -/
def slice0 (ctx : Option Nat) (owned : Bool) : Slice :=
  { opkg := 9, oinst := 3, id := 4, ctx := ctx, hop := 1, slots := [], owned := owned, since := 0, inLink := some 0, outLink := some 0 }
def msgResv : ResvMsg := { resv0 with opkg := 9, oinst := 3, slice := 4 }
def sSlice (x : Slice) (op : Nat := 0) : State :=
  asks 1 op { sAdm with slices := [x], tb := { now := 70000 }, fw := { sAdm.fw with slices := [(4, req 1 0x11, change0 [])] } }
theorem wit_SlicesReserveAndRelease_known : ((sSlice (slice0 none false)).linkOn 0 && !(sSlice (slice0 none false)).fwBusy
      && (sSlice (slice0 none false)).sliceAt msgResv false 0 == some (slice0 none false)
      && (sSlice (slice0 none false)).sliceAt msgResv true 0 == some (slice0 none false)
      && (sSlice (slice0 (some 1) false)).sliceAt msgResv true 0 == some (slice0 (some 1) false)) = true
    ∧ ((sSlice (slice0 (some 1) false)).fw.slices.find? fun p => p.1 = 4) = some (4, req 1 0x11, change0 [])
    ∧ ((sSlice (slice0 (some 1) false)).slices.find? fun x => x.opkg = 9 && x.oinst = 3 && x.id = 4 && !x.owned
        && elapsed (sSlice (slice0 (some 1) false)).tb.now x.since 65536) = some (slice0 (some 1) false)
    ∧ ((sSlice (slice0 none false)).slices.find? fun x => x.opkg = 9 && x.oinst = 3 && x.id = 4 && !x.owned
        && elapsed (sSlice (slice0 none false)).tb.now x.since 65536) = some (slice0 none false)
    ∧ (sSlice (slice0 (some 1) true) 0x40).serving 0x40 = some (req 1 0x40)
    ∧ (sSlice (slice0 (some 1) true) 0x40).mayName (req 1 0x40) 1 = true
    ∧ ((sSlice (slice0 (some 1) true) 0x40).slices.find? fun x => x.ctx = some 1 && x.id = 4 && x.owned)
        = some (slice0 (some 1) true) := by decide +kernel
/-- The slice's RESV_REQ comes back to this cluster's hop while the slice still waits, having passed it. -/
theorem wit_SlicesReserveAndRelease_twice : ∃ (s : State) (x : Slice), s.linkOn 0 = true ∧ s.fwBusy = false
    ∧ s.sliceAt (hopMsg true 7) false 0 = some x ∧ (hopMsg true 7).hop ∈ x.passed :=
  ⟨sSlice { slice0 none false with passed := [(hopMsg true 7).hop] }, { slice0 none false with passed := [(hopMsg true 7).hop] },
    by decide +kernel, by decide +kernel, by
      have h : (hopMsg true 7).hop = 0 := rfl
      decide +kernel, by decide +kernel⟩
theorem wit_SlicesReserveAndRelease_expiry : (slice0 none false).inLink = some 0 ∧ (slice0 none false).ctx = none
    ∧ (sSlice (slice0 none false)).fwBusy = false ∧ (slice0 (some 1) true).outLink = some 0 := by decide +kernel
theorem test_resvAck : goes (exec (.resvAck 0 msgResv) (sSlice (slice0 none false))) (fun t => t.slices == [slice0 none true]) = true := by
  decide +kernel
theorem test_resvNak : goes (exec (.resvNak 0 msgResv) (sSlice (slice0 (some 1) false))) (fun t => t.slices == []
    && t.reg Fd.mbRepStatusValid 1 == 1) = true := by decide +kernel

theorem wit_FencesContainErrors : opened.takes .firmware = true ∧ opened.accessKind .firmware 0x9044 4 true = none
    ∧ bit (3 : Word).toNat 0 = true ∧ opened.fenced 0 = false ∧ sKill.alive = true ∧ (sKill.ctx 1).prot = .admitted
    ∧ (sKill.entry 3).st ≠ .free ∧ (sKill.ctx (sKill.entry 3).ctx).prot = .admitted ∧ (sKill.ctx 1).run = .running
    ∧ (sKill.ctx 1).caravan.isSome = true ∧ sKill.fwState ≠ 0 := by decide +kernel
theorem wit_FencesContainErrors_inv : opened.Inv ∧ sKill.Inv := ⟨inv_of (by decide +kernel), inv_of (by decide +kernel)⟩
theorem test_fence : goes (exec (.fence .firmware 1) opened) (fun t => t.fenced 0 && t.coreInc 0 == 1 && t.coreInc 1 == 0) = true := by
  decide +kernel
theorem test_objError : goes (exec (.stateEccError (.object (.hubSem 0))) sKill) (fun t => (t.sem (hubSemKey 0)).gone) = true := by
  decide +kernel

end Sys2Proof.Tests
end

section
/-! PROOFS. What the shared operations of a register row leave behind, each said once, and the mailbox exchange built on
them (R368, R370). -/

namespace Sys2Proof.Machine

open Sys2Proof.Said

/-! ### The state after a shared operation -/

section

variable {s0 : State} (t : { t : State // Reach s0 t })

@[simp] theorem setReg_state (f : Fld) (c v : Nat) : ((setReg f c v : M s0 Unit) t).2.val = (Eff.reg f c v).apply t.val := rfl

@[simp] theorem modPair_state (n : Nat) (g : Pair → Pair) :
    ((modPair n g : M s0 Unit) t).2.val = (Eff.pair n (g (t.val.pair n))).apply t.val := rfl

@[simp] theorem respond_state (d : Nat) (e : Bool) :
    ((respond d e : M s0 Unit) t).2.val = { t.val with hostResp := answer d e } := rfl

@[simp] theorem hpErr_state (k h a : Nat) : ((hpErr k h a : M s0 Unit) t).2.val = hostError k h a t.val := rfl

/-- A write that breaks no rule carries out its row's body and is answered without an error (R365). -/
theorem rowWrite_state {r : Requester} {a : Nat} (body : M s0 Unit) (h : t.val.accessKind r a 4 true = none) :
    ((rowWrite r a body : M s0 Unit) t).2.val = { (body t).2.val with hostResp := answer 0 false } := by
  simp [rowWrite, access, h]

end

/-- An event that can happen ends in the state that its meaning leaves. -/
theorem runIf_of {c : Bool} {s : State} (hc : c = true) (m : M s Unit) : runIf c s m = .next (m ⟨s, .refl⟩).2.val := by
  rw [hc, runIf_true, run_eq]

/-- A row that a requester's write of a register makes, where the access can be made and breaks no rule. -/
theorem runIf_rowWrite {s : State} {r : Requester} {a : Nat} (body : M s Unit) (ht : s.takes r = true)
    (ha : s.accessKind r a 4 true = none) :
    runIf (s.takes r) s (rowWrite r a body) = .next { (body ⟨s, .refl⟩).2.val with hostResp := answer 0 false } := by
  rw [runIf_of ht, rowWrite_state ⟨s, .refl⟩ body ha]

/-! ### The three rows of the exchange -/

variable {s : State} {h : Fin 16} {p : Fin 8}

/-- MAILBOX_RING while a request stands taken is a mailbox error of its host, and nothing else (R368). -/
theorem mailboxRing_taken (ht : s.takes (.host h) = true) (ha : s.accessKind (.host h) (0x1078 + 256 * p) 4 true = none)
    (hp : s.answers p h = true) (hk : s.reg Fd.mbStatusTaken p = 1) :
    exec (.mailboxRing h p) s = .next { hostError 5 h.val (0x1078 + 256 * p) s with hostResp := answer 0 false } := by
  refine (runIf_rowWrite _ ht ha).trans ?_
  simp [hp, hk]

/-- MAILBOX_RING with no request taken takes one: the pair is rung at this grain (R368). -/
theorem mailboxRing_free (ht : s.takes (.host h) = true) (ha : s.accessKind (.host h) (0x1078 + 256 * p) 4 true = none)
    (hp : s.answers p h = true) (hk : s.reg Fd.mbStatusTaken p ≠ 1) :
    exec (.mailboxRing h p) s = .next
      { (Eff.pair p { s.pair p with rung := some s.tb.now }).apply ((Eff.reg Fd.mbStatusTaken p 1).apply s) with
        hostResp := answer 0 false } := by
  refine (runIf_rowWrite _ ht ha).trans ?_
  simp [hp, hk]

/-- REPLY_ACK of a valid reply clears VALID and TAKEN (R368). -/
theorem replyAck_valid (ht : s.takes (.host h) = true) (ha : s.accessKind (.host h) (0x10FC + 256 * p) 4 true = none)
    (hp : s.answers p h = true) (hv : s.reg Fd.mbRepStatusValid p = 1) :
    exec (.replyAck h p) s = .next
      { (Eff.reg Fd.mbStatusTaken p 0).apply ((Eff.reg Fd.mbRepStatusValid p 0).apply s) with
        hostResp := answer 0 false } := by
  refine (runIf_rowWrite _ ht ha).trans ?_
  simp [hp, hv]

/-- REPLY_DISCARD of a reply that has waited out its 2^20 grains clears VALID and TAKEN and counts with kind 6, for the
host source and the reply's status register of the pair (R370). -/
theorem replyDiscard_due (hs : s.alive = true) (hv : s.reg Fd.mbRepStatusValid p = 1)
    (hd : elapsed s.tb.now (s.pair p).validAt (2 ^ 20) = true) :
    exec (.replyDiscard p) s = .next (hostError 6 (s.pair p).hsrc (0x10F8 + 256 * p)
      ((Eff.reg Fd.mbStatusTaken p 0).apply ((Eff.reg Fd.mbRepStatusValid p 0).apply s))) := by
  refine (runIf_of (by simp only [hs, hv, hd, decide_true, Bool.and_self]) _).trans ?_
  simp

/-- Settles O18: each row's next state, RING by whether a request stands taken. -/
theorem ringAckAndDiscard : Obligations.RingAckAndDiscard := by
  intro h p s ht
  refine ⟨fun ha hp => ?_, fun ha hp hv => replyAck_valid ht ha hp hv, fun hv hd => ⟨_, _, replyDiscard_due ht hv hd⟩⟩
  by_cases hk : s.reg Fd.mbStatusTaken p = 1
  · rw [if_pos hk]
    exact mailboxRing_taken ht ha hp hk
  · rw [if_neg hk]
    exact mailboxRing_free ht ha hp hk

end Sys2Proof.Machine
end

section
/-! PROOFS. The clock step: what each of its sources' rows leaves behind, the largest source, and the mask of CLK_STATUS.SRC
(R427 to R430). -/

namespace Sys2Proof.Machine

/-! ### Frames without the invariant -/

section

variable {may : Part → Prop} {s t : State}

theorem SameBut.refl (may : Part → Prop) (s : State) : SameBut may s s := fun p _ => p.same_refl s

/-- Writing a register field that the frame names. -/
theorem SameBut.reg (f : Fld) (c v : Nat) (hm : may (.reg (f.key c))) (h : SameBut may s t) :
    SameBut may s ((Eff.reg f c v).apply t) := by
  intro p hp
  refine p.same_trans (h p hp) ?_
  cases p with
  | reg k => exact fun d => (tabGet_tabSet_ne d t.regs _ fun hk : k = f.key c => hp (hk ▸ hm)).symm
  | core n c => exact c.same_refl _
  | groups => exact ⟨rfl, rfl⟩
  | split => exact ⟨rfl, rfl⟩
  | _ => rfl

/-- Writing the power state where the frame names it. -/
theorem SameBut.pw (v : Power) (hm : may .pw) (h : SameBut may s t) : SameBut may s ((Eff.pw v).apply t) := by
  intro p hp
  refine p.same_trans (h p hp) ?_
  cases p with
  | pw => exact absurd hm hp
  | reg k => exact fun _ => rfl
  | core n c => exact c.same_refl _
  | groups => exact ⟨rfl, rfl⟩
  | split => exact ⟨rfl, rfl⟩
  | _ => rfl

end

/-! ### Words of one bit per unit -/

theorem maskOf_zero (p : Nat → Bool) : maskOf 0 p = 0 := rfl

theorem maskOf_succ (k : Nat) (p : Nat → Bool) : maskOf (k + 1) p = maskOf k p + 2 ^ k * b2n (p k) := by
  rw [maskOf, List.range_succ, List.foldl_append]
  change (if p k then maskOf k p + 2 ^ k else maskOf k p) = _
  cases p k <;> simp [b2n]

theorem maskOf_lt (k : Nat) (p : Nat → Bool) : maskOf k p < 2 ^ k := by
  induction k with
  | zero => exact Nat.one_pos
  | succ k ih =>
    have hb : b2n (p k) ≤ 1 := by cases p k <;> decide
    have hm : 2 ^ k * b2n (p k) ≤ 2 ^ k * 1 := Nat.mul_le_mul_left _ hb
    rw [maskOf_succ, Nat.pow_succ]
    omega

/-! ### The sources' rows -/

variable {s : State}

/-- PCAP_STEP takes the package's step (R427). -/
theorem pcapStep_alive (hs : s.alive = true) (k : Fin 8) :
    exec (.pcapStep k) s = .next { s with pw := { s.pw with pcap := k.val } } :=
  runIf_of hs _

/-- A droop where no episode runs is counted, by DROOP_CNT and the health monitor (R428). -/
theorem droopEvent_starts (hs : s.alive = true) (hd : s.pw.droop = 0) :
    exec .droopEvent s = .next
      { (Eff.reg Fd.droopCntEvents 0 (min Fd.droopCntEvents.max (s.reg Fd.droopCntEvents + 1))).apply s with
        health := { s.health with droop := s.health.droop + 1 }, pw := { s.pw with droop := 4, vddcOk := none } } := by
  refine (runIf_of hs _).trans ?_
  rw [if_pos hd]
  rfl

/-- A droop in a running episode only extends it (R428). -/
theorem droopEvent_extends (hs : s.alive = true) (hd : s.pw.droop ≠ 0) :
    exec .droopEvent s = .next { s with pw := { s.pw with droop := 4, vddcOk := none } } := by
  refine (runIf_of hs _).trans ?_
  rw [if_neg hd]
  rfl

/-- Where HOLD grains have passed and a lower step is due, the droop step falls to it (R428). -/
theorem droopStepDown_due (hs : s.alive = true) {above : BitVec 48} (hd : s.pw.droop ≠ 0)
    (hr : reached s.tb.now (grainAdd above.toNat s.droopHold) = true)
    (hlt : 4 - min 4 (grainSub s.tb.now (grainAdd above.toNat s.droopHold) + 1) < s.pw.droop) :
    exec (.droopStepDown above) s = .next { s with pw := { s.pw with
      droop := 4 - min 4 (grainSub s.tb.now (grainAdd above.toNat s.droopHold) + 1), vddcOk := some above.toNat } } :=
  runIf_of (by simp only [hs, bne_iff_ne.mpr hd, hr, hlt, decide_true, Bool.and_self]) _

/-- Before HOLD grains have passed nothing happens (R428). -/
theorem droopStepDown_early {above : BitVec 48} (hr : reached s.tb.now (grainAdd above.toNat s.droopHold) = false) :
    exec (.droopStepDown above) s = .next s := by
  change runIf _ s _ = _
  rw [hr, Bool.and_false, Bool.false_and, runIf_false]

/-- s after the hottest sensor has read tj: THERM.TJ and THERM.TJ_MAX hold it, and the thermal step follows it. -/
def State.afterThermal (s : State) (tj : Nat) : State :=
  (Eff.pw { s.pw with therm := thermStep s.thermLimit tj s.pw.therm, thermAt := s.tb.now, thermTrip := 115 ≤ tj }).apply <|
    (Eff.reg Fd.thermTjMax 0 (max (s.reg Fd.thermTjMax) (min 255 tj))).apply <|
      (Eff.reg Fd.thermTj 0 (min 255 tj)).apply s

/-- THERMAL_STEP where 256 grains have passed since the last one (R429). -/
theorem thermalStep_due (hs : s.alive = true) {tj : Nat} (he : elapsed s.tb.now s.pw.thermAt 256 = true) :
    exec (.thermalStep tj) s = .next (s.afterThermal tj) :=
  runIf_of (by simp only [hs, he, Bool.and_self]) _

theorem afterThermal_thermTj (s : State) (tj : Nat) : (s.afterThermal tj).reg Fd.thermTj = min 255 tj := by
  have hk : Fd.thermTj.key 0 ≠ Fd.thermTjMax.key 0 := by decide
  rw [State.afterThermal, Eff.pw_get_reg, Eff.reg_get_ne _ _ _ _ _ _ hk, Eff.reg_get_same]
  exact Nat.mod_eq_of_lt (Nat.lt_of_le_of_lt (Nat.min_le_left ..) (by decide))

theorem afterThermal_sameBut (s : State) (tj : Nat) :
    SameBut (fun p => p = .pw ∨ p = .reg (Fd.thermTj.key 0) ∨ p = .reg (Fd.thermTjMax.key 0)) s (s.afterThermal tj) :=
  (((SameBut.refl _ s).reg Fd.thermTj 0 _ (.inr (.inl rfl))).reg Fd.thermTjMax 0 _ (.inr (.inr rfl))).pw _ (.inl rfl)

/-- GOVERNOR_UPDATE shows the grain's power and moves the bucket and the governor's step (R430). -/
theorem governorUpdate_alive (hs : s.alive = true) (d l : Nat) :
    exec (.governorUpdate d l) s = .next
      { (Eff.reg Fd.pwrEstPower 0 (d + l)).apply s with pw := { s.pw with
          bucket := s.bucketAfter (d + l), gov := s.govAfter d l,
          govAt := if s.govAfter d l = s.pw.gov then s.pw.govAt else s.tb.now } } :=
  runIf_of hs _

/-! ### The step in force -/

/-- The step in force is the largest of its five sources (R427). -/
theorem clkStep_eq_max (s : State) : s.clkStep = max s.pw.therm (max s.pw.droop (max s.pw.gov (max (min 4 s.pw.pcap)
    (min 4 (s.reg Fd.clkCtrlLimit))))) := by
  simp only [State.clkStep, State.clkSources, List.foldl_cons, List.foldl_nil, Nat.zero_max, Nat.max_assoc]

/-- CLK_STATUS.SRC shows the mask of the sources that equal the step in force, in the order of clkSources (R427). -/
theorem shown_clkStatusSrc (s : State) (q ch : Nat) :
    s.shown q 0x8010 ch Fd.clkStatusSrc = maskOf 5 fun i => s.clkSources.getD i 9 = s.clkStep := by
  have hf : (s.view q 0x8010 ch).find? (fun p => p.1 = Fd.clkStatusSrc)
      = some (Fd.clkStatusSrc, maskOf 5 fun i => s.clkSources.getD i 9 = s.clkStep) := rfl
  have ha : Fd.clkStatusSrc.acc ≠ .wo := by decide
  have hlt : (maskOf 5 fun i => s.clkSources.getD i 9 = s.clkStep) < 2 ^ Fd.clkStatusSrc.width := maskOf_lt 5 _
  rw [State.shown, if_neg ha, hf]
  exact Nat.mod_eq_of_lt hlt

/-- Settles O12: each source's row, then the largest source and its mask. -/
theorem clockStepsFollowTheirSources : Obligations.ClockStepsFollowTheirSources := by
  refine ⟨fun s hs => ⟨pcapStep_alive hs, ?_, fun above => droopStepDown_due hs, fun above => droopStepDown_early,
    fun tj he => ⟨s.afterThermal tj, thermalStep_due hs he, rfl, afterThermal_thermTj s tj, afterThermal_sameBut s tj⟩,
    governorUpdate_alive hs⟩, fun s => ⟨clkStep_eq_max s, fun q => ?_⟩⟩
  · by_cases hd : s.pw.droop = 0
    · rw [if_pos hd]
      exact droopEvent_starts hs hd
    · rw [if_neg hd]
      exact droopEvent_extends hs hd
  · rw [shown_clkStatusSrc]
    simp [maskOf_succ, maskOf_zero, State.clkSources]

end Sys2Proof.Machine
end
